-- ==== Sys2Proof/Word.lean ====
section
/-! DEFINITION. The index and value types of the ZM-3224 (spec/00_scope.md, CONVENTIONS). -/

namespace Sys2Proof

/-- An octet of a frame; also a station address (spec/10). -/
abbrev Byte := BitVec 8

/-- A reference index, 0 to 31. -/
abbrev RefIx := Fin 32

/-- A shelf index, 0 to 23. -/
abbrev ShelfIx := Fin 24

/-- An alignment engine's number, 0 to 3. -/
abbrev EngineIx := Fin 4

/-- A quality rank, 0 (best) to 15 (UNUSABLE): R41. -/
abbrev Rank := Fin 16

/-- A code of a dialect, 0 to 15: R42. -/
abbrev Code := Fin 16

/-- A usable rank, 0 to 14, as a shelf's floor and its three configured ranks are: R85. -/
abbrev UsableRank := Fin 15

/-- Rank 15, UNUSABLE: R41. -/
abbrev Rank.unusable : Rank := 15

/-- A timer of the part: `none` while stopped, `some t` while it runs with `t` MCLK ticks remaining. -/
abbrev Timer := Option Nat

/-- The broadcast address FFh, and the FFh that stands for an absent index: spec/10. -/
abbrev Byte.all : Byte := 0xFF#8

end Sys2Proof
end

