-- ==== Sys2Proof/Syntax.lean ====
section
/-! DEFINITION. The commands: one constructor for each row of spec/opcode_table.json, in the table's order.

The table's rows carry no operands; each operand is read from the row's rule (log entry 5). A request row carries the
SRC of its REQ frame, its tag and its argument octets (spec/10), so that every refusal of R171 can be asked for. -/

namespace Sys2Proof

/-- A command: one step of the part (spec/95). -/
inductive Instr where
  /-- FRAME_ARRIVAL, R26: 16 bit times of high have passed after a stop bit. -/
  | frameArrival
  /-- FRAME_TAKE, R29: the Frame Handler takes the head of the Receive Queue. -/
  | frameTake
  /-- TRANSMISSION_START, R36: the idle has passed and the arbiter serves a queue. -/
  | transmissionStart
  /-- COMPARISON_PULSE, R10: `cycles` cycles of RI`r` come in over `ticks` MCLK ticks; at the rate class's divisor
  they make one comparison pulse (R1). -/
  | comparisonPulse (r : RefIx) (cycles ticks : Nat)
  /-- ACTIVITY_WATCH_EXPIRY, R8. -/
  | activityWatchExpiry (r : RefIx)
  /-- HOLD_OFF_EXPIRY, R69. -/
  | holdOffExpiry (r : RefIx)
  /-- RESTORE_WAIT_EXPIRY, R72. -/
  | restoreWaitExpiry (r : RefIx)
  /-- DECAY_EXPIRY, R75. -/
  | decayExpiry (r : RefIx)
  /-- ANNOUNCEMENT_TIMER_EXPIRY, R53. -/
  | announcementTimerExpiry (r : RefIx)
  /-- SETTLE_TIMER_EXPIRY, R118. -/
  | settleTimerExpiry (sh : ShelfIx)
  /-- ENGINE_DONE, R136: the report of engine `e` that arose under the grant numbered `grant` (R138). -/
  | engineDone (e : EngineIx) (grant : Nat)
  /-- ALIGNMENT_LIMIT_EXPIRY, R137: the expiry of engine `e`'s timer as started by the grant `grant` (R138). -/
  | alignmentLimitExpiry (e : EngineIx) (grant : Nat)
  /-- HOLDOVER_PHASE_EXPIRY, R145. -/
  | holdoverPhaseExpiry (sh : ShelfIx)
  /-- REFRESH_EXPIRY, R164. -/
  | refreshExpiry
  /-- ROLE_FALLING_EDGE, R147. -/
  | roleFallingEdge
  /-- RESET_ASSERT, R179. -/
  | resetAssert
  /-- RESET_RELEASE, R180, with the levels of the straps ADDR5 to ADDR0. -/
  | resetRelease (straps : BitVec 6)
  /-- UNKNOWN_REQUEST_CODE, R171: a REQ whose payload is shorter than two octets or names no request. -/
  | unknownRequestCode (src : Byte) (payload : List Byte)
  /-- RD_REF, R173. -/
  | rdRef (src tag : Byte) (args : List Byte)
  /-- RD_SHELF, R173. -/
  | rdShelf (src tag : Byte) (args : List Byte)
  /-- RD_XLATE, R173. -/
  | rdXlate (src tag : Byte) (args : List Byte)
  /-- RD_GLOBAL, R173. -/
  | rdGlobal (src tag : Byte) (args : List Byte)
  /-- RD_COUNT, R173. -/
  | rdCount (src tag : Byte) (args : List Byte)
  /-- WR_REF, R62. -/
  | wrRef (src tag : Byte) (args : List Byte)
  /-- WR_SHELF, R86. -/
  | wrShelf (src tag : Byte) (args : List Byte)
  /-- WR_CAND, R92. -/
  | wrCand (src tag : Byte) (args : List Byte)
  /-- WR_XLATE, R45. -/
  | wrXlate (src tag : Byte) (args : List Byte)
  /-- WR_GLOBAL, R172. -/
  | wrGlobal (src tag : Byte) (args : List Byte)
  /-- REF_ON, R65. -/
  | refOn (src tag : Byte) (args : List Byte)
  /-- REF_OFF, R66. -/
  | refOff (src tag : Byte) (args : List Byte)
  /-- SHELF_ON, R94. -/
  | shelfOn (src tag : Byte) (args : List Byte)
  /-- SHELF_OFF, R95. -/
  | shelfOff (src tag : Byte) (args : List Byte)
  /-- CMD_CLEAR, R97: CMD with kind 0. -/
  | cmdClear (src tag shelf ref : Byte)
  /-- CMD_MANUAL, R97: CMD with kind 1. -/
  | cmdManual (src tag shelf ref : Byte)
  /-- CMD_FORCED, R97: CMD with kind 2. -/
  | cmdForced (src tag shelf ref : Byte)
  /-- CMD_HOLD, R97: CMD with kind 3. -/
  | cmdHold (src tag shelf ref : Byte)
  /-- LOCK, R93. -/
  | lock (src tag : Byte) (args : List Byte)
  /-- CLR_WTR, R74. -/
  | clrWtr (src tag : Byte) (args : List Byte)
  /-- ACK, R175. -/
  | ack (src tag : Byte) (args : List Byte)
  /-- CLR_COUNT, R174. -/
  | clrCount (src tag : Byte) (args : List Byte)
  /-- RESTART, R177. -/
  | restart (src tag : Byte) (args : List Byte)
  /-- TAKE_ROLE, R148. -/
  | takeRole (src tag : Byte) (args : List Byte)
  /-- YIELD_ROLE, R147. -/
  | yieldRole (src tag : Byte) (args : List Byte)
  /-- ROLE_RISING_EDGE, R147. -/
  | roleRisingEdge
  /-- RECEIVER_READY, R25: the levels of STI at consecutive bit times, oldest first. -/
  | receiverReady (levels : List Bool)
  /-- OCTET_TAKEN, R25: one octet of ten bit times, its data and its stop bit. -/
  | octetTaken (octet : Byte) (stop : Bool)
  /-- TRANSMISSION_END, R36. -/
  | transmissionEnd
  deriving DecidableEq, Repr

end Sys2Proof
end

