-- ==== Sys2Proof/Decode.lean ====
section
/-! DEFINITION. No row of spec/opcode_table.json gives a command any bits, so no word spells a command. The octets of a
request are read by the Management Unit (Machine/Operands.lean), not here. -/

namespace Sys2Proof

/-- The command the word `w` of `nbits` bits spells by the table's bits: none, for the table gives no bits. -/
def decodeTableWord (_nbits _w : Nat) : Option Instr := none

end Sys2Proof
end

