-- ==== Sys2Proof/Config.lean ====
section
/-! DEFINITION. What the part fixes for every run: capacities and the two widths the state's own types need.
The spec leaves no value of a result open, so this file declares no free value. -/

namespace Sys2Proof.Config

/-- MCLK ticks in one millisecond: R7 (the 1 ms of the activity watch is 250,000 MCLK ticks). -/
abbrev ticksPerMs : Nat := 250000

/-- MCLK ticks in one second. DEDUCED from R7 (log entry 3). -/
abbrev ticksPerSecond : Nat := 250000000

/-- Receive Queue and Relay Queue capacity: R27. -/
abbrev rxCapacity : Nat := 16

/-- Relay Queue capacity: R27. -/
abbrev relayCapacity : Nat := 16

/-- Insert Queue capacity, reserved entries counted: R27. -/
abbrev insertCapacity : Nat := 32

/-- The most payload octets a frame may have: R26, spec/10. -/
abbrev maxPayload : Nat := 88

/-- Bit times of idle-high that part two frames: R25, R36. -/
abbrev idleBits : Nat := 16

/-- MCLK ticks in one bit time of STI and STO: R25. -/
abbrev bitTicks : Nat := 20

/-- MCLK ticks in the closing idle: R25, R36 (16 bit times). -/
abbrev idleTicks : Nat := 320

end Sys2Proof.Config
end

