-- ==== Sys2Proof/Machine/State.lean ====
section
/-! DEFINITION. Everything the spec gives the part to hold, as plain data, and the state right after reset.
Times are MCLK ticks. -/

namespace Sys2Proof.Machine

/-! ### Reference records -/

/-- R60: where a reference's quality comes from. -/
inductive Kind where | announced | fixed | derived
  deriving DecidableEq, Repr

/-- R11, R60: the gate sizes of 800, 8,000 and 80,000 pulses. -/
inductive Gate where | g800 | g8000 | g80000
  deriving DecidableEq, Repr

/-- R60: the shelf and port at which an announced reference enters the node. -/
structure OriginLine where
  shelf : ShelfIx
  port : Fin 64
  deriving DecidableEq, Repr

/-- The configuration fields of one reference record: R60. -/
structure RefConfig where
  kind : Kind
  rate : Fin 8
  gate : Gate
  depth : Fin 8
  /-- A, ppb -/
  accept : Nat
  /-- J, ppb -/
  reject : Nat
  /-- H, ppb; 0 is off -/
  hit : Nat
  /-- in steps of 10 ms -/
  holdOff : Nat
  /-- in seconds -/
  restoreBase : Nat
  overrideRank : Option Rank
  fixedRank : Rank
  source : Option ShelfIx
  /-- 0 is none -/
  announcer : Byte
  origin : Option OriginLine
  deriving DecidableEq, Repr

/-- R3 -/
inductive RunState where | idle | running
  deriving DecidableEq, Repr

/-- R3 -/
inductive Signal where | present | lost
  deriving DecidableEq, Repr

/-- R3 -/
inductive GateState where | closed | opened
  deriving DecidableEq, Repr

/-- R3, R19 -/
inductive Qualification where | unmeasured | inside | outside
  deriving DecidableEq, Repr

/-- R3, R21 -/
inductive Verdict where | good | fail
  deriving DecidableEq, Repr

/-- One monitor of the Frequency Monitor (R3) with its prescaler's count (R2). -/
structure Monitor where
  prescaler : Nat
  run : RunState
  signal : Signal
  watch : Timer
  gate : GateState
  settling : Bool
  pulses : Nat
  ticks : Nat
  last : Option Int
  filtered : Option Int
  qual : Qualification
  hits : Nat
  verdict : Verdict
  deriving DecidableEq, Repr

/-- R63 -/
inductive RefState where | disabled | starting | active | holdoff | failed | restoring
  deriving DecidableEq, Repr

/-- The five latches of a reference: R78. -/
structure RefLatches where
  los : Bool
  freq : Bool
  hit : Bool
  timeout : Bool
  fail : Bool
  deriving DecidableEq, Repr

/-- The dynamic fields of one reference record: R63. -/
structure RefDynamic where
  state : RefState
  holdOffTimer : Timer
  restoreTimer : Timer
  decayTimer : Timer
  flap : Fin 4
  latches : RefLatches
  deriving DecidableEq, Repr

/-- R47 -/
inductive Source where | none | announced | withdrawn | timedOut
  deriving DecidableEq, Repr

/-- What the Quality Translator holds for one reference: R47, R52. -/
structure Quality where
  received : Rank
  source : Source
  timer : Timer
  deriving DecidableEq, Repr

/-- One reference: its record, its monitor and its received rank. -/
structure Reference where
  cfg : RefConfig
  mon : Monitor
  rt : RefDynamic
  qt : Quality
  deriving DecidableEq, Repr

/-! ### Shelf records -/

/-- R85 -/
inductive Mode where | nonRevertive | revertive
  deriving DecidableEq, Repr

/-- R85, R111 -/
inductive Window where | short | medium | long
  deriving DecidableEq, Repr

/-- R42 -/
inductive Dialect where | one | two
  deriving DecidableEq, Repr

/-- The configuration fields of one shelf record: R85. -/
structure ShelfConfig where
  mode : Mode
  floor : UsableRank
  window : Window
  dialect : Dialect
  holdoverRank : UsableRank
  degradedRank : UsableRank
  freeRank : UsableRank
  /-- seconds -/
  phaseA : BitVec 16
  /-- seconds -/
  phaseB : BitVec 16
  deriving DecidableEq, Repr

/-- One entry of a candidate list: R90. -/
structure Candidate where
  ref : RefIx
  prio : Fin 16
  lockout : Bool
  deriving DecidableEq, Repr

/-- R96 -/
inductive Command where | none | manual (r : RefIx) | forced (r : RefIx) | hold
  deriving DecidableEq, Repr

/-- R107 -/
inductive Basis where | forced | automatic
  deriving DecidableEq, Repr

/-- R144 -/
inductive Stage where | inSpec | degraded | expired
  deriving DecidableEq, Repr

/-- The state of a shelf with what R88 says is present in it: a current reference `c`, a target `t` and its basis, a
holdover stage and the holdover timer. -/
inductive ShelfState where
  | off
  | free
  | locked (c : RefIx)
  | waiting (c t : RefIx) (b : Basis)
  | aligning (c t : RefIx) (b : Basis)
  | holdover (stage : Stage) (timer : Timer)
  deriving DecidableEq, Repr

/-- The selection condition of a shelf, which is its dirty flag and its settle timer together: R103. -/
inductive Selection where | clean | settling (remaining : Nat) | deferred
  deriving DecidableEq, Repr

/-- The state class an SQ reports: R161. -/
inductive StateClass where | off | free | locked | switching | holdover
  deriving DecidableEq, Repr

/-- The five values an SQ conveys: R161. -/
structure Report where
  code : Code
  rank : Rank
  cls : StateClass
  squelch : Option OriginLine
  root : Option RefIx
  deriving DecidableEq, Repr

/-- The four latches of a shelf: R99. -/
structure ShelfLatches where
  holdover : Bool
  hard : Bool
  loop : Bool
  abandon : Bool
  deriving DecidableEq, Repr

/-- One shelf, with the fields other blocks keep for it (R87) and its two edge slots (R151). -/
structure Shelf where
  cfg : ShelfConfig
  list : List Candidate
  command : Command
  state : ShelfState
  sel : Selection
  route : Option RefIx
  curEdge : Option ShelfIx
  pendEdge : Option ShelfIx
  lastReport : Option Report
  latches : ShelfLatches
  loopBit : Bool
  deriving DecidableEq, Repr

/-! ### The ring port -/

/-- A frame as a queue holds it: LEN is the payload's length, and CHECK is computed when it is sent (R33, R36). -/
structure Frame where
  dest : Byte
  src : Byte
  type : Byte
  ttl : Byte
  payload : List Byte
  deriving DecidableEq, Repr

/-- An entry of the Insert Queue: R27, R30, R34. -/
inductive InsertEntry where
  | reserved
  | rep (f : Frame)
  | sq (sh : ShelfIx) (f : Frame)
  | sn (f : Frame)
  deriving DecidableEq, Repr

/-- The receiver on STI: R25. `octets` holds the octets stored so far, first one first. -/
inductive Receiver where
  | waitIdle (highs : Nat)
  | ready
  | inFrame (octets : List Byte) (count : Nat) (framingError : Bool)
  deriving DecidableEq, Repr

/-- R36 -/
inductive Marker where | relay | insert
  deriving DecidableEq, Repr

/-- The seven counters: R39. -/
structure Counters where
  rxDrop : BitVec 16
  check : BitVec 16
  format : BitVec 16
  relayDrop : BitVec 16
  ttlExp : BitVec 16
  entryRef : BitVec 16
  noticeLost : BitVec 16
  deriving DecidableEq, Repr

/-- What the Status Ring Port holds: R27, R36 to R39. -/
structure Ring where
  receiver : Receiver
  rxQ : List Frame
  relayQ : List Frame
  insertQ : List InsertEntry
  marker : Marker
  /-- the frame being sent on STO with its CHECK; `none` while STO is idle-high -/
  sending : Option (List Byte)
  /-- MCLK ticks of that frame still to send; 0 while STO is idle-high -/
  sendLeft : Nat
  /-- MCLK ticks of the closing idle still to pass; none is owed after a cold reset: the model's choice, log entry 10 -/
  idleLeft : Nat
  counters : Counters
  station : Byte
  hopLimit : Byte
  deriving DecidableEq, Repr

/-! ### Tables, engines, settings -/

/-- An in-entry: the rank is used only while the flag is set (R42). -/
structure InEntry where
  valid : Bool
  rank : Rank
  deriving DecidableEq, Repr

/-- The translation table of one dialect: R42. -/
structure XlateTable where
  inTable : Vector InEntry 16
  outTable : Vector Code 16
  deriving DecidableEq, Repr

/-- A held alignment engine: the shelf that holds it, the grant it is held under (R138) and its running timer (R131). -/
structure Hold where
  shelf : ShelfIx
  grant : Nat
  timer : Nat
  deriving DecidableEq, Repr

/-- R146 -/
inductive Drive where | driving | floating
  deriving DecidableEq, Repr

/-- The settings the Management Unit itself holds: R172 (the station address and the hop limit are the ring port's). -/
structure Globals where
  controller : Byte
  /-- seconds -/
  refreshInterval : Nat
  /-- seconds -/
  announceTimeout : Nat
  /-- milliseconds -/
  alignLimit : Nat
  deriving DecidableEq, Repr

end Sys2Proof.Machine

namespace Sys2Proof.Machine

/-- Why the part stops. The spec gives every command an effect and names no trap, so nothing raises a fault: the type
has no constructor, which is safe and unsafe to no claim. -/
inductive Fault where
  deriving DecidableEq, Repr

/-- Why a command has no meaning here. -/
inductive Refusal where
  /-- Raised by an arm of Dispatch.lean whose command has no meaning yet; no arm does. Safe: a claim about such a
  command could not be proved. -/
  | notModelled (mnemonic : String)
  deriving DecidableEq, Repr

/-- The whole part. -/
structure State where
  refs : Vector Reference 32
  shelves : Vector Shelf 24
  dialect1 : XlateTable
  dialect2 : XlateTable
  ring : Ring
  globals : Globals
  engines : Vector (Option Hold) 4
  alignQ : List ShelfIx
  /-- the number of the next grant: the model's own, log entry 6 -/
  grants : Nat
  drive : Drive
  refreshTimer : Timer
  /-- the level of ROLE: high is true -/
  role : Bool
  /-- the level of RESETn: high is true -/
  resetn : Bool
  /-- commands that wait, first in first out: the model's own, log entry 4 -/
  pending : List Instr
  deriving DecidableEq, Repr

/-! ### Cold-reset content -/

/-- R60, third column. -/
def RefConfig.cold : RefConfig :=
  { kind := .announced, rate := 0, gate := .g8000, depth := 3, accept := 4600, reject := 9200, hit := 0, holdOff := 30
    restoreBase := 300, overrideRank := none, fixedRank := 14, source := none, announcer := 0, origin := none }

/-- R3, last column; the prescaler is held cleared (R2). -/
def Monitor.idle : Monitor :=
  { prescaler := 0, run := .idle, signal := .present, watch := none, gate := .closed, settling := false, pulses := 0
    ticks := 0, last := none, filtered := none, qual := .unmeasured, hits := 0, verdict := .fail }

/-- Every latch of a reference clear. -/
def RefLatches.clear : RefLatches := { los := false, freq := false, hit := false, timeout := false, fail := false }

/-- R63, third column. -/
def RefDynamic.cold : RefDynamic :=
  { state := .disabled, holdOffTimer := none, restoreTimer := none, decayTimer := none, flap := 0
    latches := RefLatches.clear }

/-- R47: rank 15 with source NONE; R52: the timer stopped. -/
def Quality.cold : Quality := { received := Rank.unusable, source := .none, timer := none }

/-- A reference after cold reset. -/
def Reference.cold : Reference :=
  { cfg := RefConfig.cold, mon := Monitor.idle, rt := RefDynamic.cold, qt := Quality.cold }

/-- R85, third column. -/
def ShelfConfig.cold : ShelfConfig :=
  { mode := .nonRevertive, floor := 14, window := .long, dialect := .one, holdoverRank := 9, degradedRank := 12
    freeRank := 14, phaseA := 900, phaseB := 14400 }

/-- Every latch of a shelf clear. -/
def ShelfLatches.clear : ShelfLatches := { holdover := false, hard := false, loop := false, abandon := false }

/-- R85, R87, R90, R96, R103, R151, R161. -/
def Shelf.cold : Shelf :=
  { cfg := ShelfConfig.cold, list := [], command := .none, state := .off, sel := .clean, route := none, curEdge := none
    pendEdge := none, lastReport := none, latches := ShelfLatches.clear, loopBit := false }

/-- R42: every in-entry invalid, every out-code 15. DESIGN CHOICE (log entry 2): an invalid entry holds rank 0. -/
def XlateTable.cold : XlateTable :=
  { inTable := Vector.replicate 16 { valid := false, rank := 0 }, outTable := Vector.replicate 16 15 }

/-- R39 -/
def Counters.zero : Counters :=
  { rxDrop := 0, check := 0, format := 0, relayDrop := 0, ttlExp := 0, entryRef := 0, noticeLost := 0 }

/-- R37, R38, R40; the straps are sampled later (R180), so the address here is that of straps at 0. R36, R40, R179 and
R180 do not say whether the 16 bit times of idle are still owed after a cold reset, which may have cut a frame off: the
model takes them as passed (`idleLeft` 0), its own choice, log entry 10. -/
def Ring.cold : Ring :=
  { receiver := .waitIdle 0, rxQ := [], relayQ := [], insertQ := [], marker := .relay, sending := none, sendLeft := 0
    idleLeft := 0, counters := Counters.zero, station := 64, hopLimit := 16 }

/-- R170, R172. -/
def Globals.cold : Globals := { controller := 0, refreshInterval := 1, announceTimeout := 5, alignLimit := 10 }

/-- R179: the content the part holds while RESETn is low, with ROLE at `role`, the grants counted so far and the
commands that wait. -/
def State.cold (role : Bool) (grants : Nat) (pending : List Instr) : State :=
  { refs := Vector.replicate 32 Reference.cold, shelves := Vector.replicate 24 Shelf.cold, dialect1 := XlateTable.cold
    dialect2 := XlateTable.cold, ring := Ring.cold, globals := Globals.cold, engines := Vector.replicate 4 none
    alignQ := [], grants := grants, drive := .floating, refreshTimer := none, role := role, resetn := false
    pending := pending }

/-- The part right after the rising edge of RESETn: R180, from the content of R179. DESIGN CHOICE (log entry 1): the
straps stand at 0, so the station address is 64, and ROLE is low. -/
def State.reset : State :=
  { State.cold false 0 [] with refreshTimer := some Config.ticksPerSecond, resetn := true }

end Sys2Proof.Machine
end

