-- ==== Sys2Proof/Machine/Ops.lean ====
section
/-! DEFINITION. The named operations over the records, the timers, the ring port's queues and its counters. -/

namespace Sys2Proof.Machine

/-! ### Records -/

/-- Reference record `r`. -/
def State.ref (s : State) (r : RefIx) : Reference := s.refs[r]

/-- Shelf record `i`. -/
def State.shelf (s : State) (i : ShelfIx) : Shelf := s.shelves[i]

/-- `s` with reference record `r` replaced. -/
def State.setRef (s : State) (r : RefIx) (x : Reference) : State := { s with refs := s.refs.set r x }

/-- `s` with shelf record `i` replaced. -/
def State.setShelf (s : State) (i : ShelfIx) (x : Shelf) : State := { s with shelves := s.shelves.set i x }

/-- `s` with shelf record `i` changed by `f`. -/
def State.updShelf (s : State) (i : ShelfIx) (f : Shelf → Shelf) : State := s.setShelf i (f (s.shelf i))

/-- `s` with every shelf record changed by `f`. -/
def State.mapShelves (s : State) (f : ShelfIx → Shelf → Shelf) : State :=
  { s with shelves := Vector.ofFn fun i => f i (s.shelf i) }

/-- `s` with every reference record changed by `f`. -/
def State.mapRefs (s : State) (f : Reference → Reference) : State :=
  { s with refs := Vector.ofFn fun r => f (s.ref r) }

/-- `s` with the ring port changed by `f`. -/
def State.updRing (s : State) (f : Ring → Ring) : State := { s with ring := f s.ring }

/-- `s` with the ring port's counters changed by `f`. -/
def State.updCounters (s : State) (f : Counters → Counters) : State :=
  s.updRing fun g => { g with counters := f g.counters }

/-- Every shelf index, ascending: the order in which one event reaches the shelves (R114, R142, R149, R162). -/
def shelfIxs : List ShelfIx := List.finRange 24

/-- Every reference index, ascending. -/
def refIxs : List RefIx := List.finRange 32

/-! ### Fields of a shelf's state -/

/-- The current reference: R88. -/
def ShelfState.current : ShelfState → Option RefIx
  | .locked c => some c
  | .waiting c _ _ => some c
  | .aligning c _ _ => some c
  | .off => none
  | .free => none
  | .holdover _ _ => none

/-- The target reference: R88. -/
def ShelfState.target : ShelfState → Option RefIx
  | .waiting _ t _ => some t
  | .aligning _ t _ => some t
  | .off => none
  | .free => none
  | .locked _ => none
  | .holdover _ _ => none

/-- The switch basis, present in SWITCHING: R87, R107. -/
def ShelfState.basis : ShelfState → Option Basis
  | .waiting _ _ b => some b
  | .aligning _ _ b => some b
  | .off => none
  | .free => none
  | .locked _ => none
  | .holdover _ _ => none

/-- The holdover stage, present in HOLDOVER: R87. -/
def ShelfState.stage : ShelfState → Option Stage
  | .holdover g _ => some g
  | .off => none
  | .free => none
  | .locked _ => none
  | .waiting _ _ _ => none
  | .aligning _ _ _ => none

/-- The state without its sub-state or stage: R88, R161. -/
def ShelfState.cls : ShelfState → StateClass
  | .off => .off
  | .free => .free
  | .locked _ => .locked
  | .waiting _ _ _ => .switching
  | .aligning _ _ _ => .switching
  | .holdover _ _ => .holdover

/-- A shelf is enabled in every state but OFF: R88. -/
def Shelf.enabled (x : Shelf) : Bool := x.state.cls != .off

/-- A shelf is SWITCHING in either sub-state: R88. -/
def Shelf.switching (x : Shelf) : Bool := x.state.cls == .switching

/-- The candidate list holds an entry for `r`: R90. -/
def Shelf.names (x : Shelf) (r : RefIx) : Bool := x.list.any fun c => c.ref == r

/-- The candidate list holds an entry for `r` whose lockout is clear: R104, R105, test 1. -/
def Shelf.openTo (x : Shelf) (r : RefIx) : Bool := x.list.any fun c => c.ref == r && !c.lockout

/-! ### Timers -/

/-- A duration in milliseconds, in MCLK ticks (R7; log entry 3). -/
def msTicks (n : Nat) : Nat := n * Config.ticksPerMs

/-- A duration in seconds, in MCLK ticks. -/
def secTicks (n : Nat) : Nat := n * Config.ticksPerSecond

/-- A running timer loses `d` ticks and does not pass 0, where its expiry is due. -/
def Timer.elapse (d : Nat) (t : Timer) : Timer := t.map (· - d)

/-- The expiry of a timer is due: the timer runs and no time remains. A timer that has been stopped, or started again,
since its expiry came due has no expiry pending: R9, R53, R69, R76, R145. -/
def Timer.due (t : Timer) : Bool := t == some 0

/-- The time remaining, in milliseconds rounded up: R83, R102, R173. -/
def ceilMs (ticks : Nat) : Nat := (ticks + (Config.ticksPerMs - 1)) / Config.ticksPerMs

/-! ### Counters -/

/-- A counter rises by 1 and stays at 65,535: R39. -/
def bump (c : BitVec 16) : BitVec 16 := if c = 0xFFFF#16 then c else c + 1

/-- R28 -/
def Counters.incRxDrop (c : Counters) : Counters := { c with rxDrop := bump c.rxDrop }
/-- R26 -/
def Counters.incCheck (c : Counters) : Counters := { c with check := bump c.check }
/-- R26, R32 -/
def Counters.incFormat (c : Counters) : Counters := { c with format := bump c.format }
/-- R31 -/
def Counters.incRelayDrop (c : Counters) : Counters := { c with relayDrop := bump c.relayDrop }
/-- R31 -/
def Counters.incTtlExp (c : Counters) : Counters := { c with ttlExp := bump c.ttlExp }
/-- R49 -/
def Counters.incEntryRef (c : Counters) : Counters := { c with entryRef := bump c.entryRef }
/-- R34 -/
def Counters.incNoticeLost (c : Counters) : Counters := { c with noticeLost := bump c.noticeLost }

/-! ### The Insert Queue -/

/-- A frame the part originates, with the station address and hop limit in force: R33. -/
def State.makeFrame (s : State) (dest type : Byte) (payload : List Byte) : Frame :=
  { dest := dest, src := s.ring.station, type := type, ttl := s.ring.hopLimit, payload := payload }

/-- The Insert Queue has a free entry, reserved entries counted: R27, R30. -/
def State.insertRoom (s : State) : Bool := s.ring.insertQ.length < Config.insertCapacity

/-- An entry enters the Insert Queue's tail: R34. -/
def State.pushInsert (s : State) (e : InsertEntry) : State :=
  s.updRing fun g => { g with insertQ := g.insertQ ++ [e] }

/-- NOTICELOST rises by 1: R34. -/
def State.loseNotice (s : State) : State := s.updCounters Counters.incNoticeLost

/-- The entry is an SQ for shelf `i`: R34. -/
def InsertEntry.isSqOf (i : ShelfIx) : InsertEntry → Bool
  | .sq j _ => i == j
  | .reserved => false
  | .rep _ => false
  | .sn _ => false

/-- The entry is an SQ or an SN, which the purge of R35 removes. -/
def InsertEntry.isNotice : InsertEntry → Bool
  | .sq _ _ => true
  | .sn _ => true
  | .reserved => false
  | .rep _ => false

/-- The frame an entry sends; a reserved entry holds none yet (R30). -/
def InsertEntry.frame? : InsertEntry → Option Frame
  | .rep f => some f
  | .sq _ f => some f
  | .sn f => some f
  | .reserved => none

/-- R34: the SQ replaces the content of the entry its shelf already has, which keeps its place. -/
def coalesceSq (i : ShelfIx) (f : Frame) (q : List InsertEntry) : List InsertEntry :=
  q.map fun e => if e.isSqOf i then .sq i f else e

/-- R30, step 4: the reply goes into the entry reserved for it. -/
def fillReserved (f : Frame) : List InsertEntry → List InsertEntry
  | [] => []
  | .reserved :: q => .rep f :: q
  | e :: q => e :: fillReserved f q

/-- R35: every SQ and SN is removed and the rest close up in order. -/
def purgeNotices (q : List InsertEntry) : List InsertEntry := q.filter fun e => !e.isNotice

/-! ### CRC -/

/-- One bit of the CRC register: generator x^16 + x^12 + x^5 + 1 (R182). -/
def crcShift (c : BitVec 16) : BitVec 16 := if c.msb then (c <<< 1) ^^^ 0x1021#16 else c <<< 1

/-- One octet enters the register most significant bit first: R182. -/
def crcOctet (c : BitVec 16) (b : Byte) : BitVec 16 :=
  (List.range 8).foldl (fun c _ => crcShift c) (c ^^^ ((b.setWidth 16) <<< 8))

/-- CHECK over a run of octets, initial value FFFFh: R182. -/
def crc16 (l : List Byte) : BitVec 16 := l.foldl crcOctet 0xFFFF#16

/-- The octets of a number, `n` of them, most significant first: R181. -/
def octets : Nat → Nat → List Byte
  | 0, _ => []
  | n + 1, v => octets n (v / 256) ++ [BitVec.ofNat 8 v]

/-- The number a run of octets carries, most significant first: R181. -/
def fromOctets (l : List Byte) : Nat := l.foldl (fun v b => v * 256 + b.toNat) 0

/-- The octets of a frame before its CHECK: header and payload (spec/10). -/
def Frame.body (f : Frame) : List Byte :=
  [f.dest, f.src, f.type, f.ttl, BitVec.ofNat 8 f.payload.length] ++ f.payload

/-- The octets of a frame as sent, with a CHECK over them: R36, R182. -/
def Frame.wire (f : Frame) : List Byte := f.body ++ octets 2 (crc16 f.body).toNat

end Sys2Proof.Machine
end

