-- ==== Sys2Proof/Machine/Flags.lean ====
section
/-! DEFINITION. The alarm latches, their live conditions, the ALARM pin and the shelf outputs. -/

namespace Sys2Proof.Machine

/-- The live conditions of a reference's latches, read from its present state: the table of R79. HIT is live while the
hit count is above 0, so a third hit, which returns the count to 0 (R17), leaves it set and not live, against the last
sentences of R79 and row 4 of R178: the model's reading, log entry 12. -/
def Reference.live (x : Reference) : RefLatches :=
  { los := x.mon.signal == .lost
    freq := x.mon.qual == .outside
    hit := decide (0 < x.mon.hits)
    timeout := x.qt.source == .timedOut
    fail := x.rt.state == .failed }

/-- The live conditions of a shelf's latches: the table of R100, in which HARD and ABANDON have none (log entry 11). -/
def Shelf.live (x : Shelf) : ShelfLatches :=
  { holdover := x.state.cls == .holdover, hard := false, loop := x.loopBit, abandon := false }

/-- Each latch named in `named` that is set and not live is cleared: R79. -/
def RefLatches.acknowledge (l live named : RefLatches) : RefLatches :=
  { los := l.los && (live.los || !named.los)
    freq := l.freq && (live.freq || !named.freq)
    hit := l.hit && (live.hit || !named.hit)
    timeout := l.timeout && (live.timeout || !named.timeout)
    fail := l.fail && (live.fail || !named.fail) }

/-- Each latch named in `named` that is set and not live is cleared: R100. HARD and ABANDON are never live, so an ACK or
a warm restart taken after the event that set one clears it, as the table of R100 and R101 say; the text of R100 and row
4 of R178 say that it stays: the model's reading, log entry 11. -/
def ShelfLatches.acknowledge (l live named : ShelfLatches) : ShelfLatches :=
  { holdover := l.holdover && (live.holdover || !named.holdover)
    hard := l.hard && (live.hard || !named.hard)
    loop := l.loop && (live.loop || !named.loop)
    abandon := l.abandon && (live.abandon || !named.abandon) }

/-- Every latch of a reference named. -/
def RefLatches.all : RefLatches := { los := true, freq := true, hit := true, timeout := true, fail := true }

/-- Every latch of a shelf named. -/
def ShelfLatches.all : ShelfLatches := { holdover := true, hard := true, loop := true, abandon := true }

/-- Some latch of the reference is set: R176. -/
def RefLatches.any (l : RefLatches) : Bool := l.los || l.freq || l.hit || l.timeout || l.fail

/-- Some latch of the shelf is set: R176. -/
def ShelfLatches.any (l : ShelfLatches) : Bool := l.holdover || l.hard || l.loop || l.abandon

/-- The ALARM pin: asserted (true, driven high) while any latch of any reference or of any enabled shelf is set, and
low while RESETn is low: R176. -/
def State.alarm (s : State) : Bool :=
  s.resetn && (refIxs.any (fun r => (s.ref r).rt.latches.any)
    || shelfIxs.any fun i => (s.shelf i).enabled && (s.shelf i).latches.any)

/-- What a shelf output carries: R129. -/
inductive Output where
  | highImpedance
  | low
  /-- the undivided clock of input RI`r` -/
  | clock (r : RefIx)
  deriving DecidableEq, Repr

/-- SO`i`: R129, R146; high impedance while RESETn is low (R179). -/
def State.output (s : State) (i : ShelfIx) : Output :=
  if s.resetn then
    match s.drive with
    | .floating => .highImpedance
    | .driving =>
      match (s.shelf i).route with
      | none => .low
      | some r => .clock r
  else .highImpedance

end Sys2Proof.Machine
end

