-- ==== Sys2Proof/Machine/Measure.lean ====
section
/-! DEFINITION. The Frequency Monitor: prescaler, activity watch, gates, offset result, hits, filter, qualification and
verdict. Everything here is a function of one monitor and its reference's configuration. -/

namespace Sys2Proof.Machine

/-- The prescaler's divisor N: R1. -/
def rateDivisor (c : Fin 8) : Nat := [1, 8, 193, 256, 1250, 2430, 3125, 15625].getD c.val 1

/-- The gate size G, in comparison pulses: R11. -/
def Gate.size : Gate → Nat
  | .g800 => 800
  | .g8000 => 8000
  | .g80000 => 80000

/-- The expected count E = 31,250 × G: R11. -/
def Gate.expected (g : Gate) : Nat := 31250 * g.size

/-- The activity watch's 1 ms, in MCLK ticks: R7. -/
def watchTicks : Nat := 250000

/-- A quotient rounded to the nearest integer, halves away from zero: R13. -/
def roundDiv (num : Int) (den : Nat) : Int :=
  let q : Int := ((2 * num.natAbs + den) / (2 * den) : Nat)
  if num < 0 then -q else q

/-- A result clamped to -1,000,000 to +1,000,000 ppb: R13. -/
def clampPpb (o : Int) : Int := max (-1000000) (min 1000000 o)

/-- The offset result of a gate that closes with tick count `c`: R12, R13. -/
def offsetResult (g : Gate) (c : Nat) : Int :=
  clampPpb (roundDiv (((g.expected : Int) - (c : Int)) * 32000) g.size)

/-- The filter moves F toward O by D / 2^k, truncated toward zero; an empty filter takes O: R18. -/
def filterStep (k : Fin 8) (f : Option Int) (o : Int) : Int :=
  match f with
  | none => o
  | some f => f + (o - f).tdiv (2 ^ k.val)

/-- Qualification judged from F against A and J: R19. -/
def judge (accept reject : Nat) (q : Qualification) (f : Int) : Qualification :=
  match q with
  | .unmeasured => if f.natAbs ≤ accept then .inside else .outside
  | .inside => if reject < f.natAbs then .outside else .inside
  | .outside => if f.natAbs ≤ accept then .inside else .outside

/-- The verdict formed afresh: R21. -/
def Monitor.formVerdict (m : Monitor) : Verdict :=
  match m.run, m.signal, m.qual with
  | .running, .present, .inside => if m.hits = 0 then .good else .fail
  | _, _, _ => .fail

/-- The monitor with its verdict formed afresh: R21. -/
def Monitor.withVerdict (m : Monitor) : Monitor := { m with verdict := m.formVerdict }

/-- A monitor as REF-ON starts it: R4. -/
def Monitor.started : Monitor :=
  { Monitor.idle with run := .running, watch := some watchTicks, settling := true }

/-- `d` MCLK ticks pass at a monitor: the activity watch runs down to 0 and an open gate's tick count rises, within the
watch (R7, R10 note 1). -/
def Monitor.elapse (d : Nat) (m : Monitor) : Monitor :=
  match m.watch with
  | none => m
  | some w =>
    { m with
      watch := some (w - d)
      ticks := match m.gate with
        | .opened => m.ticks + min d w
        | .closed => m.ticks }

/-- The hit test: R16. -/
def isHit (limit : Nat) (f : Option Int) (o : Int) : Bool :=
  match f with
  | none => false
  | some f => limit != 0 && decide (limit < (o - f).natAbs)

/-- A used result: stored, tested for a hit, applied to the filter or withheld, judged; R15 to R19. The third hit leaves
a hit count of 0 (R17), so the HIT latch it sets (R16) is set without its live condition of R79: log entry 12. -/
def Monitor.useResult (cfg : RefConfig) (o : Int) (m : Monitor) : Monitor :=
  let m1 := { m with last := some o }
  if isHit cfg.hit m.filtered o then
    if m.hits + 1 < 3 then { m1 with hits := m.hits + 1 }
    else { m1 with filtered := some o, hits := 0, qual := judge cfg.accept cfg.reject m.qual o }
  else
    let f := filterStep cfg.depth m.filtered o
    { m1 with filtered := some f, hits := 0, qual := judge cfg.accept cfg.reject m.qual f }

/-- A gate closes with tick count `m.ticks`: a settling gate's result is discarded (R14), another is a used result
(R15); the next gate opens at the same pulse (R10). -/
def Monitor.closeGate (cfg : RefConfig) (m : Monitor) : Monitor :=
  let m1 := { m with pulses := 0, ticks := 0 }
  if m.settling then { m1 with settling := false } else m1.useResult cfg (offsetResult cfg.gate m.ticks)

/-- A comparison pulse reaches a monitor: ignored while IDLE, the end of a loss (R9), or a pulse that restarts the watch
and opens, counts or closes a gate (R10). The verdict is formed afresh (R21). -/
def Monitor.pulse (cfg : RefConfig) (m : Monitor) : Monitor :=
  match m.run with
  | .idle => m
  | .running =>
    match m.signal with
    | .lost =>
      { m with
        signal := .present, watch := some watchTicks, gate := .opened, settling := true, pulses := 0
        ticks := 0 }.withVerdict
    | .present =>
      let m1 := { m with watch := some watchTicks }
      match m.gate with
      | .closed => { m1 with gate := .opened, pulses := 0, ticks := 0 }
      | .opened =>
        if m.pulses + 1 < cfg.gate.size then { m1 with pulses := m.pulses + 1 }
        else (m1.closeGate cfg).withVerdict

/-- The activity watch expires: loss of signal, R8. -/
def Monitor.loseSignal (m : Monitor) : Monitor :=
  { m with
    signal := .lost, gate := .closed, pulses := 0, ticks := 0, settling := true, filtered := none, qual := .unmeasured
    hits := 0, watch := none }.withVerdict

/-- The pulse gives a used result, so that hits are judged at it: R15. -/
def Monitor.closesUsedGate (cfg : RefConfig) (m : Monitor) : Bool :=
  m.run == .running && m.signal == .present && m.gate == .opened && !(decide (m.pulses + 1 < cfg.gate.size))
    && !m.settling

/-- The pulse's used result is a hit, which sets the HIT latch, the third included: R16. -/
def Monitor.hitAt (cfg : RefConfig) (m : Monitor) : Bool :=
  m.closesUsedGate cfg && isHit cfg.hit m.filtered (offsetResult cfg.gate m.ticks)

/-- Qualification enters OUT between two conditions of the monitor, which sets the FREQ latch: R20. -/
def entersOut (before after : Monitor) : Bool := before.qual != .outside && after.qual == .outside

end Sys2Proof.Machine
end

