-- ==== Sys2Proof/Machine/Rank.lean ====
section
/-! DEFINITION. Effective and outgoing ranks, the Loop Guard's permit, the root reference, the squelch line and the
report content: everything the spec computes whenever it is needed and never stores. -/

namespace Sys2Proof.Machine

/-- The translation table of a dialect: R42. -/
def State.table (s : State) : Dialect → XlateTable
  | .one => s.dialect1
  | .two => s.dialect2

/-- `s` with the table of dialect `d` replaced: R45. -/
def State.setTable (s : State) (d : Dialect) (t : XlateTable) : State :=
  match d with
  | .one => { s with dialect1 := t }
  | .two => { s with dialect2 := t }

/-- The source shelf in use: the field of a DERIVED reference, none while the kind is another (R61). -/
def Reference.sourceShelf (x : Reference) : Option ShelfIx :=
  match x.cfg.kind with
  | .derived => x.cfg.source
  | .announced => none
  | .fixed => none

/-- The effective rank of a reference when shelf `t` has the outgoing rank `out t`: the first of R55's conditions that
applies. -/
def Reference.rankWith (x : Reference) (out : ShelfIx → Rank) : Rank :=
  match x.cfg.overrideRank with
  | some k => k
  | none =>
    match x.cfg.kind with
    | .announced => x.qt.received
    | .fixed => x.cfg.fixedRank
    | .derived =>
      match x.cfg.source with
      | some t => out t
      | none => Rank.unusable

/-- A usable rank as a rank. -/
def UsableRank.rank (k : UsableRank) : Rank := k.castSucc

/-- The outgoing rank of a shelf when reference `r` has the effective rank `eff r`: R157. -/
def Shelf.rankWith (x : Shelf) (eff : RefIx → Rank) : Rank :=
  match x.state with
  | .off => Rank.unusable
  | .free => UsableRank.rank x.cfg.freeRank
  | .locked c => eff c
  | .waiting c t _ => max (eff c) (eff t)
  | .aligning c t _ => max (eff c) (eff t)
  | .holdover .inSpec _ => UsableRank.rank x.cfg.holdoverRank
  | .holdover .degraded _ => UsableRank.rank x.cfg.degradedRank
  | .holdover .expired _ => UsableRank.rank x.cfg.freeRank

/-- The outgoing rank of shelf `i`, followed along derived chains over at most `n` shelves (R158: a chain passes at most
24). Past the end of the fuel the rank is 15; an acyclic edge table never gets there. -/
def State.outRankFuel : Nat → State → ShelfIx → Rank
  | 0, _, _ => Rank.unusable
  | n + 1, s, i => (s.shelf i).rankWith fun r => (s.ref r).rankWith (State.outRankFuel n s)

/-- The outgoing rank of shelf `i`: R157. -/
def State.outRank (s : State) (i : ShelfIx) : Rank := s.outRankFuel 24 i

/-- The effective rank of reference `r`: R55. -/
def State.effRank (s : State) (r : RefIx) : Rank := (s.ref r).rankWith s.outRank

/-- The outgoing code of shelf `i`, from its dialect's out-table: R44. -/
def State.outCode (s : State) (i : ShelfIx) : Code :=
  (s.table (s.shelf i).cfg.dialect).outTable[s.outRank i]

/-- The source shelves that shelf `i` depends on: its filled edge slots (R151). -/
def State.edgesFrom (s : State) (i : ShelfIx) : List ShelfIx :=
  (s.shelf i).curEdge.toList ++ (s.shelf i).pendEdge.toList

/-- A path of at most `n` edges leads from `a` to `b`: R153. -/
def State.pathWithin : Nat → State → ShelfIx → ShelfIx → Bool
  | 0, _, a, b => a == b
  | n + 1, s, a, b => a == b || (s.edgesFrom a).any fun x => State.pathWithin n s x b

/-- A path leads from `a` to `b`, of length 0 or more: R153; 24 shelves need no longer one. -/
def State.pathTo (s : State) (a b : ShelfIx) : Bool := s.pathWithin 24 a b

/-- The Loop Guard permits reference `r` for shelf `i`: R106, R153. -/
def State.permits (s : State) (i : ShelfIx) (r : RefIx) : Bool :=
  match (s.ref r).sourceShelf with
  | some t => !s.pathTo t i
  | none => true

/-- The walk of R159 from shelf `i` along current references, over at most `n` shelves. -/
def State.rootWithin : Nat → State → ShelfIx → Option RefIx
  | 0, _, _ => none
  | n + 1, s, i =>
    match (s.shelf i).state.current with
    | none => none
    | some c =>
      match (s.ref c).cfg.kind with
      | .announced => some c
      | .fixed => some c
      | .derived =>
        match (s.ref c).cfg.source with
        | none => none
        | some t => State.rootWithin n s t

/-- The root reference of shelf `i`: R159 (the walk ends after at most 24 steps). -/
def State.root (s : State) (i : ShelfIx) : Option RefIx := s.rootWithin 24 i

/-- The squelch line of shelf `i`: R160. -/
def State.squelch (s : State) (i : ShelfIx) : Option OriginLine :=
  match s.root i with
  | none => none
  | some r =>
    match (s.ref r).cfg.kind with
    | .announced =>
      match (s.ref r).cfg.origin with
      | some l => if l.shelf = i then some l else none
      | none => none
    | .fixed => none
    | .derived => none

/-- The report content of shelf `i`: R161. -/
def State.report (s : State) (i : ShelfIx) : Report :=
  { code := s.outCode i, rank := s.outRank i, cls := (s.shelf i).state.cls, squelch := s.squelch i, root := s.root i }

end Sys2Proof.Machine
end

