-- ==== Sys2Proof/Machine/Report.lean ====
section
/-! DEFINITION. The Quality Reporter: Selection Notices, Shelf Quality frames and the comparison that triggers them. -/

namespace Sys2Proof.Machine

/-- FRAME TYPES of spec/10. -/
abbrev typeQA : Byte := 0x21
abbrev typeSQ : Byte := 0x22
abbrev typeSN : Byte := 0x23
abbrev typeREQ : Byte := 0x30
abbrev typeREP : Byte := 0x31

/-- An index, or FFh for none: spec/10. -/
def ixOctet {n : Nat} (o : Option (Fin n)) : Byte :=
  match o with
  | some i => BitVec.ofNat 8 i.val
  | none => Byte.all

/-- Two fields of four bits in one octet, the first in bits 7 to 4: spec/10. -/
def nibbles (hi lo : Nat) : Byte := BitVec.ofNat 8 (hi * 16 + lo)

/-- The cause of a Selection Notice: R130, R149. -/
inductive Cause where | chosen | lost | hold | none | off
  deriving DecidableEq, Repr

/-- spec/10, SN octet 3. -/
def Cause.octet : Cause → Byte
  | .chosen => 1
  | .lost => 2
  | .hold => 3
  | .none => 4
  | .off => 5

/-- spec/10, SQ octet 1. -/
def StateClass.num : StateClass → Nat
  | .off => 0
  | .free => 1
  | .locked => 2
  | .switching => 3
  | .holdover => 4

/-- spec/10: a dialect's number. -/
def Dialect.octet : Dialect → Byte
  | .one => 1
  | .two => 2

/-- The SN payload: spec/10. -/
def snPayload (i : ShelfIx) (prev new : Option RefIx) (cause : Cause) (hard : Bool) : List Byte :=
  [BitVec.ofNat 8 i.val, ixOctet prev, ixOctet new, cause.octet, if hard then 1 else 0]

/-- The SQ payload of shelf `i` with report content `c`: spec/10. -/
def sqPayload (i : ShelfIx) (d : Dialect) (c : Report) : List Byte :=
  [BitVec.ofNat 8 i.val, BitVec.ofNat 8 c.cls.num, nibbles c.rank.val c.code.val, d.octet,
    ixOctet (c.squelch.map OriginLine.shelf), ixOctet (c.squelch.map OriginLine.port), ixOctet c.root]

/-- A Selection Notice is built while DRIVING and placed at the tail, or dropped with NOTICELOST: R149, R34. -/
def State.offerSn (s : State) (i : ShelfIx) (prev new : Option RefIx) (cause : Cause) (hard : Bool) : State :=
  match s.drive with
  | .floating => s
  | .driving =>
    if s.insertRoom then s.pushInsert (.sn (s.makeFrame Byte.all typeSN (snPayload i prev new cause hard)))
    else s.loseNotice

/-- An SQ for shelf `i` with content `c` is offered while DRIVING: coalesced, placed or dropped (R34), with the
last-reported record updated unless it is dropped (R161, R162). -/
def State.offerSqOf (s : State) (i : ShelfIx) (c : Report) : State :=
  match s.drive with
  | .floating => s
  | .driving =>
    let f := s.makeFrame Byte.all typeSQ (sqPayload i (s.shelf i).cfg.dialect c)
    if s.ring.insertQ.any (InsertEntry.isSqOf i) then
      (s.updRing fun g => { g with insertQ := coalesceSq i f g.insertQ }).updShelf i fun x =>
        { x with lastReport := some c }
    else if s.insertRoom then
      (s.pushInsert (.sq i f)).updShelf i fun x => { x with lastReport := some c }
    else s.loseNotice

/-- An SQ for shelf `i` with its present report content. -/
def State.offerSq (s : State) (i : ShelfIx) : State := s.offerSqOf i (s.report i)

/-- A full report: an SQ for every enabled shelf, ascending, without comparison (R163). -/
def State.fullReport (s : State) : State :=
  shelfIxs.foldl (fun st i => if (st.shelf i).enabled then st.offerSq i else st) s

/-- The comparison of R162: an SQ for every enabled shelf, ascending, whose report content differs from its
last-reported record. -/
def State.compareReports (s : State) : State :=
  shelfIxs.foldl
    (fun st i => if (st.shelf i).enabled && (st.shelf i).lastReport != some (st.report i) then st.offerSq i else st) s

/-- What a shelf's report depends on in its own record: state class, stage, current reference and target (R162). A stage
change is an event of R162 here whether or not the ranks of the two stages differ, while R145 says that between equal
ranks it triggers nothing outside RD-SHELF: the model's choice, log entry 8. -/
def Shelf.reportKey (x : Shelf) : StateClass × Option Stage × Option RefIx × Option RefIx :=
  (x.state.cls, x.state.stage, x.state.current, x.state.target)

/-- The event from `s0` to `s1` changed some shelf's state, stage, current reference or target, or some reference's
effective rank: the events R162 names (WR-XLATE and WR-SHELF apart; a stage change between equal ranks: log entry 8). -/
def reportable (s0 s1 : State) : Bool :=
  shelfIxs.any (fun i => (s0.shelf i).reportKey != (s1.shelf i).reportKey)
    || refIxs.any fun r => s0.effRank r != s1.effRank r

/-- The end of an event that began in `s0`: the Quality Reporter compares where R162 says so. -/
def State.endEvent (s0 s1 : State) : State := if reportable s0 s1 then s1.compareReports else s1

end Sys2Proof.Machine
end

