-- ==== Sys2Proof/Machine/Switch.lean ====
section
/-! DEFINITION. Dirty marks, usability of a candidate, routes, alignment engines, the endings of a switch, holdover
entry, and how a change of a reference or of a rank runs through the shelves within one event. -/

namespace Sys2Proof.Machine

/-! ### Dirty marks -/

/-- The settle window, in milliseconds: R85, R111. -/
def Window.ms : Window → Nat
  | .short => 50
  | .medium => 200
  | .long => 1000

/-- A mark on a shelf: R110. An OFF shelf is not marked (R109). -/
def Shelf.mark (x : Shelf) : Shelf :=
  if x.enabled then
    match x.sel with
    | .clean => { x with sel := .settling (msTicks x.cfg.window.ms) }
    | .settling _ => x
    | .deferred => if x.switching then x else { x with sel := .settling (msTicks x.cfg.window.ms) }
  else x

/-- Every shelf that satisfies `p` is marked: R109. -/
def State.markWhere (s : State) (p : Shelf → Bool) : State :=
  s.mapShelves fun _ x => if p x then x.mark else x

/-- Shelf `i` is marked: R109. -/
def State.markShelf (s : State) (i : ShelfIx) : State := s.updShelf i Shelf.mark

/-- Every enabled shelf whose list names `r` is marked: R58, R81. -/
def State.markNaming (s : State) (r : RefIx) : State := s.markWhere fun x => x.names r

/-- The shelf's list names a DERIVED reference, locked out or not, with a source shelf or none: R156. -/
def State.namesDerived (s : State) (x : Shelf) : Bool := x.list.any fun c => (s.ref c.ref).cfg.kind == .derived

/-- The marking of an edge change: R156. -/
def State.markEdgeChange (s : State) : State := s.markWhere s.namesDerived

/-! ### Usability of a candidate -/

/-- Test 2 of R104: ACTIVE, or HOLDOFF and current on the shelf. -/
def eligibleState (st : RefState) (current : Bool) : Bool := st == .active || (st == .holdoff && current)

/-- Test 2 of R105: as R104, and RESTORING. -/
def forcedState (st : RefState) (current : Bool) : Bool := eligibleState st current || st == .restoring

/-- Automatic eligibility of `r` for shelf `i` under a given permit: R104. -/
def State.eligibleUnder (s : State) (permit : RefIx → Bool) (i : ShelfIx) (r : RefIx) : Bool :=
  (s.shelf i).openTo r && eligibleState (s.ref r).rt.state ((s.shelf i).state.current == some r)
    && (s.effRank r ≤ UsableRank.rank (s.shelf i).cfg.floor) && permit r

/-- Forced usability of `r` for shelf `i` under a given permit: R105. -/
def State.forcedUnder (s : State) (permit : RefIx → Bool) (i : ShelfIx) (r : RefIx) : Bool :=
  (s.shelf i).openTo r && forcedState (s.ref r).rt.state ((s.shelf i).state.current == some r) && permit r

/-- Automatic eligibility: R104. -/
def State.eligible (s : State) (i : ShelfIx) (r : RefIx) : Bool := s.eligibleUnder (s.permits i) i r

/-- Forced usability: R105. -/
def State.forcedUsable (s : State) (i : ShelfIx) (r : RefIx) : Bool := s.forcedUnder (s.permits i) i r

/-- The target test of the switch in progress on shelf `i`, under its basis: R107, R140. -/
def State.targetOk (s : State) (i : ShelfIx) : Bool :=
  match (s.shelf i).state.target, (s.shelf i).state.basis with
  | some t, some .automatic => s.eligible i t
  | some t, some .forced => s.forcedUsable i t
  | _, _ => true

/-! ### Alignment engines -/

/-- Every engine's number, ascending: R133. -/
def engineIxs : List EngineIx := List.finRange 4

/-- The free engine with the lowest number: R133. -/
def State.freeEngine (s : State) : Option EngineIx := engineIxs.find? fun e => s.engines[e].isNone

/-- A granted shelf's sub-state becomes ALIGNING: R133, step 4. -/
def ShelfState.granted : ShelfState → ShelfState
  | .waiting c t b => .aligning c t b
  | .off => .off
  | .free => .free
  | .locked c => .locked c
  | .aligning c t b => .aligning c t b
  | .holdover g t => .holdover g t

/-- The grant of engine `e` to shelf `i`, which leaves the queue `rest` behind: R133. -/
def State.grant (s : State) (e : EngineIx) (i : ShelfIx) (rest : List ShelfIx) : State :=
  { s with
    alignQ := rest
    engines := s.engines.set e (some { shelf := i, grant := s.grants, timer := msTicks s.globals.alignLimit })
    grants := s.grants + 1 }.updShelf i fun x => { x with state := x.state.granted }

/-- Grants are made until the free engines or the queue run out: R133. -/
def State.grantWithin : Nat → State → State
  | 0, s => s
  | n + 1, s =>
    match s.alignQ, s.freeEngine with
    | i :: rest, some e => State.grantWithin n (s.grant e i rest)
    | _, _ => s

/-- The grants of one event: four engines, so at most four grants. -/
def State.grantFree (s : State) : State := s.grantWithin 4

/-- The engine held by shelf `i` is freed, its timer with it: R131. -/
def State.freeEngineOf (s : State) (i : ShelfIx) : State :=
  { s with engines := Vector.ofFn fun e =>
      match s.engines[e] with
      | some h => if h.shelf = i then none else some h
      | none => none }

/-- The queue entry or the engine of a SWITCHING shelf is given up, and a freed engine is granted again: step 1 of R139
and R141, step 2 of R95 and R136. -/
def State.releaseSwitch (s : State) (i : ShelfIx) : State :=
  match (s.shelf i).state with
  | .waiting _ _ _ => { s with alignQ := s.alignQ.filter fun j => j != i }
  | .aligning _ _ _ => (s.freeEngineOf i).grantFree
  | .off => s
  | .free => s
  | .locked _ => s
  | .holdover _ _ => s

/-! ### Endings and entries -/

/-- A switch of shelf `i` is abandoned: R139. -/
def State.abandon (s : State) (i : ShelfIx) : State :=
  match (s.shelf i).state.current, (s.shelf i).state.target with
  | some c, some _ =>
    (s.releaseSwitch i).updShelf i fun x =>
      { x with pendEdge := none, state := .locked c, latches := { x.latches with abandon := true } }.mark
  | _, _ => s

/-- A switch of shelf `i` ends on its target: aligned at the done report (R136, `hard` false), or without alignment at
the limit's expiry (R137) and at the loss of the current reference (R141), with the HARD flag and latch. -/
def State.moveToTarget (s : State) (hard : Bool) (i : ShelfIx) : State :=
  match (s.shelf i).state.current, (s.shelf i).state.target with
  | some c, some t =>
    (((s.releaseSwitch i).updShelf i fun x =>
      { x with
        route := some t
        curEdge := x.pendEdge
        pendEdge := none
        state := .locked t }).offerSn i (some c) (some t) .chosen hard).updShelf i fun x =>
      { x with latches := { x.latches with hard := x.latches.hard || hard } }.mark
  | _, _ => s

/-- The holdover stage and timer at entry into HOLDOVER: R144. -/
def ShelfConfig.holdoverEntry (c : ShelfConfig) : ShelfState :=
  if 0 < c.phaseA.toNat then .holdover .inSpec (some (secTicks c.phaseA.toNat))
  else if 0 < c.phaseB.toNat then .holdover .degraded (some (secTicks c.phaseB.toNat))
  else .holdover .expired none

/-- A LOCKED shelf is muted and enters HOLDOVER, with a Selection Notice, its latch and its edge released: steps 1 to 5
of R115 and of R126. -/
def State.enterHoldover (s : State) (i : ShelfIx) (c : RefIx) (cause : Cause) : State :=
  ((s.updShelf i fun x => { x with route := none, state := x.cfg.holdoverEntry }).offerSn i (some c) none cause
    false).updShelf i fun x => { x with latches := { x.latches with holdover := true }, curEdge := none }

/-- The loss of the current reference of shelf `i`: R114; from LOCKED R115, from SWITCHING the hard cut of R141. -/
def State.loseCurrent (s : State) (i : ShelfIx) : State :=
  match (s.shelf i).state with
  | .locked c => (s.enterHoldover i c .lost).markShelf i
  | .waiting _ _ _ => s.moveToTarget true i
  | .aligning _ _ _ => s.moveToTarget true i
  | .off => s
  | .free => s
  | .holdover _ _ => s

/-- A direct lock of shelf `i` to reference `r`: R124. -/
def State.directLock (s : State) (i : ShelfIx) (r : RefIx) : State :=
  (s.updShelf i fun x =>
    { x with curEdge := (s.ref r).sourceShelf, route := some r, state := .locked r }).offerSn i none (some r) .chosen
      false

/-- A switch start of shelf `i` from its current reference `c` to target `t`: R125. -/
def State.startSwitch (s : State) (i : ShelfIx) (c t : RefIx) (b : Basis) : State :=
  { (s.updShelf i fun x => { x with pendEdge := (s.ref t).sourceShelf, state := .waiting c t b }) with
    alignQ := s.alignQ ++ [i] }.grantFree

/-! ### Within one event -/

/-- The content of some edge slot differs between two states: R156. -/
def edgesDiffer (s0 s1 : State) : Bool :=
  shelfIxs.any fun i => (s0.shelf i).curEdge != (s1.shelf i).curEdge || (s0.shelf i).pendEdge != (s1.shelf i).pendEdge

/-- The effective rank of `r` differs between two states: R58. -/
def rankDiffers (s0 s1 : State) (r : RefIx) : Bool := s0.effRank r != s1.effRank r

/-- The shelf's list names a reference whose effective rank differs: R58. -/
def namesChanged (s0 s1 : State) (x : Shelf) : Bool := x.list.any fun c => rankDiffers s0 s1 c.ref

/-- What an action that led from `s0` to `s1` sets off in the same event: the marks of an edge change (R156), the marks
of every effective rank that changed (R57, R58), and, shelf by shelf in ascending order, the target test of a switch
whose target's rank changed, with the abandonment of one that fails (R107, R140) and what that sets off in turn. `n`
bounds the abandonments that lead to one another; each ends a switch, so 24 are enough. -/
def State.settle : Nat → State → State → State
  | 0, _, s1 => s1
  | n + 1, s0, s1 =>
    let s2 := if edgesDiffer s0 s1 then s1.markEdgeChange else s1
    let s3 := s2.markWhere (namesChanged s0 s1)
    shelfIxs.foldl
      (fun st i =>
        if ((st.shelf i).state.target.any fun t => rankDiffers s0 s1 t) && !st.targetOk i then
          State.settle n st (st.abandon i)
        else st)
      s3

/-- What the action that led from `s0` to `s1` sets off: R57, R58, R156. -/
def State.follow (s0 s1 : State) : State := State.settle 25 s0 s1

/-- The part shelf `i` takes in a state change of reference `r`: R81, R114, R140. -/
def State.takePart (r : RefIx) (s : State) (i : ShelfIx) : State :=
  if (s.shelf i).state.current = some r ∧ ((s.ref r).rt.state = .failed ∨ (s.ref r).rt.state = .disabled) then
    s.follow (s.loseCurrent i)
  else if (s.shelf i).state.target = some r ∧ s.targetOk i = false then s.follow (s.abandon i)
  else s

/-- A state change of reference `r`, made in the action that led from `s0` to `s1`, is handed to the shelves: the marks
of R81, each shelf's part in ascending order (R142, note 2), and with it the rank changes of the same action (R82). -/
def State.deliverState (s0 s1 : State) (r : RefIx) : State :=
  s0.follow (shelfIxs.foldl (State.takePart r) (s1.markNaming r))

/-- Reference record `r` becomes `x` in one event: a change of its state is handed on under R81, a change of its
effective rank under R58, and the reports are compared (R162). -/
def State.putRef (s : State) (r : RefIx) (x : Reference) : State :=
  let s1 := s.setRef r x
  s.endEvent (if x.rt.state = (s.ref r).rt.state then s.follow s1 else s.deliverState s1 r)

end Sys2Proof.Machine
end

