-- ==== Sys2Proof/Machine/Refs.lean ====
section
/-! DEFINITION. The Reference Table's state machine, and the commands of the monitors and of the references' timers. -/

namespace Sys2Proof.Machine

/-- While RESETn is low every command but the pins' own finds the part held in its cold-reset content: R179. -/
def State.running (s : State) (f : State → State) : Host.Outcome State Fault Refusal :=
  .next (if s.resetn then f s else s)

/-! ### The state machine of R64 -/

/-- The decay interval of 900 s: R75. -/
def decayTicks : Nat := secTicks 900

/-- The restore wait's duration in seconds: base × 2^level, limited to 3,600 s; R71. -/
def restoreSeconds (base : Nat) (flap : Fin 4) : Nat := min 3600 (base * 2 ^ flap.val)

/-- Entry into ACTIVE, with the decay timer started: R75. -/
def RefDynamic.activate (x : RefDynamic) : RefDynamic :=
  { x with state := .active, holdOffTimer := none, restoreTimer := none, decayTimer := some decayTicks }

/-- Entry into FAILED, with the FAIL latch: R69, R72, R78. -/
def RefDynamic.enterFailed (x : RefDynamic) : RefDynamic :=
  { x with
    state := .failed, holdOffTimer := none, restoreTimer := none, decayTimer := none
    latches := { x.latches with fail := true } }

/-- A flap level rises by 1 and stays 3: R72. -/
def flapUp (n : Fin 4) : Fin 4 := if n = 3 then 3 else n + 1

/-- A verdict GOOD reaches the record: R64, R68, R69, R71. -/
def RefDynamic.verdictGood (cfg : RefConfig) (x : RefDynamic) : RefDynamic :=
  match x.state with
  | .starting => x.activate
  | .holdoff => x.activate
  | .failed =>
    if restoreSeconds cfg.restoreBase x.flap = 0 then x.activate
    else { x with state := .restoring, restoreTimer := some (secTicks (restoreSeconds cfg.restoreBase x.flap)) }
  | .disabled => x
  | .active => x
  | .restoring => x

/-- A verdict FAIL reaches the record: R64, R69, R72. -/
def RefDynamic.verdictFail (cfg : RefConfig) (x : RefDynamic) : RefDynamic :=
  match x.state with
  | .active =>
    if cfg.holdOff = 0 then x.enterFailed
    else { x with state := .holdoff, holdOffTimer := some (msTicks (cfg.holdOff * 10)) }
  | .restoring => { x.enterFailed with flap := flapUp x.flap }
  | .disabled => x
  | .starting => x
  | .holdoff => x
  | .failed => x

/-- A change of the monitor's verdict is delivered to the record: R22. -/
def RefDynamic.verdictEvent (cfg : RefConfig) (before after : Verdict) (x : RefDynamic) : RefDynamic :=
  match before, after with
  | .fail, .good => x.verdictGood cfg
  | .good, .fail => x.verdictFail cfg
  | .good, .good => x
  | .fail, .fail => x

/-- The reference once its monitor has become `m`, with the indications `los` and `hit`: the latches of R78, then the
verdict event of R22. -/
def Reference.measured (x : Reference) (m : Monitor) (los hit : Bool) : Reference :=
  let l := { x.rt.latches with
    los := x.rt.latches.los || los
    freq := x.rt.latches.freq || entersOut x.mon m
    hit := x.rt.latches.hit || hit }
  { x with mon := m, rt := { x.rt with latches := l }.verdictEvent x.cfg x.mon.verdict m.verdict }

/-- The reference once `ticks` MCLK ticks have passed at its monitor and `cycles` input cycles have come in: the
prescaler counts them and, at its divisor, gives one comparison pulse; a DISABLED reference's prescaler is held cleared
(R1, R2). The first pulse after REF-ON falls on the N-th input cycle after it, where R2 has it N cycles after the first:
the model's choice, log entry 14. -/
def Reference.clockIn (cycles ticks : Nat) (x : Reference) : Reference :=
  match x.mon.run with
  | .idle => x
  | .running =>
    let m := x.mon.elapse ticks
    let n := m.prescaler + cycles
    if n < rateDivisor x.cfg.rate then { x with mon := { m with prescaler := n } }
    else
      let m1 := { m with prescaler := n - rateDivisor x.cfg.rate }
      x.measured (m1.pulse x.cfg) false (m1.hitAt x.cfg)

/-- The reference once its activity watch has expired: R8. A pulse taken first has restarted the watch, and its expiry
is then not due: R9. -/
def Reference.watchExpired (x : Reference) : Reference :=
  if x.mon.run = .running ∧ Timer.due x.mon.watch then x.measured x.mon.loseSignal true false else x

/-- The reference once its hold-off timer has expired: R69; none is due once a verdict has stopped the timer. -/
def Reference.holdOffExpired (x : Reference) : Reference :=
  if x.rt.state = .holdoff ∧ Timer.due x.rt.holdOffTimer then { x with rt := x.rt.enterFailed } else x

/-- The reference once its restore-wait timer has expired: R72. -/
def Reference.restoreExpired (x : Reference) : Reference :=
  if x.rt.state = .restoring ∧ Timer.due x.rt.restoreTimer then { x with rt := x.rt.activate } else x

/-- The reference once its decay timer has expired: R75. An entry into ACTIVE taken first has restarted the timer, and
its expiry is then not due: R76. -/
def Reference.decayExpired (x : Reference) : Reference :=
  if Timer.due x.rt.decayTimer then
    { x with rt := { x.rt with
        flap := x.rt.flap - (if x.rt.flap = 0 then 0 else 1)
        decayTimer := if 1 < x.rt.flap.val then some decayTicks else none } }
  else x

/-- The reference once its announcement timer has expired: R53. An entry taken first has restarted or stopped the timer,
and its expiry is then not due. -/
def Reference.announceExpired (x : Reference) : Reference :=
  if Timer.due x.qt.timer then
    { x with
      qt := { received := Rank.unusable, source := .timedOut, timer := none }
      rt := { x.rt with latches := { x.rt.latches with timeout := true } } }
  else x

/-! ### The commands -/

/-- COMPARISON_PULSE: R1, R2, R9, R10, R12 to R22, R64. -/
def execComparisonPulse (r : RefIx) (cycles ticks : Nat) (s : State) : Host.Outcome State Fault Refusal :=
  s.running fun s => s.putRef r ((s.ref r).clockIn cycles ticks)

/-- ACTIVITY_WATCH_EXPIRY: R8, R9; an expiry that is not due changes nothing (log entry 4). -/
def execActivityWatchExpiry (r : RefIx) (s : State) : Host.Outcome State Fault Refusal :=
  s.running fun s => s.putRef r (s.ref r).watchExpired

/-- HOLD_OFF_EXPIRY: R69; an expiry that is not due changes nothing (R64, note 2; log entry 4). -/
def execHoldOffExpiry (r : RefIx) (s : State) : Host.Outcome State Fault Refusal :=
  s.running fun s => s.putRef r (s.ref r).holdOffExpired

/-- RESTORE_WAIT_EXPIRY: R72; an expiry that is not due changes nothing (log entry 4). -/
def execRestoreWaitExpiry (r : RefIx) (s : State) : Host.Outcome State Fault Refusal :=
  s.running fun s => s.putRef r (s.ref r).restoreExpired

/-- DECAY_EXPIRY: R75, R76; a change of flap level is handed to nobody, and an expiry that is not due changes nothing
(log entry 4). -/
def execDecayExpiry (r : RefIx) (s : State) : Host.Outcome State Fault Refusal :=
  s.running fun s => s.setRef r (s.ref r).decayExpired

/-- ANNOUNCEMENT_TIMER_EXPIRY: R53; an expiry that is not due changes nothing (log entry 4). -/
def execAnnouncementTimerExpiry (r : RefIx) (s : State) : Host.Outcome State Fault Refusal :=
  s.running fun s => s.putRef r (s.ref r).announceExpired

end Sys2Proof.Machine
end

