-- ==== Sys2Proof/Machine/Select.lean ====
section
/-! DEFINITION. The Selection Engine's decision, and the commands of the settle timer, the alignment engines and the
holdover timer. -/

namespace Sys2Proof.Machine

/-- The ranking key of a candidate at this moment: effective rank, then priority, then reference index; R108. -/
def State.key (s : State) (c : Candidate) : Nat × Nat × Nat := ((s.effRank c.ref).val, c.prio.val, c.ref.val)

/-- One key is better than another: the first part that differs is smaller; R108. -/
def keyBetter (a b : Nat × Nat × Nat) : Bool :=
  decide (a.1 < b.1) || (a.1 == b.1 && (decide (a.2.1 < b.2.1) || (a.2.1 == b.2.1 && decide (a.2.2 < b.2.2))))

/-- The best of a set of candidates by the ranking key: R108, R120. -/
def State.best (s : State) : List Candidate → Option Candidate
  | [] => none
  | c :: cs =>
    match s.best cs with
    | none => some c
    | some d => if keyBetter (s.key d) (s.key c) then some d else some c

/-- The candidates automatically eligible for shelf `i` under a given permit: R120. -/
def State.eligibleSet (s : State) (permit : RefIx → Bool) (i : ShelfIx) : List Candidate :=
  (s.shelf i).list.filter fun c => s.eligibleUnder permit i c.ref

/-- Automatic selection: R120. -/
def State.autoTarget (s : State) (permit : RefIx → Bool) (i : ShelfIx) : Option RefIx :=
  match s.best (s.eligibleSet permit i) with
  | none => none
  | some b =>
    match (s.shelf i).cfg.mode, (s.shelf i).state.current with
    | .nonRevertive, some c =>
      if (s.eligibleSet permit i).any (fun d => d.ref == c) && s.effRank c ≤ s.effRank b.ref then some c
      else some b.ref
    | .nonRevertive, none => some b.ref
    | .revertive, _ => some b.ref

/-- The target of a decision under the command held: R119. -/
def State.chooseTarget (s : State) (permit : RefIx → Bool) (i : ShelfIx) : Option RefIx :=
  match (s.shelf i).command with
  | .hold => none
  | .forced r => if s.forcedUnder permit i r then some r else none
  | .manual r => if s.eligibleUnder permit i r then some r else s.autoTarget permit i
  | .none => s.autoTarget permit i

/-- The decision finds the reference of a MANUAL command not eligible, and clears the command: R121. -/
def State.clearsManual (s : State) (i : ShelfIx) : Bool :=
  match (s.shelf i).command with
  | .manual r => !s.eligible i r
  | .none => false
  | .forced _ => false
  | .hold => false

/-- The decision is loop-blocked: the unguarded target is present, differs from the target chosen and is not permitted;
R122. -/
def State.loopBlocked (s : State) (i : ShelfIx) : Bool :=
  match s.chooseTarget (fun _ => true) i with
  | none => false
  | some u => s.chooseTarget (s.permits i) i != some u && !s.permits i u

/-- The basis a switch start records: R125, step 2. -/
def Command.basis : Command → Basis
  | .forced _ => .forced
  | .none => .automatic
  | .manual _ => .automatic
  | .hold => .automatic

/-- The cause of a holdover entry by decision: R126, step 3. -/
def Command.cause : Command → Cause
  | .hold => .hold
  | .none => .none
  | .manual _ => .none
  | .forced _ => .none

/-- The outcome of a decision for shelf `i` whose command is `cmd`, by the target chosen and the shelf's state: R123. -/
def State.outcome (s : State) (i : ShelfIx) (cmd : Command) (target : Option RefIx) : State :=
  match (s.shelf i).state, target with
  | .locked c, none => s.enterHoldover i c cmd.cause
  | .locked c, some r => if r = c then s else s.startSwitch i c r cmd.basis
  | .free, some r => s.directLock i r
  | .holdover _ _, some r => s.directLock i r
  | .free, none => s
  | .holdover _ _, none => s
  | .off, _ => s
  | .waiting _ _ _, _ => s
  | .aligning _ _ _, _ => s

/-- What a decision writes in the shelf's record before its outcome: the dirty flag cleared (R118), a MANUAL command
cleared (R121), the companion bit and the LOOP latch (R122). -/
def Shelf.judged (x : Shelf) (clears blocked : Bool) : Shelf :=
  { x with
    sel := .clean
    command := if clears then .none else x.command
    loopBit := blocked
    latches := { x.latches with loop := x.latches.loop || blocked } }

/-- A decision for shelf `i`: R118 to R126, with what its outcome sets off. -/
def State.decideShelf (s : State) (i : ShelfIx) : State :=
  let s1 := s.updShelf i fun x => x.judged (s.clearsManual i) (s.loopBlocked i)
  let s2 := s1.follow (s1.outcome i (s1.shelf i).command (s.chooseTarget (s.permits i) i))
  if s.clearsManual i then s2.markShelf i else s2

/-- The expiry of the settle timer of shelf `i`, when it is due: R118. -/
def State.settleExpired (s : State) (i : ShelfIx) : State :=
  match (s.shelf i).sel with
  | .settling 0 =>
    if (s.shelf i).switching then s.updShelf i fun x => { x with sel := .deferred }
    else if (s.shelf i).enabled then s.decideShelf i
    else s
  | .settling (_ + 1) => s
  | .clean => s
  | .deferred => s

/-- SETTLE_TIMER_EXPIRY: R118; an expiry that is not due changes nothing (R111; log entry 4). -/
def execSettleTimerExpiry (i : ShelfIx) (s : State) : Host.Outcome State Fault Refusal :=
  s.running fun s => s.endEvent (s.settleExpired i)

/-- Engine `e`, held under the grant `g`, ends its shelf's switch; a report of an engine freed since its grant is
discarded: R136, R137, R138. -/
def State.engineEnds (s : State) (hard : Bool) (e : EngineIx) (g : Nat) : State :=
  match s.engines[e] with
  | none => s
  | some h => if h.grant = g then s.endEvent (s.follow (s.moveToTarget hard h.shelf)) else s

/-- ENGINE_DONE: R136, R138. -/
def execEngineDone (e : EngineIx) (grant : Nat) (s : State) : Host.Outcome State Fault Refusal :=
  s.running fun s => s.engineEnds false e grant

/-- The alignment limit of engine `e` runs out: R137; an expiry that is not due changes nothing. -/
def State.limitExpired (s : State) (e : EngineIx) (g : Nat) : State :=
  if Timer.due (s.engines[e].map Hold.timer) then s.engineEnds true e g else s

/-- ALIGNMENT_LIMIT_EXPIRY: R137, R138 (log entry 4). -/
def execAlignmentLimitExpiry (e : EngineIx) (grant : Nat) (s : State) : Host.Outcome State Fault Refusal :=
  s.running fun s => s.limitExpired e grant

/-- The stage and timer after a phase expiry, when it is due: R145. `phaseB` is phase B as the record holds it at this
expiry, where R86 and R144 would have the value of the entry into HOLDOVER: the model's choice, log entry 13. -/
def ShelfState.phaseExpired (phaseB : Nat) : ShelfState → ShelfState
  | .holdover .inSpec t =>
    if Timer.due t then if 0 < phaseB then .holdover .degraded (some (secTicks phaseB)) else .holdover .expired none
    else .holdover .inSpec t
  | .holdover .degraded t => if Timer.due t then .holdover .expired none else .holdover .degraded t
  | .holdover .expired t => .holdover .expired t
  | .off => .off
  | .free => .free
  | .locked c => .locked c
  | .waiting c t b => .waiting c t b
  | .aligning c t b => .aligning c t b

/-- HOLDOVER_PHASE_EXPIRY: R145, with phase B as held at this expiry (log entry 13); an expiry that is not due changes
nothing (log entry 4), and a change of stage between equal ranks ends with the comparison of R162 like any other (log
entry 8). -/
def execHoldoverPhaseExpiry (i : ShelfIx) (s : State) : Host.Outcome State Fault Refusal :=
  s.running fun s =>
    s.endEvent (s.follow (s.updShelf i fun x => { x with state := x.state.phaseExpired x.cfg.phaseB.toNat }))

/-- The refresh timer's expiry: a full report while DRIVING, and the restart with the interval in force; R164. -/
def State.refreshExpired (s : State) : State :=
  if Timer.due s.refreshTimer then { s.fullReport with refreshTimer := some (secTicks s.globals.refreshInterval) } else s

/-- REFRESH_EXPIRY: R164; an expiry that is not due changes nothing (log entry 4). -/
def execRefreshExpiry (s : State) : Host.Outcome State Fault Refusal :=
  s.running State.refreshExpired

end Sys2Proof.Machine
end

