-- ==== Sys2Proof/Machine/Operands.lean ====
section
/-! DEFINITION. The octets of requests and replies: reading argument fields (`none` where a field is outside its values)
and building the reports of RD-REF, RD-SHELF, RD-XLATE, RD-GLOBAL and RD-COUNT. Layouts: spec/10. -/

namespace Sys2Proof.Machine

/-! ### Reading fields -/

/-- An index below `n`. -/
def readIx (n : Nat) (b : Byte) : Option (Fin n) := if h : b.toNat < n then some ⟨b.toNat, h⟩ else none

/-- An index below `n`, or FFh for none. -/
def readOptIx (n : Nat) (b : Byte) : Option (Option (Fin n)) :=
  if b = Byte.all then some none else (readIx n b).map some

/-- spec/10, reference configuration octet 0. -/
def readKind (b : Byte) : Option Kind :=
  if b = 0 then some .announced else if b = 1 then some .fixed else if b = 2 then some .derived else none

/-- spec/10, reference configuration octet 2. -/
def readGate (b : Byte) : Option Gate :=
  if b = 0 then some .g800 else if b = 1 then some .g8000 else if b = 2 then some .g80000 else none

/-- spec/10, shelf configuration octet 0. -/
def readMode (b : Byte) : Option Mode :=
  if b = 0 then some .nonRevertive else if b = 1 then some .revertive else none

/-- spec/10, shelf configuration octet 2. -/
def readWindow (b : Byte) : Option Window :=
  if b = 0 then some .short else if b = 1 then some .medium else if b = 2 then some .long else none

/-- A dialect, 1 or 2. -/
def readDialect (b : Byte) : Option Dialect := if b = 1 then some .one else if b = 2 then some .two else none

/-- The origin line: FFh FFh is none, and exactly one FFh is refused (R62). -/
def readOrigin (sh port : Byte) : Option (Option OriginLine) :=
  if sh = Byte.all ∧ port = Byte.all then some none
  else
    match readIx 24 sh, readIx 64 port with
    | some a, some b => some (some { shelf := a, port := b })
    | _, _ => none

/-- An announcer address: 255 is refused (R62). -/
def readAnnouncer (b : Byte) : Option Byte := if b = Byte.all then none else some b

/-- A value brought to the nearer end of its range: R171. -/
def clampNat (lo hi v : Nat) : Nat := max lo (min hi v)

/-- The fields of WR-REF with the clampings of R62, and whether one of them was clamped. -/
structure RefWrite where
  cfg : RefConfig
  clamped : Bool
  deriving DecidableEq, Repr

/-- The reference configuration of spec/10, octets 0 to 22: `none` where R62 refuses with RANGE. -/
def readRefConfig : List Byte → Option RefWrite
  | [k, rc, g, d, a2, a1, a0, j2, j1, j0, h2, h1, h0, ho1, ho0, rb1, rb0, ov, fx, src, ann, os, op] => do
    let kind ← readKind k
    let rate ← readIx 8 rc
    let gate ← readGate g
    let depth ← readIx 8 d
    let override ← readOptIx 16 ov
    let fixed ← readIx 16 fx
    let source ← readOptIx 24 src
    let announcer ← readAnnouncer ann
    let origin ← readOrigin os op
    let a := fromOctets [a2, a1, a0]
    let j := fromOctets [j2, j1, j0]
    let h := fromOctets [h2, h1, h0]
    let ho := fromOctets [ho1, ho0]
    let rb := fromOctets [rb1, rb0]
    let cfg : RefConfig :=
      { kind := kind, rate := rate, gate := gate, depth := depth, accept := clampNat 1 1000000 a
        reject := clampNat 1 1000000 j, hit := clampNat 0 1000000 h, holdOff := clampNat 0 1000 ho
        restoreBase := clampNat 0 1800 rb, overrideRank := override, fixedRank := fixed, source := source
        announcer := announcer, origin := origin }
    return {
      cfg := cfg
      clamped := cfg.accept != a || cfg.reject != j || cfg.hit != h || cfg.holdOff != ho || cfg.restoreBase != rb }
  | _ => none

/-- The shelf configuration of spec/10, octets 0 to 10: `none` where R86 refuses with RANGE. -/
def readShelfConfig : List Byte → Option ShelfConfig
  | [m, fl, w, d, hr, dr, fr, a1, a0, b1, b0] => do
    let mode ← readMode m
    let floor ← readIx 15 fl
    let window ← readWindow w
    let dialect ← readDialect d
    let holdoverRank ← readIx 15 hr
    let degradedRank ← readIx 15 dr
    let freeRank ← readIx 15 fr
    return {
      mode := mode, floor := floor, window := window, dialect := dialect, holdoverRank := holdoverRank
      degradedRank := degradedRank, freeRank := freeRank, phaseA := BitVec.ofNat 16 (fromOctets [a1, a0])
      phaseB := BitVec.ofNat 16 (fromOctets [b1, b0]) }
  | _ => none

/-- A priority, 1 to 15: R90, R91. -/
def readPrio (b : Byte) : Option (Fin 16) :=
  match readIx 16 (b &&& 0x7F) with
  | none => none
  | some p => if p = 0 then none else some p

/-- The entries of WR-CAND: a reference index, then bit 7 the lockout flag and bits 6 to 0 the priority (spec/10). -/
def readCandidates : List Byte → Option (List Candidate)
  | [] => some []
  | r :: b :: rest => do
    let ref ← readIx 32 r
    let prio ← readPrio b
    let tail ← readCandidates rest
    return { ref := ref, prio := prio, lockout := b.msb } :: tail
  | [_] => none

/-- An in-entry: bit 7 the valid flag, bits 6 to 0 the rank; a rank above 15 is refused whatever the flag (R45). -/
def readInEntry (b : Byte) : Option InEntry :=
  (readIx 16 (b &&& 0x7F)).map fun k => { valid := b.msb, rank := k }

/-- Every octet of a run read by `f`, or none. -/
def readAll {α : Type} (f : Byte → Option α) : List Byte → Option (List α)
  | [] => some []
  | b :: l => do
    let x ← f b
    let rest ← readAll f l
    return x :: rest

/-- Sixteen values as a table half. -/
def toHalf {α : Type} (l : List α) : Option (Vector α 16) :=
  if h : l.length = 16 then some ⟨l.toArray, by simpa using h⟩ else none

/-- The 32 octets of a table after its dialect: `none` where R45 refuses with RANGE. -/
def readTable (l : List Byte) : Option XlateTable := do
  let ins ← readAll readInEntry (l.take 16)
  let outs ← readAll (readIx 16) (l.drop 16)
  let inTable ← toHalf ins
  let outTable ← toHalf outs
  return { inTable := inTable, outTable := outTable }

/-- The latch set of ACK for a reference: any other bit is refused (R175). -/
def readRefLatches (b : Byte) : Option RefLatches :=
  if b.toNat < 32 then
    some { los := b.getLsbD 0, freq := b.getLsbD 1, hit := b.getLsbD 2, timeout := b.getLsbD 3, fail := b.getLsbD 4 }
  else none

/-- The latch set of ACK for a shelf: any other bit is refused (R175). -/
def readShelfLatches (b : Byte) : Option ShelfLatches :=
  if b.toNat < 16 then
    some { holdover := b.getLsbD 0, hard := b.getLsbD 1, loop := b.getLsbD 2, abandon := b.getLsbD 3 }
  else none

/-! ### Building reports -/

/-- An octet with the bits named set. -/
def bitsOctet (l : List Bool) : Byte := BitVec.ofNat 8 (l.foldr (fun b v => 2 * v + b.toNat) 0)

/-- A timer's remaining time in ms, or every octet FFh while stopped: spec/10. -/
def timerOctets (n : Nat) (t : Timer) : List Byte :=
  match t with
  | none => List.replicate n Byte.all
  | some v => octets n (ceilMs v)

/-- A signed offset in three octets, two's complement, or 800000h for none: spec/10. -/
def offsetOctets (o : Option Int) : List Byte :=
  match o with
  | none => [0x80, 0x00, 0x00]
  | some v => octets 3 (BitVec.ofInt 24 v).toNat

/-- spec/10, reference report octet 0. -/
def Kind.octet : Kind → Byte
  | .announced => 0
  | .fixed => 1
  | .derived => 2

/-- spec/10, reference report octet 2. -/
def Gate.octet : Gate → Byte
  | .g800 => 0
  | .g8000 => 1
  | .g80000 => 2

/-- spec/10, reference report octet 23. -/
def RefState.octet : RefState → Byte
  | .disabled => 0
  | .starting => 1
  | .active => 2
  | .holdoff => 3
  | .failed => 4
  | .restoring => 5

/-- spec/10, reference report octet 34, bits 4 and 3. -/
def Qualification.num : Qualification → Nat
  | .unmeasured => 0
  | .inside => 1
  | .outside => 2

/-- spec/10, reference report octet 42, bits 3 to 0. -/
def Source.num : Source → Nat
  | .none => 0
  | .announced => 1
  | .withdrawn => 2
  | .timedOut => 3

/-- The latch octet of a reference: spec/10, ACK. -/
def RefLatches.octet (l : RefLatches) : Byte := bitsOctet [l.los, l.freq, l.hit, l.timeout, l.fail]

/-- The latch octet of a shelf with its companion bit in bit 7: spec/10, ACK. -/
def ShelfLatches.octet (l : ShelfLatches) (companion : Bool) : Byte :=
  bitsOctet [l.holdover, l.hard, l.loop, l.abandon, false, false, false, companion]

/-- An origin line's two octets, or FFh FFh: spec/10. -/
def originOctets (o : Option OriginLine) : List Byte :=
  [ixOctet (o.map OriginLine.shelf), ixOctet (o.map OriginLine.port)]

/-- Octets 0 to 22 of the reference report: spec/10. -/
def RefConfig.octets (c : RefConfig) : List Byte :=
  [c.kind.octet, BitVec.ofNat 8 c.rate.val, c.gate.octet, BitVec.ofNat 8 c.depth.val]
    ++ Machine.octets 3 c.accept ++ Machine.octets 3 c.reject ++ Machine.octets 3 c.hit ++ Machine.octets 2 c.holdOff
    ++ Machine.octets 2 c.restoreBase
    ++ [ixOctet c.overrideRank, BitVec.ofNat 8 c.fixedRank.val, ixOctet c.source, c.announcer] ++ originOctets c.origin

/-- Octet 34 of the reference report: spec/10. -/
def Monitor.octet (m : Monitor) : Byte :=
  BitVec.ofNat 8 ((m.run == .running).toNat + 2 * (m.signal == .lost).toNat + 4 * m.settling.toNat + 8 * m.qual.num
    + 32 * (m.verdict == .good).toNat)

/-- The reference report of RD-REF, 46 octets: spec/10, R23, R59, R83. -/
def State.refReport (s : State) (r : RefIx) : List Byte :=
  let x := s.ref r
  x.cfg.octets ++ [x.rt.state.octet, BitVec.ofNat 8 x.rt.flap.val, x.rt.latches.octet]
    ++ timerOctets 2 x.rt.holdOffTimer ++ timerOctets 3 x.rt.restoreTimer ++ timerOctets 3 x.rt.decayTimer
    ++ [x.mon.octet] ++ offsetOctets x.mon.last ++ offsetOctets x.mon.filtered
    ++ [BitVec.ofNat 8 x.mon.hits, nibbles x.qt.received.val x.qt.source.num] ++ timerOctets 2 x.qt.timer
    ++ [BitVec.ofNat 8 (s.effRank r).val]

/-- spec/10, shelf report octet 0. -/
def Mode.octet : Mode → Byte
  | .nonRevertive => 0
  | .revertive => 1

/-- spec/10, shelf report octet 2. -/
def Window.octet : Window → Byte
  | .short => 0
  | .medium => 1
  | .long => 2

/-- Octets 0 to 10 of the shelf report: spec/10. -/
def ShelfConfig.octets (c : ShelfConfig) : List Byte :=
  [c.mode.octet, BitVec.ofNat 8 c.floor.val, c.window.octet, c.dialect.octet, BitVec.ofNat 8 c.holdoverRank.val,
    BitVec.ofNat 8 c.degradedRank.val, BitVec.ofNat 8 c.freeRank.val]
    ++ Machine.octets 2 c.phaseA.toNat ++ Machine.octets 2 c.phaseB.toNat

/-- One entry as in WR-CAND: spec/10. -/
def Candidate.octets (c : Candidate) : List Byte :=
  [BitVec.ofNat 8 c.ref.val, BitVec.ofNat 8 (128 * c.lockout.toNat + c.prio.val)]

/-- Octets 11 to 27 of the shelf report: the count, the entries in written order, unused entries FFh 00h. -/
def listOctets (l : List Candidate) : List Byte :=
  BitVec.ofNat 8 l.length :: (l.flatMap Candidate.octets ++ (List.replicate (8 - l.length) [Byte.all, 0x00#8]).flatten)

/-- Octets 28 and 29 of the shelf report. -/
def Command.octets : Command → List Byte
  | .none => [0, Byte.all]
  | .manual r => [1, BitVec.ofNat 8 r.val]
  | .forced r => [2, BitVec.ofNat 8 r.val]
  | .hold => [3, Byte.all]

/-- Octet 30 of the shelf report, bits 7 to 4: sub-state or stage. -/
def ShelfState.subNum : ShelfState → Nat
  | .off => 0
  | .free => 0
  | .locked _ => 0
  | .waiting _ _ _ => 1
  | .aligning _ _ _ => 2
  | .holdover .inSpec _ => 3
  | .holdover .degraded _ => 4
  | .holdover .expired _ => 5

/-- The dirty flag: R103. -/
def Selection.dirty : Selection → Bool
  | .clean => false
  | .settling _ => true
  | .deferred => true

/-- The settle timer: R103. -/
def Selection.timer : Selection → Timer
  | .clean => none
  | .settling t => some t
  | .deferred => none

/-- The holdover timer: R88, stopped outside HOLDOVER. -/
def ShelfState.timer : ShelfState → Timer
  | .holdover _ t => t
  | .off => none
  | .free => none
  | .locked _ => none
  | .waiting _ _ _ => none
  | .aligning _ _ _ => none

/-- The shelf report of RD-SHELF, 43 octets: spec/10, R102. -/
def State.shelfReport (s : State) (i : ShelfIx) : List Byte :=
  let x := s.shelf i
  x.cfg.octets ++ listOctets x.list ++ x.command.octets
    ++ [nibbles x.state.subNum x.state.cls.num, ixOctet x.state.current, ixOctet x.state.target, ixOctet x.route,
      BitVec.ofNat 8 x.sel.dirty.toNat]
    ++ timerOctets 2 x.sel.timer ++ timerOctets 4 x.state.timer
    ++ [x.latches.octet x.loopBit, nibbles (s.outRank i).val (s.outCode i).val]

/-- One in-entry: spec/10. -/
def InEntry.octet (e : InEntry) : Byte := BitVec.ofNat 8 (128 * e.valid.toNat + e.rank.val)

/-- The table of RD-XLATE, 33 octets: spec/10. -/
def tableReport (d : Dialect) (t : XlateTable) : List Byte :=
  d.octet :: (t.inTable.toList.map InEntry.octet ++ t.outTable.toList.map fun c => BitVec.ofNat 8 c.val)

/-- The settings of RD-GLOBAL, 7 octets: spec/10. -/
def State.globalReport (s : State) : List Byte :=
  [s.globals.controller, s.ring.station, BitVec.ofNat 8 s.globals.refreshInterval,
    BitVec.ofNat 8 s.globals.announceTimeout, BitVec.ofNat 8 s.globals.alignLimit, s.ring.hopLimit,
    bitsOctet [s.drive == .driving, s.role, s.alarm]]

/-- The counters of RD-COUNT, 14 octets: spec/10. -/
def Counters.report (c : Counters) : List Byte :=
  [c.rxDrop, c.check, c.format, c.relayDrop, c.ttlExp, c.entryRef, c.noticeLost].flatMap fun v =>
    Machine.octets 2 v.toNat

end Sys2Proof.Machine
end

