-- ==== Sys2Proof/Machine/Requests.lean ====
section
/-! DEFINITION. The Management Unit: the order of tests, the access check, and what each request does. A request's
function makes the tests that follow the access check (argument length, then the request's own rule) and answers a
status, the results and the state. -/

namespace Sys2Proof.Machine

/-- The twelve statuses: R171. -/
inductive Status where
  | ok | clamped | badreq | range | state | dup | order | notcand | lower | locked | role | denied
  deriving DecidableEq, Repr

/-- STATUS CODES of spec/10. -/
def Status.octet : Status → Byte
  | .ok => 0x00
  | .clamped => 0x01
  | .badreq => 0x02
  | .range => 0x03
  | .state => 0x04
  | .dup => 0x05
  | .order => 0x06
  | .notcand => 0x07
  | .lower => 0x08
  | .locked => 0x09
  | .role => 0x0A
  | .denied => 0x0B

/-- What the execution of a request gives: R169. -/
structure Answer where
  status : Status
  results : List Byte
  state : State
  deriving DecidableEq, Repr

/-- A refusal changes nothing: R169. -/
def Answer.refuse (st : Status) (s : State) : Answer := { status := st, results := [], state := s }

/-- Executed as written, with no results: R169. -/
def Answer.ok (s : State) : Answer := { status := .ok, results := [], state := s }

/-- A read or an ACK executed: R169. -/
def Answer.give (results : List Byte) (s : State) : Answer := { status := .ok, results := results, state := s }

/-! ### Reads -/

/-- RD-REF: R173. -/
def reqRdRef (args : List Byte) (s : State) : Answer :=
  match args with
  | [r] =>
    match readIx 32 r with
    | none => .refuse .range s
    | some r => .give (s.refReport r) s
  | _ => .refuse .badreq s

/-- RD-SHELF: R173. -/
def reqRdShelf (args : List Byte) (s : State) : Answer :=
  match args with
  | [i] =>
    match readIx 24 i with
    | none => .refuse .range s
    | some i => .give (s.shelfReport i) s
  | _ => .refuse .badreq s

/-- RD-XLATE: R59, R173. -/
def reqRdXlate (args : List Byte) (s : State) : Answer :=
  match args with
  | [d] =>
    match readDialect d with
    | none => .refuse .range s
    | some d => .give (tableReport d (s.table d)) s
  | _ => .refuse .badreq s

/-- RD-GLOBAL: R173. -/
def reqRdGlobal (args : List Byte) (s : State) : Answer :=
  match args with
  | [] => .give s.globalReport s
  | _ => .refuse .badreq s

/-- RD-COUNT: R173. -/
def reqRdCount (args : List Byte) (s : State) : Answer :=
  match args with
  | [] => .give s.ring.counters.report s
  | _ => .refuse .badreq s

/-! ### Writes -/

/-- The write would change a field that an enabled reference keeps: R62. -/
def RefConfig.fixedDiffers (a b : RefConfig) : Bool :=
  a.kind != b.kind || a.rate != b.rate || a.gate != b.gate || a.source != b.source || a.announcer != b.announcer
    || a.origin != b.origin

/-- WR-REF: R62, with the rank change of R56. -/
def reqWrRef (args : List Byte) (s : State) : Answer :=
  match args with
  | [] => .refuse .badreq s
  | r :: rest =>
    if rest.length = 23 then
      match readIx 32 r, readRefConfig rest with
      | some r, some w =>
        if (s.ref r).rt.state != .disabled && (s.ref r).cfg.fixedDiffers w.cfg then .refuse .state s
        else if w.cfg.accept < w.cfg.reject then
          { status := if w.clamped then .clamped else .ok, results := []
            state := s.putRef r { s.ref r with cfg := w.cfg } }
        else .refuse .order s
      | _, _ => .refuse .range s
    else .refuse .badreq s

/-- The effects of a WR-SHELF that passes: R86. It ends with the comparison of R162 whatever fields it changed, where R86
has a write of the settle window or a phase alone trigger nothing: the model's choice, log entry 8. -/
def State.writeShelf (s : State) (i : ShelfIx) (cfg : ShelfConfig) : State :=
  let s1 := s.updShelf i fun x => { x with cfg := cfg }
  let s2 := if (s.shelf i).cfg.mode != cfg.mode || (s.shelf i).cfg.floor != cfg.floor then s1.markShelf i else s1
  (s.follow s2).compareReports

/-- WR-SHELF: R86. -/
def reqWrShelf (args : List Byte) (s : State) : Answer :=
  match args with
  | [] => .refuse .badreq s
  | i :: rest =>
    if rest.length = 11 then
      match readIx 24 i, readShelfConfig rest with
      | some i, some cfg => .ok (s.writeShelf i cfg)
      | _, _ => .refuse .range s
    else .refuse .badreq s

/-- The command names `r`: R96. -/
def Command.names (c : Command) (r : RefIx) : Bool :=
  match c with
  | .manual q => q == r
  | .forced q => q == r
  | .none => false
  | .hold => false

/-- The command names a reference that the list holds with its lockout clear, or none: R96. -/
def Shelf.commandStands (x : Shelf) : Bool :=
  match x.command with
  | .manual r => x.openTo r
  | .forced r => x.openTo r
  | .none => true
  | .hold => true

/-- Step 2 of R92: the switch is abandoned when its target is not in the new list, or locked out there. -/
def State.candTarget (s : State) (i : ShelfIx) : State :=
  match (s.shelf i).state.target with
  | some t => if (s.shelf i).openTo t then s else s.follow (s.abandon i)
  | none => s

/-- Step 3 of R92: the loss of a current reference that is not in the new list. -/
def State.candCurrent (s : State) (i : ShelfIx) : State :=
  match (s.shelf i).state.current with
  | some c => if (s.shelf i).names c then s else s.follow (s.loseCurrent i)
  | none => s

/-- The effects of a WR-CAND that passes, in the order of R92. -/
def State.writeList (s : State) (i : ShelfIx) (l : List Candidate) : State :=
  let s1 := s.updShelf i fun x =>
    let y := { x with list := l }
    if y.commandStands then y else { y with command := .none }
  s.endEvent (((s1.candTarget i).candCurrent i).markShelf i)

/-- Two entries name the same reference: R91, test 4. -/
def namesTwice : List Candidate → Bool
  | [] => false
  | c :: l => l.any (fun d => d.ref == c.ref) || namesTwice l

/-- WR-CAND: R91, R92. -/
def reqWrCand (args : List Byte) (s : State) : Answer :=
  match args with
  | i :: n :: rest =>
    if rest.length = 2 * n.toNat then
      match readIx 24 i, decide (n.toNat ≤ 8), readCandidates rest with
      | some i, true, some l => if namesTwice l then .refuse .dup s else .ok (s.writeList i l)
      | _, _, _ => .refuse .range s
    else .refuse .badreq s
  | _ => .refuse .badreq s

/-- WR-XLATE: R45, with the comparison of R46 and R162, whatever it altered (log entry 8). -/
def reqWrXlate (args : List Byte) (s : State) : Answer :=
  match args with
  | [] => .refuse .badreq s
  | d :: rest =>
    if rest.length = 32 then
      match readDialect d, readTable rest with
      | some d, some t => .ok (s.setTable d t).compareReports
      | _, _ => .refuse .range s
    else .refuse .badreq s

/-- WR-GLOBAL: R172; all six settings in one action, the four magnitudes clamped. -/
def reqWrGlobal (args : List Byte) (s : State) : Answer :=
  match args with
  | [ctl, station, refresh, announce, align, hop] =>
    if ctl = Byte.all ∨ station = 0 ∨ station = Byte.all then .refuse .range s
    else
      let r := clampNat 1 10 refresh.toNat
      let a := clampNat 1 15 announce.toNat
      let l := clampNat 2 30 align.toNat
      let h := clampNat 1 63 hop.toNat
      let clamped := r != refresh.toNat || a != announce.toNat || l != align.toNat || h != hop.toNat
      { status := if clamped then .clamped else .ok
        results := []
        state := { s with
          globals := { controller := ctl, refreshInterval := r, announceTimeout := a, alignLimit := l }
          ring := { s.ring with station := station, hopLimit := BitVec.ofNat 8 h } } }
  | _ => .refuse .badreq s

/-! ### State changes -/

/-- The reference as REF-ON leaves it: R65, R4, R52. -/
def Reference.turnedOn (x : Reference) (timeout : Nat) : Reference :=
  { x with
    rt := { x.rt with state := .starting }
    mon := Monitor.started
    qt := { x.qt with timer := if x.cfg.kind = .announced then some (secTicks timeout) else x.qt.timer } }

/-- REF-ON: R65. -/
def reqRefOn (args : List Byte) (s : State) : Answer :=
  match args with
  | [r] =>
    match readIx 32 r with
    | none => .refuse .range s
    | some r =>
      if (s.ref r).rt.state = .disabled then .ok (s.putRef r ((s.ref r).turnedOn s.globals.announceTimeout))
      else .refuse .state s
  | _ => .refuse .badreq s

/-- The reference as REF-OFF leaves it: R66, R5, R54; the configuration is kept. -/
def Reference.turnedOff (x : Reference) : Reference :=
  { cfg := x.cfg, mon := Monitor.idle, rt := RefDynamic.cold, qt := Quality.cold }

/-- REF-OFF: R66. -/
def reqRefOff (args : List Byte) (s : State) : Answer :=
  match args with
  | [r] =>
    match readIx 32 r with
    | none => .refuse .range s
    | some r =>
      if (s.ref r).rt.state = .disabled then .refuse .state s else .ok (s.putRef r (s.ref r).turnedOff)
  | _ => .refuse .badreq s

/-- SHELF-ON's effects: R94. -/
def State.enableShelf (s : State) (i : ShelfIx) : State :=
  s.endEvent (s.follow (s.updShelf i fun x => { x with state := .free, route := none }.mark))

/-- SHELF-ON: R94. -/
def reqShelfOn (args : List Byte) (s : State) : Answer :=
  match args with
  | [i] =>
    match readIx 24 i with
    | none => .refuse .range s
    | some i => if (s.shelf i).enabled then .refuse .state s else .ok (s.enableShelf i)
  | _ => .refuse .badreq s

/-- Steps 1 to 6 of R95. -/
def State.closeShelf (s : State) (i : ShelfIx) : State :=
  let s1 :=
    match (s.shelf i).state.current with
    | some c => s.offerSn i (some c) none .off false
    | none => s
  (s1.releaseSwitch i).updShelf i fun x =>
    { x with
      route := none, curEdge := none, pendEdge := none, sel := .clean, command := .none, latches := ShelfLatches.clear
      loopBit := false, state := .off }

/-- SHELF-OFF's effects: R95, with the final SQ before the comparison's (R163). -/
def State.disableShelf (s : State) (i : ShelfIx) : State :=
  s.endEvent ((s.follow (s.closeShelf i)).offerSq i)

/-- SHELF-OFF: R95. -/
def reqShelfOff (args : List Byte) (s : State) : Answer :=
  match args with
  | [i] =>
    match readIx 24 i with
    | none => .refuse .range s
    | some i => if (s.shelf i).enabled then .ok (s.disableShelf i) else .refuse .state s
  | _ => .refuse .badreq s

/-! ### Commands -/

/-- The level of a command: R96. -/
def Command.level : Command → Nat
  | .none => 0
  | .manual _ => 1
  | .forced _ => 2
  | .hold => 3

/-- A taken CMD: the command is replaced and the shelf marked; R97. -/
def State.setCommand (s : State) (i : ShelfIx) (c : Command) : State :=
  s.updShelf i fun x => { x with command := c }.mark

/-- Tests 3 to 7 of R97 for the command `c`, which is not CLEAR. -/
def State.commandTests (s : State) (i : ShelfIx) (c : Command) : Option Status :=
  if !(s.shelf i).enabled then some .state
  else if c.level < (s.shelf i).command.level then some .lower
  else
    match c with
    | .none => none
    | .hold => none
    | .forced r =>
      if !(s.shelf i).names r then some .notcand else if !(s.shelf i).openTo r then some .locked else none
    | .manual r =>
      if !(s.shelf i).names r then some .notcand
      else if !(s.shelf i).openTo r then some .locked
      else if !s.eligible i r then some .state
      else none

/-- The command a CMD asks for: kind 1 MANUAL, 2 FORCED, 3 HOLD; `none` where R97 refuses with RANGE. CLEAR (kind 0)
asks for NONE. -/
def readCommand (kind ref : Byte) : Option Command :=
  if kind = 0 then some .none
  else if kind = 1 then (readIx 32 ref).map .manual
  else if kind = 2 then (readIx 32 ref).map .forced
  else if kind = 3 then some .hold
  else none

/-- CMD: R97. CLEAR is subject to tests 1 to 3 alone. -/
def reqCmd (args : List Byte) (s : State) : Answer :=
  match args with
  | [i, kind, ref] =>
    match readIx 24 i, readCommand kind ref with
    | some i, some .none => if (s.shelf i).enabled then .ok (s.setCommand i .none) else .refuse .state s
    | some i, some c =>
      match s.commandTests i c with
      | some st => .refuse st s
      | none => .ok (s.setCommand i c)
    | _, _ => .refuse .range s
  | _ => .refuse .badreq s

/-- The lockout of `r`'s entry set or cleared: R93. -/
def setLockout (r : RefIx) (on : Bool) (l : List Candidate) : List Candidate :=
  l.map fun c => if c.ref == r then { c with lockout := on } else c

/-- The effects of a LOCK that changes the lockout: R93. -/
def State.changeLockout (s : State) (i : ShelfIx) (r : RefIx) (on : Bool) : State :=
  let s1 := s.updShelf i fun x =>
    { x with
      list := setLockout r on x.list
      command := if on && x.command.names r then .none else x.command }
  let s2 := if on && (s1.shelf i).state.target == some r then s1.follow (s1.abandon i) else s1
  s.endEvent (s2.markShelf i)

/-- LOCK: R93. -/
def reqLock (args : List Byte) (s : State) : Answer :=
  match args with
  | [i, r, v] =>
    match readIx 24 i, readIx 32 r, readIx 2 v with
    | some i, some r, some v =>
      if !(s.shelf i).names r then .refuse .notcand s
      else if (s.shelf i).openTo r == (v == 0) then .ok s
      else .ok (s.changeLockout i r (v == 1))
    | _, _, _ => .refuse .range s
  | _ => .refuse .badreq s

/-- CLR-WTR: R73, R74. -/
def reqClrWtr (args : List Byte) (s : State) : Answer :=
  match args with
  | [r] =>
    match readIx 32 r with
    | none => .refuse .range s
    | some r =>
      if (s.ref r).rt.state = .restoring then .ok (s.putRef r { s.ref r with rt := (s.ref r).rt.activate })
      else .refuse .state s
  | _ => .refuse .badreq s

/-- ACK of a reference: R79, R175. -/
def State.ackRef (s : State) (r : RefIx) (named : RefLatches) : State :=
  let x := s.ref r
  s.setRef r { x with rt := { x.rt with latches := x.rt.latches.acknowledge x.live named } }

/-- ACK of a shelf: R100, R175. -/
def State.ackShelf (s : State) (i : ShelfIx) (named : ShelfLatches) : State :=
  s.updShelf i fun x => { x with latches := x.latches.acknowledge x.live named }

/-- ACK: R175. -/
def reqAck (args : List Byte) (s : State) : Answer :=
  match args with
  | [kind, ix, set] =>
    if kind = 0 then
      match readIx 32 ix, readRefLatches set with
      | some r, some named =>
        let t := s.ackRef r named
        .give [(t.ref r).rt.latches.octet] t
      | _, _ => .refuse .range s
    else if kind = 1 then
      match readIx 24 ix, readShelfLatches set with
      | some i, some named =>
        let t := s.ackShelf i named
        .give [(t.shelf i).latches.octet (t.shelf i).loopBit] t
      | _, _ => .refuse .range s
    else .refuse .range s
  | _ => .refuse .badreq s

/-! ### Control -/

/-- CLR-COUNT: R174. -/
def reqClrCount (args : List Byte) (s : State) : Answer :=
  match args with
  | [] => .ok (s.updCounters fun _ => Counters.zero)
  | _ => .refuse .badreq s

/-- Steps 1 and 2 of R177: the queues emptied, the counters 0, the marker RELAY (R40), and one entry reserved. -/
def Ring.restarted (g : Ring) : Ring :=
  { g with rxQ := [], relayQ := [], insertQ := [.reserved], counters := Counters.zero, marker := .relay }

/-- Step 4 of R177 for one reference: R84. -/
def Reference.restarted (x : Reference) : Reference :=
  { x with rt := { x.rt with latches := x.rt.latches.acknowledge x.live RefLatches.all } }

/-- Steps 3, 4 and 5 of R177 for one shelf: R102, R101, R113. -/
def Shelf.restarted (x : Shelf) : Shelf :=
  { x with command := .none, latches := x.latches.acknowledge x.live ShelfLatches.all }.mark

/-- Warm restart: R177, steps 1 to 5 and 7; the reply is placed in its reserved entry by the take (step 6), before
whose place no SQ stands. -/
def State.warmRestart (s : State) : State :=
  (((s.updRing Ring.restarted).mapRefs Reference.restarted).mapShelves fun _ x => x.restarted).fullReport

/-- RESTART: R177. -/
def reqRestart (args : List Byte) (s : State) : Answer :=
  match args with
  | [] => .ok s.warmRestart
  | _ => .refuse .badreq s

/-- TAKE-ROLE: R148. -/
def reqTakeRole (args : List Byte) (s : State) : Answer :=
  match args with
  | [] =>
    if s.role then
      match s.drive with
      | .driving => .ok s
      | .floating => .ok { s with drive := .driving }.fullReport
    else .refuse .role s
  | _ => .refuse .badreq s

/-- The drive state becomes FLOATING, with the purge of R35: R147. -/
def State.enterFloating (s : State) : State :=
  match s.drive with
  | .floating => s
  | .driving => { s with drive := .floating }.updRing fun g => { g with insertQ := purgeNotices g.insertQ }

/-- YIELD-ROLE: R147. -/
def reqYieldRole (args : List Byte) (s : State) : Answer :=
  match args with
  | [] => .ok s.enterFloating
  | _ => .refuse .badreq s

/-! ### Taking a request -/

/-- The requests of spec/10, in the order of their codes. -/
inductive Request where
  | rdRef | rdShelf | rdXlate | rdGlobal | rdCount | wrRef | wrShelf | wrCand | wrXlate | wrGlobal | refOn | refOff
  | shelfOn | shelfOff | cmd | lock | clrWtr | ack | clrCount | restart | takeRole | yieldRole
  deriving DecidableEq, Repr

/-- The request codes of spec/10. -/
def Request.code : Request → Byte
  | .rdRef => 0x01
  | .rdShelf => 0x02
  | .rdXlate => 0x03
  | .rdGlobal => 0x04
  | .rdCount => 0x05
  | .wrRef => 0x10
  | .wrShelf => 0x11
  | .wrCand => 0x12
  | .wrXlate => 0x13
  | .wrGlobal => 0x14
  | .refOn => 0x20
  | .refOff => 0x21
  | .shelfOn => 0x22
  | .shelfOff => 0x23
  | .cmd => 0x30
  | .lock => 0x31
  | .clrWtr => 0x32
  | .ack => 0x33
  | .clrCount => 0x40
  | .restart => 0x41
  | .takeRole => 0x42
  | .yieldRole => 0x43

/-- Every request of spec/10. -/
def allRequests : List Request :=
  [.rdRef, .rdShelf, .rdXlate, .rdGlobal, .rdCount, .wrRef, .wrShelf, .wrCand, .wrXlate, .wrGlobal, .refOn, .refOff,
    .shelfOn, .shelfOff, .cmd, .lock, .clrWtr, .ack, .clrCount, .restart, .takeRole, .yieldRole]

/-- The request a code names, if any: R171, test 1. -/
def requestOf (code : Byte) : Option Request := allRequests.find? fun q => q.code == code

/-- The access check applies to every class but Read: R170. -/
def Request.isRead : Request → Bool
  | .rdRef | .rdShelf | .rdXlate | .rdGlobal | .rdCount => true
  | .wrRef | .wrShelf | .wrCand | .wrXlate | .wrGlobal | .refOn | .refOff | .shelfOn | .shelfOff | .cmd | .lock
  | .clrWtr | .ack | .clrCount | .restart | .takeRole | .yieldRole => false

/-- The access check refuses: a controller address is set and SRC differs from it; R170. -/
def State.denies (s : State) (src : Byte) : Bool := s.globals.controller != 0 && src != s.globals.controller

/-- The tests and effects of a request after the access check: R171, tests 3 and 4. -/
def Request.run : Request → List Byte → State → Answer
  | .rdRef => reqRdRef
  | .rdShelf => reqRdShelf
  | .rdXlate => reqRdXlate
  | .rdGlobal => reqRdGlobal
  | .rdCount => reqRdCount
  | .wrRef => reqWrRef
  | .wrShelf => reqWrShelf
  | .wrCand => reqWrCand
  | .wrXlate => reqWrXlate
  | .wrGlobal => reqWrGlobal
  | .refOn => reqRefOn
  | .refOff => reqRefOff
  | .shelfOn => reqShelfOn
  | .shelfOff => reqShelfOff
  | .cmd => reqCmd
  | .lock => reqLock
  | .clrWtr => reqClrWtr
  | .ack => reqAck
  | .clrCount => reqClrCount
  | .restart => reqRestart
  | .takeRole => reqTakeRole
  | .yieldRole => reqYieldRole

/-- The MU tests a request in the order of R171 and executes or refuses it. -/
def State.execute (s : State) (src : Byte) (payload : List Byte) : Answer :=
  match payload with
  | code :: _ :: args =>
    match requestOf code with
    | none => .refuse .badreq s
    | some q => if !q.isRead && s.denies src then .refuse .denied s else q.run args s
  | _ => .refuse .badreq s

/-- The code and tag a reply echoes, 00h for each absent octet: R169, R171. -/
def replyHead : List Byte → List Byte
  | [] => [0, 0]
  | [code] => [code, 0]
  | code :: tag :: _ => [code, tag]

/-- The take of the REQ `f` at the head of the Receive Queue, when the Insert Queue has room: R30, R169, R33. -/
def State.takeRequest (s : State) (f : Frame) : State :=
  let s1 := (s.updRing fun g => { g with rxQ := g.rxQ.tail }).pushInsert .reserved
  let a := s1.execute f.src f.payload
  let reply := a.state.makeFrame f.src typeREP (replyHead f.payload ++ [a.status.octet] ++ a.results)
  a.state.updRing fun g => { g with insertQ := fillReserved reply g.insertQ }

end Sys2Proof.Machine
end

