-- ==== Sys2Proof/Machine/Port.lean ====
section
/-! DEFINITION. The Status Ring Port's receiver and transmitter, the Frame Handler, and the taking of a Quality
Announcement; the ring's commands. -/

namespace Sys2Proof.Machine

/-! ### The receiver -/

/-- One bit time of STI in WAIT-IDLE: R25. -/
def waitBit (highs : Nat) (high : Bool) : Receiver :=
  if high then if highs + 1 < Config.idleBits then .waitIdle (highs + 1) else .ready else .waitIdle 0

/-- One bit time of STI while no frame is being received; READY stays READY, and the low bit that begins a frame belongs
to OCTET_TAKEN. -/
def Receiver.bit (v : Receiver) (high : Bool) : Receiver :=
  match v with
  | .waitIdle n => waitBit n high
  | .ready => .ready
  | .inFrame l n e => .inFrame l n e

/-- The ten bit times of an octet: a low start bit, the data least significant bit first, the stop bit; R181. -/
def octetBits (b : Byte) (stop : Bool) : List Bool := false :: ((List.range 8).map fun k => b.getLsbD k) ++ [stop]

/-- The most octets the receiver stores: R25. -/
def storedOctets : Nat := 95

/-- An octet is stored (at most 95) and counted (to 96), and a low stop bit is recorded: R25. -/
def storeOctet (l : List Byte) (n : Nat) (e : Bool) (b : Byte) (stop : Bool) : Receiver :=
  .inFrame (if l.length < storedOctets then l ++ [b] else l) (min 96 (n + 1)) (e || !stop)

/-- One octet passes on STI: R25. -/
def Receiver.octet (v : Receiver) (b : Byte) (stop : Bool) : Receiver :=
  match v with
  | .waitIdle n => (octetBits b stop).foldl Receiver.bit (.waitIdle n)
  | .ready => storeOctet [] 0 false b stop
  | .inFrame l n e => storeOctet l n e b stop

/-- The counter an arriving frame raises, or the frame that passes: R26. -/
inductive Arrival where
  | badFormat
  | badCheck
  | passed (f : Frame)
  deriving DecidableEq, Repr

/-- The header, payload and CHECK of a run of octets whose length is at least 7: test 3 of R26. -/
def readFrame (l : List Byte) : Arrival :=
  match l with
  | dest :: src :: type :: ttl :: len :: rest =>
    if len.toNat ≤ Config.maxPayload ∧ rest.length = len.toNat + 2 then
      .passed { dest := dest, src := src, type := type, ttl := ttl, payload := rest.take len.toNat }
    else .badFormat
  | _ => .badFormat

/-- The tests of R26 in their order, on the stored octets, their count and the framing error. -/
def testFrame (l : List Byte) (count : Nat) (framingError : Bool) : Arrival :=
  if framingError || decide (count < 7) || decide (95 < count) then .badFormat
  else if crc16 (l.take (l.length - 2)) != BitVec.ofNat 16 (fromOctets (l.drop (l.length - 2))) then .badCheck
  else readFrame l

/-- A frame is offered to the Receive Queue: R28. -/
def State.offerRx (s : State) (f : Frame) : State :=
  if s.ring.rxQ.length < Config.rxCapacity then s.updRing fun g => { g with rxQ := g.rxQ ++ [f] }
  else s.updCounters Counters.incRxDrop

/-- The outcome of an arrival: R26. -/
def State.arrive (s : State) (a : Arrival) : State :=
  match a with
  | .badFormat => s.updCounters Counters.incFormat
  | .badCheck => s.updCounters Counters.incCheck
  | .passed f => s.offerRx f

/-- The frame in reception has arrived, and the receiver is READY: R25, R26. No frame in reception, no arrival. -/
def State.frameArrives (s : State) : State :=
  match s.ring.receiver with
  | .inFrame l n e => (s.updRing fun g => { g with receiver := .ready }).arrive (testFrame l n e)
  | .ready => s
  | .waitIdle _ => s

/-! ### Relaying -/

/-- A pass frame is relayed with its TTL lowered, or counted: R31. -/
def State.relay (s : State) (f : Frame) : State :=
  if f.ttl.toNat < 2 then s.updCounters Counters.incTtlExp
  else if s.ring.relayQ.length < Config.relayCapacity then
    s.updRing fun g => { g with relayQ := g.relayQ ++ [{ f with ttl := f.ttl - 1 }] }
  else s.updCounters Counters.incRelayDrop

/-! ### Quality announcements -/

/-- One entry of a QA: spec/10. -/
structure QaEntry where
  ref : Byte
  dialect : BitVec 3
  active : Bool
  code : Code
  deriving DecidableEq, Repr

/-- The two octets of a QA entry: spec/10. -/
def readQaEntry (a b : Byte) : QaEntry :=
  { ref := a, dialect := b.extractLsb' 5 3, active := b.getLsbD 4, code := Fin.ofNat 16 b.toNat }

/-- The entries of a QA payload: spec/10. -/
def readQaEntries : List Byte → List QaEntry
  | a :: b :: l => readQaEntry a b :: readQaEntries l
  | _ => []

/-- The dialect an entry names: R49, test 1. -/
def QaEntry.dialect? (e : QaEntry) : Option Dialect :=
  if e.dialect = 1 then some .one else if e.dialect = 2 then some .two else none

/-- In-translation: the rank of a code in a dialect, if its in-entry is valid; R43. -/
def State.inTranslate (s : State) (d : Dialect) (c : Code) : Option Rank :=
  let e := (s.table d).inTable[c]
  if e.valid then some e.rank else none

/-- What an accepted entry makes of the received rank, or `none` where the entry is refused: the tests of R49 in their
order, then R50 or R51. -/
def State.acceptEntry (s : State) (src : Byte) (e : QaEntry) : Option (RefIx × Quality) :=
  match readIx 32 e.ref, e.dialect? with
  | some r, some d =>
    let x := s.ref r
    if x.cfg.kind = .announced ∧ x.rt.state ≠ .disabled ∧ x.cfg.announcer ≠ 0 ∧ x.cfg.announcer = src then
      if e.active then
        match s.inTranslate d e.code with
        | some k =>
          some (r, { received := k, source := .announced, timer := some (secTicks s.globals.announceTimeout) })
        | none => none
      else some (r, { received := Rank.unusable, source := .withdrawn, timer := none })
    else none
  | _, _ => none

/-- One entry is processed against the record as the entries before it have left it: R48. -/
def State.takeEntry (src : Byte) (s : State) (e : QaEntry) : State :=
  match s.acceptEntry src e with
  | some (r, q) => s.setRef r { s.ref r with qt := q }
  | none => s.updCounters Counters.incEntryRef

/-- The entries of one QA, as one event: every effective rank that differs at the end is delivered; R48. -/
def State.announce (s : State) (src : Byte) (l : List QaEntry) : State :=
  s.endEvent (s.follow (l.foldl (State.takeEntry src) s))

/-- The QA hand-off of a broadcast QA: R32. -/
def State.handOff (s : State) (f : Frame) : State :=
  if f.payload.length % 2 = 0 ∧ 2 ≤ f.payload.length ∧ f.payload.length ≤ 16 then
    s.announce f.src (readQaEntries f.payload)
  else s.updCounters Counters.incFormat

/-! ### The Frame Handler -/

/-- The take of a pass frame: R31 and, for a broadcast QA, R32. -/
def State.passFrame (s : State) (f : Frame) : State :=
  let s1 := s.relay f
  if f.type = typeQA ∧ f.dest = Byte.all then s1.handOff f else s1

/-- `s` with the head of the Receive Queue removed. -/
def State.dropHead (s : State) : State := s.updRing fun g => { g with rxQ := g.rxQ.tail }

/-- The Frame Handler takes the head of the Receive Queue: strip, consume or pass; R29. A REQ stays at the head while
the Insert Queue has no free entry; R30. -/
def State.takeHead (s : State) : State :=
  match s.ring.rxQ with
  | [] => s
  | f :: _ =>
    if f.src = s.ring.station then s.dropHead
    else if f.dest = s.ring.station then
      if f.type = typeREQ then if s.insertRoom then s.takeRequest f else s else s.dropHead
    else s.dropHead.passFrame f

/-! ### The transmitter -/

/-- The queue the arbiter serves, if a queue holds a frame: R36. -/
def Ring.choice (g : Ring) : Option Marker :=
  match g.relayQ, g.insertQ, g.marker with
  | [], [], _ => none
  | _ :: _, [], _ => some .relay
  | [], _ :: _, _ => some .insert
  | _ :: _, _ :: _, .insert => some .relay
  | _ :: _, _ :: _, .relay => some .insert

/-- The levels of a run of octets on the line, bit time by bit time: R181. -/
def lineBits (l : List Byte) : List Bool := l.flatMap fun b => octetBits b true

/-- MCLK ticks that `n` octets take on the line, ten bit times each: R36. -/
def octetTicks (n : Nat) : Nat := n * 10 * Config.bitTicks

/-- The level of STO at this MCLK tick, high is true: the bit time reached in the frame being sent, and idle-high when
all of it is sent or none is; R36, R181. -/
def Ring.sto (g : Ring) : Bool :=
  match g.sending with
  | none => true
  | some l => (lineBits l).getD ((octetTicks l.length - g.sendLeft) / Config.bitTicks) true

/-- The pin STO: R36, R40 (idle-high while RESETn is low). -/
def State.sto (s : State) : Bool := !s.resetn || s.ring.sto

/-- The transmission of frame `f` begins: the frame with a fresh CHECK, its bit times still to send, the queue served;
R36. -/
def Ring.send (g : Ring) (f : Frame) (served : Marker) : Ring :=
  { g with sending := some f.wire, sendLeft := octetTicks f.wire.length, marker := served }

/-- The head frame of the queue chosen leaves it and is sent, once the line is idle and its 16 bit times have passed:
R36. A reserved entry holds no frame; a reply fills it in the event that reserved it (R30), so none is ever at the head
between events. -/
def Ring.startSending (g : Ring) : Ring :=
  match g.sending, g.idleLeft, g.choice with
  | none, 0, some .relay =>
    match g.relayQ with
    | f :: q => { g with relayQ := q }.send f .relay
    | [] => g
  | none, 0, some .insert =>
    match g.insertQ with
    | e :: q =>
      match e.frame? with
      | some f => { g with insertQ := q }.send f .insert
      | none => g
    | [] => g
  | none, 0, none => g
  | none, _ + 1, _ => g
  | some _, _, _ => g

/-- The frame being sent ends once its last bit time has passed, and STO is idle-high for at least 16 bit times: R36. -/
def Ring.endSending (g : Ring) : Ring :=
  match g.sending, g.sendLeft with
  | some _, 0 => { g with sending := none, idleLeft := Config.idleTicks }
  | some _, _ + 1 => g
  | none, _ => g

/-! ### The commands of the port -/

/-- RECEIVER_READY: R25; the levels count in WAIT-IDLE alone (log entry 5). -/
def execReceiverReady (levels : List Bool) (s : State) : Host.Outcome State Fault Refusal :=
  s.running fun s => s.updRing fun g => { g with receiver := levels.foldl Receiver.bit g.receiver }

/-- OCTET_TAKEN: R25. -/
def execOctetTaken (octet : Byte) (stop : Bool) (s : State) : Host.Outcome State Fault Refusal :=
  s.running fun s => s.updRing fun g => { g with receiver := g.receiver.octet octet stop }

/-- FRAME_ARRIVAL: R25, R26, R28. -/
def execFrameArrival (s : State) : Host.Outcome State Fault Refusal := s.running State.frameArrives

/-- FRAME_TAKE: R29 to R32, R48, and R30 for a REQ. -/
def execFrameTake (s : State) : Host.Outcome State Fault Refusal := s.running State.takeHead

/-- TRANSMISSION_START: R36; before its idle has passed it changes nothing (log entry 4). -/
def execTransmissionStart (s : State) : Host.Outcome State Fault Refusal :=
  s.running fun s => s.updRing Ring.startSending

/-- TRANSMISSION_END: R36; before the frame's last bit time has passed it changes nothing (log entry 4). -/
def execTransmissionEnd (s : State) : Host.Outcome State Fault Refusal :=
  s.running fun s => s.updRing Ring.endSending

end Sys2Proof.Machine
end

