-- ==== Sys2Proof/Machine/Pins.lean ====
section
/-! DEFINITION. The commands of the pins ROLE and RESETn, and the passing of one MCLK tick. -/

namespace Sys2Proof.Machine

/-- ROLE_FALLING_EDGE: R147. While RESETn is low the pin's level alone changes. -/
def execRoleFallingEdge (s : State) : Host.Outcome State Fault Refusal :=
  .next { s with role := false }.enterFloating

/-- ROLE_RISING_EDGE: the drive state is unchanged, and the level is read by TAKE-ROLE and RD-GLOBAL; R147. -/
def execRoleRisingEdge (s : State) : Host.Outcome State Fault Refusal := .next { s with role := true }

/-- RESET_ASSERT: the part holds its cold-reset content; R179. -/
def execResetAssert (s : State) : Host.Outcome State Fault Refusal :=
  .next (State.cold s.role s.grants s.pending)

/-- RESET_RELEASE: the rising edge of RESETn, if it was low; R180, R37. -/
def execResetRelease (straps : BitVec 6) (s : State) : Host.Outcome State Fault Refusal :=
  .next (if s.resetn then s
    else { s with
      resetn := true
      refreshTimer := some (secTicks s.globals.refreshInterval)
      ring := { s.ring with station := 64 + straps.setWidth 8, receiver := .waitIdle 0 } })

/-! ### The passing of time -/

/-- `d` ticks pass at a reference: its monitor, its three timers and its announcement timer. -/
def Reference.elapse (d : Nat) (x : Reference) : Reference :=
  { x with
    mon := x.mon.elapse d
    rt := { x.rt with
      holdOffTimer := Timer.elapse d x.rt.holdOffTimer
      restoreTimer := Timer.elapse d x.rt.restoreTimer
      decayTimer := Timer.elapse d x.rt.decayTimer }
    qt := { x.qt with timer := Timer.elapse d x.qt.timer } }

/-- `d` ticks pass at a settle timer. -/
def Selection.elapse (d : Nat) : Selection → Selection
  | .settling t => .settling (t - d)
  | .clean => .clean
  | .deferred => .deferred

/-- `d` ticks pass at a holdover timer. -/
def ShelfState.elapse (d : Nat) : ShelfState → ShelfState
  | .holdover g t => .holdover g (Timer.elapse d t)
  | .off => .off
  | .free => .free
  | .locked c => .locked c
  | .waiting c t b => .waiting c t b
  | .aligning c t b => .aligning c t b

/-- `d` ticks pass at a shelf: its settle timer and its holdover timer. -/
def Shelf.elapse (d : Nat) (x : Shelf) : Shelf := { x with sel := x.sel.elapse d, state := x.state.elapse d }

/-- `d` MCLK ticks pass with no event: every running timer loses them, down to 0; every open gate's tick count rises;
the frame and the closing idle on STO run. Nothing expires by itself: an expiry that has come due is taken by the event
of its own command (log entry 4). -/
def State.elapse (d : Nat) (s : State) : State :=
  { (s.mapRefs (Reference.elapse d)).mapShelves fun _ x => x.elapse d with
    engines := Vector.ofFn fun e => s.engines[e].map fun h => { h with timer := h.timer - d }
    refreshTimer := Timer.elapse d s.refreshTimer
    ring := { s.ring with sendLeft := s.ring.sendLeft - d, idleLeft := s.ring.idleLeft - d } }

/-- One MCLK tick with no command: DESIGN CHOICE, log entry 4. While RESETn is low every timer is stopped (R179). -/
def State.idleTick (s : State) : State := if s.resetn then s.elapse 1 else s

end Sys2Proof.Machine
end

