-- ==== Sys2Proof/Machine/Commands.lean ====
section
/-! DEFINITION. The request commands. Each is the arrival of its REQ frame at the Receive Queue and, when that frame is
then at the head, its take in the same step (R28, R29, R30; log entry 5). A REQ that finds frames ahead of it, or no
reply room, stands in the Receive Queue for FRAME_TAKE. -/

namespace Sys2Proof.Machine

/-- A REQ from `src` with this payload, addressed to the part; its TTL is not looked at while it is addressed to the
part (R38). DESIGN CHOICE (log entry 5): the TTL is the hop limit in force. -/
def State.requestFrame (s : State) (src : Byte) (payload : List Byte) : Frame :=
  { dest := s.ring.station, src := src, type := typeREQ, ttl := s.ring.hopLimit, payload := payload }

/-- The REQ arrives and, if the Receive Queue was empty, is taken: R26 (size), R28, R29. -/
def State.submit (s : State) (src : Byte) (payload : List Byte) : State :=
  if payload.length ≤ Config.maxPayload then
    match s.ring.rxQ with
    | [] => (s.offerRx (s.requestFrame src payload)).takeHead
    | _ :: _ => s.offerRx (s.requestFrame src payload)
  else s.updCounters Counters.incFormat

/-- UNKNOWN_REQUEST_CODE: R171. -/
def execUnknownRequestCode (src : Byte) (payload : List Byte) (s : State) : Host.Outcome State Fault Refusal :=
  s.running fun s => s.submit src payload

/-- RD_REF: R173. -/
def execRdRef (src tag : Byte) (args : List Byte) (s : State) : Host.Outcome State Fault Refusal :=
  s.running fun s => s.submit src (0x01 :: tag :: args)

/-- RD_SHELF: R173. -/
def execRdShelf (src tag : Byte) (args : List Byte) (s : State) : Host.Outcome State Fault Refusal :=
  s.running fun s => s.submit src (0x02 :: tag :: args)

/-- RD_XLATE: R173. -/
def execRdXlate (src tag : Byte) (args : List Byte) (s : State) : Host.Outcome State Fault Refusal :=
  s.running fun s => s.submit src (0x03 :: tag :: args)

/-- RD_GLOBAL: R173. -/
def execRdGlobal (src tag : Byte) (args : List Byte) (s : State) : Host.Outcome State Fault Refusal :=
  s.running fun s => s.submit src (0x04 :: tag :: args)

/-- RD_COUNT: R173. -/
def execRdCount (src tag : Byte) (args : List Byte) (s : State) : Host.Outcome State Fault Refusal :=
  s.running fun s => s.submit src (0x05 :: tag :: args)

/-- WR_REF: R62. -/
def execWrRef (src tag : Byte) (args : List Byte) (s : State) : Host.Outcome State Fault Refusal :=
  s.running fun s => s.submit src (0x10 :: tag :: args)

/-- WR_SHELF: R86. -/
def execWrShelf (src tag : Byte) (args : List Byte) (s : State) : Host.Outcome State Fault Refusal :=
  s.running fun s => s.submit src (0x11 :: tag :: args)

/-- WR_CAND: R91, R92. -/
def execWrCand (src tag : Byte) (args : List Byte) (s : State) : Host.Outcome State Fault Refusal :=
  s.running fun s => s.submit src (0x12 :: tag :: args)

/-- WR_XLATE: R45. -/
def execWrXlate (src tag : Byte) (args : List Byte) (s : State) : Host.Outcome State Fault Refusal :=
  s.running fun s => s.submit src (0x13 :: tag :: args)

/-- WR_GLOBAL: R172. -/
def execWrGlobal (src tag : Byte) (args : List Byte) (s : State) : Host.Outcome State Fault Refusal :=
  s.running fun s => s.submit src (0x14 :: tag :: args)

/-- REF_ON: R65. -/
def execRefOn (src tag : Byte) (args : List Byte) (s : State) : Host.Outcome State Fault Refusal :=
  s.running fun s => s.submit src (0x20 :: tag :: args)

/-- REF_OFF: R66. -/
def execRefOff (src tag : Byte) (args : List Byte) (s : State) : Host.Outcome State Fault Refusal :=
  s.running fun s => s.submit src (0x21 :: tag :: args)

/-- SHELF_ON: R94. -/
def execShelfOn (src tag : Byte) (args : List Byte) (s : State) : Host.Outcome State Fault Refusal :=
  s.running fun s => s.submit src (0x22 :: tag :: args)

/-- SHELF_OFF: R95. -/
def execShelfOff (src tag : Byte) (args : List Byte) (s : State) : Host.Outcome State Fault Refusal :=
  s.running fun s => s.submit src (0x23 :: tag :: args)

/-- CMD_CLEAR: R97. -/
def execCmdClear (src tag shelf ref : Byte) (s : State) : Host.Outcome State Fault Refusal :=
  s.running fun s => s.submit src [0x30, tag, shelf, 0, ref]

/-- CMD_MANUAL: R97. -/
def execCmdManual (src tag shelf ref : Byte) (s : State) : Host.Outcome State Fault Refusal :=
  s.running fun s => s.submit src [0x30, tag, shelf, 1, ref]

/-- CMD_FORCED: R97. -/
def execCmdForced (src tag shelf ref : Byte) (s : State) : Host.Outcome State Fault Refusal :=
  s.running fun s => s.submit src [0x30, tag, shelf, 2, ref]

/-- CMD_HOLD: R97. -/
def execCmdHold (src tag shelf ref : Byte) (s : State) : Host.Outcome State Fault Refusal :=
  s.running fun s => s.submit src [0x30, tag, shelf, 3, ref]

/-- LOCK: R93. -/
def execLock (src tag : Byte) (args : List Byte) (s : State) : Host.Outcome State Fault Refusal :=
  s.running fun s => s.submit src (0x31 :: tag :: args)

/-- CLR_WTR: R74. -/
def execClrWtr (src tag : Byte) (args : List Byte) (s : State) : Host.Outcome State Fault Refusal :=
  s.running fun s => s.submit src (0x32 :: tag :: args)

/-- ACK: R175. -/
def execAck (src tag : Byte) (args : List Byte) (s : State) : Host.Outcome State Fault Refusal :=
  s.running fun s => s.submit src (0x33 :: tag :: args)

/-- CLR_COUNT: R174. -/
def execClrCount (src tag : Byte) (args : List Byte) (s : State) : Host.Outcome State Fault Refusal :=
  s.running fun s => s.submit src (0x40 :: tag :: args)

/-- RESTART: R177. -/
def execRestart (src tag : Byte) (args : List Byte) (s : State) : Host.Outcome State Fault Refusal :=
  s.running fun s => s.submit src (0x41 :: tag :: args)

/-- TAKE_ROLE: R148. -/
def execTakeRole (src tag : Byte) (args : List Byte) (s : State) : Host.Outcome State Fault Refusal :=
  s.running fun s => s.submit src (0x42 :: tag :: args)

/-- YIELD_ROLE: R147. -/
def execYieldRole (src tag : Byte) (args : List Byte) (s : State) : Host.Outcome State Fault Refusal :=
  s.running fun s => s.submit src (0x43 :: tag :: args)

end Sys2Proof.Machine
end

