-- ==== Sys2Proof/Machine/Dispatch.lean ====
section
/-! DEFINITION. One arm for each command. -/

namespace Sys2Proof.Machine

def exec (i : Instr) (s : State) : Host.Outcome State Fault Refusal :=
  match i with
  | .frameArrival => Sys2Proof.Machine.execFrameArrival s
  | .frameTake => Sys2Proof.Machine.execFrameTake s
  | .transmissionStart => Sys2Proof.Machine.execTransmissionStart s
  | .comparisonPulse r cycles ticks => Sys2Proof.Machine.execComparisonPulse r cycles ticks s
  | .activityWatchExpiry r => Sys2Proof.Machine.execActivityWatchExpiry r s
  | .holdOffExpiry r => Sys2Proof.Machine.execHoldOffExpiry r s
  | .restoreWaitExpiry r => Sys2Proof.Machine.execRestoreWaitExpiry r s
  | .decayExpiry r => Sys2Proof.Machine.execDecayExpiry r s
  | .announcementTimerExpiry r => Sys2Proof.Machine.execAnnouncementTimerExpiry r s
  | .settleTimerExpiry sh => Sys2Proof.Machine.execSettleTimerExpiry sh s
  | .engineDone e grant => Sys2Proof.Machine.execEngineDone e grant s
  | .alignmentLimitExpiry e grant => Sys2Proof.Machine.execAlignmentLimitExpiry e grant s
  | .holdoverPhaseExpiry sh => Sys2Proof.Machine.execHoldoverPhaseExpiry sh s
  | .refreshExpiry => Sys2Proof.Machine.execRefreshExpiry s
  | .roleFallingEdge => Sys2Proof.Machine.execRoleFallingEdge s
  | .resetAssert => Sys2Proof.Machine.execResetAssert s
  | .resetRelease straps => Sys2Proof.Machine.execResetRelease straps s
  | .unknownRequestCode src payload => Sys2Proof.Machine.execUnknownRequestCode src payload s
  | .rdRef src tag args => Sys2Proof.Machine.execRdRef src tag args s
  | .rdShelf src tag args => Sys2Proof.Machine.execRdShelf src tag args s
  | .rdXlate src tag args => Sys2Proof.Machine.execRdXlate src tag args s
  | .rdGlobal src tag args => Sys2Proof.Machine.execRdGlobal src tag args s
  | .rdCount src tag args => Sys2Proof.Machine.execRdCount src tag args s
  | .wrRef src tag args => Sys2Proof.Machine.execWrRef src tag args s
  | .wrShelf src tag args => Sys2Proof.Machine.execWrShelf src tag args s
  | .wrCand src tag args => Sys2Proof.Machine.execWrCand src tag args s
  | .wrXlate src tag args => Sys2Proof.Machine.execWrXlate src tag args s
  | .wrGlobal src tag args => Sys2Proof.Machine.execWrGlobal src tag args s
  | .refOn src tag args => Sys2Proof.Machine.execRefOn src tag args s
  | .refOff src tag args => Sys2Proof.Machine.execRefOff src tag args s
  | .shelfOn src tag args => Sys2Proof.Machine.execShelfOn src tag args s
  | .shelfOff src tag args => Sys2Proof.Machine.execShelfOff src tag args s
  | .cmdClear src tag shelf ref => Sys2Proof.Machine.execCmdClear src tag shelf ref s
  | .cmdManual src tag shelf ref => Sys2Proof.Machine.execCmdManual src tag shelf ref s
  | .cmdForced src tag shelf ref => Sys2Proof.Machine.execCmdForced src tag shelf ref s
  | .cmdHold src tag shelf ref => Sys2Proof.Machine.execCmdHold src tag shelf ref s
  | .lock src tag args => Sys2Proof.Machine.execLock src tag args s
  | .clrWtr src tag args => Sys2Proof.Machine.execClrWtr src tag args s
  | .ack src tag args => Sys2Proof.Machine.execAck src tag args s
  | .clrCount src tag args => Sys2Proof.Machine.execClrCount src tag args s
  | .restart src tag args => Sys2Proof.Machine.execRestart src tag args s
  | .takeRole src tag args => Sys2Proof.Machine.execTakeRole src tag args s
  | .yieldRole src tag args => Sys2Proof.Machine.execYieldRole src tag args s
  | .roleRisingEdge => Sys2Proof.Machine.execRoleRisingEdge s
  | .receiverReady levels => Sys2Proof.Machine.execReceiverReady levels s
  | .octetTaken octet stop => Sys2Proof.Machine.execOctetTaken octet stop s
  | .transmissionEnd => Sys2Proof.Machine.execTransmissionEnd s

end Sys2Proof.Machine
end

