-- ==== Sys2Proof/Machine/Step.lean ====
section
/-! DEFINITION. One step: the command at the front of the queue, or one MCLK tick. -/

namespace Sys2Proof.Machine

/-- `s` with the command the word spells put at the front of its queue; unchanged where the word spells none. -/
def State.withFetchWord (s : State) (nbits w : Nat) : State :=
  match decodeTableWord nbits w with
  | some i => { s with pending := i :: s.pending }
  | none => s

/-- Take the command at the front of the queue, or let one tick pass (log entry 4). -/
def step (s : State) : Host.Outcome State Fault Refusal :=
  match s.pending with
  | [] => .next s.idleTick
  | c :: rest => exec c { s with pending := rest }

end Sys2Proof.Machine
end

