-- ==== Sys2Proof/Safety.lean ====
section
/-! DEFINITION. What the statements speak of: when a request is taken at once, the reply it gets, what an event of the
shelves leaves alone, and the invariants of the part. -/

namespace Sys2Proof.Machine

/-! ### Requests -/

/-- A request from `src` is taken in the step that brings it: RESETn is high, the Receive Queue is empty, the Insert
Queue has a free entry and none reserved, and the part would not strip the frame; R28 to R30. -/
abbrev State.readyFor (s : State) (src : Byte) : Prop :=
  s.resetn = true ∧ s.ring.rxQ = [] ∧ s.ring.insertQ.length < Config.insertCapacity
    ∧ InsertEntry.reserved ∉ s.ring.insertQ ∧ src ≠ s.ring.station

/-- A request from `src` passes the access check: R170. -/
abbrev State.admits (s : State) (src : Byte) : Prop := s.globals.controller = 0 ∨ src = s.globals.controller

/-- A REP with the header in force in `s`: R33, R169, spec/10. -/
def State.replyFrame (s : State) (src code tag status : Byte) (results : List Byte) : Frame :=
  { dest := src, src := s.ring.station, type := 0x31, ttl := s.ring.hopLimit
    payload := [code, tag, status] ++ results }

/-- `s` with one more REP at the tail of the Insert Queue. -/
def State.withReply (s : State) (f : Frame) : State :=
  { s with ring := { s.ring with insertQ := s.ring.insertQ ++ [.rep f] } }

/-- The first frame that the event from `s` to `t` places in the Insert Queue is the REP `f`: R30. -/
def RepliedWith (s t : State) (f : Frame) : Prop := t.ring.insertQ[s.ring.insertQ.length]? = some (.rep f)

/-- The octet that carries an index. -/
def indexOctet {n : Nat} (i : Fin n) : Byte := BitVec.ofNat 8 i.val

/-- The SRC and the payload of the REQ a request command sends; spec/10 gives the codes. -/
def requestSent : Instr → Option (Byte × List Byte)
  | .rdRef src tag args => some (src, 0x01 :: tag :: args)
  | .rdShelf src tag args => some (src, 0x02 :: tag :: args)
  | .rdXlate src tag args => some (src, 0x03 :: tag :: args)
  | .rdGlobal src tag args => some (src, 0x04 :: tag :: args)
  | .rdCount src tag args => some (src, 0x05 :: tag :: args)
  | .wrRef src tag args => some (src, 0x10 :: tag :: args)
  | .wrShelf src tag args => some (src, 0x11 :: tag :: args)
  | .wrCand src tag args => some (src, 0x12 :: tag :: args)
  | .wrXlate src tag args => some (src, 0x13 :: tag :: args)
  | .wrGlobal src tag args => some (src, 0x14 :: tag :: args)
  | .refOn src tag args => some (src, 0x20 :: tag :: args)
  | .refOff src tag args => some (src, 0x21 :: tag :: args)
  | .shelfOn src tag args => some (src, 0x22 :: tag :: args)
  | .shelfOff src tag args => some (src, 0x23 :: tag :: args)
  | .cmdClear src tag shelf ref => some (src, [0x30, tag, shelf, 0, ref])
  | .cmdManual src tag shelf ref => some (src, [0x30, tag, shelf, 1, ref])
  | .cmdForced src tag shelf ref => some (src, [0x30, tag, shelf, 2, ref])
  | .cmdHold src tag shelf ref => some (src, [0x30, tag, shelf, 3, ref])
  | .lock src tag args => some (src, 0x31 :: tag :: args)
  | .clrWtr src tag args => some (src, 0x32 :: tag :: args)
  | .ack src tag args => some (src, 0x33 :: tag :: args)
  | .clrCount src tag args => some (src, 0x40 :: tag :: args)
  | .restart src tag args => some (src, 0x41 :: tag :: args)
  | .takeRole src tag args => some (src, 0x42 :: tag :: args)
  | .yieldRole src tag args => some (src, 0x43 :: tag :: args)
  | .unknownRequestCode src payload => some (src, payload)
  | .frameArrival | .frameTake | .transmissionStart | .comparisonPulse _ _ _ | .activityWatchExpiry _
  | .holdOffExpiry _ | .restoreWaitExpiry _ | .decayExpiry _ | .announcementTimerExpiry _ | .settleTimerExpiry _
  | .engineDone _ _ | .alignmentLimitExpiry _ _ | .holdoverPhaseExpiry _ | .refreshExpiry | .roleFallingEdge
  | .resetAssert | .resetRelease _ | .roleRisingEdge | .receiverReady _ | .octetTaken _ _ | .transmissionEnd => none

/-- The argument length of each request but WR-CAND: spec/10. -/
def argumentLengths : List (Byte × Nat) :=
  [(0x01, 1), (0x02, 1), (0x03, 1), (0x04, 0), (0x05, 0), (0x10, 24), (0x11, 12), (0x13, 33), (0x14, 6), (0x20, 1),
    (0x21, 1), (0x22, 1), (0x23, 1), (0x30, 3), (0x31, 3), (0x32, 1), (0x33, 3), (0x40, 0), (0x41, 0), (0x42, 0),
    (0x43, 0)]

/-- The Selection Notice for shelf `i` with the header in force in `s`: spec/10, R33, R149. -/
def State.noticeFrame (s : State) (i : ShelfIx) (prev new : Option RefIx) (cause hard : Byte) : Frame :=
  { dest := 0xFF, src := s.ring.station, type := 0x23, ttl := s.ring.hopLimit
    payload := [indexOctet i, ixOctet prev, ixOctet new, cause, hard] }

/-- The event from `s` to `t` places the Selection Notice `f` behind `ahead` entries of its own, where it finds room
while DRIVING: R34, R149. -/
def Noticed (s t : State) (ahead : Nat) (f : Frame) : Prop :=
  s.drive = .driving → s.ring.insertQ.length + ahead < 32 →
    t.ring.insertQ[s.ring.insertQ.length + ahead]? = some (.sn f)

/-! ### Marks and reports -/

/-- Every shelf enabled in `s` whose list names `q` is dirty in `t`: R58, R81, R109. -/
def Marked (q : RefIx) (s t : State) : Prop :=
  ∀ i, (s.shelf i).state ≠ .off → (∃ c ∈ (s.shelf i).list, c.ref = q) → (t.shelf i).sel ≠ .clean

/-- Every shelf enabled in `s` and in `t` whose list in `t` names a reference with `p` is dirty in `t`: R109. -/
def MarkedWhere (p : RefIx → Prop) (s t : State) : Prop :=
  ∀ i, (s.shelf i).state ≠ .off → (t.shelf i).state ≠ .off → (∃ c ∈ (t.shelf i).list, p c.ref) →
    (t.shelf i).sel ≠ .clean

/-- What a command marks from `s` to `t`: every enabled shelf that names a reference whose state (R81) or effective rank
(R57, R58) differs, and, where an edge differs, every enabled shelf that names a DERIVED reference (R156). -/
def Marks (s t : State) : Prop :=
  (∀ q, (t.ref q).rt.state ≠ (s.ref q).rt.state ∨ t.effRank q ≠ s.effRank q → MarkedWhere (· = q) s t)
  ∧ ((∃ j, (t.shelf j).curEdge ≠ (s.shelf j).curEdge ∨ (t.shelf j).pendEdge ≠ (s.shelf j).pendEdge) →
      MarkedWhere (fun q => (t.ref q).cfg.kind = .derived) s t)

/-- R162, the events it names by what they change: some shelf's state, stage, current reference or target, or some
reference's effective rank, differs between `s` and `t`. -/
def ReportEvent (s t : State) : Prop :=
  (∃ i, (t.shelf i).state.cls ≠ (s.shelf i).state.cls ∨ (t.shelf i).state.stage ≠ (s.shelf i).state.stage
      ∨ (t.shelf i).state.current ≠ (s.shelf i).state.current ∨ (t.shelf i).state.target ≠ (s.shelf i).state.target)
    ∨ ∃ r, t.effRank r ≠ s.effRank r

/-- R162, the outcome of the comparison at the end of the event from `s` to `t`, where no offer was dropped: every
enabled shelf's last-reported record is its present report content, and a shelf whose record differed has its SQ in the
Insert Queue. -/
def Compared (s t : State) : Prop :=
  ∀ i, (t.shelf i).enabled = true → (t.shelf i).lastReport = some (t.report i)
    ∧ ((s.shelf i).lastReport ≠ some (t.report i) →
      .sq i (t.makeFrame 0xFF 0x22 (sqPayload i (t.shelf i).cfg.dialect (t.report i))) ∈ t.ring.insertQ)

/-! ### The endings of a switch -/

/-- The switch of shelf `i` from its current reference `c`, in flight in `s`, is abandoned in `t`: R139. -/
def Abandoned (i : ShelfIx) (c : RefIx) (s t : State) : Prop :=
  (t.shelf i).state = .locked c ∧ (t.shelf i).route = (s.shelf i).route
  ∧ (t.shelf i).curEdge = (s.shelf i).curEdge ∧ (t.shelf i).pendEdge = none
  ∧ (t.shelf i).latches = { (s.shelf i).latches with abandon := true } ∧ ∃ n, (t.shelf i).sel = .settling n

/-- Engine `e`, which shelf `i` holds in `s`, is freed: with nobody waiting it is free in `t`; otherwise the head of the
Alignment Queue leaves it and holds the engine under the next grant, with the alignment limit in force, and is ALIGNING:
R131 to R134. -/
def EnginePasses (e : EngineIx) (s t : State) : Prop :=
  (s.alignQ = [] → t.engines = s.engines.set e none ∧ t.alignQ = [] ∧ t.grants = s.grants)
  ∧ ∀ j rest, s.alignQ = j :: rest →
    t.engines = s.engines.set e (some { shelf := j, grant := s.grants, timer := s.globals.alignLimit * 250000 })
    ∧ t.alignQ = rest ∧ t.grants = s.grants + 1
    ∧ ∃ c r b, (s.shelf j).state = .waiting c r b ∧ t.shelf j = { s.shelf j with state := .aligning c r b }

/-! ### What an event leaves alone -/

/-- Two Insert Queue entries hold SQ frames of one shelf, or are the same entry. -/
def InsertEntry.samePlace (e e' : InsertEntry) : Prop := e' = e ∨ ∃ i f f', e = .sq i f ∧ e' = .sq i f'

/-- Every entry of `q` keeps its place in `q'`; an SQ may have new content: R34. -/
def QueueGrows (q q' : List InsertEntry) : Prop :=
  ∀ (k : Nat) (e : InsertEntry), q[k]? = some e → ∃ e', q'[k]? = some e' ∧ e.samePlace e'

/-- What the operations of one event on the shelves, the engines and the Insert Queue leave alone: every reference
record, table, setting and pin, the port but for the Insert Queue and NOTICELOST, and every shelf's configuration, list
and command. -/
structure Kept (s t : State) : Prop where
  refs : t.refs = s.refs
  dialect1 : t.dialect1 = s.dialect1
  dialect2 : t.dialect2 = s.dialect2
  globals : t.globals = s.globals
  drive : t.drive = s.drive
  refreshTimer : t.refreshTimer = s.refreshTimer
  role : t.role = s.role
  resetn : t.resetn = s.resetn
  pending : t.pending = s.pending
  ring : ∃ n, t.ring = { s.ring with
    insertQ := t.ring.insertQ, counters := { s.ring.counters with noticeLost := n } }
  queue : QueueGrows s.ring.insertQ t.ring.insertQ
  cfg : ∀ i, (t.shelf i).cfg = (s.shelf i).cfg
  list : ∀ i, (t.shelf i).list = (s.shelf i).list
  command : ∀ i, (t.shelf i).command = (s.shelf i).command

/-! ### Invariants -/

/-- The capacities of R27, at most one SQ for each shelf, no frame above 88 payload octets, and no reserved entry
between events (R30). -/
def State.QueuesOk (s : State) : Prop :=
  s.ring.rxQ.length ≤ 16 ∧ s.ring.relayQ.length ≤ 16 ∧ s.ring.insertQ.length ≤ 32
    ∧ (∀ i, s.ring.insertQ.countP (InsertEntry.isSqOf i) ≤ 1)
    ∧ (∀ f ∈ s.ring.rxQ, f.payload.length ≤ 88) ∧ (∀ f ∈ s.ring.relayQ, f.payload.length ≤ 88)
    ∧ InsertEntry.reserved ∉ s.ring.insertQ

/-- R36: a line that sends no frame has no bit time of one left, a frame has at most ten bit times for each of its
octets left and follows an idle that has passed, and the closing idle is at most 16 bit times. -/
def Ring.LineOk (g : Ring) : Prop :=
  (g.sending = none → g.sendLeft = 0) ∧ (∀ l, g.sending = some l → g.sendLeft ≤ 200 * l.length ∧ g.idleLeft = 0)
    ∧ g.idleLeft ≤ 320

/-- No SQ or SN waits while FLOATING (R146), and the part drives only with ROLE and RESETn high (R147, R148, R179). -/
def State.DriveOk (s : State) : Prop :=
  (s.drive = .floating → ∀ e ∈ s.ring.insertQ, e.isNotice = false)
    ∧ (s.drive = .driving → s.role = true ∧ s.resetn = true)

/-- R88: the route is the current reference, muted where there is none, and a target differs from it. -/
def State.RoutesOk (s : State) : Prop :=
  ∀ i, (s.shelf i).route = (s.shelf i).state.current
    ∧ ∀ t, (s.shelf i).state.target = some t → (s.shelf i).state.current ≠ some t

/-- The state is SWITCHING-WAITING. -/
def ShelfState.isWaiting : ShelfState → Bool
  | .waiting _ _ _ => true
  | .off => false
  | .free => false
  | .locked _ => false
  | .aligning _ _ _ => false
  | .holdover _ _ => false

/-- The state is SWITCHING-ALIGNING. -/
def ShelfState.isAligning : ShelfState → Bool
  | .aligning _ _ _ => true
  | .off => false
  | .free => false
  | .locked _ => false
  | .waiting _ _ _ => false
  | .holdover _ _ => false

/-- R131, R132: the Alignment Queue is the shelves that are WAITING, each once; each ALIGNING shelf holds one engine and
nobody else does; while a shelf waits every engine is held; no two engines are held under one grant. -/
def State.EnginesOk (s : State) : Prop :=
  s.alignQ.Nodup ∧ (∀ i, i ∈ s.alignQ ↔ (s.shelf i).state.isWaiting = true)
    ∧ (∀ (e : EngineIx) (h : Hold), s.engines[e] = some h →
        (s.shelf h.shelf).state.isAligning = true ∧ h.grant < s.grants)
    ∧ (∀ i, (s.shelf i).state.isAligning = true → ∃ (e : EngineIx) (h : Hold), s.engines[e] = some h ∧ h.shelf = i)
    ∧ (∀ (e e' : EngineIx) (h h' : Hold), s.engines[e] = some h → s.engines[e'] = some h' →
        h.shelf = h'.shelf ∨ h.grant = h'.grant → e = e')
    ∧ (s.alignQ ≠ [] → ∀ e : EngineIx, s.engines[e] ≠ none)

/-- An edge leads from shelf `a` to shelf `b`: R151. -/
def State.Edge (s : State) (a b : ShelfIx) : Prop := (s.shelf a).curEdge = some b ∨ (s.shelf a).pendEdge = some b

/-- The edges form no cycle, and no shelf has an edge to itself: R151. -/
def State.NoCycle (s : State) : Prop := ∀ a, ¬ Relation.TransGen s.Edge a a

/-- R152: the slots follow the current reference and the target. -/
def State.EdgesOk (s : State) : Prop :=
  ∀ i, (s.shelf i).curEdge = ((s.shelf i).state.current.bind fun c => (s.ref c).sourceShelf)
    ∧ (s.shelf i).pendEdge = ((s.shelf i).state.target.bind fun t => (s.ref t).sourceShelf)

/-- R129: a routed reference is in the shelf's list, ACTIVE, HOLDOFF or RESTORING; a target is in it, not locked out,
and ACTIVE, or RESTORING under basis FORCED (R107, R140). -/
def State.UsedRefsOk (s : State) : Prop :=
  ∀ i, (∀ c, (s.shelf i).state.current = some c → (s.shelf i).names c = true
      ∧ ((s.ref c).rt.state = .active ∨ (s.ref c).rt.state = .holdoff ∨ (s.ref c).rt.state = .restoring))
    ∧ ∀ t, (s.shelf i).state.target = some t → (s.shelf i).openTo t = true
      ∧ ((s.ref t).rt.state = .active
        ∨ ((s.ref t).rt.state = .restoring ∧ (s.shelf i).state.basis = some .forced))

/-- R90, R96, R88, R103: the list has at most 8 entries, names no reference twice and no priority is 0; the command
stands in it; an OFF shelf is CLEAN with no command, latch or companion bit; DEFERRED is a condition of SWITCHING alone.
-/
def Shelf.RecordOk (x : Shelf) : Prop :=
  x.list.length ≤ 8 ∧ (x.list.map Candidate.ref).Nodup ∧ (∀ c ∈ x.list, c.prio ≠ 0) ∧ x.commandStands = true
    ∧ (x.state = .off →
        x.sel = .clean ∧ x.command = .none ∧ x.latches = ShelfLatches.clear ∧ x.loopBit = false)
    ∧ (x.sel = .deferred → x.switching = true)

/-- R60, R62: every magnitude in its range, and A less than J. -/
def RefConfig.InRange (c : RefConfig) : Prop :=
  1 ≤ c.accept ∧ c.accept < c.reject ∧ c.reject ≤ 1000000 ∧ c.hit ≤ 1000000 ∧ c.holdOff ≤ 1000 ∧ c.restoreBase ≤ 1800
    ∧ c.announcer ≠ Byte.all

/-- R63, note 3 of R64: a reference is DISABLED exactly while its monitor is IDLE, and its state holds the verdict of
R63. -/
def Reference.VerdictOk (x : Reference) : Prop :=
  (x.rt.state = .disabled ↔ x.mon.run = .idle)
    ∧ (x.mon.verdict = .good ↔ x.rt.state = .active ∨ x.rt.state = .restoring)

/-- R63, R75: each timer runs only in its state. -/
def RefDynamic.TimersOk (x : RefDynamic) : Prop :=
  (x.holdOffTimer.isSome = true ↔ x.state = .holdoff) ∧ (x.restoreTimer.isSome = true ↔ x.state = .restoring)
    ∧ (x.decayTimer.isSome = true → x.state = .active ∨ x.state = .holdoff)
    ∧ (∀ t, x.holdOffTimer = some t → t ≤ 10000 * Config.ticksPerMs)
    ∧ (∀ t, x.restoreTimer = some t → t ≤ 3600 * Config.ticksPerSecond)
    ∧ (∀ t, x.decayTimer = some t → t ≤ 900 * Config.ticksPerSecond)

/-- R3, R7, R8, R17, R18, R19, R21: a monitor whose gate size is that of `g`. -/
def Monitor.Ok (g : Gate) (m : Monitor) : Prop :=
  (m.run = .idle → m = Monitor.idle)
    ∧ (m.watch.isSome = true ↔ m.run = .running ∧ m.signal = .present)
    ∧ (∀ w, m.watch = some w → w ≤ 250000 ∧ m.ticks + w ≤ 250000 * (m.pulses + 1))
    ∧ (m.gate = .opened → m.pulses < g.size) ∧ (m.gate = .closed → m.pulses = 0 ∧ m.ticks = 0)
    ∧ (m.signal = .lost → m.gate = .closed ∧ m.settling = true ∧ m.filtered = none ∧ m.hits = 0)
    ∧ m.hits ≤ 2 ∧ (m.qual = .unmeasured ↔ m.filtered = none) ∧ m.verdict = m.formVerdict
    ∧ (∀ o, m.last = some o → o.natAbs ≤ 1000000) ∧ (∀ f, m.filtered = some f → f.natAbs ≤ 1000000)

/-- R47, R52: the received rank is 15 unless the source is ANNOUNCED; only an enabled ANNOUNCED reference has a source
or a running timer, and the timer runs while the source is NONE or ANNOUNCED. -/
def Reference.QualityOk (x : Reference) : Prop :=
  (x.qt.source ≠ .announced → x.qt.received = 15)
    ∧ (x.cfg.kind ≠ .announced → x.qt.source = .none) ∧ (x.rt.state = .disabled → x.qt.source = .none)
    ∧ (x.qt.timer.isSome = true ↔
        x.cfg.kind = .announced ∧ x.rt.state ≠ .disabled ∧ (x.qt.source = .none ∨ x.qt.source = .announced))

/-- R172: every setting in its values. -/
def State.SettingsOk (s : State) : Prop :=
  s.globals.controller ≠ Byte.all ∧ s.ring.station ≠ 0 ∧ s.ring.station ≠ Byte.all
    ∧ 1 ≤ s.ring.hopLimit.toNat ∧ s.ring.hopLimit.toNat ≤ 63
    ∧ 1 ≤ s.globals.refreshInterval ∧ s.globals.refreshInterval ≤ 10
    ∧ 1 ≤ s.globals.announceTimeout ∧ s.globals.announceTimeout ≤ 15
    ∧ 2 ≤ s.globals.alignLimit ∧ s.globals.alignLimit ≤ 30

end Sys2Proof.Machine
end

