-- ==== Sys2Proof/WellFormed.lean ====
section
/-! DEFINITION. Which commands a sender can send. The meanings are total on every command; a statement that needs
these bounds names `Instr.wellFormed`. -/

namespace Sys2Proof

/-- The request codes of spec/10. -/
def knownRequestCodes : List Byte :=
  [0x01, 0x02, 0x03, 0x04, 0x05, 0x10, 0x11, 0x12, 0x13, 0x14, 0x20, 0x21, 0x22, 0x23, 0x30, 0x31, 0x32, 0x33, 0x40,
    0x41, 0x42, 0x43]

/-- A REQ's payload is its code, its tag and its arguments, at most 88 octets (R26). -/
def argsFit (args : List Byte) : Bool := args.length + 2 ≤ Config.maxPayload

/-- A payload that names no request (R171, test 1). -/
def namesNoRequest : List Byte → Bool
  | code :: _ :: _ => !knownRequestCodes.contains code
  | _ => true

/-- The bounds the rules set on a command's operands. -/
def Instr.wellFormed : Instr → Bool
  | .comparisonPulse _ cycles ticks => cycles ≤ 15625 && ticks ≤ Config.ticksPerMs
  | .unknownRequestCode _ payload => payload.length ≤ Config.maxPayload && namesNoRequest payload
  | .receiverReady levels => levels.length ≤ Config.idleBits
  | .rdRef _ _ args | .rdShelf _ _ args | .rdXlate _ _ args | .rdGlobal _ _ args | .rdCount _ _ args
  | .wrRef _ _ args | .wrShelf _ _ args | .wrCand _ _ args | .wrXlate _ _ args | .wrGlobal _ _ args
  | .refOn _ _ args | .refOff _ _ args | .shelfOn _ _ args | .shelfOff _ _ args
  | .lock _ _ args | .clrWtr _ _ args | .ack _ _ args | .clrCount _ _ args | .restart _ _ args
  | .takeRole _ _ args | .yieldRole _ _ args => argsFit args
  | .frameArrival | .frameTake | .transmissionStart | .activityWatchExpiry _ | .holdOffExpiry _
  | .restoreWaitExpiry _ | .decayExpiry _ | .announcementTimerExpiry _ | .settleTimerExpiry _
  | .engineDone _ _ | .alignmentLimitExpiry _ _ | .holdoverPhaseExpiry _ | .refreshExpiry | .roleFallingEdge
  | .resetAssert | .resetRelease _ | .cmdClear .. | .cmdManual .. | .cmdForced .. | .cmdHold .. | .roleRisingEdge
  | .octetTaken _ _ | .transmissionEnd => true

end Sys2Proof
end

