-- ==== Sys2Proof/Certificates/Slice0/Obligations.lean ====
section
/-! DEFINITION. The statements for the provers, in the order of OBLIGATIONS.json. Durations are in MCLK ticks (log entry
3), and a request command is the arrival of its REQ with its take in the same step (log entry 5). -/

open Sys2Proof Sys2Proof.Machine

/-! ### The step -/

/-- A step of a part with a command at the front of its queue is that command, run with the queue's rest. -/
def Obligations.StepTakesTheFrontCommand : Prop :=
  ∀ (c : Instr) (s : State), step { s with pending := c :: s.pending } = exec c s

/-- Every command answers a next state and leaves the queue of waiting commands alone; while RESETn is low every command
but those of the pins changes nothing (R179). -/
def Obligations.EveryCommandAnswersANextState : Prop :=
  (∀ (c : Instr) (s : State), ∃ t, exec c s = .next t ∧ t.pending = s.pending)
    ∧ ∀ (c : Instr) (s : State), s.resetn = false → c ≠ .resetAssert → (∀ straps, c ≠ .resetRelease straps) →
        c ≠ .roleFallingEdge → c ≠ .roleRisingEdge → exec c s = .next s

/-- The model's choice (log entry 4): on an empty queue one MCLK tick passes. Every running timer loses it, an open gate
under a running watch counts it, the frame or the closing idle on STO loses it, and nothing else changes. While RESETn
is low nothing changes. -/
def Obligations.EmptyQueueLetsOneTickPass : Prop :=
  ∀ s : State, s.pending = [] →
    (s.resetn = false → step s = .next s)
    ∧ (s.resetn = true → ∃ t, step s = .next t
        ∧ (∀ r, t.ref r = { s.ref r with
            mon := { (s.ref r).mon with
              watch := (s.ref r).mon.watch.map (· - 1)
              ticks := match (s.ref r).mon.watch, (s.ref r).mon.gate with
                | some w, .opened => (s.ref r).mon.ticks + min 1 w
                | _, _ => (s.ref r).mon.ticks }
            rt := { (s.ref r).rt with
              holdOffTimer := (s.ref r).rt.holdOffTimer.map (· - 1)
              restoreTimer := (s.ref r).rt.restoreTimer.map (· - 1)
              decayTimer := (s.ref r).rt.decayTimer.map (· - 1) }
            qt := { (s.ref r).qt with timer := (s.ref r).qt.timer.map (· - 1) } })
        ∧ (∀ i, t.shelf i = { s.shelf i with
            sel := match (s.shelf i).sel with
              | .settling n => .settling (n - 1)
              | other => other
            state := match (s.shelf i).state with
              | .holdover g timer => .holdover g (timer.map (· - 1))
              | other => other })
        ∧ (∀ e : EngineIx, t.engines[e] = s.engines[e].map fun h => { h with timer := h.timer - 1 })
        ∧ t = { s with
            refs := t.refs, shelves := t.shelves, engines := t.engines
            refreshTimer := s.refreshTimer.map (· - 1)
            ring := { s.ring with sendLeft := s.ring.sendLeft - 1, idleLeft := s.ring.idleLeft - 1 } })

/-! ### Reset and the pin ROLE -/

/-- RESET_ASSERT: the content of R179, as R3, R40, R42, R47, R60, R63, R85, R87, R90, R96, R103, R129 to R132, R146,
R151, R161 and R172 give it. RESET_RELEASE: R180, with the station address of R37; a part whose RESETn is high already
sees no rising edge. The last clause speaks of State.reset, whose straps and ranks of invalid in-entries are the model's
choice (log entries 1 and 2). That no idle time is owed on STO after the reset is its choice too (log entry 10). -/
def Obligations.ResetAssertAndRelease : Prop :=
  (∀ s : State, ∃ t, exec .resetAssert s = .next t
    ∧ t.resetn = false ∧ t.role = s.role ∧ t.pending = s.pending
    ∧ (∀ r, t.ref r =
        { cfg := { kind := .announced, rate := 0, gate := .g8000, depth := 3, accept := 4600, reject := 9200, hit := 0
                   holdOff := 30, restoreBase := 300, overrideRank := none, fixedRank := 14, source := none
                   announcer := 0, origin := none }
          mon := { prescaler := 0, run := .idle, signal := .present, watch := none, gate := .closed, settling := false
                   pulses := 0, ticks := 0, last := none, filtered := none, qual := .unmeasured, hits := 0
                   verdict := .fail }
          rt := { state := .disabled, holdOffTimer := none, restoreTimer := none, decayTimer := none, flap := 0
                  latches := { los := false, freq := false, hit := false, timeout := false, fail := false } }
          qt := { received := 15, source := .none, timer := none } })
    ∧ (∀ i, t.shelf i =
        { cfg := { mode := .nonRevertive, floor := 14, window := .long, dialect := .one, holdoverRank := 9
                   degradedRank := 12, freeRank := 14, phaseA := 900, phaseB := 14400 }
          list := [], command := .none, state := .off, sel := .clean, route := none, curEdge := none, pendEdge := none
          lastReport := none, latches := { holdover := false, hard := false, loop := false, abandon := false }
          loopBit := false })
    ∧ (∀ (d : Dialect) (c : Code), (t.table d).inTable[c].valid = false ∧ (t.table d).outTable[c] = 15)
    ∧ t.ring.rxQ = [] ∧ t.ring.relayQ = [] ∧ t.ring.insertQ = [] ∧ t.ring.marker = .relay ∧ t.ring.sending = none
    ∧ t.ring.sendLeft = 0 ∧ t.ring.idleLeft = 0 ∧ t.sto = true ∧ t.ring.hopLimit = 16
    ∧ t.ring.counters = ⟨0, 0, 0, 0, 0, 0, 0⟩
    ∧ t.globals = { controller := 0, refreshInterval := 1, announceTimeout := 5, alignLimit := 10 }
    ∧ (∀ e : EngineIx, t.engines[e] = none) ∧ t.alignQ = [] ∧ t.drive = .floating ∧ t.refreshTimer = none
    ∧ t.alarm = false ∧ ∀ i, t.output i = .highImpedance)
    ∧ ∀ (straps : BitVec 6) (s : State),
    (s.resetn = true → exec (.resetRelease straps) s = .next s)
    ∧ (s.resetn = false → ∃ t, exec (.resetRelease straps) s = .next t
        ∧ t.ring.station.toNat = 64 + straps.toNat
        ∧ t = { s with
            resetn := true
            refreshTimer := some (s.globals.refreshInterval * 250000000)
            ring := { s.ring with station := t.ring.station, receiver := .waitIdle 0 } })
    ∧ ∀ t, exec .resetAssert s = .next t → exec (.resetRelease 0) t =
        .next { State.reset with role := s.role, grants := s.grants, pending := s.pending }

/-- ROLE_FALLING_EDGE and YIELD_ROLE make a driving part FLOATING and purge every SQ and SN; from FLOATING they leave
everything else as it is; a rising edge changes the level alone. R35, R147. -/
def Obligations.RoleEdgesAndYieldRole : Prop :=
  (∀ s : State, exec .roleRisingEdge s = .next { s with role := true })
    ∧ (∀ s : State, s.drive = .floating → exec .roleFallingEdge s = .next { s with role := false })
    ∧ (∀ s : State, s.drive = .driving → exec .roleFallingEdge s = .next { s with
        role := false, drive := .floating
        ring := { s.ring with insertQ := s.ring.insertQ.filter fun e => !e.isNotice } })
    ∧ (∀ (s : State) (src tag : Byte), s.readyFor src → s.admits src → s.drive = .floating →
        exec (.yieldRole src tag []) s = .next (s.withReply (s.replyFrame src 0x43 tag 0x00 [])))
    ∧ ∀ (s : State) (src tag : Byte), s.readyFor src → s.admits src → s.drive = .driving →
        exec (.yieldRole src tag []) s = .next ({ s with
          drive := .floating
          ring := { s.ring with insertQ := s.ring.insertQ.filter fun e => !e.isNotice } }.withReply
            (s.replyFrame src 0x43 tag 0x00 []))

/-- TAKE_ROLE: R148. It is refused with ROLE while ROLE is low, changes nothing while DRIVING, and from FLOATING drives
the outputs and reports every enabled shelf (here with room for 24 reports behind the reply). -/
def Obligations.TakeRoleDrivesTheOutputs : Prop :=
  ∀ (s : State) (src tag : Byte), s.readyFor src → s.admits src →
    (s.role = false → exec (.takeRole src tag []) s = .next (s.withReply (s.replyFrame src 0x42 tag 0x0A [])))
    ∧ (s.role = true → s.drive = .driving →
        exec (.takeRole src tag []) s = .next (s.withReply (s.replyFrame src 0x42 tag 0x00 [])))
    ∧ (s.role = true → s.drive = .floating → ∃ t, exec (.takeRole src tag []) s = .next t
        ∧ t.drive = .driving ∧ Kept { s with drive := .driving } t
        ∧ RepliedWith s t (s.replyFrame src 0x42 tag 0x00 [])
        ∧ (∀ i, t.shelf i = { s.shelf i with lastReport := (t.shelf i).lastReport })
        ∧ (s.ring.insertQ.length + 25 ≤ 32 → ∀ i, (s.shelf i).enabled = true →
            (t.shelf i).lastReport = some (s.report i)
              ∧ .sq i (s.makeFrame 0xFF 0x22 (sqPayload i (s.shelf i).cfg.dialect (s.report i))) ∈ t.ring.insertQ))

/-- The outputs of R129 and R146 and the ALARM pin of R176. -/
def Obligations.OutputsAndAlarm : Prop :=
  ∀ s : State,
    (∀ i, (s.resetn = false → s.output i = .highImpedance)
      ∧ (s.resetn = true → s.drive = .floating → s.output i = .highImpedance)
      ∧ (s.resetn = true → s.drive = .driving → (s.shelf i).route = none → s.output i = .low)
      ∧ ∀ r, s.resetn = true → s.drive = .driving → (s.shelf i).route = some r → s.output i = .clock r)
    ∧ (s.alarm = true ↔ s.resetn = true
        ∧ ((∃ r, (s.ref r).rt.latches ≠ ⟨false, false, false, false, false⟩)
          ∨ ∃ i, (s.shelf i).state ≠ .off ∧ (s.shelf i).latches ≠ ⟨false, false, false, false⟩))

/-! ### The Frequency Monitor -/

/-- The numbers of the measurement: the divisors of R1, the gates of R11, the offset result of R12 and R13, the filter
of R18 and the qualification of R19. -/
def Obligations.MeasurementArithmetic : Prop :=
  (List.finRange 8).map rateDivisor = [1, 8, 193, 256, 1250, 2430, 3125, 15625]
    ∧ Gate.size .g800 = 800 ∧ Gate.size .g8000 = 8000 ∧ Gate.size .g80000 = 80000
    ∧ (∀ c : Nat, offsetResult .g800 c = max (-1000000) (min 1000000 (40 * (25000000 - (c : Int)))))
    ∧ (∀ c : Nat, offsetResult .g8000 c = max (-1000000) (min 1000000 (4 * (250000000 - (c : Int)))))
    ∧ (∀ c : Nat, ∃ o : Int, |5 * o - 2 * (2500000000 - (c : Int))| ≤ 2
        ∧ offsetResult .g80000 c = max (-1000000) (min 1000000 o))
    ∧ (∀ (k : Fin 8) (o : Int), filterStep k none o = o)
    ∧ (∀ (k : Fin 8) (f o : Int), f ≤ o → ∃ d : Int, filterStep k (some f) o = f + d
        ∧ 0 ≤ d ∧ d * 2 ^ k.val ≤ o - f ∧ o - f < (d + 1) * 2 ^ k.val)
    ∧ (∀ (k : Fin 8) (f o : Int), o ≤ f → ∃ d : Int, filterStep k (some f) o = f - d
        ∧ 0 ≤ d ∧ d * 2 ^ k.val ≤ f - o ∧ f - o < (d + 1) * 2 ^ k.val)
    ∧ ∀ (a j : Nat) (f : Int),
        judge a j .unmeasured f = (if |f| ≤ a then .inside else .outside)
        ∧ judge a j .inside f = (if j < |f| then .outside else .inside)
        ∧ judge a j .outside f = (if |f| ≤ a then .inside else .outside)

/-- COMPARISON_PULSE, whose operands are the model's choice (log entry 5), short of a gate close: ignored by an IDLE
monitor, counted by the prescaler short of the divisor (R1, R2; that the first pulse falls on the N-th input cycle after
REF-ON is log entry 14), the end of a loss (R9), and a pulse that opens a gate or raises its count (R7, R10). Nothing
outside the monitor changes. -/
def Obligations.PulsesAreCounted : Prop :=
  ∀ (s : State) (r : RefIx) (cycles ticks : Nat), s.resetn = true →
    let x := s.ref r
    let m := x.mon.elapse ticks
    let n := x.mon.prescaler + cycles
    let N := rateDivisor x.cfg.rate
    (x.mon.run = .idle → exec (.comparisonPulse r cycles ticks) s = .next s)
    ∧ (x.mon.run = .running → n < N →
        exec (.comparisonPulse r cycles ticks) s = .next (s.setRef r { x with mon := { m with prescaler := n } }))
    ∧ (x.mon.run = .running → N ≤ n → x.mon.signal = .lost → x.mon.qual = .unmeasured → x.mon.verdict = .fail →
        exec (.comparisonPulse r cycles ticks) s = .next (s.setRef r { x with mon := { m with
          prescaler := n - N, signal := .present, watch := some 250000, gate := .opened, settling := true, pulses := 0
          ticks := 0 } }))
    ∧ (x.mon.run = .running → N ≤ n → x.mon.signal = .present → x.mon.gate = .closed →
        exec (.comparisonPulse r cycles ticks) s = .next (s.setRef r { x with mon := { m with
          prescaler := n - N, watch := some 250000, gate := .opened, pulses := 0, ticks := 0 } }))
    ∧ (x.mon.run = .running → N ≤ n → x.mon.signal = .present → x.mon.gate = .opened →
        x.mon.pulses + 1 < x.cfg.gate.size →
        exec (.comparisonPulse r cycles ticks) s = .next (s.setRef r { x with mon := { m with
          prescaler := n - N, watch := some 250000, pulses := x.mon.pulses + 1 } }))

/-- COMPARISON_PULSE, whose operands are the model's choice (log entry 5), closing a gate: a settling gate is discarded
(R14); another gate's result is stored, tested for a hit, applied or withheld, judged, and the verdict formed afresh and
delivered (R12 to R22). A change of the reference's state marks every enabled shelf whose list names it (R81, R109). -/
def Obligations.GateCloses : Prop :=
  ∀ (s : State) (r : RefIx) (cycles ticks : Nat), s.resetn = true →
    let x := s.ref r
    let m := x.mon.elapse ticks
    let n := x.mon.prescaler + cycles
    let N := rateDivisor x.cfg.rate
    let o := offsetResult x.cfg.gate m.ticks
    let hit : Prop := x.cfg.hit ≠ 0 ∧ ∃ f, x.mon.filtered = some f ∧ (x.cfg.hit : Int) < |o - f|
    let closed : Monitor := { m with prescaler := n - N, watch := some 250000, pulses := 0, ticks := 0 }
    let good : Qualification → Verdict := fun q => if q = .inside then .good else .fail
    let Ends : Monitor → Bool → Prop := fun m' isHit =>
      ∃ t, exec (.comparisonPulse r cycles ticks) s = .next t
        ∧ t.ref r = { x with
            mon := m'
            rt := { x.rt with latches := { x.rt.latches with
              freq := x.rt.latches.freq || decide (x.mon.qual ≠ Qualification.outside ∧ m'.qual = Qualification.outside)
              hit := x.rt.latches.hit || isHit } }.verdictEvent x.cfg x.mon.verdict m'.verdict }
        ∧ ((t.ref r).rt.state ≠ x.rt.state → Marked r s t) ∧ Kept (s.setRef r (t.ref r)) t
    x.mon.run = .running → N ≤ n → x.mon.signal = .present → x.mon.gate = .opened →
      x.cfg.gate.size ≤ x.mon.pulses + 1 → x.mon.verdict = x.mon.formVerdict →
      (x.mon.settling = true → exec (.comparisonPulse r cycles ticks) s =
        .next (s.setRef r { x with mon := { closed with settling := false } }))
      ∧ (x.mon.settling = false → ¬hit →
          Ends { closed with
            last := some o
            filtered := some (filterStep x.cfg.depth x.mon.filtered o)
            hits := 0
            qual := judge x.cfg.accept x.cfg.reject x.mon.qual (filterStep x.cfg.depth x.mon.filtered o)
            verdict := good (judge x.cfg.accept x.cfg.reject x.mon.qual (filterStep x.cfg.depth x.mon.filtered o)) }
            false)
      ∧ (x.mon.settling = false → hit → x.mon.hits + 1 < 3 →
          Ends { closed with last := some o, hits := x.mon.hits + 1, verdict := .fail } true)
      ∧ (x.mon.settling = false → hit → 3 ≤ x.mon.hits + 1 →
          Ends { closed with
            last := some o
            filtered := some o
            hits := 0
            qual := judge x.cfg.accept x.cfg.reject x.mon.qual o
            verdict := good (judge x.cfg.accept x.cfg.reject x.mon.qual o) } true)

/-! ### The Reference Table -/

/-- What a verdict event does to a record: the columns Verdict GOOD and Verdict FAIL of R64, with R69, R71, R72 and R75.
An event that repeats the verdict is none (R22). -/
def Obligations.VerdictEventsMoveTheState : Prop :=
  ∀ (cfg : RefConfig) (x : RefDynamic),
    let active : RefDynamic :=
      { x with state := .active, holdOffTimer := none, restoreTimer := none, decayTimer := some (900 * 250000000) }
    let failed : RefDynamic :=
      { x with
        state := .failed, holdOffTimer := none, restoreTimer := none, decayTimer := none
        latches := { x.latches with fail := true } }
    let wait := min 3600 (cfg.restoreBase * 2 ^ x.flap.val)
    (∀ v, x.verdictEvent cfg v v = x)
    ∧ (x.state = .starting ∨ x.state = .holdoff →
        x.verdictEvent cfg .fail .good = active ∧ x.verdictEvent cfg .good .fail = x)
    ∧ (x.state = .active → x.verdictEvent cfg .fail .good = x
        ∧ (cfg.holdOff = 0 → x.verdictEvent cfg .good .fail = failed)
        ∧ (0 < cfg.holdOff → x.verdictEvent cfg .good .fail =
            { x with state := .holdoff, holdOffTimer := some (cfg.holdOff * 10 * 250000) }))
    ∧ (x.state = .failed → x.verdictEvent cfg .good .fail = x
        ∧ (wait = 0 → x.verdictEvent cfg .fail .good = active)
        ∧ (0 < wait → x.verdictEvent cfg .fail .good =
            { x with state := .restoring, restoreTimer := some (wait * 250000000) }))
    ∧ (x.state = .restoring → x.verdictEvent cfg .fail .good = x
        ∧ x.verdictEvent cfg .good .fail = { failed with flap := if x.flap = 3 then 3 else x.flap + 1 })
    ∧ (x.state = .disabled → ∀ v w, x.verdictEvent cfg v w = x)

/-- The timers of a reference, held in MCLK ticks (log entry 3), expire: ACTIVITY_WATCH_EXPIRY (the loss of signal of
R8), HOLD_OFF_EXPIRY (R69), RESTORE_WAIT_EXPIRY (R72), DECAY_EXPIRY (R75) and ANNOUNCEMENT_TIMER_EXPIRY (R53), each when
it is due (log entry 4). An expiry whose timer has been stopped or started again is no longer pending (R9, R53, R64 note
2, R76) and changes nothing. A change of state or of rank marks every enabled shelf whose list names the reference (R58,
R81, R109). -/
def Obligations.ReferenceTimersExpire : Prop :=
  ∀ (s : State) (r : RefIx), s.resetn = true →
    let x := s.ref r
    (¬(x.mon.run = .running ∧ x.mon.watch = some 0) → exec (.activityWatchExpiry r) s = .next s)
    ∧ (x.mon.run = .running → x.mon.watch = some 0 → ∃ t, exec (.activityWatchExpiry r) s = .next t
        ∧ t.ref r = { x with
            mon := { x.mon with
              signal := .lost, gate := .closed, pulses := 0, ticks := 0, settling := true, filtered := none
              qual := .unmeasured, hits := 0, watch := none, verdict := .fail }
            rt := { x.rt with latches := { x.rt.latches with los := true } }.verdictEvent x.cfg x.mon.verdict .fail }
        ∧ ((t.ref r).rt.state ≠ x.rt.state → Marked r s t) ∧ Kept (s.setRef r (t.ref r)) t)
    ∧ (¬(x.rt.state = .holdoff ∧ x.rt.holdOffTimer = some 0) → exec (.holdOffExpiry r) s = .next s)
    ∧ (x.rt.state = .holdoff → x.rt.holdOffTimer = some 0 → ∃ t, exec (.holdOffExpiry r) s = .next t
        ∧ t.ref r = { x with rt := { x.rt with
            state := .failed, holdOffTimer := none, restoreTimer := none, decayTimer := none
            latches := { x.rt.latches with fail := true } } }
        ∧ Marked r s t ∧ Kept (s.setRef r (t.ref r)) t)
    ∧ (¬(x.rt.state = .restoring ∧ x.rt.restoreTimer = some 0) → exec (.restoreWaitExpiry r) s = .next s)
    ∧ (x.rt.state = .restoring → x.rt.restoreTimer = some 0 → ∃ t, exec (.restoreWaitExpiry r) s = .next t
        ∧ t.ref r = { x with rt := { x.rt with
            state := .active, holdOffTimer := none, restoreTimer := none, decayTimer := some (900 * 250000000) } }
        ∧ Marked r s t ∧ Kept (s.setRef r (t.ref r)) t)
    ∧ (x.rt.decayTimer ≠ some 0 → exec (.decayExpiry r) s = .next s)
    ∧ (x.rt.decayTimer = some 0 → exec (.decayExpiry r) s = .next (s.setRef r { x with rt := { x.rt with
        flap := if x.rt.flap = 0 then 0 else x.rt.flap - 1
        decayTimer := if 1 < x.rt.flap then some (900 * 250000000) else none } }))
    ∧ (x.qt.timer ≠ some 0 → exec (.announcementTimerExpiry r) s = .next s)
    ∧ (x.qt.timer = some 0 → ∃ t, exec (.announcementTimerExpiry r) s = .next t
        ∧ t.ref r = { x with
            qt := { received := 15, source := .timedOut, timer := none }
            rt := { x.rt with latches := { x.rt.latches with timeout := true } } }
        ∧ (∀ q, (s.setRef r (t.ref r)).effRank q ≠ s.effRank q → Marked q s t)
        ∧ (x.cfg.kind = .announced → x.cfg.overrideRank = none → s.effRank r ≠ 15 → Marked r s t)
        ∧ Kept (s.setRef r (t.ref r)) t)

/-- The loss of a reference (R114) at HOLD_OFF_EXPIRY, at REF_OFF, and at a verdict FAIL of COMPARISON_PULSE or
ACTIVITY_WATCH_EXPIRY that takes it to FAILED. Every shelf LOCKED on it is muted and enters HOLDOVER at the stage of
R144, with its latch, its edge released, marked, and its Selection Notice of cause LOST (R115), the notices of the
shelves that lose it in ascending order of shelf index. A shelf SWITCHING from it is moved to its target by a hard cut
(R141), unless its switch was abandoned earlier in the same event: then it enters HOLDOVER. A shelf SWITCHING to it
abandons the switch (R139, R140). How the parts of the shelves interleave is log entry 7, the moment of a due expiry log
entry 4. -/
def Obligations.ImmediateLossMutesEveryLockedShelf : Prop :=
  ∀ (s : State) (r : RefIx), s.resetn = true →
    let x := s.ref r
    let Muted : State → ShelfIx → Prop := fun t i =>
      (t.shelf i).route = none ∧ (t.shelf i).curEdge = none ∧ (t.shelf i).state =
        if 0 < (s.shelf i).cfg.phaseA.toNat then
          .holdover .inSpec (some ((s.shelf i).cfg.phaseA.toNat * 250000000))
        else if 0 < (s.shelf i).cfg.phaseB.toNat then
          .holdover .degraded (some ((s.shelf i).cfg.phaseB.toNat * 250000000))
        else .holdover .expired none
    let HardCut : State → ShelfIx → RefIx → Prop := fun t i u =>
      (t.shelf i).state = .locked u ∧ (t.shelf i).route = some u ∧ (t.shelf i).curEdge = (s.shelf i).pendEdge
      ∧ (t.shelf i).pendEdge = none ∧ (t.shelf i).latches = { (s.shelf i).latches with hard := true }
    let users : List ShelfIx := (List.finRange 24).filter fun j => (s.shelf j).state.current == some r
    let Lost : State → Nat → Prop := fun t ahead => ∀ i,
      let place : Nat := ahead + (users.filter fun j => j < i).length
      ((s.shelf i).state = .locked r → Muted t i ∧ (t.shelf i).pendEdge = (s.shelf i).pendEdge
        ∧ (t.shelf i).latches = { (s.shelf i).latches with holdover := true }
        ∧ (∃ n, (t.shelf i).sel = .settling n)
        ∧ Noticed s t place (s.noticeFrame i (some r) none 2 0))
      ∧ (∀ u, (s.shelf i).state.current = some r → (s.shelf i).state.target = some u → u ≠ r →
        (∃ n, (t.shelf i).sel = .settling n)
        ∧ ((∀ j, j < i → (s.shelf j).state.current ≠ some r ∧ (s.shelf j).state.target ≠ some r) → HardCut t i u)
        ∧ (HardCut t i u ∧ Noticed s t place (s.noticeFrame i (some r) (some u) 1 1)
          ∨ Muted t i ∧ (t.shelf i).pendEdge = none
            ∧ (t.shelf i).latches = { (s.shelf i).latches with holdover := true, abandon := true }
            ∧ Noticed s t place (s.noticeFrame i (some r) none 2 0)))
      ∧ ∀ c, (s.shelf i).state.target = some r → (s.shelf i).state.current = some c → c ≠ r →
        (t.shelf i).state = .locked c ∧ (t.shelf i).route = (s.shelf i).route
        ∧ (t.shelf i).curEdge = (s.shelf i).curEdge ∧ (t.shelf i).pendEdge = none
        ∧ (t.shelf i).latches = { (s.shelf i).latches with abandon := true }
        ∧ ∃ n, (t.shelf i).sel = .settling n
    (x.rt.state = .holdoff → x.rt.holdOffTimer = some 0 →
      ∃ t, exec (.holdOffExpiry r) s = .next t ∧ Lost t 0)
    ∧ (x.mon.run = .running → x.mon.watch = some 0 → x.mon.verdict = .good →
      (x.rt.state = .active ∧ x.cfg.holdOff = 0) ∨ x.rt.state = .restoring →
      ∃ t, exec (.activityWatchExpiry r) s = .next t ∧ (t.ref r).rt.state = .failed ∧ Lost t 0)
    ∧ (∀ cycles ticks : Nat, ∃ t, exec (.comparisonPulse r cycles ticks) s = .next t
      ∧ (x.rt.state ≠ .failed → (t.ref r).rt.state = .failed → Lost t 0))
    ∧ ∀ src tag : Byte, s.readyFor src → s.admits src → x.rt.state ≠ .disabled →
        ∃ t, exec (.refOff src tag [indexOctet r]) s = .next t ∧ Lost t 1

/-- REF_ON (R65, R4, R52) and REF_OFF (R66, R5, R54), with their refusals. Each is a change of state, which marks every
enabled shelf whose list names the reference (R81, R109). -/
def Obligations.RefOnAndRefOff : Prop :=
  ∀ (s : State) (src tag : Byte), s.readyFor src → s.admits src →
    (∀ b : Byte, 32 ≤ b.toNat →
      exec (.refOn src tag [b]) s = .next (s.withReply (s.replyFrame src 0x20 tag 0x03 []))
      ∧ exec (.refOff src tag [b]) s = .next (s.withReply (s.replyFrame src 0x21 tag 0x03 [])))
    ∧ ∀ r : RefIx,
      let x := s.ref r
      (x.rt.state ≠ .disabled →
        exec (.refOn src tag [indexOctet r]) s = .next (s.withReply (s.replyFrame src 0x20 tag 0x04 [])))
      ∧ (x.rt.state = .disabled →
        exec (.refOff src tag [indexOctet r]) s = .next (s.withReply (s.replyFrame src 0x21 tag 0x04 [])))
      ∧ (x.rt.state = .disabled → ∃ t, exec (.refOn src tag [indexOctet r]) s = .next t
        ∧ t.ref r = { x with
            rt := { x.rt with state := .starting }
            mon := { prescaler := 0, run := .running, signal := .present, watch := some 250000, gate := .closed
                     settling := true, pulses := 0, ticks := 0, last := none, filtered := none, qual := .unmeasured
                     hits := 0, verdict := .fail }
            qt := { x.qt with timer :=
              if x.cfg.kind = .announced then some (s.globals.announceTimeout * 250000000) else x.qt.timer } }
        ∧ Marked r s t ∧ Kept (s.setRef r (t.ref r)) t ∧ RepliedWith s t (s.replyFrame src 0x20 tag 0x00 []))
      ∧ (x.rt.state ≠ .disabled → ∃ t, exec (.refOff src tag [indexOctet r]) s = .next t
        ∧ t.ref r = { Reference.cold with cfg := x.cfg }
        ∧ Marked r s t ∧ Kept (s.setRef r (t.ref r)) t ∧ RepliedWith s t (s.replyFrame src 0x21 tag 0x00 []))

/-- CLR_WTR: R73, R74; the change of state marks every enabled shelf whose list names the reference (R81, R109), and the
decay timer is held in MCLK ticks (log entry 3). -/
def Obligations.ClrWtrEndsTheRestoreWait : Prop :=
  ∀ (s : State) (src tag : Byte), s.readyFor src →
    (¬s.admits src → ∀ args : List Byte, args.length ≤ 86 →
      exec (.clrWtr src tag args) s = .next (s.withReply (s.replyFrame src 0x32 tag 0x0B [])))
    ∧ (s.admits src → ∀ b : Byte, 31 < b.toNat →
        exec (.clrWtr src tag [b]) s = .next (s.withReply (s.replyFrame src 0x32 tag 0x03 [])))
    ∧ (s.admits src → ∀ r : RefIx,
        ((s.ref r).rt.state ≠ .restoring →
          exec (.clrWtr src tag [indexOctet r]) s = .next (s.withReply (s.replyFrame src 0x32 tag 0x04 [])))
        ∧ ((s.ref r).rt.state = .restoring → ∃ t, exec (.clrWtr src tag [indexOctet r]) s = .next t
          ∧ t.ref r = { s.ref r with rt := { (s.ref r).rt with
              state := .active, holdOffTimer := none, restoreTimer := none, decayTimer := some (900 * 250000000) } }
          ∧ Marked r s t ∧ Kept (s.setRef r (t.ref r)) t
          ∧ RepliedWith s t (s.replyFrame src 0x32 tag 0x00 [])))

/-- WR_REF: the cases of R62 for the 23 configuration octets `l`. A write that changes an effective rank, of this
reference by its override or fixed rank or of one derived from it, marks every enabled shelf whose list names that
reference (R56, R58). -/
def Obligations.WrRefWritesTheConfiguration : Prop :=
  ∀ (s : State) (src tag : Byte) (l : List Byte), s.readyFor src → s.admits src → l.length = 23 →
    (∀ b : Byte, 32 ≤ b.toNat →
      exec (.wrRef src tag (b :: l)) s = .next (s.withReply (s.replyFrame src 0x10 tag 0x03 [])))
    ∧ ∀ r : RefIx,
      (readRefConfig l = none →
        exec (.wrRef src tag (indexOctet r :: l)) s = .next (s.withReply (s.replyFrame src 0x10 tag 0x03 [])))
      ∧ ∀ w, readRefConfig l = some w →
        let old := (s.ref r).cfg
        let changesFixed : Prop := w.cfg.kind ≠ old.kind ∨ w.cfg.rate ≠ old.rate ∨ w.cfg.gate ≠ old.gate
          ∨ w.cfg.source ≠ old.source ∨ w.cfg.announcer ≠ old.announcer ∨ w.cfg.origin ≠ old.origin
        ((s.ref r).rt.state ≠ .disabled → changesFixed →
          exec (.wrRef src tag (indexOctet r :: l)) s = .next (s.withReply (s.replyFrame src 0x10 tag 0x04 [])))
        ∧ ((s.ref r).rt.state = .disabled ∨ ¬changesFixed → w.cfg.reject ≤ w.cfg.accept →
          exec (.wrRef src tag (indexOctet r :: l)) s = .next (s.withReply (s.replyFrame src 0x10 tag 0x06 [])))
        ∧ ((s.ref r).rt.state = .disabled ∨ ¬changesFixed → w.cfg.accept < w.cfg.reject →
          ∃ t, exec (.wrRef src tag (indexOctet r :: l)) s = .next t
            ∧ t.ref r = { s.ref r with cfg := w.cfg }
            ∧ (∀ q, (s.setRef r (t.ref r)).effRank q ≠ s.effRank q → Marked q s t)
            ∧ (∀ k, w.cfg.overrideRank = some k → s.effRank r ≠ k → Marked r s t)
            ∧ (w.cfg.overrideRank = none → w.cfg.kind = .fixed → s.effRank r ≠ w.cfg.fixedRank → Marked r s t)
            ∧ Kept (s.setRef r (t.ref r)) t
            ∧ RepliedWith s t (s.replyFrame src 0x10 tag (if w.clamped then 0x01 else 0x00) []))

/-- The 23 octets of a reference configuration (spec/10): which are refused with RANGE, and what the magnitudes become
when they are clamped (R62). -/
def Obligations.RefConfigurationOctets : Prop :=
  ∀ k rc g d a2 a1 a0 j2 j1 j0 h2 h1 h0 o1 o0 b1 b0 ov fx sr an os op : Byte,
    let l := [k, rc, g, d, a2, a1, a0, j2, j1, j0, h2, h1, h0, o1, o0, b1, b0, ov, fx, sr, an, os, op]
    let A := a2.toNat * 65536 + a1.toNat * 256 + a0.toNat
    let J := j2.toNat * 65536 + j1.toNat * 256 + j0.toNat
    let H := h2.toNat * 65536 + h1.toNat * 256 + h0.toNat
    let hold := o1.toNat * 256 + o0.toNat
    let base := b1.toNat * 256 + b0.toNat
    ((readRefConfig l).isSome = true ↔ k.toNat ≤ 2 ∧ rc.toNat ≤ 7 ∧ g.toNat ≤ 2 ∧ d.toNat ≤ 7
      ∧ (ov.toNat ≤ 15 ∨ ov.toNat = 255) ∧ fx.toNat ≤ 15 ∧ (sr.toNat ≤ 23 ∨ sr.toNat = 255) ∧ an.toNat ≠ 255
      ∧ (os.toNat ≤ 23 ∧ op.toNat ≤ 63 ∨ os.toNat = 255 ∧ op.toNat = 255))
    ∧ ∀ w, readRefConfig l = some w →
      k.toNat = (match w.cfg.kind with
        | .announced => 0
        | .fixed => 1
        | .derived => 2)
      ∧ w.cfg.rate.val = rc.toNat
      ∧ g.toNat = (match w.cfg.gate with
        | .g800 => 0
        | .g8000 => 1
        | .g80000 => 2)
      ∧ w.cfg.depth.val = d.toNat
      ∧ w.cfg.accept = max 1 (min 1000000 A) ∧ w.cfg.reject = max 1 (min 1000000 J)
      ∧ w.cfg.hit = min 1000000 H ∧ w.cfg.holdOff = min 1000 hold ∧ w.cfg.restoreBase = min 1800 base
      ∧ (w.clamped = true ↔ A = 0 ∨ 1000000 < A ∨ J = 0 ∨ 1000000 < J ∨ 1000000 < H ∨ 1000 < hold ∨ 1800 < base)
      ∧ (w.cfg.overrideRank.map Fin.val).getD 255 = ov.toNat ∧ w.cfg.fixedRank.val = fx.toNat
      ∧ (w.cfg.source.map Fin.val).getD 255 = sr.toNat ∧ w.cfg.announcer = an
      ∧ (w.cfg.origin.map fun line => line.shelf.val).getD 255 = os.toNat
      ∧ (w.cfg.origin.map fun line => line.port.val).getD 255 = op.toNat

/-! ### Quality -/

/-- The effective rank of R55, and the outgoing rank of R157 wherever the edges form no cycle and follow the references
in use, as the part keeps them. -/
def Obligations.EffectiveAndOutgoingRanks : Prop :=
  ∀ s : State,
    (∀ r : RefIx,
      (∀ k, (s.ref r).cfg.overrideRank = some k → s.effRank r = k)
      ∧ ((s.ref r).cfg.overrideRank = none → (s.ref r).cfg.kind = .announced → s.effRank r = (s.ref r).qt.received)
      ∧ ((s.ref r).cfg.overrideRank = none → (s.ref r).cfg.kind = .fixed → s.effRank r = (s.ref r).cfg.fixedRank)
      ∧ (∀ t, (s.ref r).cfg.overrideRank = none → (s.ref r).cfg.kind = .derived → (s.ref r).cfg.source = some t →
          s.effRank r = s.outRank t)
      ∧ ((s.ref r).cfg.overrideRank = none → (s.ref r).cfg.kind = .derived → (s.ref r).cfg.source = none →
          s.effRank r = 15))
    ∧ (s.NoCycle → s.EdgesOk → ∀ i : ShelfIx, s.outRank i =
        match (s.shelf i).state with
        | .off => 15
        | .free => (s.shelf i).cfg.freeRank.castSucc
        | .locked c => s.effRank c
        | .waiting c t _ => max (s.effRank c) (s.effRank t)
        | .aligning c t _ => max (s.effRank c) (s.effRank t)
        | .holdover .inSpec _ => (s.shelf i).cfg.holdoverRank.castSucc
        | .holdover .degraded _ => (s.shelf i).cfg.degradedRank.castSucc
        | .holdover .expired _ => (s.shelf i).cfg.freeRank.castSucc)

/-- What one entry of a QA does: R49 to R51, with the translation of R43; the announcement timer is held in MCLK ticks
(log entry 3). -/
def Obligations.QaEntryIsTakenOrRefused : Prop :=
  ∀ (s : State) (src : Byte) (e : QaEntry),
    let Known : RefIx → Dialect → Prop := fun r d =>
      e.ref = indexOctet r ∧ e.dialect = (if d = .one then 1 else 2) ∧ (s.ref r).cfg.kind = .announced
        ∧ (s.ref r).rt.state ≠ .disabled ∧ (s.ref r).cfg.announcer = src ∧ src ≠ 0
    (∀ r d, Known r d → e.active = true → (s.table d).inTable[e.code].valid = true →
      State.takeEntry src s e = s.setRef r { s.ref r with qt :=
        { received := (s.table d).inTable[e.code].rank, source := .announced
          timer := some (s.globals.announceTimeout * 250000000) } })
    ∧ (∀ r d, Known r d → e.active = false →
      State.takeEntry src s e = s.setRef r { s.ref r with qt :=
        { received := 15, source := .withdrawn, timer := none } })
    ∧ ((∀ r d, Known r d → e.active = true ∧ (s.table d).inTable[e.code].valid = false) →
      State.takeEntry src s e = { s with ring := { s.ring with counters := { s.ring.counters with
        entryRef := bump s.ring.counters.entryRef } } })

/-- WR_XLATE: R45. The 33 octets `tableReport d x` of spec/10 replace both halves of dialect `d`'s table by `x`. A new
out-code is an enabled shelf's outgoing code in the same event, and while DRIVING, with room for 24 reports behind the
reply, the comparison of R162 brings every record up to date and offers the SQ of every shelf whose record differed
(R46); that it compares whatever the write altered is log entry 8. -/
def Obligations.WrXlateReplacesOneTable : Prop :=
  ∀ (s : State) (src tag : Byte), s.readyFor src → s.admits src →
    (∀ (d : Dialect) (x : XlateTable), ∃ t, exec (.wrXlate src tag (tableReport d x)) s = .next t
      ∧ t.table d = x ∧ (∀ d', d' ≠ d → t.table d' = s.table d') ∧ Kept (s.setTable d x) t
      ∧ (∀ i, t.shelf i = { s.shelf i with lastReport := (t.shelf i).lastReport })
      ∧ (∀ i, t.report i = { s.report i with code := (t.table (s.shelf i).cfg.dialect).outTable[s.outRank i] })
      ∧ (s.drive = .driving → s.ring.insertQ.length + 25 ≤ 32 → Compared s t)
      ∧ RepliedWith s t (s.replyFrame src 0x13 tag 0x00 []))
    ∧ ∀ (b : Byte) (ins outs : List Byte), ins.length = 16 → outs.length = 16 →
      ((b ≠ 1 ∧ b ≠ 2) ∨ (∃ x ∈ ins, 15 < (x &&& 0x7F).toNat) ∨ ∃ x ∈ outs, 15 < x.toNat) →
      exec (.wrXlate src tag (b :: (ins ++ outs))) s = .next (s.withReply (s.replyFrame src 0x13 tag 0x03 []))

/-! ### Selection -/

/-- What a mark does to a shelf's selection condition: R110, with the settle windows of R111. Every command marks, by
what it changed: each enabled shelf whose list names a reference whose state or effective rank differs (R57, R58, R81),
and, where a current or pending edge differs, each enabled shelf whose list names a DERIVED reference (R109, R156). -/
def Obligations.MarkStartsTheSettleTimer : Prop :=
  (∀ (s : State) (c : Instr) (t : State), exec c s = .next t → Marks s t)
  ∧ ∀ x : Shelf,
    let window : Nat := match x.cfg.window with
      | .short => 50
      | .medium => 200
      | .long => 1000
    x.mark = { x with sel := x.mark.sel }
    ∧ (x.state = .off → x.mark = x)
    ∧ (x.state ≠ .off → x.sel = .clean → x.mark.sel = .settling (window * 250000))
    ∧ (∀ n, x.state ≠ .off → x.sel = .settling n → x.mark.sel = .settling n)
    ∧ (x.state ≠ .off → x.sel = .deferred → x.mark.sel =
        if x.state.cls = .switching then .deferred else .settling (window * 250000))

/-- Automatic eligibility (R104), with what follows for rank 15 and for a reference in HOLDOFF, and the three places
where the test is used. -/
def Obligations.AutomaticEligibility : Prop :=
  ∀ (s : State) (i : ShelfIx) (r : RefIx),
    (s.eligible i r = true ↔
      (∃ c ∈ (s.shelf i).list, c.ref = r ∧ c.lockout = false)
      ∧ ((s.ref r).rt.state = .active ∨ ((s.ref r).rt.state = .holdoff ∧ (s.shelf i).state.current = some r))
      ∧ (s.effRank r).val ≤ (s.shelf i).cfg.floor.val
      ∧ s.permits i r = true)
    ∧ (s.effRank r = 15 → s.eligible i r = false)
    ∧ ((s.ref r).rt.state = .holdoff → (s.shelf i).state.current ≠ some r → s.eligible i r = false)
    ∧ ((s.shelf i).command = .none ∨ (∃ q, (s.shelf i).command = .manual q) →
        s.chooseTarget (s.permits i) i = some r → s.eligible i r = true)
    ∧ (s.eligible i r = false → s.commandTests i (.manual r) ≠ none)
    ∧ ((s.shelf i).state.target = some r → (s.shelf i).state.basis = some .automatic → s.targetOk i = s.eligible i r)

/-- Forced usability (R105): the three tests, both tests by the state of the reference, and the places where the test is
used; CMD FORCED is tested without the state of any reference. -/
def Obligations.ForcedUsability : Prop :=
  ∀ (s : State) (i : ShelfIx) (r : RefIx),
    let listed : Prop := ∃ c ∈ (s.shelf i).list, c.ref = r ∧ c.lockout = false
    (s.forcedUsable i r = true ↔ listed
      ∧ ((s.ref r).rt.state = .active ∨ (s.ref r).rt.state = .restoring
        ∨ ((s.ref r).rt.state = .holdoff ∧ (s.shelf i).state.current = some r))
      ∧ s.permits i r = true)
    ∧ (listed → s.permits i r = true → s.forcedUsable i r =
        match (s.ref r).rt.state with
        | .active | .restoring => true
        | .holdoff => decide ((s.shelf i).state.current = some r)
        | .disabled | .starting | .failed => false)
    ∧ (listed → s.permits i r = true → (s.effRank r).val ≤ (s.shelf i).cfg.floor.val → s.eligible i r =
        match (s.ref r).rt.state with
        | .active => true
        | .holdoff => decide ((s.shelf i).state.current = some r)
        | .restoring | .disabled | .starting | .failed => false)
    ∧ ((s.shelf i).command = .forced r →
        s.chooseTarget (s.permits i) i = if s.forcedUsable i r = true then some r else none)
    ∧ ((s.shelf i).state.target = some r → (s.shelf i).state.basis = some .forced → s.targetOk i = s.forcedUsable i r)
    ∧ ∀ (q : RefIx) (x : Reference), (s.setRef q x).commandTests i (.forced r) = s.commandTests i (.forced r)

/-- The Loop Guard's permit (R106, R153): over the edges of the present table, no path leads from the source shelf to
the shelf that asks; a reference that is not DERIVED, or has no source shelf, is permitted. -/
def Obligations.LoopGuardPermit : Prop :=
  ∀ (s : State) (i : ShelfIx) (r : RefIx),
    ((s.ref r).cfg.kind ≠ .derived → s.permits i r = true)
    ∧ ((s.ref r).cfg.source = none → s.permits i r = true)
    ∧ ∀ t, (s.ref r).cfg.kind = .derived → (s.ref r).cfg.source = some t →
      (s.permits i r = true ↔ ¬Relation.ReflTransGen s.Edge t i)

/-- Automatic selection (R108, R120) and the target under each command (R119, R121), with the loop-blocked judgement of
R122. -/
def Obligations.TargetOfADecision : Prop :=
  ∀ (s : State) (permit : RefIx → Bool) (i : ShelfIx),
    let ok : Candidate → Prop := fun c => c ∈ (s.shelf i).list ∧ s.eligibleUnder permit i c.ref = true
    let notWorse : Candidate → Candidate → Prop := fun c d =>
      s.effRank c.ref < s.effRank d.ref
        ∨ (s.effRank c.ref = s.effRank d.ref ∧ (c.prio < d.prio ∨ (c.prio = d.prio ∧ c.ref ≤ d.ref)))
    ((∀ c, ¬ok c) → s.autoTarget permit i = none)
    ∧ (∀ b, ok b → (∀ d, ok d → notWorse b d) →
        let keeps : RefIx → Prop := fun c => (s.shelf i).cfg.mode = .nonRevertive
          ∧ (s.shelf i).state.current = some c ∧ (∃ d, ok d ∧ d.ref = c) ∧ s.effRank c ≤ s.effRank b.ref
        (∀ c, keeps c → s.autoTarget permit i = some c)
          ∧ ((∀ c, ¬keeps c) → s.autoTarget permit i = some b.ref))
    ∧ ((s.shelf i).command = .none → s.chooseTarget permit i = s.autoTarget permit i)
    ∧ ((s.shelf i).command = .hold → s.chooseTarget permit i = none)
    ∧ (∀ r, (s.shelf i).command = .forced r →
        s.chooseTarget permit i = if s.forcedUnder permit i r = true then some r else none)
    ∧ (∀ r, (s.shelf i).command = .manual r →
        s.chooseTarget permit i = if s.eligibleUnder permit i r = true then some r else s.autoTarget permit i)
    ∧ (s.loopBlocked i = true ↔ ∃ u, s.chooseTarget (fun _ => true) i = some u
        ∧ s.chooseTarget (s.permits i) i ≠ some u ∧ s.permits i u = false)

/-- SETTLE_TIMER_EXPIRY: R118. An expiry that is not due changes nothing (R111; log entry 4); a SWITCHING shelf becomes
DEFERRED; any other enabled shelf clears its flag, judges R121 and R122, and decides. A decision that changes nothing
leaves no more than that. -/
def Obligations.SettleExpiryDecides : Prop :=
  ∀ (s : State) (i : ShelfIx), s.resetn = true →
    let x := s.shelf i
    let clears : Prop := ∃ r, x.command = .manual r ∧ s.eligible i r = false
    let judged : Shelf := { x with
      sel := .clean
      command := if s.clearsManual i then .none else x.command
      loopBit := s.loopBlocked i
      latches := { x.latches with loop := x.latches.loop || s.loopBlocked i } }
    (x.sel ≠ .settling 0 → exec (.settleTimerExpiry i) s = .next s)
    ∧ (x.sel = .settling 0 → x.state.cls = .switching →
        exec (.settleTimerExpiry i) s = .next (s.setShelf i { x with sel := .deferred }))
    ∧ (s.clearsManual i = true ↔ clears)
    ∧ (x.sel = .settling 0 → x.state ≠ .off → x.state.cls ≠ .switching →
        (∃ t, exec (.settleTimerExpiry i) s = .next t ∧ Kept (s.setShelf i judged) t
          ∧ (t.shelf i).loopBit = s.loopBlocked i
          ∧ ((s.clearsManual i = true) → ∃ n, (t.shelf i).sel = .settling n ∨ (t.shelf i).sel = .deferred))
        ∧ ((∃ c, x.state = .locked c ∧ s.chooseTarget (s.permits i) i = some c)
            ∨ ((∀ c, x.state ≠ .locked c) ∧ s.chooseTarget (s.permits i) i = none) →
          exec (.settleTimerExpiry i) s =
            .next (s.setShelf i (if s.clearsManual i then judged.mark else judged))))

/-- A decision from FREE or HOLDOVER with a target locks the shelf to it at once: R124, with its Selection Notice. -/
def Obligations.DecisionLocksAMutedShelf : Prop :=
  ∀ (s : State) (i : ShelfIx) (r : RefIx), s.resetn = true → (s.shelf i).sel = .settling 0 →
    ((s.shelf i).state = .free ∨ ∃ g timer, (s.shelf i).state = .holdover g timer) →
    s.chooseTarget (s.permits i) i = some r →
    ∃ t, exec (.settleTimerExpiry i) s = .next t
      ∧ (t.shelf i).state = .locked r ∧ (t.shelf i).route = some r
      ∧ (t.shelf i).curEdge = (if (s.ref r).cfg.kind = .derived then (s.ref r).cfg.source else none)
      ∧ (t.shelf i).pendEdge = (s.shelf i).pendEdge
      ∧ (t.shelf i).latches =
        { (s.shelf i).latches with loop := (s.shelf i).latches.loop || s.loopBlocked i }
      ∧ Noticed s t 0 (s.noticeFrame i none (some r) 1 0)

/-- A decision from LOCKED with no target enters HOLDOVER: R126, at the stage of R144, with its Selection Notice. -/
def Obligations.DecisionEntersHoldover : Prop :=
  ∀ (s : State) (i : ShelfIx) (c : RefIx), s.resetn = true → (s.shelf i).sel = .settling 0 →
    (s.shelf i).state = .locked c → s.chooseTarget (s.permits i) i = none →
    ∃ t, exec (.settleTimerExpiry i) s = .next t
      ∧ (t.shelf i).state =
        (if 0 < (s.shelf i).cfg.phaseA.toNat then
          .holdover .inSpec (some ((s.shelf i).cfg.phaseA.toNat * 250000000))
        else if 0 < (s.shelf i).cfg.phaseB.toNat then
          .holdover .degraded (some ((s.shelf i).cfg.phaseB.toNat * 250000000))
        else .holdover .expired none)
      ∧ (t.shelf i).route = none ∧ (t.shelf i).curEdge = none ∧ (t.shelf i).pendEdge = (s.shelf i).pendEdge
      ∧ (t.shelf i).latches = { (s.shelf i).latches with
          holdover := true, loop := (s.shelf i).latches.loop || s.loopBlocked i }
      ∧ Noticed s t 0 (s.noticeFrame i (some c) none (if (s.shelf i).command = .hold then 3 else 4) 0)

/-- A decision from LOCKED with another target starts a switch: R125. The shelf enters the Alignment Queue and, with an
engine free and nobody waiting, is granted the lowest-numbered one (R133, R134); the grant's number is the model's own
(log entry 6). -/
def Obligations.DecisionStartsASwitch : Prop :=
  ∀ (s : State) (i : ShelfIx) (c r : RefIx), s.resetn = true → (s.shelf i).sel = .settling 0 →
    (s.shelf i).state = .locked c → s.chooseTarget (s.permits i) i = some r → r ≠ c →
    let command : Command := if s.clearsManual i then .none else (s.shelf i).command
    let basis : Basis := if ∃ q, command = .forced q then .forced else .automatic
    let u := s.setShelf i { s.shelf i with
      sel := .clean
      command := command
      loopBit := s.loopBlocked i
      latches := { (s.shelf i).latches with loop := (s.shelf i).latches.loop || s.loopBlocked i } }
    let v := u.startSwitch i c r basis
    let w := u.follow v
    exec (.settleTimerExpiry i) s = .next (s.endEvent (if s.clearsManual i then w.markShelf i else w))
    ∧ Kept u v
    ∧ (∀ j, j ≠ i → s.alignQ = [] → v.shelf j = s.shelf j)
    ∧ ((∀ e : EngineIx, s.engines[e] ≠ none) → v.engines = s.engines ∧ v.alignQ = s.alignQ ++ [i]
        ∧ v.shelf i = { u.shelf i with
            state := .waiting c r basis
            pendEdge := if (s.ref r).cfg.kind = .derived then (s.ref r).cfg.source else none })
    ∧ ∀ e : EngineIx, s.alignQ = [] → s.engines[e] = none → (∀ e' : EngineIx, e' < e → s.engines[e'] ≠ none) →
        v.alignQ = [] ∧ v.grants = s.grants + 1
        ∧ v.engines = s.engines.set e
            (some { shelf := i, grant := s.grants, timer := s.globals.alignLimit * 250000 })
        ∧ v.shelf i = { u.shelf i with
            state := .aligning c r basis
            pendEdge := if (s.ref r).cfg.kind = .derived then (s.ref r).cfg.source else none }

/-! ### Switching and holdover -/

/-- ENGINE_DONE (R136) and ALIGNMENT_LIMIT_EXPIRY (R137): the switch of the engine's shelf ends on its target; a report
of an engine freed since its grant is discarded (R138), and a limit that has not run out does not expire (log entry 4).
The freed engine passes to the head of the Alignment Queue (R133), before what the ending sets off at other shelves. -/
def Obligations.EngineEndsTheSwitch : Prop :=
  ∀ (s : State) (e : EngineIx) (g : Nat), s.resetn = true →
    ((∀ h, s.engines[e] = some h → h.grant ≠ g) →
      exec (.engineDone e g) s = .next s ∧ exec (.alignmentLimitExpiry e g) s = .next s)
    ∧ ((∀ h, s.engines[e] = some h → h.timer ≠ 0) → exec (.alignmentLimitExpiry e g) s = .next s)
    ∧ ∀ (h : Hold) (c r : RefIx) (b : Basis), s.engines[e] = some h → h.grant = g →
      (s.shelf h.shelf).state = .aligning c r b →
      let Ends : State → Bool → Prop := fun t hard =>
        (t.shelf h.shelf).state = .locked r ∧ (t.shelf h.shelf).route = some r
        ∧ (t.shelf h.shelf).curEdge = (s.shelf h.shelf).pendEdge ∧ (t.shelf h.shelf).pendEdge = none
        ∧ (t.shelf h.shelf).latches =
          { (s.shelf h.shelf).latches with hard := (s.shelf h.shelf).latches.hard || hard }
        ∧ (∃ n, (t.shelf h.shelf).sel = .settling n)
        ∧ Noticed s t 0 (s.noticeFrame h.shelf (some c) (some r) 1 (if hard then 1 else 0))
        ∧ (s.alignQ = [] → t.engines[e] = none) ∧ Kept s t
      (∃ t, exec (.engineDone e g) s = .next t ∧ Ends t false)
      ∧ (h.timer = 0 → ∃ t, exec (.alignmentLimitExpiry e g) s = .next t ∧ Ends t true)
      ∧ exec (.engineDone e g) s = .next (s.endEvent (s.follow (s.moveToTarget false h.shelf)))
      ∧ (h.timer = 0 → exec (.alignmentLimitExpiry e g) s =
          .next (s.endEvent (s.follow (s.moveToTarget true h.shelf))))
      ∧ (s.EnginesOk → ∀ hard, EnginePasses e s (s.moveToTarget hard h.shelf))

/-- HOLDOVER_PHASE_EXPIRY: R145; an expiry that is not due changes nothing (log entry 4), and phase B is read as held at
the phase A expiry (log entry 13). -/
def Obligations.HoldoverPhaseExpiryMovesTheStage : Prop :=
  ∀ (s : State) (i : ShelfIx), s.resetn = true →
    let Moves : ShelfState → Prop := fun after => ∃ t, exec (.holdoverPhaseExpiry i) s = .next t
      ∧ (t.shelf i).state = after ∧ (t.shelf i).route = (s.shelf i).route
      ∧ (t.shelf i).latches = (s.shelf i).latches ∧ Kept s t
    ((s.shelf i).state = .holdover .inSpec (some 0) → 0 < (s.shelf i).cfg.phaseB.toNat →
      Moves (.holdover .degraded (some ((s.shelf i).cfg.phaseB.toNat * 250000000))))
    ∧ ((s.shelf i).state = .holdover .inSpec (some 0) → (s.shelf i).cfg.phaseB.toNat = 0 →
      Moves (.holdover .expired none))
    ∧ ((s.shelf i).state = .holdover .degraded (some 0) → Moves (.holdover .expired none))
    ∧ ((s.shelf i).state ≠ .holdover .inSpec (some 0) → (s.shelf i).state ≠ .holdover .degraded (some 0) →
      exec (.holdoverPhaseExpiry i) s = .next s)

/-- How a switch in flight ends without its engine: abandonment at a failed target test (R107, R139, R140) and the hard
cut at the loss of the current reference (R141), each as the operation that the events of R81, R92, R93 and R114 use,
with the engine of an ALIGNING shelf passed to the head of the Alignment Queue (R133). A target that enters HOLDOFF at
COMPARISON_PULSE or ACTIVITY_WATCH_EXPIRY, or whose rank ANNOUNCEMENT_TIMER_EXPIRY makes 15 under basis AUTOMATIC,
abandons the switch (R140); no command leaves an AUTOMATIC switch standing whose target's effective rank it made worse
than the floor. A due expiry is log entry 4, the operands of COMPARISON_PULSE are log entry 5. -/
def Obligations.AbandonmentAndHardCut : Prop :=
  ∀ (s : State) (i : ShelfIx) (c r : RefIx) (b : Basis),
    ((s.shelf i).state = .waiting c r b ∨ (s.shelf i).state = .aligning c r b) →
    (s.targetOk i = match b with
      | .automatic => s.eligible i r
      | .forced => s.forcedUsable i r)
    ∧ Abandoned i c s (s.abandon i) ∧ (s.abandon i).ring = s.ring ∧ Kept s (s.abandon i)
    ∧ (let t := s.loseCurrent i
      (t.shelf i).state = .locked r ∧ (t.shelf i).route = some r
      ∧ (t.shelf i).curEdge = (s.shelf i).pendEdge ∧ (t.shelf i).pendEdge = none
      ∧ (t.shelf i).latches = { (s.shelf i).latches with hard := true }
      ∧ (∃ n, (t.shelf i).sel = .settling n)
      ∧ Noticed s t 0 (s.noticeFrame i (some c) (some r) 1 1) ∧ Kept s t)
    ∧ (∀ q, (s.shelf i).state = .waiting c r b →
      q = s.alignQ.filter (fun j => j != i) →
      ((s.abandon i).alignQ = q ∧ (s.abandon i).engines = s.engines
        ∧ (s.loseCurrent i).alignQ = q ∧ (s.loseCurrent i).engines = s.engines))
    ∧ (∀ (e : EngineIx) (h : Hold), s.EnginesOk → s.engines[e] = some h → h.shelf = i →
      EnginePasses e s (s.abandon i) ∧ EnginePasses e s (s.loseCurrent i))
    ∧ (s.resetn = true → c ≠ r →
      let x := s.ref r
      (∀ cycles ticks : Nat, ∃ t, exec (.comparisonPulse r cycles ticks) s = .next t
        ∧ (x.rt.state ≠ .holdoff → (t.ref r).rt.state = .holdoff → Abandoned i c s t))
      ∧ (x.mon.run = .running → x.mon.watch = some 0 → x.mon.verdict = .good → x.rt.state = .active →
        0 < x.cfg.holdOff → ∃ t, exec (.activityWatchExpiry r) s = .next t
          ∧ (t.ref r).rt.state = .holdoff ∧ Abandoned i c s t)
      ∧ (x.qt.timer = some 0 → x.cfg.kind = .announced → x.cfg.overrideRank = none → s.effRank r ≠ 15 →
        b = .automatic → ∃ t, exec (.announcementTimerExpiry r) s = .next t
          ∧ t.effRank r = 15 ∧ Abandoned i c s t))
    ∧ ∀ (command : Instr) (t : State), exec command s = .next t → b = .automatic →
      (t.shelf i).state.target = some r → t.effRank r ≠ s.effRank r →
      (t.effRank r).val ≤ (t.shelf i).cfg.floor.val

/-! ### The Quality Reporter -/

/-- An offer of a Selection Notice or of an SQ: R34, with the last-reported record of R161, and nothing while FLOATING
(R146). -/
def Obligations.NoticesEnterTheInsertQueue : Prop :=
  ∀ (s : State) (i : ShelfIx) (prev new : Option RefIx) (cause : Cause) (hard : Bool),
    let sn := s.noticeFrame i prev new cause.octet (if hard then 1 else 0)
    let sq := s.makeFrame 0xFF 0x22 (sqPayload i (s.shelf i).cfg.dialect (s.report i))
    let lost := { s with ring := { s.ring with counters := { s.ring.counters with
      noticeLost := bump s.ring.counters.noticeLost } } }
    let told := { s.shelf i with lastReport := some (s.report i) }
    let replaced : List InsertEntry := s.ring.insertQ.map fun e => if e.isSqOf i then InsertEntry.sq i sq else e
    let waits : Prop := ∃ f, InsertEntry.sq i f ∈ s.ring.insertQ
    (s.drive = .floating → s.offerSn i prev new cause hard = s ∧ s.offerSq i = s)
    ∧ (s.drive = .driving →
      (s.ring.insertQ.length < 32 → s.offerSn i prev new cause hard =
        { s with ring := { s.ring with insertQ := s.ring.insertQ ++ [InsertEntry.sn sn] } })
      ∧ (32 ≤ s.ring.insertQ.length → s.offerSn i prev new cause hard = lost)
      ∧ (waits → s.offerSq i = { s with ring := { s.ring with insertQ := replaced } }.setShelf i told)
      ∧ (¬waits → s.ring.insertQ.length < 32 → s.offerSq i =
        { s with ring := { s.ring with insertQ := s.ring.insertQ ++ [InsertEntry.sq i sq] } }.setShelf i told)
      ∧ (¬waits → 32 ≤ s.ring.insertQ.length → s.offerSq i = lost))

/-- The comparison of R162: with room for 24 reports, every enabled shelf's last-reported record is then its present
report content. An event ends with it exactly where R162 says so, WR-XLATE and WR-SHELF apart, which always do; that a
change of stage between equal ranks is such an event is log entry 8. At every command that changes a shelf's state,
stage, current reference or target, or an effective rank, while DRIVING and with the Insert Queue not full at its end,
so that no offer was dropped, every record is then up to date and every shelf whose record differed has its SQ. The
REFRESH_EXPIRY of R164 offers an SQ for every enabled shelf without comparison (R163); while FLOATING the refresh timer
alone restarts. An expiry that is not due changes nothing (log entry 4). -/
def Obligations.ReportsAreBroughtUpToDate : Prop :=
  ∀ s : State,
    let record : ShelfIx → Option Report := fun i =>
      if (s.shelf i).enabled then some (s.report i) else (s.shelf i).lastReport
    let told : ShelfIx → Shelf := fun i => { s.shelf i with lastReport := record i }
    (s.drive = .floating → s.compareReports = s)
    ∧ (s.drive = .driving → s.ring.insertQ.length + 24 ≤ 32 → Kept s s.compareReports
      ∧ (∀ i, s.compareReports.shelf i = told i)
      ∧ ∀ i, (s.shelf i).enabled = true → (s.shelf i).lastReport ≠ some (s.report i) →
        ∃ f, .sq i f ∈ s.compareReports.ring.insertQ
          ∧ f.payload = sqPayload i (s.shelf i).cfg.dialect (s.report i))
    ∧ (∀ t, (ReportEvent s t → s.endEvent t = t.compareReports) ∧ (¬ReportEvent s t → s.endEvent t = t))
    ∧ (∀ (c : Instr) (t : State), exec c s = .next t → ReportEvent s t → t.drive = .driving →
      t.ring.insertQ.length < 32 → Compared s t)
    ∧ (s.resetn = true → s.refreshTimer ≠ some 0 → exec .refreshExpiry s = .next s)
    ∧ (s.resetn = true → s.refreshTimer = some 0 → s.drive = .floating →
      exec .refreshExpiry s = .next { s with refreshTimer := some (s.globals.refreshInterval * 250000000) })
    ∧ (s.resetn = true → s.refreshTimer = some 0 → s.drive = .driving → ∃ t, exec .refreshExpiry s = .next t
      ∧ Kept { s with refreshTimer := some (s.globals.refreshInterval * 250000000) } t
      ∧ (s.ring.insertQ.length + 24 ≤ 32 → (∀ i, t.shelf i = told i) ∧ ∀ i, (s.shelf i).enabled = true →
        .sq i (s.makeFrame 0xFF 0x22 (sqPayload i (s.shelf i).cfg.dialect (s.report i))) ∈ t.ring.insertQ))

/-- The walk to the root reference (R159) and the squelch line (R160), wherever the edges form no cycle and follow the
references in use, as the part keeps them; a FIXED reference with an origin line gives no squelch line. -/
def Obligations.RootAndSquelchLine : Prop :=
  ∀ (s : State) (i : ShelfIx),
    ((s.shelf i).state.current = none → s.root i = none)
    ∧ (∀ c, (s.shelf i).state.current = some c → (s.ref c).cfg.kind ≠ .derived → s.root i = some c)
    ∧ (∀ c, (s.shelf i).state.current = some c → (s.ref c).cfg.kind = .derived → (s.ref c).cfg.source = none →
        s.root i = none)
    ∧ (∀ c t, s.NoCycle → s.EdgesOk → (s.shelf i).state.current = some c → (s.ref c).cfg.kind = .derived →
        (s.ref c).cfg.source = some t → s.root i = s.root t)
    ∧ ∀ l, s.squelch i = some l ↔ ∃ r, s.root i = some r ∧ (s.ref r).cfg.kind = .announced
        ∧ (s.ref r).cfg.origin = some l ∧ l.shelf = i

/-! ### The Status Ring Port -/

/-- A frame sent is a frame received: the octets of a frame with its CHECK, taken one by one by a READY receiver, arrive
as that frame at the Receive Queue, or raise RXDROP where it is full. R25, R26, R28, R182. -/
def Obligations.SentFrameArrives : Prop :=
  ∀ f : Frame, f.payload.length ≤ 88 →
    f.wire.foldl (fun v b => Receiver.octet v b true) Receiver.ready = .inFrame f.wire f.wire.length false
    ∧ ∀ s : State, s.resetn = true → s.ring.receiver = .inFrame f.wire f.wire.length false →
      (s.ring.rxQ.length < 16 → exec .frameArrival s =
        .next { s with ring := { s.ring with receiver := .ready, rxQ := s.ring.rxQ ++ [f] } })
      ∧ (16 ≤ s.ring.rxQ.length → exec .frameArrival s =
        .next { s with ring := { s.ring with receiver := .ready, counters := { s.ring.counters with
          rxDrop := bump s.ring.counters.rxDrop } } })

/-- A frame that fails a test of R26 is counted once and discarded, and a counter stays at 65,535 (R39). With no frame
in reception FRAME_ARRIVAL changes nothing. -/
def Obligations.DamagedFramesAreCounted : Prop :=
  (∀ c : BitVec 16, (bump c).toNat = min 65535 (c.toNat + 1))
    ∧ ∀ s : State, s.resetn = true →
      let format := { s with ring := { s.ring with receiver := .ready, counters := { s.ring.counters with
        format := bump s.ring.counters.format } } }
      let check := { s with ring := { s.ring with receiver := .ready, counters := { s.ring.counters with
        check := bump s.ring.counters.check } } }
      ((∀ l n e, s.ring.receiver ≠ .inFrame l n e) → exec .frameArrival s = .next s)
      ∧ ∀ (l : List Byte) (n : Nat) (e : Bool), s.ring.receiver = .inFrame l n e →
        (e = true ∨ n < 7 ∨ 95 < n → exec .frameArrival s = .next format)
        ∧ (e = false → 7 ≤ n → n ≤ 95 → ∀ (body : List Byte) (hi lo : Byte), l = body ++ [hi, lo] →
          ((crc16 body).toNat ≠ hi.toNat * 256 + lo.toNat → exec .frameArrival s = .next check)
          ∧ ∀ (dest src type ttl len : Byte) (payload : List Byte), body = [dest, src, type, ttl, len] ++ payload →
            (crc16 body).toNat = hi.toNat * 256 + lo.toNat → 88 < len.toNat ∨ payload.length ≠ len.toNat →
            exec .frameArrival s = .next format)

/-- FRAME_TAKE: strip, consume and pass (R29), the relay of R31, a REQ that waits for reply room or is executed (R30),
with the effect of its request command on an empty Receive Queue and the frames behind it left in place, but for a
RESTART, which empties the Receive Queue (R40), and a broadcast QA, which is relayed as any pass frame and whose entries
are taken in order as one event (R32, R48), with every enabled shelf dirty whose list names a reference whose effective
rank they changed (R58); a QA payload of the wrong length is counted in FORMAT and hands on no entry. The entries are
read as the QA ENTRY of spec/10. -/
def Obligations.FrameTakeHandlesTheHead : Prop :=
  (∀ l : List QaEntry, readQaEntries (l.flatMap fun e =>
      [e.ref, BitVec.ofNat 8 (32 * e.dialect.toNat + (if e.active then 16 else 0) + e.code.val)]) = l)
    ∧ (∀ s : State, s.resetn = true →
    (s.ring.rxQ = [] → exec .frameTake s = .next s)
    ∧ ∀ (f : Frame) (rest : List Frame), s.ring.rxQ = f :: rest →
      let g := { s.ring with rxQ := rest }
      (f.src = s.ring.station → exec .frameTake s = .next { s with ring := g })
      ∧ (f.src ≠ s.ring.station → f.dest = s.ring.station →
        (f.type ≠ 0x30 → exec .frameTake s = .next { s with ring := g })
        ∧ (f.type = 0x30 → 32 ≤ s.ring.insertQ.length → exec .frameTake s = .next s)
        ∧ (f.type = 0x30 → State.readyFor { s with ring := { s.ring with rxQ := [] } } f.src → f.payload.length ≤ 88 →
          ∀ c v, requestSent c = some (f.src, f.payload) →
            exec c { s with ring := { s.ring with rxQ := [] } } = .next v →
            let restarts : Prop := s.admits f.src ∧ ∃ tag, f.payload = [0x41, tag]
            (restarts → exec .frameTake s = .next v ∧ v.ring.rxQ = [])
            ∧ (¬restarts → exec .frameTake s = .next { v with ring := { v.ring with rxQ := rest } })))
      ∧ (f.src ≠ s.ring.station → f.dest ≠ s.ring.station → ¬(f.type = 0x21 ∧ f.dest = 0xFF) →
        (f.ttl.toNat < 2 → exec .frameTake s = .next { s with ring := { g with counters := { g.counters with
          ttlExp := bump g.counters.ttlExp } } })
        ∧ (2 ≤ f.ttl.toNat → g.relayQ.length < 16 → exec .frameTake s = .next { s with ring := { g with
          relayQ := g.relayQ ++ [{ f with ttl := BitVec.ofNat 8 (f.ttl.toNat - 1) }] } })
        ∧ (2 ≤ f.ttl.toNat → 16 ≤ g.relayQ.length → exec .frameTake s = .next { s with ring := { g with
          counters := { g.counters with relayDrop := bump g.counters.relayDrop } } })))
    ∧ ∀ (s : State) (f : Frame) (rest : List Frame), s.resetn = true → s.ring.rxQ = f :: rest →
    f.src ≠ s.ring.station → s.ring.station ≠ 0xFF → f.dest = 0xFF → f.type = 0x21 →
    let u := { s with ring := { s.ring with rxQ := rest } }.relay f
    (f.payload.length % 2 = 1 ∨ f.payload.length < 2 ∨ 16 < f.payload.length →
      exec .frameTake s = .next { u with ring := { u.ring with counters := { u.ring.counters with
        format := bump u.ring.counters.format } } })
    ∧ (f.payload.length % 2 = 0 → 2 ≤ f.payload.length → f.payload.length ≤ 16 →
      ∃ t, exec .frameTake s = .next t
        ∧ Kept ((readQaEntries f.payload).foldl (State.takeEntry f.src) u) t
        ∧ ∀ q, ((readQaEntries f.payload).foldl (State.takeEntry f.src) u).effRank q ≠ s.effRank q → Marked q s t)

/-- TRANSMISSION_START and TRANSMISSION_END: the arbiter of R36. A frame is sent with a fresh CHECK once the idle of 16
bit times has passed, and takes ten bit times for each octet. With nothing to send, while a frame is being sent or
before the idle has passed a start changes nothing, and so does an end before the frame's last bit time has passed or
with no frame being sent. The moment of either command is the sender's (log entry 4). The levels of STO (R36, R40,
R181). RECEIVER_READY and OCTET_TAKEN: the receiver of R25; that RECEIVER_READY's levels come in parts and count in
WAIT-IDLE alone is the model's choice (log entry 5). The check value of R182. -/
def Obligations.LineCommands : Prop :=
  (∀ s : State, s.resetn = true →
    let Sends : Ring → Frame → Prop := fun g f => exec .transmissionStart s =
      .next { s with ring := { g with
        sending := some (f.body ++ octets 2 (crc16 f.body).toNat), sendLeft := 200 * (f.payload.length + 7) } }
    (s.ring.sending ≠ none ∨ s.ring.idleLeft ≠ 0 → exec .transmissionStart s = .next s)
    ∧ (s.ring.relayQ = [] → s.ring.insertQ = [] → exec .transmissionStart s = .next s)
    ∧ (∀ f q, s.ring.sending = none → s.ring.idleLeft = 0 → s.ring.relayQ = f :: q →
      s.ring.insertQ = [] ∨ s.ring.marker = .insert →
      Sends { s.ring with relayQ := q, marker := .relay } f)
    ∧ (∀ e f q, s.ring.sending = none → s.ring.idleLeft = 0 → s.ring.insertQ = e :: q →
      e = .rep f ∨ e = .sn f ∨ (∃ i, e = .sq i f) →
      s.ring.relayQ = [] ∨ s.ring.marker = .relay → Sends { s.ring with insertQ := q, marker := .insert } f)
    ∧ (s.ring.sending = none ∨ s.ring.sendLeft ≠ 0 → exec .transmissionEnd s = .next s)
    ∧ ∀ l, s.ring.sending = some l → s.ring.sendLeft = 0 →
      exec .transmissionEnd s = .next { s with ring := { s.ring with sending := none, idleLeft := 320 } })
    ∧ (∀ s : State,
      (s.resetn = false ∨ s.ring.sending = none → s.sto = true)
      ∧ ∀ l, s.resetn = true → s.ring.sending = some l →
        (s.ring.sendLeft = 0 → s.sto = true)
        ∧ ∀ (k j m : Nat) (b : Byte), l[k]? = some b → j < 10 → m < 20 →
          s.ring.sendLeft + 200 * k + 20 * j + m = 200 * l.length →
          s.sto = if j = 0 then false else if j = 9 then true else b.getLsbD (j - 1))
    ∧ crc16 [0x31, 0x32, 0x33, 0x34, 0x35, 0x36, 0x37, 0x38, 0x39] = 0x29B1
    ∧ ∀ s : State, s.resetn = true →
      let Becomes : Instr → Receiver → Prop := fun c v =>
        exec c s = .next { s with ring := { s.ring with receiver := v } }
      (∀ n, s.ring.receiver = .waitIdle n →
        Becomes (.receiverReady []) (.waitIdle n) ∧ Becomes (.receiverReady [false]) (.waitIdle 0)
        ∧ (n + 1 < 16 → Becomes (.receiverReady [true]) (.waitIdle (n + 1)))
        ∧ (16 ≤ n + 1 → Becomes (.receiverReady [true]) .ready))
      ∧ (∀ l l' t, exec (.receiverReady l) s = .next t →
          exec (.receiverReady (l ++ l')) s = exec (.receiverReady l') t)
      ∧ (∀ l, (∀ n, s.ring.receiver ≠ .waitIdle n) → exec (.receiverReady l) s = .next s)
      ∧ (∀ b stop, s.ring.receiver = .ready → Becomes (.octetTaken b stop) (.inFrame [b] 1 (!stop)))
      ∧ (∀ l n e b stop, s.ring.receiver = .inFrame l n e →
        (l.length < 95 → Becomes (.octetTaken b stop) (.inFrame (l ++ [b]) (min 96 (n + 1)) (e || !stop)))
        ∧ (95 ≤ l.length → Becomes (.octetTaken b stop) (.inFrame l (min 96 (n + 1)) (e || !stop))))
      ∧ ∀ n b, s.ring.receiver = .waitIdle n → Becomes (.octetTaken b false) (.waitIdle 0)
        ∧ ∀ k, k ≤ 8 → (∀ j, j < k → b.getLsbD (7 - j) = true) → (k < 8 → b.getLsbD (7 - k) = false) →
          Becomes (.octetTaken b true) (.waitIdle (k + 1))

/-! ### Requests -/

/-- A request that cannot be taken at once: it is counted where it is too long (R26) or finds the Receive Queue full
(R28), stands behind the frames ahead of it, waits for reply room (R30), or is stripped as the part's own (R29). The TTL
it arrives with is the model's choice (log entry 5). -/
def Obligations.RequestsWaitTheirTurn : Prop :=
  ∀ (s : State) (c : Instr) (src : Byte) (payload : List Byte), s.resetn = true →
    requestSent c = some (src, payload) →
    let f : Frame := { dest := s.ring.station, src := src, type := 0x30, ttl := s.ring.hopLimit, payload := payload }
    (88 < payload.length → exec c s = .next { s with ring := { s.ring with counters := { s.ring.counters with
      format := bump s.ring.counters.format } } })
    ∧ (payload.length ≤ 88 → s.ring.rxQ ≠ [] → s.ring.rxQ.length < 16 →
      exec c s = .next { s with ring := { s.ring with rxQ := s.ring.rxQ ++ [f] } })
    ∧ (payload.length ≤ 88 → 16 ≤ s.ring.rxQ.length →
      exec c s = .next { s with ring := { s.ring with counters := { s.ring.counters with
        rxDrop := bump s.ring.counters.rxDrop } } })
    ∧ (payload.length ≤ 88 → s.ring.rxQ = [] → src = s.ring.station → exec c s = .next s)
    ∧ (payload.length ≤ 88 → s.ring.rxQ = [] → src ≠ s.ring.station → 32 ≤ s.ring.insertQ.length →
      exec c s = .next { s with ring := { s.ring with rxQ := [f] } })

/-- The tests of R171 that every request meets, in their order: an unknown code or an absent code or tag, the access
check of R170, and the argument length. A refused request changes nothing but for its reply (R169). -/
def Obligations.RequestsAreRefusedInOrder : Prop :=
  ∀ (s : State) (c : Instr) (src : Byte) (payload : List Byte), s.readyFor src → payload.length ≤ 88 →
    requestSent c = some (src, payload) →
    let Refused : Byte → Prop := fun status =>
      exec c s = .next (s.withReply (s.replyFrame src (payload.getD 0 0) (payload.getD 1 0) status []))
    (payload.length < 2 → Refused 0x02)
    ∧ ∀ (code tag : Byte) (args : List Byte), payload = code :: tag :: args →
      (code ∉ knownRequestCodes → Refused 0x02)
      ∧ (code ∈ knownRequestCodes → 5 < code.toNat → ¬s.admits src → Refused 0x0B)
      ∧ (∀ n, (code, n) ∈ argumentLengths → code.toNat ≤ 5 ∨ s.admits src → args.length ≠ n → Refused 0x02)
      ∧ (code = 0x12 → s.admits src → args.length < 2 ∨ args.length ≠ 2 + 2 * (args.getD 1 0).toNat →
        Refused 0x02)

/-- The five reads of R173: every SRC passes, nothing changes, and the results are the reports of spec/10. -/
def Obligations.ReadsReportAndChangeNothing : Prop :=
  ∀ (s : State) (src tag : Byte), s.readyFor src →
    let Replies : Instr → Byte → Byte → List Byte → Prop := fun c code status results =>
      exec c s = .next (s.withReply (s.replyFrame src code tag status results))
    (∀ r : RefIx, Replies (.rdRef src tag [indexOctet r]) 0x01 0x00 (s.refReport r))
    ∧ (∀ i : ShelfIx, Replies (.rdShelf src tag [indexOctet i]) 0x02 0x00 (s.shelfReport i))
    ∧ (∀ d : Dialect, Replies (.rdXlate src tag [d.octet]) 0x03 0x00 (tableReport d (s.table d)))
    ∧ Replies (.rdGlobal src tag []) 0x04 0x00
        [s.globals.controller, s.ring.station, BitVec.ofNat 8 s.globals.refreshInterval,
          BitVec.ofNat 8 s.globals.announceTimeout, BitVec.ofNat 8 s.globals.alignLimit, s.ring.hopLimit,
          BitVec.ofNat 8 ((if s.drive = .driving then 1 else 0) + (if s.role then 2 else 0)
            + (if s.alarm then 4 else 0))]
    ∧ Replies (.rdCount src tag []) 0x05 0x00
        (octets 2 s.ring.counters.rxDrop.toNat ++ octets 2 s.ring.counters.check.toNat
          ++ octets 2 s.ring.counters.format.toNat ++ octets 2 s.ring.counters.relayDrop.toNat
          ++ octets 2 s.ring.counters.ttlExp.toNat ++ octets 2 s.ring.counters.entryRef.toNat
          ++ octets 2 s.ring.counters.noticeLost.toNat)
    ∧ (∀ b : Byte, 31 < b.toNat → Replies (.rdRef src tag [b]) 0x01 0x03 [])
    ∧ (∀ b : Byte, 23 < b.toNat → Replies (.rdShelf src tag [b]) 0x02 0x03 [])
    ∧ (∀ b : Byte, b.toNat ≠ 1 → b.toNat ≠ 2 → Replies (.rdXlate src tag [b]) 0x03 0x03 [])

/-- Where the reports of RD-REF and RD-SHELF, the 33 octets of a translation table (WR-XLATE and RD-XLATE) and the
payload of an SQ carry their values, with the code values of spec/10: R23, R42, R83, R102, R161. Each remaining time is
in whole milliseconds, rounded up. -/
def Obligations.ReportLayouts : Prop :=
  ∀ s : State,
    let field : List Byte → Nat → Nat → Nat := fun l at' n => fromOctets ((l.drop at').take n)
    let time : Timer → Nat → Nat := fun timer stopped => match timer with
      | none => stopped
      | some n => (n + 249999) / 250000
    let classCode : StateClass → Nat := fun c => match c with
      | .off => 0
      | .free => 1
      | .locked => 2
      | .switching => 3
      | .holdover => 4
    (∀ r : RefIx,
      let x := s.ref r
      let l := s.refReport r
      l.length = 46 ∧ l.take 23 = x.cfg.octets
      ∧ field l 0 1 = (match x.cfg.kind with
        | .announced => 0
        | .fixed => 1
        | .derived => 2)
      ∧ field l 1 1 = x.cfg.rate.val
      ∧ field l 2 1 = (match x.cfg.gate with
        | .g800 => 0
        | .g8000 => 1
        | .g80000 => 2)
      ∧ field l 3 1 = x.cfg.depth.val
      ∧ (x.cfg.InRange → field l 4 3 = x.cfg.accept ∧ field l 7 3 = x.cfg.reject ∧ field l 10 3 = x.cfg.hit
        ∧ field l 13 2 = x.cfg.holdOff ∧ field l 15 2 = x.cfg.restoreBase)
      ∧ field l 17 1 = (x.cfg.overrideRank.map Fin.val).getD 255 ∧ field l 18 1 = x.cfg.fixedRank.val
      ∧ field l 19 1 = (x.cfg.source.map Fin.val).getD 255 ∧ field l 20 1 = x.cfg.announcer.toNat
      ∧ field l 21 1 = (x.cfg.origin.map fun line => line.shelf.val).getD 255
      ∧ field l 22 1 = (x.cfg.origin.map fun line => line.port.val).getD 255
      ∧ field l 23 1 = (match x.rt.state with
        | .disabled => 0
        | .starting => 1
        | .active => 2
        | .holdoff => 3
        | .failed => 4
        | .restoring => 5)
      ∧ field l 24 1 = x.rt.flap.val
      ∧ field l 25 1 = x.rt.latches.los.toNat + 2 * x.rt.latches.freq.toNat + 4 * x.rt.latches.hit.toNat
          + 8 * x.rt.latches.timeout.toNat + 16 * x.rt.latches.fail.toNat
      ∧ (x.rt.TimersOk → field l 26 2 = time x.rt.holdOffTimer 0xFFFF
        ∧ field l 28 3 = time x.rt.restoreTimer 0xFFFFFF ∧ field l 31 3 = time x.rt.decayTimer 0xFFFFFF)
      ∧ field l 34 1 = (if x.mon.run = .running then 1 else 0) + (if x.mon.signal = .lost then 2 else 0)
          + (if x.mon.settling = true then 4 else 0)
          + 8 * (match x.mon.qual with
            | .unmeasured => 0
            | .inside => 1
            | .outside => 2)
          + (if x.mon.verdict = .good then 32 else 0)
      ∧ ((∀ o, x.mon.last = some o → o.natAbs ≤ 1000000) → (BitVec.ofNat 24 (field l 35 3)).toInt =
          x.mon.last.getD (-0x800000))
      ∧ ((∀ f, x.mon.filtered = some f → f.natAbs ≤ 1000000) → (BitVec.ofNat 24 (field l 38 3)).toInt =
          x.mon.filtered.getD (-0x800000))
      ∧ (x.mon.hits ≤ 2 → field l 41 1 = x.mon.hits)
      ∧ field l 42 1 = 16 * x.qt.received.val + (match x.qt.source with
        | .none => 0
        | .announced => 1
        | .withdrawn => 2
        | .timedOut => 3)
      ∧ ((∀ n, x.qt.timer = some n → n ≤ 15 * 250000000) → field l 43 2 = time x.qt.timer 0xFFFF)
      ∧ field l 45 1 = (s.effRank r).val)
    ∧ (∀ i : ShelfIx,
      let x := s.shelf i
      let l := s.shelfReport i
      x.list.length ≤ 8 →
      l.length = 43 ∧ l.take 11 = x.cfg.octets
      ∧ field l 0 1 = (if x.cfg.mode = .revertive then 1 else 0) ∧ field l 1 1 = x.cfg.floor.val
      ∧ field l 2 1 = (match x.cfg.window with
        | .short => 0
        | .medium => 1
        | .long => 2)
      ∧ field l 3 1 = (if x.cfg.dialect = .one then 1 else 2)
      ∧ field l 4 1 = x.cfg.holdoverRank.val ∧ field l 5 1 = x.cfg.degradedRank.val ∧ field l 6 1 = x.cfg.freeRank.val
      ∧ field l 7 2 = x.cfg.phaseA.toNat ∧ field l 9 2 = x.cfg.phaseB.toNat ∧ field l 11 1 = x.list.length
      ∧ (∀ (k : Nat) (c : Candidate), x.list[k]? = some c → field l (12 + 2 * k) 1 = c.ref.val
        ∧ field l (13 + 2 * k) 1 = 128 * c.lockout.toNat + c.prio.val)
      ∧ (∀ k, x.list.length ≤ k → k < 8 → field l (12 + 2 * k) 2 = 0xFF00)
      ∧ field l 28 2 = (match x.command with
        | .none => 0x00FF
        | .manual r => 0x0100 + r.val
        | .forced r => 0x0200 + r.val
        | .hold => 0x03FF)
      ∧ field l 30 1 = classCode x.state.cls + 16 * (match x.state with
        | .waiting _ _ _ => 1
        | .aligning _ _ _ => 2
        | .holdover .inSpec _ => 3
        | .holdover .degraded _ => 4
        | .holdover .expired _ => 5
        | _ => 0)
      ∧ field l 31 1 = (x.state.current.map Fin.val).getD 255 ∧ field l 32 1 = (x.state.target.map Fin.val).getD 255
      ∧ field l 33 1 = (x.route.map Fin.val).getD 255
      ∧ field l 34 1 = (if x.sel = .clean then 0 else 1)
      ∧ ((∀ n, x.sel = .settling n → n ≤ 1000 * 250000) → field l 35 2 = time x.sel.timer 0xFFFF)
      ∧ ((∀ g n, x.state = .holdover g (some n) → n ≤ 65535 * 250000000) →
          field l 37 4 = time x.state.timer 0xFFFFFFFF)
      ∧ field l 41 1 = x.latches.holdover.toNat + 2 * x.latches.hard.toNat + 4 * x.latches.loop.toNat
          + 8 * x.latches.abandon.toNat + 128 * x.loopBit.toNat
      ∧ field l 42 1 = 16 * (s.outRank i).val + ((s.table x.cfg.dialect).outTable[s.outRank i]).val)
    ∧ (∀ (d : Dialect) (x : XlateTable), (tableReport d x).map BitVec.toNat =
      (if d = .one then 1 else 2)
        :: (((List.finRange 16).map fun k => 128 * x.inTable[k].valid.toNat + x.inTable[k].rank.val)
          ++ (List.finRange 16).map fun k => x.outTable[k].val))
    ∧ ∀ (i : ShelfIx) (d : Dialect) (c : Report), (sqPayload i d c).map BitVec.toNat =
      [i.val, classCode c.cls, 16 * c.rank.val + c.code.val, if d = .one then 1 else 2,
        (c.squelch.map fun line => line.shelf.val).getD 255, (c.squelch.map fun line => line.port.val).getD 255,
        (c.root.map Fin.val).getD 255]

/-- WR_GLOBAL: R172. Its own reply carries the new station address and hop limit (R33). -/
def Obligations.WrGlobalWritesSixSettings : Prop :=
  ∀ (s : State) (src tag ctl station refresh announce align hop : Byte), s.readyFor src → s.admits src →
    let c : Instr := .wrGlobal src tag [ctl, station, refresh, announce, align, hop]
    let u := { s with
      globals := {
        controller := ctl, refreshInterval := max 1 (min 10 refresh.toNat)
        announceTimeout := max 1 (min 15 announce.toNat), alignLimit := max 2 (min 30 align.toNat) }
      ring := { s.ring with station := station, hopLimit := BitVec.ofNat 8 (max 1 (min 63 hop.toNat)) } }
    let inRange : Prop := 1 ≤ refresh.toNat ∧ refresh.toNat ≤ 10 ∧ 1 ≤ announce.toNat ∧ announce.toNat ≤ 15
      ∧ 2 ≤ align.toNat ∧ align.toNat ≤ 30 ∧ 1 ≤ hop.toNat ∧ hop.toNat ≤ 63
    (ctl = 0xFF ∨ station = 0 ∨ station = 0xFF → exec c s = .next (s.withReply (s.replyFrame src 0x14 tag 0x03 [])))
    ∧ (ctl ≠ 0xFF → station ≠ 0 → station ≠ 0xFF → inRange →
      exec c s = .next (u.withReply (u.replyFrame src 0x14 tag 0x00 [])))
    ∧ (ctl ≠ 0xFF → station ≠ 0 → station ≠ 0xFF → ¬inRange →
      exec c s = .next (u.withReply (u.replyFrame src 0x14 tag 0x01 [])))

/-- ACK: R175, with the live conditions of the tables of R79 and R100 (log entries 11 and 12: HARD, ABANDON, and HIT
after a third hit). -/
def Obligations.AckClearsWhatIsNotLive : Prop :=
  ∀ (s : State) (src tag : Byte), s.readyFor src → s.admits src →
    (∀ (r : RefIx) (set : Byte), set.toNat < 32 →
      let x := s.ref r
      let l : RefLatches := {
        los := x.rt.latches.los && (x.mon.signal == .lost || !set.getLsbD 0)
        freq := x.rt.latches.freq && (x.mon.qual == .outside || !set.getLsbD 1)
        hit := x.rt.latches.hit && (decide (0 < x.mon.hits) || !set.getLsbD 2)
        timeout := x.rt.latches.timeout && (x.qt.source == .timedOut || !set.getLsbD 3)
        fail := x.rt.latches.fail && (x.rt.state == .failed || !set.getLsbD 4) }
      exec (.ack src tag [0, indexOctet r, set]) s =
        .next ((s.setRef r { x with rt := { x.rt with latches := l } }).withReply (s.replyFrame src 0x33 tag 0x00
          [BitVec.ofNat 8 (l.los.toNat + 2 * l.freq.toNat + 4 * l.hit.toNat + 8 * l.timeout.toNat
            + 16 * l.fail.toNat)])))
    ∧ (∀ (i : ShelfIx) (set : Byte), set.toNat < 16 →
      let x := s.shelf i
      let l : ShelfLatches := {
        holdover := x.latches.holdover && (x.state.cls == .holdover || !set.getLsbD 0)
        hard := x.latches.hard && !set.getLsbD 1
        loop := x.latches.loop && (x.loopBit || !set.getLsbD 2)
        abandon := x.latches.abandon && !set.getLsbD 3 }
      exec (.ack src tag [1, indexOctet i, set]) s =
        .next ((s.setShelf i { x with latches := l }).withReply (s.replyFrame src 0x33 tag 0x00
          [BitVec.ofNat 8 (l.holdover.toNat + 2 * l.hard.toNat + 4 * l.loop.toNat + 8 * l.abandon.toNat
            + 128 * x.loopBit.toNat)])))
    ∧ ∀ kind ix set : Byte,
      (1 < kind.toNat ∨ (kind = 0 ∧ (31 < ix.toNat ∨ 31 < set.toNat)) ∨ (kind = 1 ∧ (23 < ix.toNat ∨ 15 < set.toNat))) →
      exec (.ack src tag [kind, ix, set]) s = .next (s.withReply (s.replyFrame src 0x33 tag 0x03 []))

/-- CLR_COUNT: R174, with the order of R39 and the clearing at warm restart. -/
def Obligations.ClrCountClearsTheCounters : Prop :=
  (∀ (s : State) (src tag : Byte), s.readyFor src →
    (s.admits src → exec (.clrCount src tag []) s = .next ({ s with ring := { s.ring with
      counters := ⟨0, 0, 0, 0, 0, 0, 0⟩ } }.withReply (s.replyFrame src 0x40 tag 0x00 [])))
    ∧ (s.admits src → ∀ args : List Byte, args ≠ [] → args.length ≤ 86 →
      exec (.clrCount src tag args) s = .next (s.withReply (s.replyFrame src 0x40 tag 0x02 [])))
    ∧ (¬s.admits src → ∀ args : List Byte, args.length ≤ 86 →
      exec (.clrCount src tag args) s = .next (s.withReply (s.replyFrame src 0x40 tag 0x0B [])))
    ∧ (s.admits src → ∃ t, exec (.restart src tag []) s = .next t ∧ t.ring.counters = ⟨0, 0, 0, 0, 0, 0, 0⟩))
    ∧ bump 0 = 1

/-- RESTART: R177, with R40, R84, R101, R102, R113 and R167, and the live conditions of the tables of R79 and R100 (log
entries 11 and 12: HARD, ABANDON, and HIT after a third hit). Everything that is not named is kept. -/
def Obligations.RestartKeepsTheTables : Prop :=
  ∀ (s : State) (src tag : Byte), s.readyFor src → s.admits src →
    let enabled : List ShelfIx := (List.finRange 24).filter fun i => (s.shelf i).enabled
    let told : List InsertEntry := enabled.map fun i =>
      .sq i (s.makeFrame 0xFF 0x22 (sqPayload i (s.shelf i).cfg.dialect (s.report i)))
    ∃ t, exec (.restart src tag []) s = .next t
      ∧ t = { s with
          refs := t.refs, shelves := t.shelves
          ring := { s.ring with
            rxQ := [], relayQ := [], counters := ⟨0, 0, 0, 0, 0, 0, 0⟩, marker := .relay
            insertQ := .rep (s.replyFrame src 0x41 tag 0x00 []) :: if s.drive = .driving then told else [] } }
      ∧ (∀ r, t.ref r = { s.ref r with rt := { (s.ref r).rt with latches := {
          los := (s.ref r).rt.latches.los && (s.ref r).mon.signal == .lost
          freq := (s.ref r).rt.latches.freq && (s.ref r).mon.qual == .outside
          hit := (s.ref r).rt.latches.hit && decide (0 < (s.ref r).mon.hits)
          timeout := (s.ref r).rt.latches.timeout && (s.ref r).qt.source == .timedOut
          fail := (s.ref r).rt.latches.fail && (s.ref r).rt.state == .failed } } })
      ∧ ∀ i, t.shelf i = { s.shelf i with
          command := .none
          sel := (s.shelf i).mark.sel
          latches := {
            holdover := (s.shelf i).latches.holdover && (s.shelf i).state.cls == .holdover
            hard := false
            loop := (s.shelf i).latches.loop && (s.shelf i).loopBit
            abandon := false }
          lastReport := if s.drive = .driving ∧ (s.shelf i).enabled = true then some (s.report i)
            else (s.shelf i).lastReport }

/-! ### Shelves and their lists -/

/-- SHELF_ON (R94) and SHELF_OFF (R95), with their refusals. SHELF_OFF's final SQ is offered whatever the last-reported
record holds (R163), and the engine it frees passes to the head of the Alignment Queue (R133). -/
def Obligations.ShelfOnAndShelfOff : Prop :=
  ∀ (s : State) (src tag : Byte), s.readyFor src → s.admits src →
    (∀ b : Byte, 24 ≤ b.toNat →
      exec (.shelfOn src tag [b]) s = .next (s.withReply (s.replyFrame src 0x22 tag 0x03 []))
      ∧ exec (.shelfOff src tag [b]) s = .next (s.withReply (s.replyFrame src 0x23 tag 0x03 [])))
    ∧ ∀ i : ShelfIx,
      let x := s.shelf i
      let final : Report :=
        { code := (s.table x.cfg.dialect).outTable[15], rank := 15, cls := .off, squelch := none, root := none }
      (s.EnginesOk → ∀ (e : EngineIx) (h : Hold), s.engines[e] = some h → h.shelf = i →
        EnginePasses e s (s.closeShelf i))
      ∧ (x.state ≠ .off →
        exec (.shelfOn src tag [indexOctet i]) s = .next (s.withReply (s.replyFrame src 0x22 tag 0x04 [])))
      ∧ (x.state = .off →
        exec (.shelfOff src tag [indexOctet i]) s = .next (s.withReply (s.replyFrame src 0x23 tag 0x04 [])))
      ∧ (x.state = .off → ∃ t, exec (.shelfOn src tag [indexOctet i]) s = .next t
        ∧ (t.shelf i).state = .free ∧ (t.shelf i).route = none
        ∧ (x.sel = .clean → (t.shelf i).sel = .settling (x.cfg.window.ms * 250000))
        ∧ (t.shelf i).latches = x.latches ∧ Kept s t ∧ RepliedWith s t (s.replyFrame src 0x22 tag 0x00 []))
      ∧ (x.state ≠ .off → ∃ t, exec (.shelfOff src tag [indexOctet i]) s = .next t
        ∧ t.shelf i = { x with
            route := none, curEdge := none, pendEdge := none, sel := .clean, command := .none
            latches := ⟨false, false, false, false⟩, loopBit := false, state := .off
            lastReport := (t.shelf i).lastReport }
        ∧ (s.EnginesOk → i ∉ t.alignQ ∧ ∀ (e : EngineIx) (h : Hold), t.engines[e] = some h → h.shelf ≠ i)
        ∧ (∀ c, x.state.current = some c → Noticed s t 1 (s.noticeFrame i (some c) none 5 0))
        ∧ (s.drive = .driving → s.ring.insertQ.length + 3 ≤ 32 → (t.shelf i).lastReport = some final
          ∧ .sq i (s.makeFrame 0xFF 0x22 (sqPayload i x.cfg.dialect final)) ∈ t.ring.insertQ)
        ∧ Kept (s.setShelf i { x with command := .none }) t
        ∧ RepliedWith s t (s.replyFrame src 0x23 tag 0x00 []))

/-- CMD_CLEAR, CMD_MANUAL, CMD_FORCED and CMD_HOLD: the tests of R97 in their order, and a command taken, which marks
the shelf. The level of a command is that of R96. -/
def Obligations.CommandsAreTestedAndTaken : Prop :=
  ∀ (s : State) (src tag ref : Byte), s.readyFor src → s.admits src →
    let Replies : Instr → Byte → Prop := fun c status =>
      exec c s = .next (s.withReply (s.replyFrame src 0x30 tag status []))
    (∀ b : Byte, 24 ≤ b.toNat → Replies (.cmdClear src tag b ref) 0x03 ∧ Replies (.cmdManual src tag b ref) 0x03
      ∧ Replies (.cmdForced src tag b ref) 0x03 ∧ Replies (.cmdHold src tag b ref) 0x03)
    ∧ ∀ i : ShelfIx,
      let x := s.shelf i
      let held : Nat := match x.command with
        | .none => 0
        | .manual _ => 1
        | .forced _ => 2
        | .hold => 3
      let Taken : Instr → Command → Prop := fun c command => exec c s =
        .next ((s.setShelf i { x with command := command }.mark).withReply (s.replyFrame src 0x30 tag 0x00 []))
      (32 ≤ ref.toNat → Replies (.cmdManual src tag (indexOctet i) ref) 0x03
        ∧ Replies (.cmdForced src tag (indexOctet i) ref) 0x03)
      ∧ (x.state = .off → Replies (.cmdClear src tag (indexOctet i) ref) 0x04
        ∧ Replies (.cmdHold src tag (indexOctet i) ref) 0x04)
      ∧ (x.state ≠ .off → Taken (.cmdClear src tag (indexOctet i) ref) .none
        ∧ Taken (.cmdHold src tag (indexOctet i) ref) .hold)
      ∧ ∀ r : RefIx,
        let manual : Instr := .cmdManual src tag (indexOctet i) (indexOctet r)
        let forced : Instr := .cmdForced src tag (indexOctet i) (indexOctet r)
        let named : Prop := ∃ c ∈ x.list, c.ref = r
        let unlocked : Prop := ∃ c ∈ x.list, c.ref = r ∧ c.lockout = false
        (x.state = .off → Replies manual 0x04 ∧ Replies forced 0x04)
        ∧ (x.state ≠ .off → 1 < held → Replies manual 0x08)
        ∧ (x.state ≠ .off → held ≤ 1 → ¬named → Replies manual 0x07)
        ∧ (x.state ≠ .off → held ≤ 1 → named → ¬unlocked → Replies manual 0x09)
        ∧ (x.state ≠ .off → held ≤ 1 → unlocked → s.eligible i r = false → Replies manual 0x04)
        ∧ (x.state ≠ .off → held ≤ 1 → s.eligible i r = true → Taken manual (.manual r))
        ∧ (x.state ≠ .off → 2 < held → Replies forced 0x08)
        ∧ (x.state ≠ .off → held ≤ 2 → ¬named → Replies forced 0x07)
        ∧ (x.state ≠ .off → held ≤ 2 → named → ¬unlocked → Replies forced 0x09)
        ∧ (x.state ≠ .off → held ≤ 2 → unlocked → Taken forced (.forced r))

/-- LOCK: R93. -/
def Obligations.LockSetsOrClearsALockout : Prop :=
  ∀ (s : State) (src tag : Byte), s.readyFor src → s.admits src →
    let Replies : List Byte → Byte → Prop := fun args status =>
      exec (.lock src tag args) s = .next (s.withReply (s.replyFrame src 0x31 tag status []))
    (∀ a b v : Byte, 23 < a.toNat ∨ 31 < b.toNat ∨ 1 < v.toNat → Replies [a, b, v] 0x03)
    ∧ ∀ (i : ShelfIx) (r : RefIx) (on : Bool),
      let x := s.shelf i
      let args : List Byte := [indexOctet i, indexOctet r, if on then 1 else 0]
      let named : Prop := ∃ c ∈ x.list, c.ref = r
      let isOff : Prop := ∃ c ∈ x.list, c.ref = r ∧ c.lockout = false
      let written : Shelf := { x with
        list := x.list.map fun c => if c.ref = r then { c with lockout := on } else c
        command := if on = true ∧ (x.command = .manual r ∨ x.command = .forced r) then .none else x.command }
      (¬named → Replies args 0x07)
      ∧ (named → (isOff ↔ on = false) → Replies args 0x00)
      ∧ (named → (isOff ↔ on = true) → ∃ t, exec (.lock src tag args) s = .next t
        ∧ Kept (s.setShelf i written) t ∧ RepliedWith s t (s.replyFrame src 0x31 tag 0x00 [])
        ∧ (t.shelf i).route = x.route ∧ (x.state ≠ .off → (t.shelf i).sel ≠ .clean)
        ∧ (on = false ∨ x.state.target ≠ some r → (t.shelf i).state = x.state ∧ (t.shelf i).latches = x.latches)
        ∧ ∀ c, on = true → x.state.target = some r → x.state.current = some c →
          (t.shelf i).state = .locked c ∧ (t.shelf i).latches = { x.latches with abandon := true })

/-- WR_CAND: R91, and the effects of R92 in their order: the abandonment of R139, and the loss of the current reference,
by the hard cut of R141 or by the entry into HOLDOVER of R115, each with its route, edges, latches and Selection Notice
behind the reply. -/
def Obligations.WrCandReplacesTheList : Prop :=
  ∀ (s : State) (src tag : Byte), s.readyFor src → s.admits src →
    let Replies : List Byte → Byte → Prop := fun args status =>
      exec (.wrCand src tag args) s = .next (s.withReply (s.replyFrame src 0x12 tag status []))
    (∀ (a n : Byte) (es : List (Byte × Byte)), es.length ≤ 42 → n.toNat = es.length →
      23 < a.toNat ∨ 8 < es.length
        ∨ (∃ e ∈ es, 31 < e.1.toNat ∨ (e.2 &&& 0x7F).toNat = 0 ∨ 15 < (e.2 &&& 0x7F).toNat) →
      Replies (a :: n :: es.flatMap fun e => [e.1, e.2]) 0x03)
    ∧ ∀ (i : ShelfIx) (l : List Candidate), l.length ≤ 8 → (∀ c ∈ l, c.prio ≠ 0) →
      let x := s.shelf i
      let args : List Byte := indexOctet i :: BitVec.ofNat 8 l.length :: l.flatMap Candidate.octets
      let lists : RefIx → Prop := fun r => ∃ c ∈ l, c.ref = r
      let opens : RefIx → Prop := fun r => ∃ c ∈ l, c.ref = r ∧ c.lockout = false
      let falls : Prop := ∃ r, (x.command = .manual r ∨ x.command = .forced r) ∧ ¬opens r
      (¬(l.map Candidate.ref).Nodup → Replies args 0x05)
      ∧ ((l.map Candidate.ref).Nodup → ∃ t, exec (.wrCand src tag args) s = .next t
        ∧ (t.shelf i).list = l ∧ (falls → (t.shelf i).command = .none) ∧ (¬falls → (t.shelf i).command = x.command)
        ∧ Kept (s.setShelf i { x with list := l, command := (t.shelf i).command }) t
        ∧ RepliedWith s t (s.replyFrame src 0x12 tag 0x00 [])
        ∧ (x.state ≠ .off → (t.shelf i).sel ≠ .clean)
        ∧ (x.state.current = none
            ∨ (∃ c, x.state.current = some c ∧ (∀ r, x.state.target = some r → opens r) ∧ lists c) →
          (t.shelf i).state = x.state ∧ (t.shelf i).route = x.route ∧ (t.shelf i).curEdge = x.curEdge
            ∧ (t.shelf i).pendEdge = x.pendEdge ∧ (t.shelf i).latches = x.latches)
        ∧ (∀ c r, x.state.current = some c → x.state.target = some r → ¬opens r → lists c → Abandoned i c s t)
        ∧ (∀ c r, x.state.current = some c → x.state.target = some r → opens r → ¬lists c →
          (t.shelf i).state = .locked r ∧ (t.shelf i).route = some r ∧ (t.shelf i).curEdge = x.pendEdge
            ∧ (t.shelf i).pendEdge = none ∧ (t.shelf i).latches = { x.latches with hard := true }
            ∧ Noticed s t 1 (s.noticeFrame i (some c) (some r) 1 1))
        ∧ (∀ c, x.state.current = some c → (∀ r, x.state.target = some r → ¬opens r) → ¬lists c →
          (t.shelf i).state = x.cfg.holdoverEntry ∧ (t.shelf i).route = none ∧ (t.shelf i).curEdge = none
            ∧ (t.shelf i).pendEdge = (if x.state.target = none then x.pendEdge else none)
            ∧ (t.shelf i).latches = { x.latches with
                holdover := true, abandon := x.latches.abandon || x.state.target.isSome }
            ∧ Noticed s t 1 (s.noticeFrame i (some c) none 2 0)))

/-- WR_SHELF: R86. In every state, SWITCHING included (R143), state, route and latches of the shelf are kept. While
DRIVING, with room for 24 reports behind the reply, the comparison of R162 brings every record up to date and offers the
SQ of every shelf whose record differed (R46, R86); that it compares whatever the write altered, be it nothing, the
settle window or a phase alone, is log entry 8. -/
def Obligations.WrShelfWritesTheConfiguration : Prop :=
  ∀ (s : State) (src tag : Byte), s.readyFor src → s.admits src →
    (∀ a m fl w d hr dr fr a1 a0 b1 b0 : Byte,
      23 < a.toNat ∨ 1 < m.toNat ∨ 14 < fl.toNat ∨ 2 < w.toNat ∨ (d.toNat ≠ 1 ∧ d.toNat ≠ 2) ∨ 14 < hr.toNat
        ∨ 14 < dr.toNat ∨ 14 < fr.toNat →
      exec (.wrShelf src tag [a, m, fl, w, d, hr, dr, fr, a1, a0, b1, b0]) s =
        .next (s.withReply (s.replyFrame src 0x11 tag 0x03 [])))
    ∧ ∀ (i : ShelfIx) (cfg : ShelfConfig),
      let x := s.shelf i
      ∃ t, exec (.wrShelf src tag (indexOctet i :: cfg.octets)) s = .next t
        ∧ Kept (s.setShelf i { x with cfg := cfg }) t ∧ RepliedWith s t (s.replyFrame src 0x11 tag 0x00 [])
        ∧ (x.state ≠ .off → x.cfg.mode ≠ cfg.mode ∨ x.cfg.floor ≠ cfg.floor → (t.shelf i).sel ≠ .clean)
        ∧ (t.shelf i).state = x.state ∧ (t.shelf i).route = x.route ∧ (t.shelf i).curEdge = x.curEdge
        ∧ (t.shelf i).pendEdge = x.pendEdge ∧ (t.shelf i).latches = x.latches
        ∧ (s.drive = .driving → s.ring.insertQ.length + 25 ≤ 32 → Compared s t)

/-! ### Encodings -/

/-- What a request writes is what a report reads: every record in its ranges is read back from its own octets. -/
def Obligations.RecordsAreReadBack : Prop :=
  (∀ c : RefConfig, c.InRange → readRefConfig c.octets = some { cfg := c, clamped := false })
    ∧ (∀ c : ShelfConfig, readShelfConfig c.octets = some c)
    ∧ (∀ l : List Candidate, (∀ c ∈ l, c.prio ≠ 0) → readCandidates (l.flatMap Candidate.octets) = some l)
    ∧ (∀ (d : Dialect) (x : XlateTable), readDialect d.octet = some d ∧ readTable (tableReport d x).tail = some x)
    ∧ ∀ (l : RefLatches) (k : ShelfLatches),
      readRefLatches l.octet = some l ∧ readShelfLatches (k.octet false) = some k

/-! ### Invariants -/

/-- The part after reset meets every invariant. -/
def Obligations.ResetMeetsEveryInvariant : Prop :=
  State.reset.QueuesOk ∧ State.reset.ring.LineOk ∧ State.reset.DriveOk ∧ State.reset.SettingsOk
    ∧ State.reset.EnginesOk ∧ State.reset.NoCycle ∧ State.reset.RoutesOk ∧ State.reset.EdgesOk ∧ State.reset.UsedRefsOk
    ∧ (∀ i, (State.reset.shelf i).RecordOk)
    ∧ ∀ r, (State.reset.ref r).cfg.InRange ∧ (State.reset.ref r).VerdictOk ∧ (State.reset.ref r).rt.TimersOk
      ∧ (State.reset.ref r).mon.Ok (State.reset.ref r).cfg.gate ∧ (State.reset.ref r).QualityOk

/-- Every step keeps the queues within R27 with no reserved entry left between events (R30), the line of STO within the
bit times of R36, the drive state as R146 to R148 have it, and the settings in the values of R172. -/
def Obligations.QueuesDriveAndSettingsStayLegal : Prop :=
  ∀ s t : State, step s = .next t →
    (s.QueuesOk → t.QueuesOk) ∧ (s.ring.LineOk → t.ring.LineOk) ∧ (s.DriveOk → t.DriveOk)
    ∧ (s.SettingsOk → t.SettingsOk)

/-- Every step keeps the engines and the Alignment Queue in step with the SWITCHING shelves: R131 to R133. -/
def Obligations.EnginesServeTheSwitchingShelves : Prop :=
  ∀ s t : State, step s = .next t → s.EnginesOk → t.EnginesOk

/-- Every step keeps the Loop Guard's edges free of cycles: R151. -/
def Obligations.EdgesNeverFormACycle : Prop :=
  ∀ s t : State, step s = .next t → s.NoCycle → t.NoCycle

/-- Every step keeps routes, edges and references in use as R88, R129 and R152 have them. -/
def Obligations.RoutesFollowUsableReferences : Prop :=
  ∀ s t : State, step s = .next t → s.RoutesOk → s.EdgesOk → s.UsedRefsOk → t.RoutesOk ∧ t.EdgesOk ∧ t.UsedRefsOk

/-- Every step keeps every shelf record as R88, R90, R96 and R103 have it. -/
def Obligations.ShelfRecordsStayLegal : Prop :=
  ∀ s t : State, step s = .next t → (∀ i, (s.shelf i).RecordOk) → ∀ i, (t.shelf i).RecordOk

/-- Every step keeps every reference's configuration, state, timers, monitor and received rank in their values: R3, R7,
R21, R47, R52, R60, R63. -/
def Obligations.ReferenceRecordsStayLegal : Prop :=
  ∀ s t : State, step s = .next t →
    let Ok : Reference → Prop := fun x =>
      x.cfg.InRange ∧ x.VerdictOk ∧ x.rt.TimersOk ∧ x.mon.Ok x.cfg.gate ∧ x.QualityOk
    (∀ r, Ok (s.ref r)) → ∀ r, Ok (t.ref r)
end

