-- ==== Sys2Proof/Laws/State.lean ====
section
/-! SUPPORT. Reading a field after an update: one lemma for each field of `State` that an update leaves alone, and the
get-after-set lemmas of the two record tables. -/

namespace Sys2Proof.Machine
/-! ### One reference record replaced -/
@[simp] theorem setRef_shelves (s : State) (r : RefIx) (x : Reference) : (s.setRef r x).shelves = s.shelves := rfl
@[simp] theorem setRef_dialect1 (s : State) (r : RefIx) (x : Reference) : (s.setRef r x).dialect1 = s.dialect1 := rfl
@[simp] theorem setRef_dialect2 (s : State) (r : RefIx) (x : Reference) : (s.setRef r x).dialect2 = s.dialect2 := rfl
@[simp] theorem setRef_ring (s : State) (r : RefIx) (x : Reference) : (s.setRef r x).ring = s.ring := rfl
@[simp] theorem setRef_globals (s : State) (r : RefIx) (x : Reference) : (s.setRef r x).globals = s.globals := rfl
@[simp] theorem setRef_engines (s : State) (r : RefIx) (x : Reference) : (s.setRef r x).engines = s.engines := rfl
@[simp] theorem setRef_alignQ (s : State) (r : RefIx) (x : Reference) : (s.setRef r x).alignQ = s.alignQ := rfl
@[simp] theorem setRef_grants (s : State) (r : RefIx) (x : Reference) : (s.setRef r x).grants = s.grants := rfl
@[simp] theorem setRef_drive (s : State) (r : RefIx) (x : Reference) : (s.setRef r x).drive = s.drive := rfl
@[simp] theorem setRef_refreshTimer (s : State) (r : RefIx) (x : Reference) : (s.setRef r x).refreshTimer = s.refreshTimer := rfl
@[simp] theorem setRef_role (s : State) (r : RefIx) (x : Reference) : (s.setRef r x).role = s.role := rfl
@[simp] theorem setRef_resetn (s : State) (r : RefIx) (x : Reference) : (s.setRef r x).resetn = s.resetn := rfl
@[simp] theorem setRef_pending (s : State) (r : RefIx) (x : Reference) : (s.setRef r x).pending = s.pending := rfl
/-! ### One shelf record replaced or changed -/
@[simp] theorem setShelf_refs (s : State) (i : ShelfIx) (x : Shelf) : (s.setShelf i x).refs = s.refs := rfl
@[simp] theorem setShelf_dialect1 (s : State) (i : ShelfIx) (x : Shelf) : (s.setShelf i x).dialect1 = s.dialect1 := rfl
@[simp] theorem setShelf_dialect2 (s : State) (i : ShelfIx) (x : Shelf) : (s.setShelf i x).dialect2 = s.dialect2 := rfl
@[simp] theorem setShelf_ring (s : State) (i : ShelfIx) (x : Shelf) : (s.setShelf i x).ring = s.ring := rfl
@[simp] theorem setShelf_globals (s : State) (i : ShelfIx) (x : Shelf) : (s.setShelf i x).globals = s.globals := rfl
@[simp] theorem setShelf_engines (s : State) (i : ShelfIx) (x : Shelf) : (s.setShelf i x).engines = s.engines := rfl
@[simp] theorem setShelf_alignQ (s : State) (i : ShelfIx) (x : Shelf) : (s.setShelf i x).alignQ = s.alignQ := rfl
@[simp] theorem setShelf_grants (s : State) (i : ShelfIx) (x : Shelf) : (s.setShelf i x).grants = s.grants := rfl
@[simp] theorem setShelf_drive (s : State) (i : ShelfIx) (x : Shelf) : (s.setShelf i x).drive = s.drive := rfl
@[simp] theorem setShelf_refreshTimer (s : State) (i : ShelfIx) (x : Shelf) : (s.setShelf i x).refreshTimer = s.refreshTimer := rfl
@[simp] theorem setShelf_role (s : State) (i : ShelfIx) (x : Shelf) : (s.setShelf i x).role = s.role := rfl
@[simp] theorem setShelf_resetn (s : State) (i : ShelfIx) (x : Shelf) : (s.setShelf i x).resetn = s.resetn := rfl
@[simp] theorem setShelf_pending (s : State) (i : ShelfIx) (x : Shelf) : (s.setShelf i x).pending = s.pending := rfl
@[simp] theorem updShelf_refs (s : State) (i : ShelfIx) (f : Shelf → Shelf) : (s.updShelf i f).refs = s.refs := rfl
@[simp] theorem updShelf_dialect1 (s : State) (i : ShelfIx) (f : Shelf → Shelf) : (s.updShelf i f).dialect1 = s.dialect1 := rfl
@[simp] theorem updShelf_dialect2 (s : State) (i : ShelfIx) (f : Shelf → Shelf) : (s.updShelf i f).dialect2 = s.dialect2 := rfl
@[simp] theorem updShelf_ring (s : State) (i : ShelfIx) (f : Shelf → Shelf) : (s.updShelf i f).ring = s.ring := rfl
@[simp] theorem updShelf_globals (s : State) (i : ShelfIx) (f : Shelf → Shelf) : (s.updShelf i f).globals = s.globals := rfl
@[simp] theorem updShelf_engines (s : State) (i : ShelfIx) (f : Shelf → Shelf) : (s.updShelf i f).engines = s.engines := rfl
@[simp] theorem updShelf_alignQ (s : State) (i : ShelfIx) (f : Shelf → Shelf) : (s.updShelf i f).alignQ = s.alignQ := rfl
@[simp] theorem updShelf_grants (s : State) (i : ShelfIx) (f : Shelf → Shelf) : (s.updShelf i f).grants = s.grants := rfl
@[simp] theorem updShelf_drive (s : State) (i : ShelfIx) (f : Shelf → Shelf) : (s.updShelf i f).drive = s.drive := rfl
@[simp] theorem updShelf_refreshTimer (s : State) (i : ShelfIx) (f : Shelf → Shelf) : (s.updShelf i f).refreshTimer = s.refreshTimer := rfl
@[simp] theorem updShelf_role (s : State) (i : ShelfIx) (f : Shelf → Shelf) : (s.updShelf i f).role = s.role := rfl
@[simp] theorem updShelf_resetn (s : State) (i : ShelfIx) (f : Shelf → Shelf) : (s.updShelf i f).resetn = s.resetn := rfl
@[simp] theorem updShelf_pending (s : State) (i : ShelfIx) (f : Shelf → Shelf) : (s.updShelf i f).pending = s.pending := rfl
/-! ### Every record changed -/
@[simp] theorem mapShelves_refs (s : State) (f : ShelfIx → Shelf → Shelf) : (s.mapShelves f).refs = s.refs := by simp [State.mapShelves]
@[simp] theorem mapShelves_dialect1 (s : State) (f : ShelfIx → Shelf → Shelf) : (s.mapShelves f).dialect1 = s.dialect1 := by simp [State.mapShelves]
@[simp] theorem mapShelves_dialect2 (s : State) (f : ShelfIx → Shelf → Shelf) : (s.mapShelves f).dialect2 = s.dialect2 := by simp [State.mapShelves]
@[simp] theorem mapShelves_ring (s : State) (f : ShelfIx → Shelf → Shelf) : (s.mapShelves f).ring = s.ring := by simp [State.mapShelves]
@[simp] theorem mapShelves_globals (s : State) (f : ShelfIx → Shelf → Shelf) : (s.mapShelves f).globals = s.globals := by simp [State.mapShelves]
@[simp] theorem mapShelves_engines (s : State) (f : ShelfIx → Shelf → Shelf) : (s.mapShelves f).engines = s.engines := by simp [State.mapShelves]
@[simp] theorem mapShelves_alignQ (s : State) (f : ShelfIx → Shelf → Shelf) : (s.mapShelves f).alignQ = s.alignQ := by simp [State.mapShelves]
@[simp] theorem mapShelves_grants (s : State) (f : ShelfIx → Shelf → Shelf) : (s.mapShelves f).grants = s.grants := by simp [State.mapShelves]
@[simp] theorem mapShelves_drive (s : State) (f : ShelfIx → Shelf → Shelf) : (s.mapShelves f).drive = s.drive := by simp [State.mapShelves]
@[simp] theorem mapShelves_refreshTimer (s : State) (f : ShelfIx → Shelf → Shelf) : (s.mapShelves f).refreshTimer = s.refreshTimer := by simp [State.mapShelves]
@[simp] theorem mapShelves_role (s : State) (f : ShelfIx → Shelf → Shelf) : (s.mapShelves f).role = s.role := by simp [State.mapShelves]
@[simp] theorem mapShelves_resetn (s : State) (f : ShelfIx → Shelf → Shelf) : (s.mapShelves f).resetn = s.resetn := by simp [State.mapShelves]
@[simp] theorem mapShelves_pending (s : State) (f : ShelfIx → Shelf → Shelf) : (s.mapShelves f).pending = s.pending := by simp [State.mapShelves]
@[simp] theorem mapRefs_shelves (s : State) (f : Reference → Reference) : (s.mapRefs f).shelves = s.shelves := by simp [State.mapRefs]
@[simp] theorem mapRefs_dialect1 (s : State) (f : Reference → Reference) : (s.mapRefs f).dialect1 = s.dialect1 := by simp [State.mapRefs]
@[simp] theorem mapRefs_dialect2 (s : State) (f : Reference → Reference) : (s.mapRefs f).dialect2 = s.dialect2 := by simp [State.mapRefs]
@[simp] theorem mapRefs_ring (s : State) (f : Reference → Reference) : (s.mapRefs f).ring = s.ring := by simp [State.mapRefs]
@[simp] theorem mapRefs_globals (s : State) (f : Reference → Reference) : (s.mapRefs f).globals = s.globals := by simp [State.mapRefs]
@[simp] theorem mapRefs_engines (s : State) (f : Reference → Reference) : (s.mapRefs f).engines = s.engines := by simp [State.mapRefs]
@[simp] theorem mapRefs_alignQ (s : State) (f : Reference → Reference) : (s.mapRefs f).alignQ = s.alignQ := by simp [State.mapRefs]
@[simp] theorem mapRefs_grants (s : State) (f : Reference → Reference) : (s.mapRefs f).grants = s.grants := by simp [State.mapRefs]
@[simp] theorem mapRefs_drive (s : State) (f : Reference → Reference) : (s.mapRefs f).drive = s.drive := by simp [State.mapRefs]
@[simp] theorem mapRefs_refreshTimer (s : State) (f : Reference → Reference) : (s.mapRefs f).refreshTimer = s.refreshTimer := by simp [State.mapRefs]
@[simp] theorem mapRefs_role (s : State) (f : Reference → Reference) : (s.mapRefs f).role = s.role := by simp [State.mapRefs]
@[simp] theorem mapRefs_resetn (s : State) (f : Reference → Reference) : (s.mapRefs f).resetn = s.resetn := by simp [State.mapRefs]
@[simp] theorem mapRefs_pending (s : State) (f : Reference → Reference) : (s.mapRefs f).pending = s.pending := by simp [State.mapRefs]
@[simp] theorem markWhere_refs (s : State) (p : Shelf → Bool) : (s.markWhere p).refs = s.refs := by simp [State.markWhere]
@[simp] theorem markWhere_dialect1 (s : State) (p : Shelf → Bool) : (s.markWhere p).dialect1 = s.dialect1 := by simp [State.markWhere]
@[simp] theorem markWhere_dialect2 (s : State) (p : Shelf → Bool) : (s.markWhere p).dialect2 = s.dialect2 := by simp [State.markWhere]
@[simp] theorem markWhere_ring (s : State) (p : Shelf → Bool) : (s.markWhere p).ring = s.ring := by simp [State.markWhere]
@[simp] theorem markWhere_globals (s : State) (p : Shelf → Bool) : (s.markWhere p).globals = s.globals := by simp [State.markWhere]
@[simp] theorem markWhere_engines (s : State) (p : Shelf → Bool) : (s.markWhere p).engines = s.engines := by simp [State.markWhere]
@[simp] theorem markWhere_alignQ (s : State) (p : Shelf → Bool) : (s.markWhere p).alignQ = s.alignQ := by simp [State.markWhere]
@[simp] theorem markWhere_grants (s : State) (p : Shelf → Bool) : (s.markWhere p).grants = s.grants := by simp [State.markWhere]
@[simp] theorem markWhere_drive (s : State) (p : Shelf → Bool) : (s.markWhere p).drive = s.drive := by simp [State.markWhere]
@[simp] theorem markWhere_refreshTimer (s : State) (p : Shelf → Bool) : (s.markWhere p).refreshTimer = s.refreshTimer := by simp [State.markWhere]
@[simp] theorem markWhere_role (s : State) (p : Shelf → Bool) : (s.markWhere p).role = s.role := by simp [State.markWhere]
@[simp] theorem markWhere_resetn (s : State) (p : Shelf → Bool) : (s.markWhere p).resetn = s.resetn := by simp [State.markWhere]
@[simp] theorem markWhere_pending (s : State) (p : Shelf → Bool) : (s.markWhere p).pending = s.pending := by simp [State.markWhere]
@[simp] theorem markShelf_refs (s : State) (i : ShelfIx) : (s.markShelf i).refs = s.refs := rfl
@[simp] theorem markShelf_dialect1 (s : State) (i : ShelfIx) : (s.markShelf i).dialect1 = s.dialect1 := rfl
@[simp] theorem markShelf_dialect2 (s : State) (i : ShelfIx) : (s.markShelf i).dialect2 = s.dialect2 := rfl
@[simp] theorem markShelf_ring (s : State) (i : ShelfIx) : (s.markShelf i).ring = s.ring := rfl
@[simp] theorem markShelf_globals (s : State) (i : ShelfIx) : (s.markShelf i).globals = s.globals := rfl
@[simp] theorem markShelf_engines (s : State) (i : ShelfIx) : (s.markShelf i).engines = s.engines := rfl
@[simp] theorem markShelf_alignQ (s : State) (i : ShelfIx) : (s.markShelf i).alignQ = s.alignQ := rfl
@[simp] theorem markShelf_grants (s : State) (i : ShelfIx) : (s.markShelf i).grants = s.grants := rfl
@[simp] theorem markShelf_drive (s : State) (i : ShelfIx) : (s.markShelf i).drive = s.drive := rfl
@[simp] theorem markShelf_refreshTimer (s : State) (i : ShelfIx) : (s.markShelf i).refreshTimer = s.refreshTimer := rfl
@[simp] theorem markShelf_role (s : State) (i : ShelfIx) : (s.markShelf i).role = s.role := rfl
@[simp] theorem markShelf_resetn (s : State) (i : ShelfIx) : (s.markShelf i).resetn = s.resetn := rfl
@[simp] theorem markShelf_pending (s : State) (i : ShelfIx) : (s.markShelf i).pending = s.pending := rfl
@[simp] theorem markNaming_refs (s : State) (r : RefIx) : (s.markNaming r).refs = s.refs := by simp [State.markNaming]
@[simp] theorem markNaming_dialect1 (s : State) (r : RefIx) : (s.markNaming r).dialect1 = s.dialect1 := by simp [State.markNaming]
@[simp] theorem markNaming_dialect2 (s : State) (r : RefIx) : (s.markNaming r).dialect2 = s.dialect2 := by simp [State.markNaming]
@[simp] theorem markNaming_ring (s : State) (r : RefIx) : (s.markNaming r).ring = s.ring := by simp [State.markNaming]
@[simp] theorem markNaming_globals (s : State) (r : RefIx) : (s.markNaming r).globals = s.globals := by simp [State.markNaming]
@[simp] theorem markNaming_engines (s : State) (r : RefIx) : (s.markNaming r).engines = s.engines := by simp [State.markNaming]
@[simp] theorem markNaming_alignQ (s : State) (r : RefIx) : (s.markNaming r).alignQ = s.alignQ := by simp [State.markNaming]
@[simp] theorem markNaming_grants (s : State) (r : RefIx) : (s.markNaming r).grants = s.grants := by simp [State.markNaming]
@[simp] theorem markNaming_drive (s : State) (r : RefIx) : (s.markNaming r).drive = s.drive := by simp [State.markNaming]
@[simp] theorem markNaming_refreshTimer (s : State) (r : RefIx) : (s.markNaming r).refreshTimer = s.refreshTimer := by simp [State.markNaming]
@[simp] theorem markNaming_role (s : State) (r : RefIx) : (s.markNaming r).role = s.role := by simp [State.markNaming]
@[simp] theorem markNaming_resetn (s : State) (r : RefIx) : (s.markNaming r).resetn = s.resetn := by simp [State.markNaming]
@[simp] theorem markNaming_pending (s : State) (r : RefIx) : (s.markNaming r).pending = s.pending := by simp [State.markNaming]
@[simp] theorem markEdgeChange_refs (s : State) : (s.markEdgeChange).refs = s.refs := by simp [State.markEdgeChange]
@[simp] theorem markEdgeChange_dialect1 (s : State) : (s.markEdgeChange).dialect1 = s.dialect1 := by simp [State.markEdgeChange]
@[simp] theorem markEdgeChange_dialect2 (s : State) : (s.markEdgeChange).dialect2 = s.dialect2 := by simp [State.markEdgeChange]
@[simp] theorem markEdgeChange_ring (s : State) : (s.markEdgeChange).ring = s.ring := by simp [State.markEdgeChange]
@[simp] theorem markEdgeChange_globals (s : State) : (s.markEdgeChange).globals = s.globals := by simp [State.markEdgeChange]
@[simp] theorem markEdgeChange_engines (s : State) : (s.markEdgeChange).engines = s.engines := by simp [State.markEdgeChange]
@[simp] theorem markEdgeChange_alignQ (s : State) : (s.markEdgeChange).alignQ = s.alignQ := by simp [State.markEdgeChange]
@[simp] theorem markEdgeChange_grants (s : State) : (s.markEdgeChange).grants = s.grants := by simp [State.markEdgeChange]
@[simp] theorem markEdgeChange_drive (s : State) : (s.markEdgeChange).drive = s.drive := by simp [State.markEdgeChange]
@[simp] theorem markEdgeChange_refreshTimer (s : State) : (s.markEdgeChange).refreshTimer = s.refreshTimer := by simp [State.markEdgeChange]
@[simp] theorem markEdgeChange_role (s : State) : (s.markEdgeChange).role = s.role := by simp [State.markEdgeChange]
@[simp] theorem markEdgeChange_resetn (s : State) : (s.markEdgeChange).resetn = s.resetn := by simp [State.markEdgeChange]
@[simp] theorem markEdgeChange_pending (s : State) : (s.markEdgeChange).pending = s.pending := by simp [State.markEdgeChange]
/-! ### The ring port changed -/
@[simp] theorem updRing_refs (s : State) (f : Ring → Ring) : (s.updRing f).refs = s.refs := rfl
@[simp] theorem updRing_shelves (s : State) (f : Ring → Ring) : (s.updRing f).shelves = s.shelves := rfl
@[simp] theorem updRing_dialect1 (s : State) (f : Ring → Ring) : (s.updRing f).dialect1 = s.dialect1 := rfl
@[simp] theorem updRing_dialect2 (s : State) (f : Ring → Ring) : (s.updRing f).dialect2 = s.dialect2 := rfl
@[simp] theorem updRing_globals (s : State) (f : Ring → Ring) : (s.updRing f).globals = s.globals := rfl
@[simp] theorem updRing_engines (s : State) (f : Ring → Ring) : (s.updRing f).engines = s.engines := rfl
@[simp] theorem updRing_alignQ (s : State) (f : Ring → Ring) : (s.updRing f).alignQ = s.alignQ := rfl
@[simp] theorem updRing_grants (s : State) (f : Ring → Ring) : (s.updRing f).grants = s.grants := rfl
@[simp] theorem updRing_drive (s : State) (f : Ring → Ring) : (s.updRing f).drive = s.drive := rfl
@[simp] theorem updRing_refreshTimer (s : State) (f : Ring → Ring) : (s.updRing f).refreshTimer = s.refreshTimer := rfl
@[simp] theorem updRing_role (s : State) (f : Ring → Ring) : (s.updRing f).role = s.role := rfl
@[simp] theorem updRing_resetn (s : State) (f : Ring → Ring) : (s.updRing f).resetn = s.resetn := rfl
@[simp] theorem updRing_pending (s : State) (f : Ring → Ring) : (s.updRing f).pending = s.pending := rfl
@[simp] theorem updCounters_refs (s : State) (f : Counters → Counters) : (s.updCounters f).refs = s.refs := rfl
@[simp] theorem updCounters_shelves (s : State) (f : Counters → Counters) : (s.updCounters f).shelves = s.shelves := rfl
@[simp] theorem updCounters_dialect1 (s : State) (f : Counters → Counters) : (s.updCounters f).dialect1 = s.dialect1 := rfl
@[simp] theorem updCounters_dialect2 (s : State) (f : Counters → Counters) : (s.updCounters f).dialect2 = s.dialect2 := rfl
@[simp] theorem updCounters_globals (s : State) (f : Counters → Counters) : (s.updCounters f).globals = s.globals := rfl
@[simp] theorem updCounters_engines (s : State) (f : Counters → Counters) : (s.updCounters f).engines = s.engines := rfl
@[simp] theorem updCounters_alignQ (s : State) (f : Counters → Counters) : (s.updCounters f).alignQ = s.alignQ := rfl
@[simp] theorem updCounters_grants (s : State) (f : Counters → Counters) : (s.updCounters f).grants = s.grants := rfl
@[simp] theorem updCounters_drive (s : State) (f : Counters → Counters) : (s.updCounters f).drive = s.drive := rfl
@[simp] theorem updCounters_refreshTimer (s : State) (f : Counters → Counters) : (s.updCounters f).refreshTimer = s.refreshTimer := rfl
@[simp] theorem updCounters_role (s : State) (f : Counters → Counters) : (s.updCounters f).role = s.role := rfl
@[simp] theorem updCounters_resetn (s : State) (f : Counters → Counters) : (s.updCounters f).resetn = s.resetn := rfl
@[simp] theorem updCounters_pending (s : State) (f : Counters → Counters) : (s.updCounters f).pending = s.pending := rfl
@[simp] theorem pushInsert_refs (s : State) (e : InsertEntry) : (s.pushInsert e).refs = s.refs := rfl
@[simp] theorem pushInsert_shelves (s : State) (e : InsertEntry) : (s.pushInsert e).shelves = s.shelves := rfl
@[simp] theorem pushInsert_dialect1 (s : State) (e : InsertEntry) : (s.pushInsert e).dialect1 = s.dialect1 := rfl
@[simp] theorem pushInsert_dialect2 (s : State) (e : InsertEntry) : (s.pushInsert e).dialect2 = s.dialect2 := rfl
@[simp] theorem pushInsert_globals (s : State) (e : InsertEntry) : (s.pushInsert e).globals = s.globals := rfl
@[simp] theorem pushInsert_engines (s : State) (e : InsertEntry) : (s.pushInsert e).engines = s.engines := rfl
@[simp] theorem pushInsert_alignQ (s : State) (e : InsertEntry) : (s.pushInsert e).alignQ = s.alignQ := rfl
@[simp] theorem pushInsert_grants (s : State) (e : InsertEntry) : (s.pushInsert e).grants = s.grants := rfl
@[simp] theorem pushInsert_drive (s : State) (e : InsertEntry) : (s.pushInsert e).drive = s.drive := rfl
@[simp] theorem pushInsert_refreshTimer (s : State) (e : InsertEntry) : (s.pushInsert e).refreshTimer = s.refreshTimer := rfl
@[simp] theorem pushInsert_role (s : State) (e : InsertEntry) : (s.pushInsert e).role = s.role := rfl
@[simp] theorem pushInsert_resetn (s : State) (e : InsertEntry) : (s.pushInsert e).resetn = s.resetn := rfl
@[simp] theorem pushInsert_pending (s : State) (e : InsertEntry) : (s.pushInsert e).pending = s.pending := rfl
@[simp] theorem loseNotice_refs (s : State) : (s.loseNotice).refs = s.refs := rfl
@[simp] theorem loseNotice_shelves (s : State) : (s.loseNotice).shelves = s.shelves := rfl
@[simp] theorem loseNotice_dialect1 (s : State) : (s.loseNotice).dialect1 = s.dialect1 := rfl
@[simp] theorem loseNotice_dialect2 (s : State) : (s.loseNotice).dialect2 = s.dialect2 := rfl
@[simp] theorem loseNotice_globals (s : State) : (s.loseNotice).globals = s.globals := rfl
@[simp] theorem loseNotice_engines (s : State) : (s.loseNotice).engines = s.engines := rfl
@[simp] theorem loseNotice_alignQ (s : State) : (s.loseNotice).alignQ = s.alignQ := rfl
@[simp] theorem loseNotice_grants (s : State) : (s.loseNotice).grants = s.grants := rfl
@[simp] theorem loseNotice_drive (s : State) : (s.loseNotice).drive = s.drive := rfl
@[simp] theorem loseNotice_refreshTimer (s : State) : (s.loseNotice).refreshTimer = s.refreshTimer := rfl
@[simp] theorem loseNotice_role (s : State) : (s.loseNotice).role = s.role := rfl
@[simp] theorem loseNotice_resetn (s : State) : (s.loseNotice).resetn = s.resetn := rfl
@[simp] theorem loseNotice_pending (s : State) : (s.loseNotice).pending = s.pending := rfl
@[simp] theorem dropHead_refs (s : State) : (s.dropHead).refs = s.refs := rfl
@[simp] theorem dropHead_shelves (s : State) : (s.dropHead).shelves = s.shelves := rfl
@[simp] theorem dropHead_dialect1 (s : State) : (s.dropHead).dialect1 = s.dialect1 := rfl
@[simp] theorem dropHead_dialect2 (s : State) : (s.dropHead).dialect2 = s.dialect2 := rfl
@[simp] theorem dropHead_globals (s : State) : (s.dropHead).globals = s.globals := rfl
@[simp] theorem dropHead_engines (s : State) : (s.dropHead).engines = s.engines := rfl
@[simp] theorem dropHead_alignQ (s : State) : (s.dropHead).alignQ = s.alignQ := rfl
@[simp] theorem dropHead_grants (s : State) : (s.dropHead).grants = s.grants := rfl
@[simp] theorem dropHead_drive (s : State) : (s.dropHead).drive = s.drive := rfl
@[simp] theorem dropHead_refreshTimer (s : State) : (s.dropHead).refreshTimer = s.refreshTimer := rfl
@[simp] theorem dropHead_role (s : State) : (s.dropHead).role = s.role := rfl
@[simp] theorem dropHead_resetn (s : State) : (s.dropHead).resetn = s.resetn := rfl
@[simp] theorem dropHead_pending (s : State) : (s.dropHead).pending = s.pending := rfl
/-! ### A grant, and an engine freed -/
@[simp] theorem grant_refs (s : State) (e : EngineIx) (i : ShelfIx) (rest : List ShelfIx) : (s.grant e i rest).refs = s.refs := rfl
@[simp] theorem grant_dialect1 (s : State) (e : EngineIx) (i : ShelfIx) (rest : List ShelfIx) : (s.grant e i rest).dialect1 = s.dialect1 := rfl
@[simp] theorem grant_dialect2 (s : State) (e : EngineIx) (i : ShelfIx) (rest : List ShelfIx) : (s.grant e i rest).dialect2 = s.dialect2 := rfl
@[simp] theorem grant_ring (s : State) (e : EngineIx) (i : ShelfIx) (rest : List ShelfIx) : (s.grant e i rest).ring = s.ring := rfl
@[simp] theorem grant_globals (s : State) (e : EngineIx) (i : ShelfIx) (rest : List ShelfIx) : (s.grant e i rest).globals = s.globals := rfl
@[simp] theorem grant_drive (s : State) (e : EngineIx) (i : ShelfIx) (rest : List ShelfIx) : (s.grant e i rest).drive = s.drive := rfl
@[simp] theorem grant_refreshTimer (s : State) (e : EngineIx) (i : ShelfIx) (rest : List ShelfIx) : (s.grant e i rest).refreshTimer = s.refreshTimer := rfl
@[simp] theorem grant_role (s : State) (e : EngineIx) (i : ShelfIx) (rest : List ShelfIx) : (s.grant e i rest).role = s.role := rfl
@[simp] theorem grant_resetn (s : State) (e : EngineIx) (i : ShelfIx) (rest : List ShelfIx) : (s.grant e i rest).resetn = s.resetn := rfl
@[simp] theorem grant_pending (s : State) (e : EngineIx) (i : ShelfIx) (rest : List ShelfIx) : (s.grant e i rest).pending = s.pending := rfl
@[simp] theorem freeEngineOf_refs (s : State) (i : ShelfIx) : (s.freeEngineOf i).refs = s.refs := by simp [State.freeEngineOf]
@[simp] theorem freeEngineOf_shelves (s : State) (i : ShelfIx) : (s.freeEngineOf i).shelves = s.shelves := by simp [State.freeEngineOf]
@[simp] theorem freeEngineOf_dialect1 (s : State) (i : ShelfIx) : (s.freeEngineOf i).dialect1 = s.dialect1 := by simp [State.freeEngineOf]
@[simp] theorem freeEngineOf_dialect2 (s : State) (i : ShelfIx) : (s.freeEngineOf i).dialect2 = s.dialect2 := by simp [State.freeEngineOf]
@[simp] theorem freeEngineOf_ring (s : State) (i : ShelfIx) : (s.freeEngineOf i).ring = s.ring := by simp [State.freeEngineOf]
@[simp] theorem freeEngineOf_globals (s : State) (i : ShelfIx) : (s.freeEngineOf i).globals = s.globals := by simp [State.freeEngineOf]
@[simp] theorem freeEngineOf_alignQ (s : State) (i : ShelfIx) : (s.freeEngineOf i).alignQ = s.alignQ := by simp [State.freeEngineOf]
@[simp] theorem freeEngineOf_grants (s : State) (i : ShelfIx) : (s.freeEngineOf i).grants = s.grants := by simp [State.freeEngineOf]
@[simp] theorem freeEngineOf_drive (s : State) (i : ShelfIx) : (s.freeEngineOf i).drive = s.drive := by simp [State.freeEngineOf]
@[simp] theorem freeEngineOf_refreshTimer (s : State) (i : ShelfIx) : (s.freeEngineOf i).refreshTimer = s.refreshTimer := by simp [State.freeEngineOf]
@[simp] theorem freeEngineOf_role (s : State) (i : ShelfIx) : (s.freeEngineOf i).role = s.role := by simp [State.freeEngineOf]
@[simp] theorem freeEngineOf_resetn (s : State) (i : ShelfIx) : (s.freeEngineOf i).resetn = s.resetn := by simp [State.freeEngineOf]
@[simp] theorem freeEngineOf_pending (s : State) (i : ShelfIx) : (s.freeEngineOf i).pending = s.pending := by simp [State.freeEngineOf]

@[simp] theorem updRing_ring (s : State) (f : Ring → Ring) : (s.updRing f).ring = f s.ring := rfl

@[simp] theorem grant_alignQ (s : State) (e : EngineIx) (i : ShelfIx) (rest : List ShelfIx) :
    (s.grant e i rest).alignQ = rest := rfl

@[simp] theorem grant_grants (s : State) (e : EngineIx) (i : ShelfIx) (rest : List ShelfIx) :
    (s.grant e i rest).grants = s.grants + 1 := rfl

@[simp] theorem grant_engines (s : State) (e : EngineIx) (i : ShelfIx) (rest : List ShelfIx) :
    (s.grant e i rest).engines =
      s.engines.set e (some { shelf := i, grant := s.grants, timer := msTicks s.globals.alignLimit }) := rfl

/-! ### Reading a record -/

theorem ref_congr {s t : State} (h : t.refs = s.refs) (r : RefIx) : t.ref r = s.ref r := by simp [State.ref, h]

theorem shelf_congr {s t : State} (h : t.shelves = s.shelves) (i : ShelfIx) : t.shelf i = s.shelf i := by
  simp [State.shelf, h]

/-- Two states agree on their shelf tables when they agree on every shelf. -/
theorem shelves_ext {s t : State} (h : ∀ i, t.shelf i = s.shelf i) : t.shelves = s.shelves := by
  apply Vector.ext
  intro i hi
  exact h ⟨i, hi⟩

/-- Two states agree on their reference tables when they agree on every reference. -/
theorem refs_ext {s t : State} (h : ∀ r, t.ref r = s.ref r) : t.refs = s.refs := by
  apply Vector.ext
  intro i hi
  exact h ⟨i, hi⟩

/-- The record read after a reference record is replaced. -/
theorem setRef_ref (s : State) (r q : RefIx) (x : Reference) :
    (s.setRef r x).ref q = if q = r then x else s.ref q := by
  simp only [State.ref, State.setRef, Fin.getElem_fin, Vector.getElem_set, Fin.val_inj]
  by_cases h : r = q <;> simp [h, eq_comm]

@[simp] theorem setRef_ref_self (s : State) (r : RefIx) (x : Reference) : (s.setRef r x).ref r = x := by
  simp [setRef_ref]

theorem setRef_ref_of_ne (s : State) {r q : RefIx} (h : q ≠ r) (x : Reference) : (s.setRef r x).ref q = s.ref q := by
  simp [setRef_ref, h]

@[simp] theorem setRef_shelf (s : State) (r : RefIx) (x : Reference) (i : ShelfIx) :
    (s.setRef r x).shelf i = s.shelf i := rfl

/-- The record read after a shelf record is replaced. -/
theorem setShelf_shelf (s : State) (i j : ShelfIx) (x : Shelf) :
    (s.setShelf i x).shelf j = if j = i then x else s.shelf j := by
  simp only [State.shelf, State.setShelf, Fin.getElem_fin, Vector.getElem_set, Fin.val_inj]
  by_cases h : i = j <;> simp [h, eq_comm]

@[simp] theorem setShelf_shelf_self (s : State) (i : ShelfIx) (x : Shelf) : (s.setShelf i x).shelf i = x := by
  simp [setShelf_shelf]

theorem setShelf_shelf_of_ne (s : State) {i j : ShelfIx} (h : j ≠ i) (x : Shelf) :
    (s.setShelf i x).shelf j = s.shelf j := by
  simp [setShelf_shelf, h]

@[simp] theorem setShelf_ref (s : State) (i : ShelfIx) (x : Shelf) (r : RefIx) :
    (s.setShelf i x).ref r = s.ref r := rfl

/-- The record read after a shelf record is changed. -/
theorem updShelf_shelf (s : State) (i j : ShelfIx) (f : Shelf → Shelf) :
    (s.updShelf i f).shelf j = if j = i then f (s.shelf i) else s.shelf j := setShelf_shelf s i j _

@[simp] theorem updShelf_shelf_self (s : State) (i : ShelfIx) (f : Shelf → Shelf) :
    (s.updShelf i f).shelf i = f (s.shelf i) := by
  simp [updShelf_shelf]

theorem updShelf_shelf_of_ne (s : State) {i j : ShelfIx} (h : j ≠ i) (f : Shelf → Shelf) :
    (s.updShelf i f).shelf j = s.shelf j := by
  simp [updShelf_shelf, h]

@[simp] theorem updShelf_ref (s : State) (i : ShelfIx) (f : Shelf → Shelf) (r : RefIx) :
    (s.updShelf i f).ref r = s.ref r := rfl

@[simp] theorem mapShelves_shelf (s : State) (f : ShelfIx → Shelf → Shelf) (i : ShelfIx) :
    (s.mapShelves f).shelf i = f i (s.shelf i) := by
  simp [State.mapShelves, State.shelf]

@[simp] theorem mapShelves_ref (s : State) (f : ShelfIx → Shelf → Shelf) (r : RefIx) :
    (s.mapShelves f).ref r = s.ref r := by
  simp [State.mapShelves, State.ref]

@[simp] theorem mapRefs_ref (s : State) (f : Reference → Reference) (r : RefIx) :
    (s.mapRefs f).ref r = f (s.ref r) := by
  simp [State.mapRefs, State.ref]

@[simp] theorem mapRefs_shelf (s : State) (f : Reference → Reference) (i : ShelfIx) :
    (s.mapRefs f).shelf i = s.shelf i := by
  simp [State.mapRefs, State.shelf]

@[simp] theorem markWhere_shelf (s : State) (p : Shelf → Bool) (i : ShelfIx) :
    (s.markWhere p).shelf i = if p (s.shelf i) then (s.shelf i).mark else s.shelf i := by
  simp [State.markWhere]

@[simp] theorem markWhere_ref (s : State) (p : Shelf → Bool) (r : RefIx) : (s.markWhere p).ref r = s.ref r := by
  simp [State.markWhere]

theorem markShelf_shelf (s : State) (i j : ShelfIx) :
    (s.markShelf i).shelf j = if j = i then (s.shelf i).mark else s.shelf j := updShelf_shelf s i j _

@[simp] theorem markShelf_ref (s : State) (i : ShelfIx) (r : RefIx) : (s.markShelf i).ref r = s.ref r := rfl

@[simp] theorem updRing_shelf (s : State) (f : Ring → Ring) (i : ShelfIx) : (s.updRing f).shelf i = s.shelf i := rfl

@[simp] theorem updRing_ref (s : State) (f : Ring → Ring) (r : RefIx) : (s.updRing f).ref r = s.ref r := rfl

@[simp] theorem freeEngineOf_shelf (s : State) (i j : ShelfIx) : (s.freeEngineOf i).shelf j = s.shelf j := rfl

/-- The shelf record read after a grant. -/
theorem grant_shelf (s : State) (e : EngineIx) (i j : ShelfIx) (rest : List ShelfIx) :
    (s.grant e i rest).shelf j =
      if j = i then { s.shelf i with state := (s.shelf i).state.granted } else s.shelf j := updShelf_shelf _ i j _

/-! ### Fields that a mark leaves alone -/

@[simp] theorem mark_cfg (x : Shelf) : x.mark.cfg = x.cfg := by
  unfold Shelf.mark; (repeat' split) <;> rfl
@[simp] theorem mark_list (x : Shelf) : x.mark.list = x.list := by
  unfold Shelf.mark; (repeat' split) <;> rfl
@[simp] theorem mark_command (x : Shelf) : x.mark.command = x.command := by
  unfold Shelf.mark; (repeat' split) <;> rfl
@[simp] theorem mark_state (x : Shelf) : x.mark.state = x.state := by
  unfold Shelf.mark; (repeat' split) <;> rfl
@[simp] theorem mark_route (x : Shelf) : x.mark.route = x.route := by
  unfold Shelf.mark; (repeat' split) <;> rfl
@[simp] theorem mark_curEdge (x : Shelf) : x.mark.curEdge = x.curEdge := by
  unfold Shelf.mark; (repeat' split) <;> rfl
@[simp] theorem mark_pendEdge (x : Shelf) : x.mark.pendEdge = x.pendEdge := by
  unfold Shelf.mark; (repeat' split) <;> rfl
@[simp] theorem mark_lastReport (x : Shelf) : x.mark.lastReport = x.lastReport := by
  unfold Shelf.mark; (repeat' split) <;> rfl
@[simp] theorem mark_latches (x : Shelf) : x.mark.latches = x.latches := by
  unfold Shelf.mark; (repeat' split) <;> rfl
@[simp] theorem mark_loopBit (x : Shelf) : x.mark.loopBit = x.loopBit := by
  unfold Shelf.mark; (repeat' split) <;> rfl

end Sys2Proof.Machine
end

