-- ==== Sys2Proof/Laws/Keep.lean ====
section
/-! SUPPORT. What the shared operations of an event keep (`Kept`, Safety.lean): each shared operation has one lemma
`<operation>_kept`, and each operation that repeats others has one induction lemma `<operation>_induct`. -/

namespace Sys2Proof.Machine

/-! ### The Insert Queue under offers -/

theorem InsertEntry.samePlace_refl (e : InsertEntry) : e.samePlace e := Or.inl rfl

theorem InsertEntry.samePlace_trans {a b c : InsertEntry} (h : a.samePlace b) (h' : b.samePlace c) : a.samePlace c := by
  rcases h with rfl | ⟨i, f, f', rfl, rfl⟩
  · exact h'
  · rcases h' with rfl | ⟨j, g, g', hg, rfl⟩
    · exact Or.inr ⟨i, f, f', rfl, rfl⟩
    · obtain ⟨rfl, rfl⟩ := InsertEntry.sq.inj hg
      exact Or.inr ⟨i, f, g', rfl, rfl⟩

theorem QueueGrows.refl (q : List InsertEntry) : QueueGrows q q :=
  fun _ e h => ⟨e, h, e.samePlace_refl⟩

theorem QueueGrows.trans {q q' q'' : List InsertEntry} (h : QueueGrows q q') (h' : QueueGrows q' q'') :
    QueueGrows q q'' := by
  intro k e hk
  obtain ⟨e', hk', he'⟩ := h k e hk
  obtain ⟨e'', hk'', he''⟩ := h' k e' hk'
  exact ⟨e'', hk'', InsertEntry.samePlace_trans he' he''⟩

theorem QueueGrows.append (q l : List InsertEntry) : QueueGrows q (q ++ l) := by
  intro k e h
  refine ⟨e, ?_, e.samePlace_refl⟩
  obtain ⟨hlt, _⟩ := List.getElem?_eq_some_iff.mp h
  rw [List.getElem?_append_left hlt, h]

theorem QueueGrows.coalesce (i : ShelfIx) (f : Frame) (q : List InsertEntry) : QueueGrows q (coalesceSq i f q) := by
  intro k e h
  refine ⟨if e.isSqOf i then .sq i f else e, by simp [coalesceSq, h], ?_⟩
  cases e with
  | sq j g =>
    by_cases hj : i = j
    · subst hj; exact Or.inr ⟨i, g, f, rfl, by simp [InsertEntry.isSqOf]⟩
    · exact Or.inl (by simp [InsertEntry.isSqOf, hj])
  | reserved => exact Or.inl (by simp [InsertEntry.isSqOf])
  | rep g => exact Or.inl (by simp [InsertEntry.isSqOf])
  | sn g => exact Or.inl (by simp [InsertEntry.isSqOf])

/-- A reserved entry keeps its place under offers. -/
theorem QueueGrows.reserved {q q' : List InsertEntry} (h : QueueGrows q q') {k : Nat} (hk : q[k]? = some .reserved) :
    q'[k]? = some .reserved := by
  obtain ⟨e', h', rfl | ⟨_, _, _, h0, _⟩⟩ := h k _ hk
  · exact h'
  · cases h0

theorem QueueGrows.length {q q' : List InsertEntry} (h : QueueGrows q q') : q.length ≤ q'.length := by
  by_contra hlt
  have hlt : q'.length < q.length := by omega
  obtain ⟨e', h', _⟩ := h q'.length _ (List.getElem?_eq_getElem hlt)
  simp at h'

/-! ### What an event keeps -/

theorem Kept.refl (s : State) : Kept s s :=
  ⟨rfl, rfl, rfl, rfl, rfl, rfl, rfl, rfl, rfl, ⟨_, rfl⟩, QueueGrows.refl _, fun _ => rfl, fun _ => rfl, fun _ => rfl⟩

theorem Kept.trans {s t u : State} (h : Kept s t) (h' : Kept t u) : Kept s u where
  refs := h'.refs.trans h.refs
  dialect1 := h'.dialect1.trans h.dialect1
  dialect2 := h'.dialect2.trans h.dialect2
  globals := h'.globals.trans h.globals
  drive := h'.drive.trans h.drive
  refreshTimer := h'.refreshTimer.trans h.refreshTimer
  role := h'.role.trans h.role
  resetn := h'.resetn.trans h.resetn
  pending := h'.pending.trans h.pending
  ring := by
    obtain ⟨n, hn⟩ := h.ring
    obtain ⟨m, hm⟩ := h'.ring
    refine ⟨m, ?_⟩
    rw [hm, hn]
  queue := h.queue.trans h'.queue
  cfg i := (h'.cfg i).trans (h.cfg i)
  list i := (h'.list i).trans (h.list i)
  command i := (h'.command i).trans (h.command i)

/-- A reference record reads the same after an event. -/
theorem Kept.ref {s t : State} (h : Kept s t) (r : RefIx) : t.ref r = s.ref r := ref_congr h.refs r

/-- A translation table reads the same after an event. -/
theorem Kept.table {s t : State} (h : Kept s t) (d : Dialect) : t.table d = s.table d := by
  cases d
  · exact h.dialect1
  · exact h.dialect2

/-- A change of one shelf that leaves its configuration, list and command alone. -/
theorem updShelf_kept (s : State) (i : ShelfIx) (f : Shelf → Shelf) (hc : ∀ x, (f x).cfg = x.cfg)
    (hl : ∀ x, (f x).list = x.list) (hm : ∀ x, (f x).command = x.command) : Kept s (s.updShelf i f) where
  refs := rfl
  dialect1 := rfl
  dialect2 := rfl
  globals := rfl
  drive := rfl
  refreshTimer := rfl
  role := rfl
  resetn := rfl
  pending := rfl
  ring := ⟨_, rfl⟩
  queue := QueueGrows.refl _
  cfg j := by rw [updShelf_shelf]; split <;> simp_all
  list j := by rw [updShelf_shelf]; split <;> simp_all
  command j := by rw [updShelf_shelf]; split <;> simp_all

/-- A change of the engines, the Alignment Queue and the grants alone. -/
theorem engines_kept (s : State) (e : Vector (Option Hold) 4) (q : List ShelfIx) (n : Nat) :
    Kept s { s with engines := e, alignQ := q, grants := n } :=
  ⟨rfl, rfl, rfl, rfl, rfl, rfl, rfl, rfl, rfl, ⟨_, rfl⟩, QueueGrows.refl _, fun _ => rfl, fun _ => rfl, fun _ => rfl⟩

/-! ### Marks -/

theorem markWhere_kept (s : State) (p : Shelf → Bool) : Kept s (s.markWhere p) where
  refs := by simp
  dialect1 := by simp
  dialect2 := by simp
  globals := by simp
  drive := by simp
  refreshTimer := by simp
  role := by simp
  resetn := by simp
  pending := by simp
  ring := ⟨s.ring.counters.noticeLost, by simp⟩
  queue := by rw [markWhere_ring]; exact QueueGrows.refl _
  cfg i := by rw [markWhere_shelf]; split <;> simp
  list i := by rw [markWhere_shelf]; split <;> simp
  command i := by rw [markWhere_shelf]; split <;> simp

theorem markShelf_kept (s : State) (i : ShelfIx) : Kept s (s.markShelf i) :=
  updShelf_kept s i _ mark_cfg mark_list mark_command

/-! ### Offers -/

theorem pushInsert_kept (s : State) (e : InsertEntry) : Kept s (s.pushInsert e) :=
  ⟨rfl, rfl, rfl, rfl, rfl, rfl, rfl, rfl, rfl, ⟨_, rfl⟩, QueueGrows.append _ _, fun _ => rfl, fun _ => rfl, fun _ => rfl⟩

theorem loseNotice_kept (s : State) : Kept s s.loseNotice :=
  ⟨rfl, rfl, rfl, rfl, rfl, rfl, rfl, rfl, rfl, ⟨bump s.ring.counters.noticeLost, rfl⟩, QueueGrows.refl _, fun _ => rfl,
    fun _ => rfl, fun _ => rfl⟩

theorem coalesce_kept (s : State) (i : ShelfIx) (f : Frame) :
    Kept s (s.updRing fun g => { g with insertQ := coalesceSq i f g.insertQ }) :=
  ⟨rfl, rfl, rfl, rfl, rfl, rfl, rfl, rfl, rfl, ⟨_, rfl⟩, QueueGrows.coalesce i f _, fun _ => rfl, fun _ => rfl,
    fun _ => rfl⟩

theorem record_kept (s : State) (i : ShelfIx) (c : Report) :
    Kept s (s.updShelf i fun x => { x with lastReport := some c }) :=
  updShelf_kept s i _ (fun _ => rfl) (fun _ => rfl) (fun _ => rfl)

theorem offerSn_kept (s : State) (i : ShelfIx) (p n : Option RefIx) (c : Cause) (h : Bool) :
    Kept s (s.offerSn i p n c h) := by
  unfold State.offerSn
  split
  · exact Kept.refl s
  · split
    · exact pushInsert_kept s _
    · exact loseNotice_kept s

theorem offerSqOf_kept (s : State) (i : ShelfIx) (c : Report) : Kept s (s.offerSqOf i c) := by
  unfold State.offerSqOf
  split
  · exact Kept.refl s
  · dsimp only
    split
    · exact (coalesce_kept s i _).trans (record_kept _ i c)
    · split
      · exact (pushInsert_kept s _).trans (record_kept _ i c)
      · exact loseNotice_kept s

theorem offerSq_kept (s : State) (i : ShelfIx) : Kept s (s.offerSq i) := offerSqOf_kept s i _

/-- A fold of steps that each keep `P`. -/
theorem foldl_induct {α β : Type} {P : β → Prop} (f : β → α → β) (hf : ∀ b a, P b → P (f b a)) :
    ∀ (l : List α) (b : β), P b → P (l.foldl f b)
  | [], _, h => h
  | a :: l, b, h => foldl_induct f hf l (f b a) (hf b a h)

/-- A full report is offers of SQ frames. -/
theorem fullReport_induct {P : State → Prop} (ho : ∀ s i, P s → P (s.offerSq i)) (s : State) (h : P s) :
    P s.fullReport := by
  refine foldl_induct _ ?_ _ _ h
  intro b a hb
  split
  · exact ho _ _ hb
  · exact hb

/-- A comparison is offers of SQ frames. -/
theorem compareReports_induct {P : State → Prop} (ho : ∀ s i, P s → P (s.offerSq i)) (s : State) (h : P s) :
    P s.compareReports := by
  refine foldl_induct _ ?_ _ _ h
  intro b a hb
  split
  · exact ho _ _ hb
  · exact hb

/-- The end of an event is a comparison or nothing. -/
theorem endEvent_induct {P : State → Prop} (ho : ∀ s i, P s → P (s.offerSq i)) (s0 s1 : State) (h : P s1) :
    P (s0.endEvent s1) := by
  unfold State.endEvent
  split
  · exact compareReports_induct ho _ h
  · exact h

theorem fullReport_kept (s : State) : Kept s s.fullReport :=
  fullReport_induct (fun t i h => h.trans (offerSq_kept t i)) s (Kept.refl s)

theorem compareReports_kept (s : State) : Kept s s.compareReports :=
  compareReports_induct (fun t i h => h.trans (offerSq_kept t i)) s (Kept.refl s)

theorem endEvent_kept (s0 s1 : State) : Kept s1 (s0.endEvent s1) :=
  endEvent_induct (fun t i h => h.trans (offerSq_kept t i)) s0 s1 (Kept.refl s1)

/-! ### Engines -/

theorem grant_kept (s : State) (e : EngineIx) (i : ShelfIx) (rest : List ShelfIx) : Kept s (s.grant e i rest) :=
  (engines_kept s _ rest _).trans (updShelf_kept _ i _ (fun _ => rfl) (fun _ => rfl) (fun _ => rfl))

/-- The grants of an event are single grants. -/
theorem grantWithin_induct {P : State → Prop} (hg : ∀ s e i rest, P s → s.alignQ = i :: rest → s.freeEngine = some e →
    P (s.grant e i rest)) : ∀ (n : Nat) (s : State), P s → P (s.grantWithin n)
  | 0, _, h => h
  | n + 1, s, h => by
    unfold State.grantWithin
    split
    · rename_i i rest e hq he
      exact grantWithin_induct hg n _ (hg s e i rest h hq he)
    · exact h

theorem grantFree_kept (s : State) : Kept s s.grantFree :=
  grantWithin_induct (fun t e i rest h _ _ => h.trans (grant_kept t e i rest)) 4 s (Kept.refl s)

theorem freeEngineOf_kept (s : State) (i : ShelfIx) : Kept s (s.freeEngineOf i) := engines_kept s _ _ _

theorem releaseSwitch_kept (s : State) (i : ShelfIx) : Kept s (s.releaseSwitch i) := by
  unfold State.releaseSwitch
  split
  · exact engines_kept s _ _ _
  · exact (freeEngineOf_kept s i).trans (grantFree_kept _)
  all_goals exact Kept.refl s

/-! ### Endings and entries -/

theorem abandon_kept (s : State) (i : ShelfIx) : Kept s (s.abandon i) := by
  unfold State.abandon
  split
  · exact (releaseSwitch_kept s i).trans (updShelf_kept _ i _ (fun _ => by simp) (fun _ => by simp) (fun _ => by simp))
  · exact Kept.refl s

theorem moveToTarget_kept (s : State) (hard : Bool) (i : ShelfIx) : Kept s (s.moveToTarget hard i) := by
  unfold State.moveToTarget
  split
  · refine Kept.trans ?_ (updShelf_kept _ i _ (fun _ => by simp) (fun _ => by simp) (fun _ => by simp))
    refine Kept.trans ?_ (offerSn_kept _ i _ _ _ _)
    exact (releaseSwitch_kept s i).trans (updShelf_kept _ i _ (fun _ => rfl) (fun _ => rfl) (fun _ => rfl))
  · exact Kept.refl s

theorem enterHoldover_kept (s : State) (i : ShelfIx) (c : RefIx) (cause : Cause) : Kept s (s.enterHoldover i c cause) := by
  refine Kept.trans ?_ (updShelf_kept _ i _ (fun _ => rfl) (fun _ => rfl) (fun _ => rfl))
  refine Kept.trans ?_ (offerSn_kept _ i _ _ _ _)
  exact updShelf_kept s i _ (fun _ => rfl) (fun _ => rfl) (fun _ => rfl)

theorem loseCurrent_kept (s : State) (i : ShelfIx) : Kept s (s.loseCurrent i) := by
  unfold State.loseCurrent
  split
  · exact (enterHoldover_kept s i _ _).trans (markShelf_kept _ i)
  · exact moveToTarget_kept s true i
  · exact moveToTarget_kept s true i
  all_goals exact Kept.refl s

theorem directLock_kept (s : State) (i : ShelfIx) (r : RefIx) : Kept s (s.directLock i r) := by
  refine Kept.trans ?_ (offerSn_kept _ i _ _ _ _)
  exact updShelf_kept s i _ (fun _ => rfl) (fun _ => rfl) (fun _ => rfl)

theorem startSwitch_kept (s : State) (i : ShelfIx) (c t : RefIx) (b : Basis) : Kept s (s.startSwitch i c t b) :=
  ((updShelf_kept s i (fun x => { x with pendEdge := (s.ref t).sourceShelf, state := .waiting c t b })
    (fun _ => rfl) (fun _ => rfl) (fun _ => rfl)).trans (engines_kept _ _ (s.alignQ ++ [i]) _)).trans (grantFree_kept _)

theorem outcome_kept (s : State) (i : ShelfIx) (c : Command) (t : Option RefIx) : Kept s (s.outcome i c t) := by
  unfold State.outcome
  split
  · exact enterHoldover_kept s i _ _
  · split
    · exact Kept.refl s
    · exact startSwitch_kept s i _ _ _
  · exact directLock_kept s i _
  · exact directLock_kept s i _
  all_goals exact Kept.refl s

/-! ### Consequences -/

/-- What an action sets off is marks and abandonments of switches whose target test has failed. -/
theorem settle_induct {P : State → Prop} (hm : ∀ s p, P s → P (s.markWhere p))
    (ha : ∀ s i, P s → s.targetOk i = false → P (s.abandon i)) :
    ∀ (n : Nat) (s0 s1 : State), P s1 → P (State.settle n s0 s1)
  | 0, _, _, h => h
  | n + 1, s0, s1, h => by
    unfold State.settle
    dsimp only
    refine foldl_induct _ ?_ _ _ (hm _ _ ?_)
    · intro b a hb
      split
      · rename_i hc
        refine settle_induct hm ha n _ _ (ha _ _ hb ?_)
        simp only [Bool.and_eq_true, Bool.not_eq_true'] at hc
        exact hc.2
      · exact hb
    · split
      · exact hm _ _ h
      · exact h

theorem follow_induct {P : State → Prop} (hm : ∀ s p, P s → P (s.markWhere p))
    (ha : ∀ s i, P s → s.targetOk i = false → P (s.abandon i)) (s0 s1 : State) (h : P s1) : P (s0.follow s1) :=
  settle_induct hm ha 25 s0 s1 h

theorem follow_kept (s0 s1 : State) : Kept s1 (s0.follow s1) :=
  follow_induct (fun t p h => h.trans (markWhere_kept t p)) (fun t i h _ => h.trans (abandon_kept t i)) s0 s1
    (Kept.refl s1)

/-- A shelf's part in a state change is losses and abandonments with what they set off. -/
theorem takePart_induct {P : State → Prop} (hm : ∀ s p, P s → P (s.markWhere p))
    (ha : ∀ s i, P s → s.targetOk i = false → P (s.abandon i))
    (hl : ∀ s i r, P s → (s.shelf i).state.current = some r →
      ((s.ref r).rt.state = .failed ∨ (s.ref r).rt.state = .disabled) → P (s.loseCurrent i))
    (r : RefIx) (s : State) (i : ShelfIx) (h : P s) : P (State.takePart r s i) := by
  unfold State.takePart
  split
  · rename_i hc
    exact follow_induct hm ha _ _ (hl s i r h hc.1 hc.2)
  · split
    · rename_i hc
      exact follow_induct hm ha _ _ (ha s i h hc.2)
    · exact h

/-- The delivery of a state change is marks, losses and abandonments. -/
theorem deliverState_induct {P : State → Prop} (hm : ∀ s p, P s → P (s.markWhere p))
    (ha : ∀ s i, P s → s.targetOk i = false → P (s.abandon i))
    (hl : ∀ s i r, P s → (s.shelf i).state.current = some r →
      ((s.ref r).rt.state = .failed ∨ (s.ref r).rt.state = .disabled) → P (s.loseCurrent i))
    (s0 s1 : State) (r : RefIx) (h : P s1) : P (s0.deliverState s1 r) :=
  follow_induct hm ha _ _ (foldl_induct _ (fun b a hb => takePart_induct hm ha hl r b a hb) _ _ (hm s1 _ h))

theorem takePart_kept (r : RefIx) (s : State) (i : ShelfIx) : Kept s (State.takePart r s i) :=
  takePart_induct (fun t p h => h.trans (markWhere_kept t p)) (fun t i h _ => h.trans (abandon_kept t i))
    (fun t i _ h _ _ => h.trans (loseCurrent_kept t i)) r s i (Kept.refl s)

theorem deliverState_kept (s0 s1 : State) (r : RefIx) : Kept s1 (s0.deliverState s1 r) :=
  deliverState_induct (fun t p h => h.trans (markWhere_kept t p)) (fun t i h _ => h.trans (abandon_kept t i))
    (fun t i _ h _ _ => h.trans (loseCurrent_kept t i)) s0 s1 r (Kept.refl s1)

/-- The event that replaces a reference record is that replacement, marks, losses, abandonments and offers. -/
theorem putRef_induct {P : State → Prop} (hm : ∀ s p, P s → P (s.markWhere p))
    (ha : ∀ s i, P s → s.targetOk i = false → P (s.abandon i))
    (hl : ∀ s i r, P s → (s.shelf i).state.current = some r →
      ((s.ref r).rt.state = .failed ∨ (s.ref r).rt.state = .disabled) → P (s.loseCurrent i))
    (ho : ∀ s i, P s → P (s.offerSq i)) (s : State) (r : RefIx) (x : Reference) (h : P (s.setRef r x)) :
    P (s.putRef r x) := by
  unfold State.putRef
  refine endEvent_induct ho _ _ ?_
  split
  · exact follow_induct hm ha _ _ h
  · exact deliverState_induct hm ha hl _ _ _ h

theorem putRef_kept (s : State) (r : RefIx) (x : Reference) : Kept (s.setRef r x) (s.putRef r x) :=
  putRef_induct (fun t p h => h.trans (markWhere_kept t p)) (fun t i h _ => h.trans (abandon_kept t i))
    (fun t i _ h _ _ => h.trans (loseCurrent_kept t i)) (fun t i h => h.trans (offerSq_kept t i)) s r x (Kept.refl _)

/-- Reference record `q` after the event that replaces record `r`. -/
theorem putRef_ref (s : State) (r q : RefIx) (x : Reference) :
    (s.putRef r x).ref q = if q = r then x else s.ref q := by
  rw [(putRef_kept s r x).ref, setRef_ref]

end Sys2Proof.Machine
end

