-- ==== Sys2Proof/Laws/Rank.lean ====
section
/-! SUPPORT. What the computed ranks read, and what they do not: an event that changes no configuration, no received
rank and no shelf state changes no rank and sets nothing off. -/

namespace Sys2Proof.Machine

/-- Two states agree on everything a rank reads: configurations, received ranks and shelf states. -/
structure SameRanks (s t : State) : Prop where
  refCfg : ∀ r, (t.ref r).cfg = (s.ref r).cfg
  received : ∀ r, (t.ref r).qt.received = (s.ref r).qt.received
  shelfCfg : ∀ i, (t.shelf i).cfg = (s.shelf i).cfg
  state : ∀ i, (t.shelf i).state = (s.shelf i).state

theorem SameRanks.refl (s : State) : SameRanks s s := ⟨fun _ => rfl, fun _ => rfl, fun _ => rfl, fun _ => rfl⟩

theorem SameRanks.symm {s t : State} (h : SameRanks s t) : SameRanks t s :=
  ⟨fun r => (h.refCfg r).symm, fun r => (h.received r).symm, fun i => (h.shelfCfg i).symm, fun i => (h.state i).symm⟩

theorem SameRanks.trans {s t u : State} (h : SameRanks s t) (h' : SameRanks t u) : SameRanks s u :=
  ⟨fun r => (h'.refCfg r).trans (h.refCfg r), fun r => (h'.received r).trans (h.received r),
    fun i => (h'.shelfCfg i).trans (h.shelfCfg i), fun i => (h'.state i).trans (h.state i)⟩

/-- A rank reads a reference's configuration and received rank. -/
theorem Reference.rankWith_congr {x y : Reference} (hc : y.cfg = x.cfg) (hq : y.qt.received = x.qt.received)
    (out : ShelfIx → Rank) : y.rankWith out = x.rankWith out := by
  unfold Reference.rankWith
  rw [hc, hq]

/-- A rank reads a shelf's configuration and state. -/
theorem Shelf.rankWith_congr {x y : Shelf} (hc : y.cfg = x.cfg) (hs : y.state = x.state) (eff : RefIx → Rank) :
    y.rankWith eff = x.rankWith eff := by
  unfold Shelf.rankWith
  rw [hc, hs]

theorem SameRanks.outRankFuel {s t : State} (h : SameRanks s t) :
    ∀ (n : Nat) (i : ShelfIx), t.outRankFuel n i = s.outRankFuel n i
  | 0, _ => rfl
  | n + 1, i => by
    unfold State.outRankFuel
    rw [Shelf.rankWith_congr (h.shelfCfg i) (h.state i)]
    congr 1
    funext r
    rw [Reference.rankWith_congr (h.refCfg r) (h.received r)]
    congr 1
    funext j
    exact h.outRankFuel n j

theorem SameRanks.outRank {s t : State} (h : SameRanks s t) (i : ShelfIx) : t.outRank i = s.outRank i :=
  h.outRankFuel 24 i

theorem SameRanks.effRank {s t : State} (h : SameRanks s t) (r : RefIx) : t.effRank r = s.effRank r := by
  unfold State.effRank
  rw [Reference.rankWith_congr (h.refCfg r) (h.received r)]
  congr 1
  funext i
  exact h.outRank i

/-- The effective rank of a reference, unfolded once: the first of R55's conditions that applies. -/
theorem effRank_eq (s : State) (r : RefIx) : s.effRank r = (s.ref r).rankWith s.outRank := rfl

/-- No rank that was compared has changed. -/
theorem SameRanks.rankDiffers {s t : State} (h : SameRanks s t) (r : RefIx) : rankDiffers s t r = false := by
  unfold Machine.rankDiffers
  simp [h.effRank r]

theorem SameRanks.namesChanged {s t : State} (h : SameRanks s t) (x : Shelf) : namesChanged s t x = false := by
  unfold Machine.namesChanged
  simp [h.rankDiffers]

/-- Marking no shelf changes nothing. -/
theorem markWhere_none (s : State) (p : Shelf → Bool) (h : ∀ x, p x = false) : s.markWhere p = s := by
  have hs : (s.markWhere p).shelves = s.shelves := shelves_ext fun i => by simp [h]
  unfold State.markWhere State.mapShelves at *
  cases s
  simp_all

/-- A fold of steps that do nothing does nothing. -/
theorem foldl_const {α β : Type} (f : β → α → β) (b : β) (h : ∀ a, f b a = b) : ∀ l : List α, l.foldl f b = b
  | [] => rfl
  | a :: l => by rw [List.foldl_cons, h a, foldl_const f b h l]

/-- An action that changes no rank and no edge sets nothing off. -/
theorem follow_quiet {s t : State} (h : SameRanks s t) (he : edgesDiffer s t = false) : s.follow t = t := by
  unfold State.follow State.settle
  simp only [he, Bool.false_eq_true, if_false]
  rw [markWhere_none t _ fun x => h.namesChanged x]
  apply foldl_const
  intro i
  simp only [h.rankDiffers]
  cases ht : (t.shelf i).state.target <;> simp

/-- Two states whose shelf records agree have the same edges. -/
theorem edgesDiffer_of_shelf {s t : State} (h : ∀ i, t.shelf i = s.shelf i) : edgesDiffer s t = false := by
  unfold edgesDiffer
  simp [h]

/-- A change of one reference record that leaves its configuration and received rank alone changes no rank. -/
theorem setRef_sameRanks (s : State) (r : RefIx) (x : Reference) (hc : x.cfg = (s.ref r).cfg)
    (hq : x.qt.received = (s.ref r).qt.received) : SameRanks s (s.setRef r x) where
  refCfg q := by rw [setRef_ref]; split <;> simp_all
  received q := by rw [setRef_ref]; split <;> simp_all
  shelfCfg _ := rfl
  state _ := rfl

/-- The end of an event that changed no rank and no shelf's state offers nothing. -/
theorem endEvent_quiet {s t : State} (h : SameRanks s t) : s.endEvent t = t := by
  unfold State.endEvent reportable Shelf.reportKey
  simp [h.state, h.effRank]

/-- An event that changes a reference record but not its configuration, its received rank or its state changes nothing
else. -/
theorem putRef_quiet (s : State) (r : RefIx) (x : Reference) (hc : x.cfg = (s.ref r).cfg)
    (hq : x.qt.received = (s.ref r).qt.received) (hs : x.rt.state = (s.ref r).rt.state) :
    s.putRef r x = s.setRef r x := by
  have h := setRef_sameRanks s r x hc hq
  unfold State.putRef
  simp only [hs, if_true]
  rw [follow_quiet h (edgesDiffer_of_shelf fun i => setRef_shelf s r x i), endEvent_quiet h]

/-- Writing back the record that stands changes nothing. -/
theorem setRef_self (s : State) (r : RefIx) : s.setRef r (s.ref r) = s := by
  have h : (s.setRef r (s.ref r)).refs = s.refs := refs_ext fun q => by
    rw [setRef_ref]; split
    · rename_i hq; rw [hq]
    · rfl
  unfold State.setRef at *
  cases s
  simp_all

/-- An event that changes nothing. -/
theorem endEvent_follow_self (s : State) : s.endEvent (s.follow s) = s := by
  rw [follow_quiet (SameRanks.refl s) (edgesDiffer_of_shelf fun _ => rfl), endEvent_quiet (SameRanks.refl s)]

/-- A change of a shelf record that leaves it as it stands changes nothing. -/
theorem updShelf_self_id {s : State} {i : ShelfIx} {f : Shelf → Shelf} (h : f (s.shelf i) = s.shelf i) :
    s.updShelf i f = s := by
  have e : (s.updShelf i f).shelves = s.shelves := shelves_ext fun j => by
    rw [updShelf_shelf]; split
    · rename_i hj; rw [hj, h]
    · rfl
  unfold State.updShelf State.setShelf at *
  cases s
  simp_all

theorem putRef_self (s : State) (r : RefIx) : s.putRef r (s.ref r) = s := by
  rw [putRef_quiet s r _ rfl rfl rfl, setRef_self]

end Sys2Proof.Machine
end

