-- ==== Sys2Proof/Laws/Calm.lean ====
section
/-! SUPPORT. What the events of the shelves do to ONE shelf that takes no part in them: a shelf that is not switching
meets the consequences of other actions through its marks and its reports alone. -/

namespace Sys2Proof.Machine

/-- Shelf `i` is the same in `s` and `t` but for its selection condition and its last-reported record. -/
def SameBut (i : ShelfIx) (s t : State) : Prop :=
  ∃ v l, t.shelf i = { s.shelf i with sel := v, lastReport := l }

theorem SameBut.refl (i : ShelfIx) (s : State) : SameBut i s s := ⟨_, _, rfl⟩

theorem SameBut.trans {i : ShelfIx} {s t u : State} (h : SameBut i s t) (h' : SameBut i t u) : SameBut i s u := by
  obtain ⟨v, l, h⟩ := h
  obtain ⟨v', l', h'⟩ := h'
  exact ⟨v', l', by rw [h', h]⟩

theorem SameBut.of_eq {i : ShelfIx} {s t : State} (h : t.shelf i = s.shelf i) : SameBut i s t := ⟨_, _, h⟩

theorem SameBut.state {i : ShelfIx} {s t : State} (h : SameBut i s t) : (t.shelf i).state = (s.shelf i).state := by
  obtain ⟨_, _, h⟩ := h; rw [h]
theorem SameBut.route {i : ShelfIx} {s t : State} (h : SameBut i s t) : (t.shelf i).route = (s.shelf i).route := by
  obtain ⟨_, _, h⟩ := h; rw [h]
theorem SameBut.cfg {i : ShelfIx} {s t : State} (h : SameBut i s t) : (t.shelf i).cfg = (s.shelf i).cfg := by
  obtain ⟨_, _, h⟩ := h; rw [h]
theorem SameBut.list {i : ShelfIx} {s t : State} (h : SameBut i s t) : (t.shelf i).list = (s.shelf i).list := by
  obtain ⟨_, _, h⟩ := h; rw [h]
theorem SameBut.command {i : ShelfIx} {s t : State} (h : SameBut i s t) :
    (t.shelf i).command = (s.shelf i).command := by
  obtain ⟨_, _, h⟩ := h; rw [h]
theorem SameBut.curEdge {i : ShelfIx} {s t : State} (h : SameBut i s t) :
    (t.shelf i).curEdge = (s.shelf i).curEdge := by
  obtain ⟨_, _, h⟩ := h; rw [h]
theorem SameBut.pendEdge {i : ShelfIx} {s t : State} (h : SameBut i s t) :
    (t.shelf i).pendEdge = (s.shelf i).pendEdge := by
  obtain ⟨_, _, h⟩ := h; rw [h]
theorem SameBut.latches {i : ShelfIx} {s t : State} (h : SameBut i s t) :
    (t.shelf i).latches = (s.shelf i).latches := by
  obtain ⟨_, _, h⟩ := h; rw [h]
theorem SameBut.loopBit {i : ShelfIx} {s t : State} (h : SameBut i s t) :
    (t.shelf i).loopBit = (s.shelf i).loopBit := by
  obtain ⟨_, _, h⟩ := h; rw [h]

theorem SameBut.switching {i : ShelfIx} {s t : State} (h : SameBut i s t) :
    (t.shelf i).switching = (s.shelf i).switching := by
  unfold Shelf.switching; rw [h.state]

/-- A mark changes the selection condition alone. -/
theorem mark_eq (x : Shelf) : x.mark = { x with sel := x.mark.sel } := by
  unfold Shelf.mark; (repeat' split) <;> rfl

theorem markWhere_sameBut (i : ShelfIx) (s : State) (p : Shelf → Bool) : SameBut i s (s.markWhere p) := by
  unfold SameBut
  rw [markWhere_shelf]
  split
  · exact ⟨(s.shelf i).mark.sel, (s.shelf i).lastReport, mark_eq _⟩
  · exact ⟨_, _, rfl⟩

theorem markShelf_sameBut (i j : ShelfIx) (s : State) : SameBut i s (s.markShelf j) := by
  unfold SameBut
  rw [markShelf_shelf]
  split
  · rename_i h
    subst h
    exact ⟨(s.shelf i).mark.sel, (s.shelf i).lastReport, mark_eq _⟩
  · exact ⟨_, _, rfl⟩

theorem offerSn_shelf (s : State) (j : ShelfIx) (p n : Option RefIx) (c : Cause) (h : Bool) (i : ShelfIx) :
    (s.offerSn j p n c h).shelf i = s.shelf i := by
  unfold State.offerSn
  split
  · rfl
  · split <;> rfl

theorem offerSqOf_sameBut (i j : ShelfIx) (s : State) (c : Report) : SameBut i s (s.offerSqOf j c) := by
  unfold State.offerSqOf SameBut
  split
  · exact ⟨_, _, rfl⟩
  · dsimp only
    split
    · rw [updShelf_shelf]; split
      · rename_i h; subst h; exact ⟨_, _, rfl⟩
      · exact ⟨_, _, rfl⟩
    · split
      · rw [updShelf_shelf]; split
        · rename_i h; subst h; exact ⟨_, _, rfl⟩
        · exact ⟨_, _, rfl⟩
      · exact ⟨_, _, rfl⟩

theorem offerSq_sameBut (i j : ShelfIx) (s : State) : SameBut i s (s.offerSq j) := offerSqOf_sameBut i j s _

theorem compareReports_sameBut (i : ShelfIx) (s : State) : SameBut i s s.compareReports :=
  compareReports_induct (fun t j h => h.trans (offerSq_sameBut i j t)) s (SameBut.refl i s)

theorem fullReport_sameBut (i : ShelfIx) (s : State) : SameBut i s s.fullReport :=
  fullReport_induct (fun t j h => h.trans (offerSq_sameBut i j t)) s (SameBut.refl i s)

theorem endEvent_sameBut (i : ShelfIx) (s0 s1 : State) : SameBut i s1 (s0.endEvent s1) :=
  endEvent_induct (fun t j h => h.trans (offerSq_sameBut i j t)) s0 s1 (SameBut.refl i s1)

/-- A granted state differs from the state before only where that was WAITING. -/
theorem granted_of_not_switching {x : Shelf} (h : x.switching = false) : x.state.granted = x.state := by
  unfold Shelf.switching at h
  cases hs : x.state <;> simp_all [ShelfState.granted, ShelfState.cls]

/-- Grants leave a shelf that is not switching alone. -/
theorem grantWithin_shelf (i : ShelfIx) : ∀ (n : Nat) (s : State), (s.shelf i).switching = false →
    (s.grantWithin n).shelf i = s.shelf i
  | 0, _, _ => rfl
  | n + 1, s, h => by
    unfold State.grantWithin
    split
    · rename_i j rest e _ _
      have hj : (s.grant e j rest).shelf i = s.shelf i := by
        rw [grant_shelf]
        split
        · rename_i he; subst he; rw [granted_of_not_switching h]
        · rfl
      rw [grantWithin_shelf i n _ (by rw [hj]; exact h), hj]
    · rfl

theorem releaseSwitch_shelf (s : State) (i j : ShelfIx) (h : (s.shelf i).switching = false) :
    (s.releaseSwitch j).shelf i = s.shelf i := by
  unfold State.releaseSwitch
  split
  · rfl
  · exact grantWithin_shelf i 4 _ h
  all_goals rfl

/-- An abandonment leaves a shelf that is not switching alone. -/
theorem abandon_shelf (s : State) (i j : ShelfIx) (h : (s.shelf i).switching = false) :
    (s.abandon j).shelf i = s.shelf i := by
  unfold State.abandon
  split
  · rename_i c t hc ht
    have hij : i ≠ j := by
      rintro rfl
      unfold Shelf.switching at h
      cases hs : (s.shelf i).state <;> simp_all [ShelfState.target, ShelfState.cls]
    rw [updShelf_shelf_of_ne _ hij, releaseSwitch_shelf s i j h]
  · rfl

/-- What an action sets off reaches a shelf that is not switching through marks alone. -/
theorem follow_sameBut (i : ShelfIx) (s0 s1 : State) (h : (s1.shelf i).switching = false) :
    SameBut i s1 (s0.follow s1) := by
  refine follow_induct (P := fun t => SameBut i s1 t) ?_ ?_ s0 s1 (SameBut.refl i s1)
  · intro t p ht
    exact ht.trans (markWhere_sameBut i t p)
  · intro t j ht _
    exact ht.trans (SameBut.of_eq (abandon_shelf t i j (by rw [ht.switching]; exact h)))

/-- The loss of another shelf leaves a shelf that is not switching alone. -/
theorem loseCurrent_shelf_of_ne (s : State) {i j : ShelfIx} (hij : i ≠ j) (h : (s.shelf i).switching = false) :
    SameBut i s (s.loseCurrent j) := by
  unfold State.loseCurrent
  split
  · refine SameBut.trans (SameBut.of_eq ?_) (markShelf_sameBut i j _)
    unfold State.enterHoldover
    rw [updShelf_shelf_of_ne _ hij, offerSn_shelf, updShelf_shelf_of_ne _ hij]
  iterate 2
    refine SameBut.of_eq ?_
    unfold State.moveToTarget
    split
    · rw [updShelf_shelf_of_ne _ hij, offerSn_shelf, updShelf_shelf_of_ne _ hij, releaseSwitch_shelf s i j h]
    · rfl
  all_goals exact SameBut.refl i s

/-- Another shelf's part in a state change leaves a shelf that is not switching alone. -/
theorem takePart_sameBut_of_ne (r : RefIx) (s : State) {i j : ShelfIx} (hij : i ≠ j)
    (h : (s.shelf i).switching = false) : SameBut i s (State.takePart r s j) := by
  unfold State.takePart
  split
  · have hl := loseCurrent_shelf_of_ne s hij h
    exact hl.trans (follow_sameBut i _ _ (by rw [hl.switching]; exact h))
  · split
    · have ha : SameBut i s (s.abandon j) := SameBut.of_eq (abandon_shelf s i j h)
      exact ha.trans (follow_sameBut i _ _ (by rw [ha.switching]; exact h))
    · exact SameBut.refl i s

/-- The end of a switch on its target, for the shelf itself. -/
theorem moveToTarget_shelf_self (s : State) (hard : Bool) (i : ShelfIx) {c t : RefIx}
    (hc : (s.shelf i).state.current = some c) (ht : (s.shelf i).state.target = some t) :
    ∃ v, (s.moveToTarget hard i).shelf i =
      { s.shelf i with
        state := .locked t, route := some t, curEdge := (s.shelf i).pendEdge, pendEdge := none, sel := v
        latches := { (s.shelf i).latches with hard := (s.shelf i).latches.hard || hard } } := by
  have hrel : ∃ st, (s.releaseSwitch i).shelf i = { s.shelf i with state := st } := by
    have hg : ∀ (n : Nat) (u : State), ∃ st, (u.grantWithin n).shelf i = { u.shelf i with state := st } := by
      intro n
      induction n with
      | zero => intro u; exact ⟨_, rfl⟩
      | succ n ih =>
        intro u
        unfold State.grantWithin
        split
        · rename_i j rest e _ _
          obtain ⟨st, hst⟩ := ih (u.grant e j rest)
          rw [hst, grant_shelf]
          split
          · rename_i he; subst he; exact ⟨st, rfl⟩
          · exact ⟨st, rfl⟩
        · exact ⟨_, rfl⟩
    unfold State.releaseSwitch
    split
    · exact ⟨_, rfl⟩
    · obtain ⟨st, h⟩ := hg 4 (s.freeEngineOf i)
      exact ⟨st, by unfold State.grantFree; rw [h]; rfl⟩
    all_goals exact ⟨_, rfl⟩
  obtain ⟨st, hrel⟩ := hrel
  unfold State.moveToTarget
  simp only [hc, ht]
  rw [updShelf_shelf_self, offerSn_shelf, updShelf_shelf_self, hrel, mark_eq]
  exact ⟨_, rfl⟩

end Sys2Proof.Machine
end

