-- ==== Sys2Proof/Laws/Request.lean ====
section
/-! SUPPORT. The taking of a request: what a ready part does with it, and what the computed values read. -/

namespace Sys2Proof.Machine

/-! ### Values computed from the tables of records -/

/-- Two states hold the same reference and shelf records. -/
structure SameTables (s t : State) : Prop where
  refs : t.refs = s.refs
  shelves : t.shelves = s.shelves

theorem SameTables.ref {s t : State} (h : SameTables s t) (r : RefIx) : t.ref r = s.ref r := ref_congr h.refs r

theorem SameTables.shelf {s t : State} (h : SameTables s t) (i : ShelfIx) : t.shelf i = s.shelf i :=
  shelf_congr h.shelves i

theorem SameTables.sameRanks {s t : State} (h : SameTables s t) : SameRanks s t :=
  ⟨fun r => by rw [h.ref], fun r => by rw [h.ref], fun i => by rw [h.shelf], fun i => by rw [h.shelf]⟩

theorem SameTables.effRank {s t : State} (h : SameTables s t) (r : RefIx) : t.effRank r = s.effRank r :=
  h.sameRanks.effRank r

theorem SameTables.outRank {s t : State} (h : SameTables s t) (i : ShelfIx) : t.outRank i = s.outRank i :=
  h.sameRanks.outRank i

theorem SameTables.edgesFrom {s t : State} (h : SameTables s t) (i : ShelfIx) : t.edgesFrom i = s.edgesFrom i := by
  unfold State.edgesFrom; rw [h.shelf]

theorem SameTables.pathWithin {s t : State} (h : SameTables s t) :
    ∀ (n : Nat) (a b : ShelfIx), t.pathWithin n a b = s.pathWithin n a b
  | 0, _, _ => rfl
  | n + 1, a, b => by
    unfold State.pathWithin
    rw [h.edgesFrom]
    congr 2
    funext x
    exact h.pathWithin n x b

theorem SameTables.permits {s t : State} (h : SameTables s t) (i : ShelfIx) (r : RefIx) :
    t.permits i r = s.permits i r := by
  unfold State.permits State.pathTo
  rw [h.ref]
  split <;> simp [h.pathWithin]

theorem SameTables.eligibleUnder {s t : State} (h : SameTables s t) (p : RefIx → Bool) (i : ShelfIx) (r : RefIx) :
    t.eligibleUnder p i r = s.eligibleUnder p i r := by
  unfold State.eligibleUnder
  rw [h.ref, h.shelf, h.effRank]

theorem SameTables.forcedUnder {s t : State} (h : SameTables s t) (p : RefIx → Bool) (i : ShelfIx) (r : RefIx) :
    t.forcedUnder p i r = s.forcedUnder p i r := by
  unfold State.forcedUnder
  rw [h.ref, h.shelf]

theorem SameTables.permits_fun {s t : State} (h : SameTables s t) (i : ShelfIx) : t.permits i = s.permits i :=
  funext fun r => h.permits i r

theorem SameTables.eligible {s t : State} (h : SameTables s t) (i : ShelfIx) (r : RefIx) :
    t.eligible i r = s.eligible i r := by
  unfold State.eligible; rw [h.permits_fun, h.eligibleUnder]

theorem SameTables.forcedUsable {s t : State} (h : SameTables s t) (i : ShelfIx) (r : RefIx) :
    t.forcedUsable i r = s.forcedUsable i r := by
  unfold State.forcedUsable; rw [h.permits_fun, h.forcedUnder]

theorem SameTables.rootWithin {s t : State} (h : SameTables s t) :
    ∀ (n : Nat) (i : ShelfIx), t.rootWithin n i = s.rootWithin n i
  | 0, _ => rfl
  | n + 1, i => by
    unfold State.rootWithin
    rw [h.shelf]
    split
    · rfl
    · rw [h.ref]
      split
      · rfl
      · rfl
      · split
        · rfl
        · exact h.rootWithin n _

theorem SameTables.squelch {s t : State} (h : SameTables s t) (i : ShelfIx) : t.squelch i = s.squelch i := by
  unfold State.squelch State.root
  rw [h.rootWithin]
  split
  · rfl
  · rw [h.ref]

theorem SameTables.alarm {s t : State} (h : SameTables s t) (hr : t.resetn = s.resetn) : t.alarm = s.alarm := by
  unfold State.alarm
  simp only [h.ref, h.shelf, hr]

theorem SameTables.commandTests {s t : State} (h : SameTables s t) (i : ShelfIx) (c : Command) :
    t.commandTests i c = s.commandTests i c := by
  unfold State.commandTests
  simp only [h.shelf, h.eligible]

theorem updRing_sameTables (s : State) (f : Ring → Ring) : SameTables s (s.updRing f) := ⟨rfl, rfl⟩

theorem pushInsert_sameTables (s : State) (e : InsertEntry) : SameTables s (s.pushInsert e) := ⟨rfl, rfl⟩

/-- The outgoing code reads the tables of the dialects besides the records. -/
theorem SameTables.outCode {s t : State} (h : SameTables s t) (hd : ∀ d, t.table d = s.table d) (i : ShelfIx) :
    t.outCode i = s.outCode i := by
  unfold State.outCode
  rw [h.shelf, hd]
  simp only [h.outRank]

theorem SameTables.refReport {s t : State} (h : SameTables s t) (r : RefIx) : t.refReport r = s.refReport r := by
  unfold State.refReport
  rw [h.ref, h.effRank]

theorem SameTables.shelfReport {s t : State} (h : SameTables s t) (hd : ∀ d, t.table d = s.table d) (i : ShelfIx) :
    t.shelfReport i = s.shelfReport i := by
  unfold State.shelfReport
  rw [h.shelf, h.outRank, h.outCode hd]

/-! ### The reserved entry -/

/-- The reply goes into the first reserved entry. -/
theorem fillReserved_append (f : Frame) : ∀ (q l : List InsertEntry), InsertEntry.reserved ∉ q →
    fillReserved f (q ++ .reserved :: l) = q ++ .rep f :: l
  | [], _, _ => rfl
  | e :: q, l, h => by
    have hq : InsertEntry.reserved ∉ q := fun hm => h (List.mem_cons_of_mem _ hm)
    cases e with
    | reserved => exact absurd List.mem_cons_self h
    | rep g => simp [fillReserved, fillReserved_append f q l hq]
    | sq j g => simp [fillReserved, fillReserved_append f q l hq]
    | sn g => simp [fillReserved, fillReserved_append f q l hq]

/-- With no reserved entry before place `k`, the reply goes to place `k`. -/
theorem fillReserved_getElem? (f : Frame) : ∀ (q : List InsertEntry) (k : Nat),
    q[k]? = some .reserved → (∀ j < k, q[j]? ≠ some .reserved) → (fillReserved f q)[k]? = some (.rep f)
  | [], _, h, _ => by simp at h
  | e :: q, 0, h, _ => by
    obtain rfl : e = .reserved := by simpa using h
    rfl
  | e :: q, k + 1, h, hb => by
    have h0 : e ≠ .reserved := by
      intro he
      exact hb 0 (Nat.succ_pos k) (by simp [he])
    have ih := fillReserved_getElem? f q k (by simpa using h) fun j hj => by
      have := hb (j + 1) (by omega)
      simpa using this
    cases e with
    | reserved => exact absurd rfl h0
    | rep g => simpa [fillReserved] using ih
    | sq j g => simpa [fillReserved] using ih
    | sn g => simpa [fillReserved] using ih

/-- An entry reserved at the tail of a queue with none, and offers behind it: the reply takes its place. -/
theorem replied_of_grows (f : Frame) {q q' : List InsertEntry} (hq : InsertEntry.reserved ∉ q)
    (h : QueueGrows (q ++ [.reserved]) q') : (fillReserved f q')[q.length]? = some (.rep f) := by
  apply fillReserved_getElem?
  · exact h.reserved (by simp)
  · intro j hj hres
    have hq0 : (q ++ [InsertEntry.reserved])[j]? = some q[j] := by
      rw [List.getElem?_append_left hj, List.getElem?_eq_getElem hj]
    obtain ⟨e', he', hs⟩ := h j _ hq0
    rw [hres] at he'
    have he : e' = .reserved := by simpa using he'.symm
    subst he
    rcases hs with hs | ⟨_, _, _, _, hs⟩
    · exact hq (hs ▸ List.getElem_mem hj)
    · cases hs

/-! ### Taking a request -/

/-- The part after a request whose execution gave `a`: the reply is placed, with the header then in force. -/
def Answer.placed (a : Answer) (src : Byte) (payload : List Byte) : State :=
  let reply := a.state.makeFrame src typeREP (replyHead payload ++ [a.status.octet] ++ a.results)
  a.state.updRing fun g => { g with insertQ := fillReserved reply g.insertQ }

/-- What a ready part does with a request: reserve an entry, execute, reply. -/
theorem submit_ready {s : State} {src : Byte} (h : s.readyFor src) (payload : List Byte) (hl : payload.length ≤ 88) :
    s.submit src payload = ((s.pushInsert .reserved).execute src payload).placed src payload := by
  obtain ⟨_, hrx, hroom, _, hsrc⟩ := h
  have e1 : s.offerRx (s.requestFrame src payload) =
      s.updRing fun g => { g with rxQ := [s.requestFrame src payload] } := by
    unfold State.offerRx
    simp [hrx, State.updRing, Config.rxCapacity]
  have hback : (s.updRing fun g => { g with rxQ := [s.requestFrame src payload] }).updRing
      (fun g => { g with rxQ := g.rxQ.tail }) = s := by
    unfold State.updRing
    cases s with
    | mk a b c d ring e f g h i j k l m =>
      cases ring
      simp_all
  unfold State.submit
  simp only [Config.maxPayload, hl, if_true, hrx, e1]
  unfold State.takeHead
  simp only [updRing_ring, State.requestFrame, hsrc, if_false, if_true, typeREQ]
  have hr : (s.updRing fun g => { g with rxQ := [s.requestFrame src payload] }).insertRoom = true := by
    simp [State.insertRoom, State.updRing, hroom]
  simp only [State.requestFrame, typeREQ] at hr hback
  simp only [hr, if_true]
  unfold State.takeRequest
  rw [hback]
  rfl

/-- A refused request changes nothing but for its reply: R169. -/
theorem submit_refused {s : State} {src : Byte} (h : s.readyFor src) (payload : List Byte) (hl : payload.length ≤ 88)
    (st : Status) (hx : (s.pushInsert .reserved).execute src payload = .refuse st (s.pushInsert .reserved)) :
    s.submit src payload = s.withReply (s.makeFrame src typeREP (replyHead payload ++ [st.octet])) := by
  rw [submit_ready h payload hl, hx]
  unfold Answer.placed Answer.refuse State.withReply
  simp only [State.pushInsert, State.updRing, List.append_nil]
  rw [fillReserved_append _ _ _ h.2.2.2.1]
  rfl

/-- A request that changes nothing and answers `results`. -/
theorem submit_answered {s : State} {src : Byte} (h : s.readyFor src) (payload : List Byte) (hl : payload.length ≤ 88)
    (st : Status) (results : List Byte)
    (hx : (s.pushInsert .reserved).execute src payload =
      { status := st, results := results, state := s.pushInsert .reserved }) :
    s.submit src payload = s.withReply (s.makeFrame src typeREP (replyHead payload ++ [st.octet] ++ results)) := by
  rw [submit_ready h payload hl, hx]
  unfold Answer.placed State.withReply
  simp only [State.pushInsert, State.updRing]
  rw [fillReserved_append _ _ _ h.2.2.2.1]
  rfl

/-- A request whose execution only offers frames behind its reserved entry is answered at that entry. -/
theorem placed_replied {s : State} {src : Byte} (h : s.readyFor src) (a : Answer) (payload : List Byte)
    (hg : QueueGrows (s.ring.insertQ ++ [.reserved]) a.state.ring.insertQ) :
    (a.placed src payload).ring.insertQ[s.ring.insertQ.length]? =
      some (.rep (a.state.makeFrame src typeREP (replyHead payload ++ [a.status.octet] ++ a.results))) :=
  replied_of_grows _ h.2.2.2.1 hg

end Sys2Proof.Machine
end

