-- ==== Sys2Proof/Laws/Exec.lean ====
section
/-! SUPPORT. What each command answers while RESETn is high, as one equation: the statements about a command begin here.
-/

namespace Sys2Proof.Machine

theorem running_high {s : State} (h : s.resetn = true) (f : State → State) : s.running f = .next (f s) := by
  simp [State.running, h]

theorem running_low {s : State} (h : s.resetn = false) (f : State → State) : s.running f = .next s := by
  simp [State.running, h]

theorem exec_frameArrival {s : State} (h : s.resetn = true) : exec .frameArrival s = .next s.frameArrives :=
  running_high h State.frameArrives

theorem exec_frameTake {s : State} (h : s.resetn = true) : exec .frameTake s = .next s.takeHead :=
  running_high h State.takeHead

theorem exec_transmissionStart {s : State} (h : s.resetn = true) :
    exec .transmissionStart s = .next (s.updRing Ring.startSending) :=
  running_high h fun s => s.updRing Ring.startSending

theorem exec_transmissionEnd {s : State} (h : s.resetn = true) :
    exec .transmissionEnd s = .next (s.updRing Ring.endSending) :=
  running_high h fun s => s.updRing Ring.endSending

theorem exec_receiverReady {s : State} (h : s.resetn = true) (levels : List Bool) :
    exec (.receiverReady levels) s =
      .next (s.updRing fun g => { g with receiver := levels.foldl Receiver.bit g.receiver }) :=
  running_high h fun s => s.updRing fun g => { g with receiver := levels.foldl Receiver.bit g.receiver }

theorem exec_octetTaken {s : State} (h : s.resetn = true) (octet : Byte) (stop : Bool) :
    exec (.octetTaken octet stop) s =
      .next (s.updRing fun g => { g with receiver := g.receiver.octet octet stop }) :=
  running_high h fun s => s.updRing fun g => { g with receiver := g.receiver.octet octet stop }

theorem exec_comparisonPulse {s : State} (h : s.resetn = true) (r : RefIx) (cycles ticks : Nat) :
    exec (.comparisonPulse r cycles ticks) s = .next (s.putRef r ((s.ref r).clockIn cycles ticks)) :=
  running_high h fun s => s.putRef r ((s.ref r).clockIn cycles ticks)

theorem exec_activityWatchExpiry {s : State} (h : s.resetn = true) (r : RefIx) :
    exec (.activityWatchExpiry r) s = .next (s.putRef r (s.ref r).watchExpired) :=
  running_high h fun s => s.putRef r (s.ref r).watchExpired

theorem exec_holdOffExpiry {s : State} (h : s.resetn = true) (r : RefIx) :
    exec (.holdOffExpiry r) s = .next (s.putRef r (s.ref r).holdOffExpired) :=
  running_high h fun s => s.putRef r (s.ref r).holdOffExpired

theorem exec_restoreWaitExpiry {s : State} (h : s.resetn = true) (r : RefIx) :
    exec (.restoreWaitExpiry r) s = .next (s.putRef r (s.ref r).restoreExpired) :=
  running_high h fun s => s.putRef r (s.ref r).restoreExpired

theorem exec_decayExpiry {s : State} (h : s.resetn = true) (r : RefIx) :
    exec (.decayExpiry r) s = .next (s.setRef r (s.ref r).decayExpired) :=
  running_high h fun s => s.setRef r (s.ref r).decayExpired

theorem exec_announcementTimerExpiry {s : State} (h : s.resetn = true) (r : RefIx) :
    exec (.announcementTimerExpiry r) s = .next (s.putRef r (s.ref r).announceExpired) :=
  running_high h fun s => s.putRef r (s.ref r).announceExpired

theorem exec_settleTimerExpiry {s : State} (h : s.resetn = true) (i : ShelfIx) :
    exec (.settleTimerExpiry i) s = .next (s.endEvent (s.settleExpired i)) :=
  running_high h fun s => s.endEvent (s.settleExpired i)

theorem exec_engineDone {s : State} (h : s.resetn = true) (e : EngineIx) (g : Nat) :
    exec (.engineDone e g) s = .next (s.engineEnds false e g) :=
  running_high h fun s => s.engineEnds false e g

theorem exec_alignmentLimitExpiry {s : State} (h : s.resetn = true) (e : EngineIx) (g : Nat) :
    exec (.alignmentLimitExpiry e g) s = .next (s.limitExpired e g) :=
  running_high h fun s => s.limitExpired e g

theorem exec_holdoverPhaseExpiry {s : State} (h : s.resetn = true) (i : ShelfIx) :
    exec (.holdoverPhaseExpiry i) s = .next (s.endEvent (s.follow (s.updShelf i fun x =>
      { x with state := x.state.phaseExpired x.cfg.phaseB.toNat }))) :=
  running_high h fun s => s.endEvent (s.follow (s.updShelf i fun x =>
    { x with state := x.state.phaseExpired x.cfg.phaseB.toNat }))

theorem exec_refreshExpiry {s : State} (h : s.resetn = true) : exec .refreshExpiry s = .next s.refreshExpired :=
  running_high h State.refreshExpired

/-- Every request command submits its REQ. -/
theorem exec_request {c : Instr} {s : State} {src : Byte} {payload : List Byte}
    (hc : requestSent c = some (src, payload)) (h : s.resetn = true) : exec c s = .next (s.submit src payload) := by
  cases c <;> simp only [requestSent, Option.some.injEq, Prod.mk.injEq, reduceCtorEq] at hc <;>
    (obtain ⟨rfl, rfl⟩ := hc; exact running_high h fun s => s.submit _ _)

/-- What a ready part does with a request command. -/
theorem exec_ready {c : Instr} {s : State} {src : Byte} {payload : List Byte}
    (hc : requestSent c = some (src, payload)) (h : s.readyFor src) (hl : payload.length ≤ 88) :
    exec c s = .next (((s.pushInsert .reserved).execute src payload).placed src payload) := by
  rw [exec_request hc h.1, submit_ready h payload hl]

/-! ### The order of tests -/

theorem denies_of_admits {s : State} {src : Byte} (h : s.admits src) : s.denies src = false := by
  rcases h with h | h <;> simp [State.denies, h]

theorem denies_of_not_admits {s : State} {src : Byte} (h : ¬s.admits src) : s.denies src = true := by
  unfold State.admits at h
  unfold State.denies
  simp only [not_or] at h
  rw [Bool.and_eq_true, bne_iff_ne, bne_iff_ne]
  exact h

theorem pushInsert_denies {s : State} {src : Byte} (h : s.admits src) (e : InsertEntry) :
    (s.pushInsert e).denies src = false :=
  denies_of_admits (s := s.pushInsert e) h

theorem requestOf_code (q : Request) : requestOf q.code = some q := by cases q <;> decide

/-- A request past the access check runs its own tests. -/
theorem execute_admitted (s : State) (src : Byte) (q : Request) (tag : Byte) (args : List Byte)
    (h : q.isRead = true ∨ s.denies src = false) : s.execute src (q.code :: tag :: args) = q.run args s := by
  unfold State.execute
  simp only [requestOf_code]
  rcases h with h | h <;> simp [h]

/-- A request that the access check turns away. -/
theorem execute_denied (s : State) (src : Byte) (q : Request) (tag : Byte) (args : List Byte)
    (hq : q.isRead = false) (h : s.denies src = true) :
    s.execute src (q.code :: tag :: args) = .refuse .denied s := by
  unfold State.execute
  simp [requestOf_code, hq, h]

/-- A ready part answers a refused request and does nothing else. -/
theorem exec_refused {c : Instr} {s : State} {src tag : Byte} {args : List Byte} (q : Request)
    (hc : requestSent c = some (src, q.code :: tag :: args)) (h : s.readyFor src)
    (ha : q.isRead = true ∨ s.admits src) (hl : args.length ≤ 86) (st : Status)
    (hx : q.run args (s.pushInsert .reserved) = .refuse st (s.pushInsert .reserved)) :
    exec c s = .next (s.withReply (s.replyFrame src q.code tag st.octet [])) := by
  rw [exec_request hc h.1, submit_refused h _ (by simp; omega) st]
  · rfl
  · rw [execute_admitted _ _ _ _ _ (ha.imp id (pushInsert_denies · _))]
    exact hx

/-- A ready part answers a request that changes nothing with its results. -/
theorem exec_answered {c : Instr} {s : State} {src tag : Byte} {args : List Byte} (q : Request)
    (hc : requestSent c = some (src, q.code :: tag :: args)) (h : s.readyFor src)
    (ha : q.isRead = true ∨ s.admits src) (hl : args.length ≤ 86) (st : Status) (results : List Byte)
    (hx : q.run args (s.pushInsert .reserved) =
      { status := st, results := results, state := s.pushInsert .reserved }) :
    exec c s = .next (s.withReply (s.replyFrame src q.code tag st.octet results)) := by
  rw [exec_request hc h.1, submit_answered h _ (by simp; omega) st results]
  · rfl
  · rw [execute_admitted _ _ _ _ _ (ha.imp id (pushInsert_denies · _))]
    exact hx

/-- What a ready part does with a request past the access check. -/
theorem exec_taken {c : Instr} {s : State} {src tag : Byte} {args : List Byte} (q : Request)
    (hc : requestSent c = some (src, q.code :: tag :: args)) (h : s.readyFor src)
    (ha : q.isRead = true ∨ s.admits src) (hl : args.length ≤ 86) :
    exec c s = .next ((q.run args (s.pushInsert .reserved)).placed src (q.code :: tag :: args)) := by
  rw [exec_ready hc h (by simp; omega), execute_admitted _ _ _ _ _ (ha.imp id (pushInsert_denies · _))]

/-- An index is read back from its octet. -/
theorem readIx_indexOctet {n : Nat} (hn : n ≤ 256) (r : Fin n) : readIx n (indexOctet r) = some r := by
  have h : (indexOctet r).toNat = r.val := by
    unfold indexOctet
    rw [BitVec.toNat_ofNat]
    exact Nat.mod_eq_of_lt (by have := r.isLt; omega)
  unfold readIx
  simp [h, r.isLt]

theorem readIx_none {n : Nat} {b : Byte} (h : n ≤ b.toNat) : readIx n b = none := by
  unfold readIx
  rw [dif_neg (by omega)]

end Sys2Proof.Machine
end

