-- ==== Sys2Proof/Laws/Blind.lean ====
section
/-! SUPPORT. No request but RESTART reads or writes the Receive Queue: each shared operation commutes with replacing
that queue, and so does the execution of a request (`execute_withRx`). -/

namespace Sys2Proof.Machine

/-- `s` with the Receive Queue `q`. -/
def State.withRx (q : List Frame) (s : State) : State := { s with ring := { s.ring with rxQ := q } }

theorem withRx_sameTables (q : List Frame) (s : State) : SameTables s (s.withRx q) := ⟨rfl, rfl⟩

@[simp] theorem withRx_ref (q : List Frame) (s : State) (r : RefIx) : (s.withRx q).ref r = s.ref r := rfl
@[simp] theorem withRx_shelf (q : List Frame) (s : State) (i : ShelfIx) : (s.withRx q).shelf i = s.shelf i := rfl
@[simp] theorem withRx_table (q : List Frame) (s : State) (d : Dialect) : (s.withRx q).table d = s.table d := by
  cases d <;> rfl
@[simp] theorem withRx_drive (q : List Frame) (s : State) : (s.withRx q).drive = s.drive := rfl
@[simp] theorem withRx_role (q : List Frame) (s : State) : (s.withRx q).role = s.role := rfl
@[simp] theorem withRx_globals (q : List Frame) (s : State) : (s.withRx q).globals = s.globals := rfl
@[simp] theorem withRx_engines (q : List Frame) (s : State) : (s.withRx q).engines = s.engines := rfl
@[simp] theorem withRx_alignQ (q : List Frame) (s : State) : (s.withRx q).alignQ = s.alignQ := rfl
@[simp] theorem withRx_insertRoom (q : List Frame) (s : State) : (s.withRx q).insertRoom = s.insertRoom := rfl
@[simp] theorem withRx_insertQ (q : List Frame) (s : State) : (s.withRx q).ring.insertQ = s.ring.insertQ := rfl
@[simp] theorem withRx_counters (q : List Frame) (s : State) : (s.withRx q).ring.counters = s.ring.counters := rfl
@[simp] theorem withRx_freeEngine (q : List Frame) (s : State) : (s.withRx q).freeEngine = s.freeEngine := rfl
@[simp] theorem withRx_makeFrame (q : List Frame) (s : State) (d t : Byte) (l : List Byte) :
    (s.withRx q).makeFrame d t l = s.makeFrame d t l := rfl
@[simp] theorem withRx_effRank (q : List Frame) (s : State) (r : RefIx) : (s.withRx q).effRank r = s.effRank r :=
  (withRx_sameTables q s).effRank r
@[simp] theorem withRx_eligible (q : List Frame) (s : State) (i : ShelfIx) (r : RefIx) :
    (s.withRx q).eligible i r = s.eligible i r :=
  (withRx_sameTables q s).eligible i r
@[simp] theorem withRx_commandTests (q : List Frame) (s : State) (i : ShelfIx) (c : Command) :
    (s.withRx q).commandTests i c = s.commandTests i c :=
  (withRx_sameTables q s).commandTests i c
@[simp] theorem withRx_refReport (q : List Frame) (s : State) (r : RefIx) :
    (s.withRx q).refReport r = s.refReport r :=
  (withRx_sameTables q s).refReport r
@[simp] theorem withRx_shelfReport (q : List Frame) (s : State) (i : ShelfIx) :
    (s.withRx q).shelfReport i = s.shelfReport i :=
  (withRx_sameTables q s).shelfReport (withRx_table q s) i
@[simp] theorem withRx_globalReport (q : List Frame) (s : State) : (s.withRx q).globalReport = s.globalReport := by
  unfold State.globalReport
  rw [(withRx_sameTables q s).alarm rfl]
  rfl
@[simp] theorem withRx_denies (q : List Frame) (s : State) (src : Byte) : (s.withRx q).denies src = s.denies src := rfl

@[simp] theorem withRx_report (q : List Frame) (s : State) (i : ShelfIx) : (s.withRx q).report i = s.report i := by
  have h := withRx_sameTables q s
  unfold State.report
  rw [h.outCode (withRx_table q s), h.outRank, h.squelch, withRx_shelf]
  unfold State.root
  rw [h.rootWithin]

@[simp] theorem withRx_targetOk (q : List Frame) (s : State) (i : ShelfIx) : (s.withRx q).targetOk i = s.targetOk i := by
  have h := withRx_sameTables q s
  unfold State.targetOk
  simp only [withRx_shelf, withRx_eligible, h.forcedUsable]

/-! ### Shared operations -/

@[simp] theorem setRef_withRx (q : List Frame) (s : State) (r : RefIx) (x : Reference) :
    (s.withRx q).setRef r x = (s.setRef r x).withRx q := rfl
@[simp] theorem updShelf_withRx (q : List Frame) (s : State) (i : ShelfIx) (f : Shelf → Shelf) :
    (s.withRx q).updShelf i f = (s.updShelf i f).withRx q := rfl
@[simp] theorem markWhere_withRx (q : List Frame) (s : State) (p : Shelf → Bool) :
    (s.withRx q).markWhere p = (s.markWhere p).withRx q := rfl
@[simp] theorem markShelf_withRx (q : List Frame) (s : State) (i : ShelfIx) :
    (s.withRx q).markShelf i = (s.markShelf i).withRx q := rfl
@[simp] theorem markNaming_withRx (q : List Frame) (s : State) (r : RefIx) :
    (s.withRx q).markNaming r = (s.markNaming r).withRx q := rfl
@[simp] theorem markEdgeChange_withRx (q : List Frame) (s : State) :
    (s.withRx q).markEdgeChange = s.markEdgeChange.withRx q := rfl
@[simp] theorem pushInsert_withRx (q : List Frame) (s : State) (e : InsertEntry) :
    (s.withRx q).pushInsert e = (s.pushInsert e).withRx q := rfl
@[simp] theorem loseNotice_withRx (q : List Frame) (s : State) : (s.withRx q).loseNotice = s.loseNotice.withRx q := rfl
@[simp] theorem freeEngineOf_withRx (q : List Frame) (s : State) (i : ShelfIx) :
    (s.withRx q).freeEngineOf i = (s.freeEngineOf i).withRx q := rfl
@[simp] theorem grant_withRx (q : List Frame) (s : State) (e : EngineIx) (i : ShelfIx) (rest : List ShelfIx) :
    (s.withRx q).grant e i rest = (s.grant e i rest).withRx q := rfl

@[simp] theorem grantWithin_withRx (q : List Frame) : ∀ (n : Nat) (s : State),
    (s.withRx q).grantWithin n = (s.grantWithin n).withRx q
  | 0, _ => rfl
  | n + 1, s => by
    unfold State.grantWithin
    simp only [withRx_alignQ, withRx_freeEngine, grant_withRx, grantWithin_withRx q n]
    split <;> rfl

@[simp] theorem grantFree_withRx (q : List Frame) (s : State) : (s.withRx q).grantFree = s.grantFree.withRx q :=
  grantWithin_withRx q 4 s

@[simp] theorem releaseSwitch_withRx (q : List Frame) (s : State) (i : ShelfIx) :
    (s.withRx q).releaseSwitch i = (s.releaseSwitch i).withRx q := by
  unfold State.releaseSwitch
  simp only [withRx_shelf, freeEngineOf_withRx, grantFree_withRx]
  split <;> rfl

@[simp] theorem offerSn_withRx (q : List Frame) (s : State) (i : ShelfIx) (p n : Option RefIx) (c : Cause) (h : Bool) :
    (s.withRx q).offerSn i p n c h = (s.offerSn i p n c h).withRx q := by
  unfold State.offerSn
  simp only [withRx_drive, withRx_insertRoom, withRx_makeFrame, pushInsert_withRx, loseNotice_withRx]
  split
  · rfl
  · by_cases hr : s.insertRoom = true <;> simp [hr]

@[simp] theorem offerSq_withRx (q : List Frame) (s : State) (i : ShelfIx) :
    (s.withRx q).offerSq i = (s.offerSq i).withRx q := by
  unfold State.offerSq State.offerSqOf
  simp only [withRx_drive, withRx_insertRoom, withRx_makeFrame, withRx_report, withRx_shelf, withRx_insertQ,
    pushInsert_withRx, loseNotice_withRx, updShelf_withRx]
  split
  · rfl
  · split
    · rfl
    · split <;> rfl

/-- A fold of steps that commute with the Receive Queue commutes with it. -/
theorem foldl_withRx {α : Type} (q : List Frame) (f : State → α → State)
    (hf : ∀ s a, f (s.withRx q) a = (f s a).withRx q) : ∀ (l : List α) (s : State),
    l.foldl f (s.withRx q) = (l.foldl f s).withRx q
  | [], _ => rfl
  | a :: l, s => by rw [List.foldl_cons, hf, foldl_withRx q f hf l]; rfl

@[simp] theorem fullReport_withRx (q : List Frame) (s : State) : (s.withRx q).fullReport = s.fullReport.withRx q := by
  unfold State.fullReport
  refine foldl_withRx q _ (fun t i => ?_) _ _
  simp only [withRx_shelf, offerSq_withRx]
  split <;> rfl

@[simp] theorem compareReports_withRx (q : List Frame) (s : State) :
    (s.withRx q).compareReports = s.compareReports.withRx q := by
  unfold State.compareReports
  refine foldl_withRx q _ (fun t i => ?_) _ _
  simp only [withRx_shelf, withRx_report, offerSq_withRx]
  split <;> rfl

@[simp] theorem endEvent_withRx (q : List Frame) (s0 s1 : State) :
    (s0.withRx q).endEvent (s1.withRx q) = (s0.endEvent s1).withRx q := by
  have h : reportable (s0.withRx q) (s1.withRx q) = reportable s0 s1 := by
    unfold reportable
    simp only [withRx_shelf, withRx_effRank]
  unfold State.endEvent
  rw [h, compareReports_withRx]
  split <;> rfl

@[simp] theorem abandon_withRx (q : List Frame) (s : State) (i : ShelfIx) :
    (s.withRx q).abandon i = (s.abandon i).withRx q := by
  unfold State.abandon
  simp only [withRx_shelf, releaseSwitch_withRx, updShelf_withRx]
  split <;> rfl

@[simp] theorem moveToTarget_withRx (q : List Frame) (s : State) (hard : Bool) (i : ShelfIx) :
    (s.withRx q).moveToTarget hard i = (s.moveToTarget hard i).withRx q := by
  unfold State.moveToTarget
  simp only [withRx_shelf, releaseSwitch_withRx, updShelf_withRx, offerSn_withRx]
  split <;> rfl

@[simp] theorem enterHoldover_withRx (q : List Frame) (s : State) (i : ShelfIx) (c : RefIx) (cause : Cause) :
    (s.withRx q).enterHoldover i c cause = (s.enterHoldover i c cause).withRx q := by
  unfold State.enterHoldover
  simp only [updShelf_withRx, offerSn_withRx]

@[simp] theorem loseCurrent_withRx (q : List Frame) (s : State) (i : ShelfIx) :
    (s.withRx q).loseCurrent i = (s.loseCurrent i).withRx q := by
  unfold State.loseCurrent
  simp only [withRx_shelf, enterHoldover_withRx, markShelf_withRx, moveToTarget_withRx]
  split <;> rfl

theorem settle_withRx (q : List Frame) : ∀ (n : Nat) (s0 s1 : State),
    State.settle n (s0.withRx q) (s1.withRx q) = (State.settle n s0 s1).withRx q
  | 0, _, _ => rfl
  | n + 1, s0, s1 => by
    have he : edgesDiffer (s0.withRx q) (s1.withRx q) = edgesDiffer s0 s1 := by
      unfold edgesDiffer; simp only [withRx_shelf]
    have hr : ∀ r, rankDiffers (s0.withRx q) (s1.withRx q) r = rankDiffers s0 s1 r := by
      intro r; unfold rankDiffers; simp only [withRx_effRank]
    have hn : namesChanged (s0.withRx q) (s1.withRx q) = namesChanged s0 s1 := by
      funext x; unfold namesChanged; simp only [hr]
    have hm : (if edgesDiffer s0 s1 then (s1.withRx q).markEdgeChange else s1.withRx q)
        = (if edgesDiffer s0 s1 then s1.markEdgeChange else s1).withRx q := by
      split <;> rfl
    unfold State.settle
    dsimp only
    rw [he, hn, hm, markWhere_withRx]
    refine foldl_withRx q _ (fun t i => ?_) _ _
    simp only [withRx_shelf, withRx_targetOk, hr, abandon_withRx, settle_withRx q n]
    split <;> rfl

@[simp] theorem follow_withRx (q : List Frame) (s0 s1 : State) :
    (s0.withRx q).follow (s1.withRx q) = (s0.follow s1).withRx q :=
  settle_withRx q 25 s0 s1

@[simp] theorem takePart_withRx (q : List Frame) (r : RefIx) (s : State) (i : ShelfIx) :
    State.takePart r (s.withRx q) i = (State.takePart r s i).withRx q := by
  unfold State.takePart
  simp only [withRx_shelf, withRx_ref, withRx_targetOk, loseCurrent_withRx, abandon_withRx, follow_withRx]
  split
  · rfl
  · split <;> rfl

@[simp] theorem deliverState_withRx (q : List Frame) (s0 s1 : State) (r : RefIx) :
    (s0.withRx q).deliverState (s1.withRx q) r = (s0.deliverState s1 r).withRx q := by
  unfold State.deliverState
  rw [markNaming_withRx, foldl_withRx q _ (takePart_withRx q r), follow_withRx]

@[simp] theorem putRef_withRx (q : List Frame) (s : State) (r : RefIx) (x : Reference) :
    (s.withRx q).putRef r x = (s.putRef r x).withRx q := by
  unfold State.putRef
  simp only [withRx_ref, setRef_withRx, follow_withRx, deliverState_withRx]
  split <;> exact endEvent_withRx q _ _

/-! ### Requests -/

/-- An answer with the Receive Queue `q` in its state. -/
def Answer.withRx (q : List Frame) (a : Answer) : Answer := { a with state := a.state.withRx q }

theorem refuse_withRx (q : List Frame) (st : Status) (s : State) :
    Answer.refuse st (s.withRx q) = (Answer.refuse st s).withRx q := rfl

theorem ok_withRx (q : List Frame) (s : State) : Answer.ok (s.withRx q) = (Answer.ok s).withRx q := rfl

theorem give_withRx (q : List Frame) (l : List Byte) (s : State) :
    Answer.give l (s.withRx q) = (Answer.give l s).withRx q := rfl

theorem writeShelf_withRx (q : List Frame) (s : State) (i : ShelfIx) (cfg : ShelfConfig) :
    (s.withRx q).writeShelf i cfg = (s.writeShelf i cfg).withRx q := by
  have hm : ∀ (c : Bool) (t : State), (if c then (t.withRx q).markShelf i else t.withRx q)
      = (if c then t.markShelf i else t).withRx q := by
    intro c t; cases c <;> rfl
  unfold State.writeShelf
  dsimp only
  rw [updShelf_withRx, withRx_shelf, hm, follow_withRx, compareReports_withRx]

theorem candTarget_withRx (q : List Frame) (s : State) (i : ShelfIx) :
    (s.withRx q).candTarget i = (s.candTarget i).withRx q := by
  unfold State.candTarget
  simp only [withRx_shelf, abandon_withRx, follow_withRx]
  split
  · split <;> rfl
  · rfl

theorem candCurrent_withRx (q : List Frame) (s : State) (i : ShelfIx) :
    (s.withRx q).candCurrent i = (s.candCurrent i).withRx q := by
  unfold State.candCurrent
  simp only [withRx_shelf, loseCurrent_withRx, follow_withRx]
  split
  · split <;> rfl
  · rfl

theorem writeList_withRx (q : List Frame) (s : State) (i : ShelfIx) (l : List Candidate) :
    (s.withRx q).writeList i l = (s.writeList i l).withRx q := by
  unfold State.writeList
  simp only [updShelf_withRx, candTarget_withRx, candCurrent_withRx, markShelf_withRx, endEvent_withRx]

theorem enableShelf_withRx (q : List Frame) (s : State) (i : ShelfIx) :
    (s.withRx q).enableShelf i = (s.enableShelf i).withRx q := by
  unfold State.enableShelf
  simp only [updShelf_withRx, follow_withRx, endEvent_withRx]

theorem closeShelf_withRx (q : List Frame) (s : State) (i : ShelfIx) :
    (s.withRx q).closeShelf i = (s.closeShelf i).withRx q := by
  unfold State.closeShelf
  simp only [withRx_shelf, offerSn_withRx]
  split <;> simp only [releaseSwitch_withRx, updShelf_withRx]

theorem disableShelf_withRx (q : List Frame) (s : State) (i : ShelfIx) :
    (s.withRx q).disableShelf i = (s.disableShelf i).withRx q := by
  unfold State.disableShelf
  simp only [closeShelf_withRx, follow_withRx, offerSq_withRx, endEvent_withRx]

theorem changeLockout_withRx (q : List Frame) (s : State) (i : ShelfIx) (r : RefIx) (on : Bool) :
    (s.withRx q).changeLockout i r on = (s.changeLockout i r on).withRx q := by
  unfold State.changeLockout
  simp only [updShelf_withRx, withRx_shelf, abandon_withRx, follow_withRx]
  split <;> simp only [markShelf_withRx, endEvent_withRx]

/-- The requests but RESTART execute as if the Receive Queue held something else. -/
theorem run_withRx (q : List Frame) (k : Request) (hk : k ≠ .restart) (args : List Byte) (s : State) :
    k.run args (s.withRx q) = (k.run args s).withRx q := by
  cases k <;> simp only [Request.run]
  case restart => exact absurd rfl hk
  case rdRef =>
    unfold reqRdRef
    simp only [withRx_refReport]
    (repeat' split) <;> rfl
  case rdShelf =>
    unfold reqRdShelf
    simp only [withRx_shelfReport]
    (repeat' split) <;> rfl
  case rdXlate =>
    unfold reqRdXlate
    simp only [withRx_table]
    (repeat' split) <;> rfl
  case rdGlobal =>
    unfold reqRdGlobal
    simp only [withRx_globalReport]
    (repeat' split) <;> rfl
  case rdCount =>
    unfold reqRdCount
    simp only [withRx_counters]
    (repeat' split) <;> rfl
  case wrRef =>
    unfold reqWrRef
    simp only [withRx_ref, putRef_withRx, refuse_withRx]
    (repeat' split) <;> simp [Answer.withRx]
  case wrShelf =>
    unfold reqWrShelf
    simp only [writeShelf_withRx, refuse_withRx, ok_withRx]
    (repeat' split) <;> simp
  case wrCand =>
    unfold reqWrCand
    simp only [writeList_withRx, refuse_withRx, ok_withRx]
    (repeat' split) <;> simp
  case wrXlate =>
    have hs : ∀ d t, ((s.withRx q).setTable d t).compareReports = ((s.setTable d t).compareReports).withRx q := by
      intro d t
      rw [← compareReports_withRx]
      cases d <;> rfl
    unfold reqWrXlate
    simp only [hs, refuse_withRx, ok_withRx]
    (repeat' split) <;> simp
  case wrGlobal =>
    unfold reqWrGlobal
    (repeat' split) <;> rfl
  case refOn =>
    unfold reqRefOn
    simp only [withRx_ref, withRx_globals, putRef_withRx]
    (repeat' split) <;> rfl
  case refOff =>
    unfold reqRefOff
    simp only [withRx_ref, putRef_withRx]
    (repeat' split) <;> rfl
  case shelfOn =>
    unfold reqShelfOn
    simp only [withRx_shelf, enableShelf_withRx]
    (repeat' split) <;> rfl
  case shelfOff =>
    unfold reqShelfOff
    simp only [withRx_shelf, disableShelf_withRx]
    (repeat' split) <;> rfl
  case cmd =>
    unfold reqCmd State.setCommand
    simp only [withRx_shelf, withRx_commandTests, updShelf_withRx, refuse_withRx, ok_withRx]
    (repeat' split) <;> simp_all
  case lock =>
    unfold reqLock
    simp only [withRx_shelf, changeLockout_withRx]
    (repeat' split) <;> rfl
  case clrWtr =>
    unfold reqClrWtr
    simp only [withRx_ref, putRef_withRx]
    (repeat' split) <;> rfl
  case ack =>
    unfold reqAck
    (repeat' split) <;> rfl
  case clrCount =>
    unfold reqClrCount
    (repeat' split) <;> rfl
  case takeRole =>
    have hf : State.fullReport { s.withRx q with drive := .driving } =
        (State.fullReport { s with drive := .driving }).withRx q :=
      fullReport_withRx q { s with drive := .driving }
    unfold reqTakeRole
    split
    · by_cases hr : s.role = true
      · have hr' : (s.withRx q).role = true := hr
        rw [if_pos hr, if_pos hr']
        cases hd : s.drive
        · simp only [withRx_drive, hd]; rfl
        · simp only [withRx_drive, hd]; rw [hf]; exact ok_withRx q _
      · have hr' : ¬(s.withRx q).role = true := hr
        rw [if_neg hr, if_neg hr']; rfl
    · rfl
  case yieldRole =>
    unfold reqYieldRole State.enterFloating
    simp only [withRx_drive]
    (repeat' split) <;> rfl

/-- The execution of a request that is no taken RESTART goes as if the Receive Queue held something else. -/
theorem execute_withRx (q : List Frame) (s : State) (src : Byte) (payload : List Byte)
    (h : (∀ tag, payload ≠ [0x41, tag]) ∨ s.denies src = true) :
    (s.withRx q).execute src payload = (s.execute src payload).withRx q := by
  unfold State.execute
  match payload with
  | [] => rfl
  | [_] => rfl
  | code :: tag :: args =>
    dsimp only
    cases hc : requestOf code with
    | none => rfl
    | some k =>
      dsimp only
      rw [withRx_denies]
      by_cases hd : (!k.isRead && s.denies src) = true
      · rw [if_pos hd, if_pos hd]; rfl
      · rw [if_neg hd, if_neg hd]
        by_cases hk : k = .restart
        · subst hk
          have hcode : code = 0x41 := by
            have h41 : (0x41 : Byte) = code := by simpa [Request.code] using List.find?_some hc
            exact h41.symm
          rcases h with h | h
          · match args with
            | [] => exact absurd (by rw [hcode]) (h tag)
            | _ :: _ => rfl
          · exact absurd (by rw [h]; rfl) hd
        · exact run_withRx q k hk args s

/-- A taken RESTART empties the Receive Queue, whatever it held: R40, R177. -/
theorem restart_withRx (q : List Frame) (s : State) : (s.withRx q).warmRestart = s.warmRestart := by
  have h : (s.withRx q).updRing Ring.restarted = s.updRing Ring.restarted := rfl
  unfold State.warmRestart
  rw [h]

/-- A warm restart leaves the Receive Queue empty. -/
theorem warmRestart_rxQ (s : State) : s.warmRestart.ring.rxQ = [] := by
  have h := fullReport_kept (((s.updRing Ring.restarted).mapRefs Reference.restarted).mapShelves fun _ x => x.restarted)
  obtain ⟨n, hn⟩ := h.ring
  unfold State.warmRestart
  rw [hn, mapShelves_ring, mapRefs_ring]
  rfl

theorem placed_rxQ (a : Answer) (src : Byte) (payload : List Byte) :
    (a.placed src payload).ring.rxQ = a.state.ring.rxQ := rfl

/-- The reply of a request does not touch the Receive Queue. -/
theorem placed_withRx (q : List Frame) (a : Answer) (src : Byte) (payload : List Byte) :
    (a.withRx q).placed src payload = (a.placed src payload).withRx q := rfl

/-- The take of a REQ with the frames `rest` behind it. -/
theorem takeRequest_eq {s : State} {f : Frame} {rest : List Frame} (h : s.ring.rxQ = f :: rest) :
    s.takeRequest f =
      (((s.withRx rest).pushInsert .reserved).execute f.src f.payload).placed f.src f.payload := by
  have e : (s.updRing fun g => { g with rxQ := g.rxQ.tail }) = s.withRx rest := by
    have ht : s.ring.rxQ.tail = rest := by rw [h]; rfl
    unfold State.updRing State.withRx
    dsimp only
    rw [ht]
  unfold State.takeRequest
  rw [e]
  rfl

end Sys2Proof.Machine
end

