-- ==== Sys2Proof/Laws/Switch.lean ====
section
/-! SUPPORT. What each ending and entry does to its own shelf, what it places in the Insert Queue, and the loss of a
LOCKED shelf's current reference within one event. -/

namespace Sys2Proof.Machine

/-- A mark on an enabled shelf that is not switching leaves it SETTLING. -/
theorem mark_settling {x : Shelf} (he : x.enabled = true) (hs : x.switching = false) :
    ∃ n, x.mark.sel = .settling n := by
  unfold Shelf.mark
  simp only [he, if_true, hs]
  cases h : x.sel with
  | clean => exact ⟨_, rfl⟩
  | settling n => exact ⟨n, h⟩
  | deferred => exact ⟨_, rfl⟩

theorem markShelf_shelf_self (s : State) (i : ShelfIx) : (s.markShelf i).shelf i = (s.shelf i).mark := by
  rw [markShelf_shelf]; simp

theorem enterHoldover_shelf_self (s : State) (i : ShelfIx) (c : RefIx) (cause : Cause) :
    (s.enterHoldover i c cause).shelf i = { s.shelf i with
      route := none, state := (s.shelf i).cfg.holdoverEntry, curEdge := none
      latches := { (s.shelf i).latches with holdover := true } } := by
  unfold State.enterHoldover
  rw [updShelf_shelf_self, offerSn_shelf, updShelf_shelf_self]

theorem holdoverEntry_cls (c : ShelfConfig) : c.holdoverEntry.cls = .holdover := by
  unfold ShelfConfig.holdoverEntry
  split
  · rfl
  · split <;> rfl

theorem directLock_shelf_self (s : State) (i : ShelfIx) (r : RefIx) :
    (s.directLock i r).shelf i = { s.shelf i with
      curEdge := (s.ref r).sourceShelf, route := some r, state := .locked r } := by
  unfold State.directLock
  rw [offerSn_shelf, updShelf_shelf_self]

/-- Grants change the state of a shelf alone. -/
theorem grantWithin_shelf_state (i : ShelfIx) : ∀ (n : Nat) (s : State),
    ∃ st, (s.grantWithin n).shelf i = { s.shelf i with state := st }
  | 0, _ => ⟨_, rfl⟩
  | n + 1, s => by
    unfold State.grantWithin
    split
    · rename_i j rest e _ _
      obtain ⟨st, hst⟩ := grantWithin_shelf_state i n (s.grant e j rest)
      rw [hst, grant_shelf]
      split
      · rename_i he; subst he; exact ⟨st, rfl⟩
      · exact ⟨st, rfl⟩
    · exact ⟨_, rfl⟩

theorem releaseSwitch_shelf_state (s : State) (i j : ShelfIx) :
    ∃ st, (s.releaseSwitch j).shelf i = { s.shelf i with state := st } := by
  unfold State.releaseSwitch
  split
  · exact ⟨_, rfl⟩
  · obtain ⟨st, h⟩ := grantWithin_shelf_state i 4 (s.freeEngineOf j)
    exact ⟨st, by unfold State.grantFree; rw [h]; rfl⟩
  all_goals exact ⟨_, rfl⟩

/-- An abandonment, for the shelf itself. -/
theorem abandon_shelf_self (s : State) (i : ShelfIx) {c t : RefIx} (hc : (s.shelf i).state.current = some c)
    (ht : (s.shelf i).state.target = some t) :
    ∃ n, (s.abandon i).shelf i = { s.shelf i with
      state := .locked c, pendEdge := none, sel := .settling n
      latches := { (s.shelf i).latches with abandon := true } } := by
  obtain ⟨st, h⟩ := releaseSwitch_shelf_state s i i
  unfold State.abandon
  simp only [hc, ht]
  rw [updShelf_shelf_self, h, mark_eq]
  obtain ⟨n, hn⟩ := mark_settling (x := { s.shelf i with
    state := .locked c, pendEdge := none, latches := { (s.shelf i).latches with abandon := true } }) rfl rfl
  exact ⟨n, by rw [hn]⟩

/-- The end of a switch on its target leaves the shelf SETTLING. -/
theorem moveToTarget_sel (s : State) (hard : Bool) (i : ShelfIx) {c t : RefIx}
    (hc : (s.shelf i).state.current = some c) (ht : (s.shelf i).state.target = some t) :
    ∃ n, ((s.moveToTarget hard i).shelf i).sel = .settling n := by
  unfold State.moveToTarget
  simp only [hc, ht]
  rw [updShelf_shelf_self, offerSn_shelf, updShelf_shelf_self]
  exact mark_settling rfl rfl

/-- A Selection Notice offered while DRIVING with room stands at the tail. -/
theorem offerSn_insertQ (s : State) (i : ShelfIx) (p n : Option RefIx) (c : Cause) (h : Bool)
    (hd : s.drive = .driving) (hr : s.ring.insertQ.length < 32) :
    (s.offerSn i p n c h).ring.insertQ =
      s.ring.insertQ ++ [.sn (s.makeFrame Byte.all typeSN (snPayload i p n c h))] := by
  unfold State.offerSn State.insertRoom
  simp [hd, hr, Config.insertCapacity, State.pushInsert, State.updRing]

/-- An entry that is no SQ keeps its place and content. -/
theorem QueueGrows.sn {q q' : List InsertEntry} (h : QueueGrows q q') {k : Nat} {f : Frame} (hk : q[k]? = some (.sn f)) :
    q'[k]? = some (.sn f) := by
  obtain ⟨e', he', hs⟩ := h k _ hk
  rcases hs with rfl | ⟨_, _, _, hs, _⟩
  · exact he'
  · cases hs

/-- The loss of a reference that shelf `i` is LOCKED on, for the shelf itself. -/
theorem loseCurrent_shelf_locked (s : State) (i : ShelfIx) {r : RefIx} (h : (s.shelf i).state = .locked r) :
    ∃ n, (s.loseCurrent i).shelf i = { s.shelf i with
      route := none, state := (s.shelf i).cfg.holdoverEntry, curEdge := none, sel := .settling n
      latches := { (s.shelf i).latches with holdover := true } } := by
  unfold State.loseCurrent
  simp only [h]
  rw [markShelf_shelf_self, enterHoldover_shelf_self, mark_eq]
  have hcls := holdoverEntry_cls (s.shelf i).cfg
  obtain ⟨n, hn⟩ := mark_settling (x := { s.shelf i with
    route := none, state := (s.shelf i).cfg.holdoverEntry, curEdge := none
    latches := { (s.shelf i).latches with holdover := true } })
    (by simp [Shelf.enabled, hcls]) (by simp [Shelf.switching, hcls])
  exact ⟨n, by rw [hn]⟩

/-! ### A running settle timer -/

/-- A shelf's settle timer that runs in `s` runs with the same time in `t`. -/
def KeepsTimer (i : ShelfIx) (s t : State) : Prop :=
  ∀ n, (s.shelf i).sel = .settling n → (t.shelf i).sel = .settling n

theorem KeepsTimer.trans {i : ShelfIx} {s t u : State} (h : KeepsTimer i s t) (h' : KeepsTimer i t u) :
    KeepsTimer i s u := fun n hn => h' n (h n hn)

theorem KeepsTimer.of_eq {i : ShelfIx} {s t : State} (h : t.shelf i = s.shelf i) : KeepsTimer i s t :=
  fun n hn => by rw [h]; exact hn

theorem mark_keepsTimer {x : Shelf} {n : Nat} (h : x.sel = .settling n) : x.mark.sel = .settling n := by
  unfold Shelf.mark
  rw [h]
  split <;> exact h

theorem markWhere_keepsTimer (i : ShelfIx) (s : State) (p : Shelf → Bool) : KeepsTimer i s (s.markWhere p) := by
  intro n hn
  rw [markWhere_shelf]
  split
  · exact mark_keepsTimer hn
  · exact hn

theorem markShelf_keepsTimer (i j : ShelfIx) (s : State) : KeepsTimer i s (s.markShelf j) := by
  intro n hn
  rw [markShelf_shelf]
  split
  · rename_i h; subst h; exact mark_keepsTimer hn
  · exact hn

theorem offerSqOf_keepsTimer (i j : ShelfIx) (s : State) (c : Report) : KeepsTimer i s (s.offerSqOf j c) := by
  intro n hn
  unfold State.offerSqOf
  split
  · exact hn
  · dsimp only
    split
    · rw [updShelf_shelf]; split
      · rename_i h; subst h; exact hn
      · exact hn
    · split
      · rw [updShelf_shelf]; split
        · rename_i h; subst h; exact hn
        · exact hn
      · exact hn

theorem endEvent_keepsTimer (i : ShelfIx) (s0 s1 : State) : KeepsTimer i s1 (s0.endEvent s1) :=
  endEvent_induct (fun t j h => h.trans (offerSqOf_keepsTimer i j t _)) s0 s1 (KeepsTimer.of_eq rfl)

/-- What an action sets off, at a shelf that is not switching. -/
theorem follow_calm (i : ShelfIx) (s0 s1 : State) (h : (s1.shelf i).switching = false) :
    SameBut i s1 (s0.follow s1) ∧ KeepsTimer i s1 (s0.follow s1) := by
  refine follow_induct (P := fun t => SameBut i s1 t ∧ KeepsTimer i s1 t) ?_ ?_ s0 s1
    ⟨SameBut.refl i s1, KeepsTimer.of_eq rfl⟩
  · intro t p ht
    exact ⟨ht.1.trans (markWhere_sameBut i t p), ht.2.trans (markWhere_keepsTimer i t p)⟩
  · intro t j ht _
    have e := abandon_shelf t i j (by rw [ht.1.switching]; exact h)
    exact ⟨ht.1.trans (SameBut.of_eq e), ht.2.trans (KeepsTimer.of_eq e)⟩

theorem loseCurrent_keepsTimer_of_ne (s : State) {i j : ShelfIx} (hij : i ≠ j) (h : (s.shelf i).switching = false) :
    KeepsTimer i s (s.loseCurrent j) := by
  unfold State.loseCurrent
  split
  · refine KeepsTimer.trans (KeepsTimer.of_eq ?_) (markShelf_keepsTimer i j _)
    unfold State.enterHoldover
    rw [updShelf_shelf_of_ne _ hij, offerSn_shelf, updShelf_shelf_of_ne _ hij]
  iterate 2
    refine KeepsTimer.of_eq ?_
    unfold State.moveToTarget
    split
    · rw [updShelf_shelf_of_ne _ hij, offerSn_shelf, updShelf_shelf_of_ne _ hij, releaseSwitch_shelf s i j h]
    · rfl
  all_goals exact KeepsTimer.of_eq rfl

/-- Another shelf's part in a state change, at a shelf that is not switching. -/
theorem takePart_calm_of_ne (r : RefIx) (s : State) {i j : ShelfIx} (hij : i ≠ j)
    (h : (s.shelf i).switching = false) :
    SameBut i s (State.takePart r s j) ∧ KeepsTimer i s (State.takePart r s j) := by
  refine ⟨takePart_sameBut_of_ne r s hij h, ?_⟩
  unfold State.takePart
  split
  · have hl := loseCurrent_shelf_of_ne s hij h
    exact (loseCurrent_keepsTimer_of_ne s hij h).trans (follow_calm i _ _ (by rw [hl.switching]; exact h)).2
  · split
    · have e := abandon_shelf s i j h
      exact (KeepsTimer.of_eq e).trans (follow_calm i _ _ (by rw [e]; exact h)).2
    · exact KeepsTimer.of_eq rfl

/-- The parts of other shelves in a state change, at a shelf that is not switching. -/
theorem foldl_takePart_calm (r : RefIx) (i : ShelfIx) : ∀ (l : List ShelfIx) (s : State), i ∉ l →
    (s.shelf i).switching = false →
    SameBut i s (l.foldl (State.takePart r) s) ∧ KeepsTimer i s (l.foldl (State.takePart r) s)
  | [], s, _, _ => ⟨SameBut.refl i s, KeepsTimer.of_eq rfl⟩
  | j :: l, s, hi, hs => by
    have hij : i ≠ j := fun h => hi (h ▸ List.mem_cons_self)
    have h1 := takePart_calm_of_ne r s hij hs
    have h2 := foldl_takePart_calm r i l (State.takePart r s j) (fun h => hi (List.mem_cons_of_mem _ h))
      (by rw [h1.1.switching]; exact hs)
    exact ⟨h1.1.trans h2.1, h1.2.trans h2.2⟩

/-! ### The loss of a reference -/

/-- Shelf `i` of `t` is what the loss of its current reference makes of shelf `i` of `s`. -/
def LostAt (i : ShelfIx) (s t : State) : Prop :=
  ∃ n l, t.shelf i = { s.shelf i with
    route := none, state := (s.shelf i).cfg.holdoverEntry, curEdge := none, sel := .settling n, lastReport := l
    latches := { (s.shelf i).latches with holdover := true } }

theorem LostAt.switching {i : ShelfIx} {s t : State} (h : LostAt i s t) : (t.shelf i).switching = false := by
  obtain ⟨n, l, h⟩ := h
  rw [h]
  simp [Shelf.switching, holdoverEntry_cls]

theorem LostAt.calm {i : ShelfIx} {s t u : State} (h : LostAt i s t) (h1 : SameBut i t u) (h2 : KeepsTimer i t u) :
    LostAt i s u := by
  obtain ⟨n, l, h⟩ := h
  obtain ⟨v, l', h1⟩ := h1
  have hv := h2 n (by rw [h])
  rw [h1] at hv
  exact ⟨n, l', by rw [h1, h]; simp_all⟩

theorem LostAt.of_sameBut {i : ShelfIx} {s t u : State} (h : SameBut i s t) (h' : LostAt i t u) : LostAt i s u := by
  obtain ⟨v, l, h⟩ := h
  obtain ⟨n, l', h'⟩ := h'
  exact ⟨n, l', by rw [h', h]⟩

theorem takePart_kept_ref (r : RefIx) (l : List ShelfIx) (s : State) (q : RefIx) :
    (l.foldl (State.takePart r) s).ref q = s.ref q := by
  induction l generalizing s with
  | nil => rfl
  | cons j l ih => rw [List.foldl_cons, ih, (takePart_kept r s j).ref]

/-- The part in a state change of a shelf LOCKED on a reference that is FAILED or DISABLED. -/
theorem takePart_locked (r : RefIx) (s : State) (i : ShelfIx) (hi : (s.shelf i).state = .locked r)
    (hr : (s.ref r).rt.state = .failed ∨ (s.ref r).rt.state = .disabled) : LostAt i s (State.takePart r s i) := by
  obtain ⟨n, hn⟩ := loseCurrent_shelf_locked s i hi
  have hlost : LostAt i s (s.loseCurrent i) := ⟨n, _, hn⟩
  have hc := follow_calm i s (s.loseCurrent i) hlost.switching
  have hcur : (s.shelf i).state.current = some r := by rw [hi]; rfl
  unfold State.takePart
  rw [if_pos ⟨hcur, hr⟩]
  exact hlost.calm hc.1 hc.2

/-- A shelf LOCKED on a reference that has become FAILED or DISABLED loses it in the same event. -/
theorem deliverState_locked (s0 s1 : State) (r : RefIx) (i : ShelfIx) (hi : (s1.shelf i).state = .locked r)
    (hr : (s1.ref r).rt.state = .failed ∨ (s1.ref r).rt.state = .disabled) :
    LostAt i s1 (s0.deliverState s1 r) := by
  have hsplit : ∃ a b, shelfIxs = a ++ i :: b ∧ i ∉ a ∧ i ∉ b := by
    have hm : i ∈ shelfIxs := List.mem_finRange i
    obtain ⟨a, b, hab⟩ := List.append_of_mem hm
    have hn : shelfIxs.Nodup := List.nodup_finRange 24
    rw [hab, List.nodup_append] at hn
    refine ⟨a, b, hab, ?_, ?_⟩
    · intro ha; exact hn.2.2 i ha i List.mem_cons_self rfl
    · exact (List.nodup_cons.mp hn.2.1).1
  obtain ⟨a, b, hab, ha, hb⟩ := hsplit
  have hsw : ∀ {t : State}, (t.shelf i).state = .locked r → (t.shelf i).switching = false := by
    intro t ht; simp [Shelf.switching, ht, ShelfState.cls]
  have m1 : SameBut i s1 (s1.markNaming r) := markWhere_sameBut i s1 _
  have hl1 : ((s1.markNaming r).shelf i).state = .locked r := by rw [m1.state]; exact hi
  have f1 := (foldl_takePart_calm r i a (s1.markNaming r) ha (hsw hl1)).1
  have hl2 : ((a.foldl (State.takePart r) (s1.markNaming r)).shelf i).state = .locked r := by rw [f1.state]; exact hl1
  have hr2 : ((a.foldl (State.takePart r) (s1.markNaming r)).ref r) = s1.ref r := by
    rw [takePart_kept_ref]; exact markWhere_ref _ _ _
  have l1 : LostAt i (a.foldl (State.takePart r) (s1.markNaming r))
      (State.takePart r (a.foldl (State.takePart r) (s1.markNaming r)) i) :=
    takePart_locked r _ i hl2 (by rw [hr2]; exact hr)
  have f2 := foldl_takePart_calm r i b _ hb l1.switching
  have l2 := l1.calm f2.1 f2.2
  have f3 := follow_calm i s0 _ l2.switching
  have l3 := l2.calm f3.1 f3.2
  unfold State.deliverState
  rw [hab, List.foldl_append, List.foldl_cons]
  exact LostAt.of_sameBut (m1.trans f1) l3

/-- A shelf LOCKED on a reference that the event takes to FAILED or DISABLED. -/
theorem putRef_locked (s : State) (r : RefIx) (x : Reference) (i : ShelfIx) (hi : (s.shelf i).state = .locked r)
    (hx : x.rt.state ≠ (s.ref r).rt.state) (hr : x.rt.state = .failed ∨ x.rt.state = .disabled) :
    LostAt i s (s.putRef r x) := by
  have h : LostAt i (s.setRef r x) (s.deliverState (s.setRef r x) r) :=
    deliverState_locked s (s.setRef r x) r i (by simpa using hi) (by simpa using hr)
  have h' := h.calm (endEvent_sameBut i s _) (endEvent_keepsTimer i s _)
  unfold State.putRef
  simp only [hx, if_false]
  exact LostAt.of_sameBut (SameBut.of_eq (setRef_shelf s r x i)) h'

end Sys2Proof.Machine
end

