-- ==== Sys2Proof/Laws/Dirty.lean ====
section
/-! SUPPORT. A dirty shelf stays dirty through every operation of an event but its own decision, so the marks of a
changed reference stand at the event's end. -/

namespace Sys2Proof.Machine

/-- A mark never makes a shelf clean. -/
theorem mark_dirty {x : Shelf} (h : x.sel ≠ .clean) : x.mark.sel ≠ .clean := by
  unfold Shelf.mark
  split
  · split
    · exact absurd ‹_› h
    · exact h
    · split
      · exact h
      · exact fun hc => by cases hc
  · exact h

/-- A mark makes an enabled shelf dirty. -/
theorem mark_enabled_dirty {x : Shelf} (h : x.enabled = true) : x.mark.sel ≠ .clean := by
  by_cases hs : x.sel = .clean
  · unfold Shelf.mark
    rw [if_pos h, hs]
    exact fun hc => by cases hc
  · exact mark_dirty hs

/-- Shelf `i` is dirty. -/
def DirtyAt (i : ShelfIx) (s : State) : Prop := (s.shelf i).sel ≠ .clean

theorem DirtyAt.of_sel {i : ShelfIx} {s t : State} (h : DirtyAt i s) (e : (t.shelf i).sel = (s.shelf i).sel) :
    DirtyAt i t := by
  unfold DirtyAt; rw [e]; exact h

theorem markWhere_dirty (i : ShelfIx) (s : State) (p : Shelf → Bool) (h : DirtyAt i s) : DirtyAt i (s.markWhere p) := by
  unfold DirtyAt
  rw [markWhere_shelf]
  split
  · exact mark_dirty h
  · exact h

/-- A shelf that the marks reach is dirty after them. -/
theorem markWhere_hits (i : ShelfIx) (s : State) (p : Shelf → Bool) (he : (s.shelf i).enabled = true)
    (hp : p (s.shelf i) = true) : DirtyAt i (s.markWhere p) := by
  unfold DirtyAt
  rw [markWhere_shelf, if_pos hp]
  exact mark_enabled_dirty he

theorem markShelf_dirty (i j : ShelfIx) (s : State) (h : DirtyAt i s) : DirtyAt i (s.markShelf j) := by
  unfold DirtyAt
  rw [markShelf_shelf]
  split
  · rename_i e; subst e; exact mark_dirty h
  · exact h

theorem updShelf_dirty (i j : ShelfIx) (s : State) (f : Shelf → Shelf) (hf : ∀ x, x.sel ≠ .clean → (f x).sel ≠ .clean)
    (h : DirtyAt i s) : DirtyAt i (s.updShelf j f) := by
  unfold DirtyAt
  rw [updShelf_shelf]
  split
  · rename_i e; subst e; exact hf _ h
  · exact h

theorem releaseSwitch_dirty (i j : ShelfIx) (s : State) (h : DirtyAt i s) : DirtyAt i (s.releaseSwitch j) := by
  obtain ⟨st, e⟩ := releaseSwitch_shelf_state s i j
  exact h.of_sel (by rw [e])

theorem offerSn_dirty (i j : ShelfIx) (s : State) (p n : Option RefIx) (c : Cause) (b : Bool) (h : DirtyAt i s) :
    DirtyAt i (s.offerSn j p n c b) :=
  h.of_sel (by rw [offerSn_shelf])

theorem offerSq_dirty (i j : ShelfIx) (s : State) (h : DirtyAt i s) : DirtyAt i (s.offerSq j) := by
  unfold State.offerSq State.offerSqOf
  split
  · exact h
  · dsimp only
    split
    · exact updShelf_dirty i j _ _ (fun _ hx => hx) h
    · split
      · exact updShelf_dirty i j _ _ (fun _ hx => hx) h
      · exact h

theorem abandon_dirty (i j : ShelfIx) (s : State) (h : DirtyAt i s) : DirtyAt i (s.abandon j) := by
  unfold State.abandon
  split
  · exact updShelf_dirty i j _ _ (fun _ hx => mark_dirty hx) (releaseSwitch_dirty i j s h)
  · exact h

theorem moveToTarget_dirty (i j : ShelfIx) (s : State) (hard : Bool) (h : DirtyAt i s) :
    DirtyAt i (s.moveToTarget hard j) := by
  unfold State.moveToTarget
  split
  · refine updShelf_dirty i j _ _ (fun _ hx => mark_dirty hx) (offerSn_dirty i j _ _ _ _ _ ?_)
    exact updShelf_dirty i j _ _ (fun _ hx => hx) (releaseSwitch_dirty i j s h)
  · exact h

theorem enterHoldover_dirty (i j : ShelfIx) (s : State) (c : RefIx) (cause : Cause) (h : DirtyAt i s) :
    DirtyAt i (s.enterHoldover j c cause) :=
  updShelf_dirty i j _ _ (fun _ hx => hx)
    (offerSn_dirty i j _ _ _ _ _ (updShelf_dirty i j s _ (fun _ hx => hx) h))

theorem loseCurrent_dirty (i j : ShelfIx) (s : State) (h : DirtyAt i s) : DirtyAt i (s.loseCurrent j) := by
  unfold State.loseCurrent
  split
  · exact markShelf_dirty i j _ (enterHoldover_dirty i j s _ _ h)
  · exact moveToTarget_dirty i j s true h
  · exact moveToTarget_dirty i j s true h
  all_goals exact h

theorem follow_dirty (i : ShelfIx) (s0 s1 : State) (h : DirtyAt i s1) : DirtyAt i (s0.follow s1) :=
  follow_induct (fun t p => markWhere_dirty i t p) (fun t j h _ => abandon_dirty i j t h) s0 s1 h

theorem takePart_dirty (i : ShelfIx) (r : RefIx) (s : State) (j : ShelfIx) (h : DirtyAt i s) :
    DirtyAt i (State.takePart r s j) :=
  takePart_induct (fun t p => markWhere_dirty i t p) (fun t j h _ => abandon_dirty i j t h)
    (fun t j _ h _ _ => loseCurrent_dirty i j t h) r s j h

theorem endEvent_dirty (i : ShelfIx) (s0 s1 : State) (h : DirtyAt i s1) : DirtyAt i (s0.endEvent s1) :=
  endEvent_induct (fun t j => offerSq_dirty i j t) s0 s1 h

/-- What an action sets off marks every enabled shelf whose list names a reference of changed rank: R58. -/
theorem follow_marks (i : ShelfIx) (s0 s1 : State) (q : RefIx) (he : (s1.shelf i).enabled = true)
    (hq : (s1.shelf i).names q = true) (hr : s1.effRank q ≠ s0.effRank q) : DirtyAt i (s0.follow s1) := by
  have hn : ∀ x : Shelf, x.names q = true → namesChanged s0 s1 x = true := by
    intro x hx
    unfold Shelf.names at hx
    unfold namesChanged
    rw [List.any_eq_true] at hx ⊢
    obtain ⟨c, hc, hcq⟩ := hx
    refine ⟨c, hc, ?_⟩
    obtain rfl : c.ref = q := by simpa using hcq
    unfold rankDiffers
    simpa using fun h => hr h.symm
  unfold State.follow State.settle
  dsimp only
  have hm : DirtyAt i ((if edgesDiffer s0 s1 then s1.markEdgeChange else s1).markWhere (namesChanged s0 s1)) := by
    have hk : SameBut i s1 (if edgesDiffer s0 s1 then s1.markEdgeChange else s1) := by
      split
      · exact markWhere_sameBut i s1 _
      · exact SameBut.refl i s1
    refine markWhere_hits i _ _ ?_ (hn _ ?_)
    · unfold Shelf.enabled; rw [hk.state]; exact he
    · unfold Shelf.names; rw [hk.list]; exact hq
  refine foldl_induct _ ?_ _ _ hm
  intro b a hb
  split
  · exact settle_induct (fun t p => markWhere_dirty i t p) (fun t j h _ => abandon_dirty i j t h) 24 _ _
      (abandon_dirty i a b hb)
  · exact hb

/-- An event that changes a reference's state marks every enabled shelf whose list names it: R81. -/
theorem putRef_marks_state (s : State) (r : RefIx) (x : Reference) (i : ShelfIx)
    (hx : x.rt.state ≠ (s.ref r).rt.state) (he : (s.shelf i).enabled = true) (hn : (s.shelf i).names r = true) :
    DirtyAt i (s.putRef r x) := by
  unfold State.putRef
  dsimp only
  rw [if_neg hx]
  refine endEvent_dirty i _ _ (follow_dirty i _ _ ?_)
  refine foldl_induct _ (fun b a hb => takePart_dirty i r b a hb) _ _ ?_
  exact markWhere_hits i (s.setRef r x) _ (by simpa using he) (by simpa using hn)

/-- An event that leaves a reference's state alone marks every enabled shelf whose list names a reference of changed
rank: R58. -/
theorem putRef_marks_rank (s : State) (r q : RefIx) (x : Reference) (i : ShelfIx)
    (hx : x.rt.state = (s.ref r).rt.state) (he : (s.shelf i).enabled = true) (hn : (s.shelf i).names q = true)
    (hq : (s.setRef r x).effRank q ≠ s.effRank q) : DirtyAt i (s.putRef r x) := by
  unfold State.putRef
  dsimp only
  rw [if_pos hx]
  exact endEvent_dirty i _ _ (follow_marks i s (s.setRef r x) q (by simpa using he) (by simpa using hn) hq)

end Sys2Proof.Machine
end

