-- ==== Sys2Proof/Laws/Line.lean ====
section
/-! SUPPORT. The levels of STO: where the bit times of an octet stand on the line, and what the transmitter's operations
answer. -/

namespace Sys2Proof.Machine

theorem octetBits_length (b : Byte) (stop : Bool) : (octetBits b stop).length = 10 := by
  simp [octetBits]

theorem lineBits_cons (b : Byte) (l : List Byte) : lineBits (b :: l) = octetBits b true ++ lineBits l := rfl

theorem lineBits_length (l : List Byte) : (lineBits l).length = 10 * l.length := by
  induction l with
  | nil => rfl
  | cons b l ih => rw [lineBits_cons, List.length_append, octetBits_length, ih, List.length_cons]; omega

/-- Bit time `j` of octet `k` of a run of octets. -/
theorem lineBits_getElem? : ∀ (l : List Byte) (k j : Nat) (b : Byte), l[k]? = some b → j < 10 →
    (lineBits l)[10 * k + j]? = (octetBits b true)[j]?
  | [], k, _, _, h, _ => by simp at h
  | a :: l, 0, j, b, h, hj => by
    obtain rfl : a = b := by simpa using h
    rw [lineBits_cons, Nat.mul_zero, Nat.zero_add, List.getElem?_append_left (by rw [octetBits_length]; exact hj)]
  | a :: l, k + 1, j, b, h, hj => by
    rw [lineBits_cons, List.getElem?_append_right (by rw [octetBits_length]; omega), octetBits_length]
    have e : 10 * (k + 1) + j - 10 = 10 * k + j := by omega
    rw [e]
    exact lineBits_getElem? l k j b (by simpa using h) hj

/-- An idle line is high. -/
theorem sto_idle {g : Ring} (h : g.sending = none) : g.sto = true := by
  unfold Ring.sto; rw [h]

/-- A start that sends nothing changes nothing: a frame is being sent, idle remains, or no queue holds a frame. -/
theorem startSending_none {g : Ring} (h : g.sending ≠ none ∨ g.idleLeft ≠ 0 ∨ g.choice = none) :
    g.startSending = g := by
  unfold Ring.startSending
  cases hs : g.sending <;> cases hi : g.idleLeft <;> cases hc : g.choice <;> simp_all

/-- A start with the Relay Queue chosen sends its head. -/
theorem startSending_relay {g : Ring} {f : Frame} {q : List Frame} (hs : g.sending = none) (hi : g.idleLeft = 0)
    (hc : g.choice = some .relay) (hq : g.relayQ = f :: q) :
    g.startSending = { g with relayQ := q }.send f .relay := by
  unfold Ring.startSending
  simp [hs, hi, hc, hq]

/-- A start with the Insert Queue chosen sends its head. -/
theorem startSending_insert {g : Ring} {e : InsertEntry} {f : Frame} {q : List InsertEntry} (hs : g.sending = none)
    (hi : g.idleLeft = 0) (hc : g.choice = some .insert) (hq : g.insertQ = e :: q) (he : e.frame? = some f) :
    g.startSending = { g with insertQ := q }.send f .insert := by
  unfold Ring.startSending
  simp [hs, hi, hc, hq, he]

end Sys2Proof.Machine
end

