-- ==== Sys2Proof/Laws/Loss.lean ====
section
/-! SUPPORT. The loss of a reference at the shelves of one event: what becomes of a shelf that is SWITCHING from it or
to it, and the places of the Selection Notices in the Insert Queue. -/

namespace Sys2Proof.Machine

/-! ### What becomes of a shelf -/

/-- Shelf `i` of `t` is shelf `i` of `s` changed by `f`, with its settle timer running and whatever it last reported. -/
def Became (i : ShelfIx) (f : Shelf → Shelf) (s t : State) : Prop :=
  ∃ n l, t.shelf i = { f (s.shelf i) with sel := .settling n, lastReport := l }

theorem Became.calm {i : ShelfIx} {f : Shelf → Shelf} {s t u : State} (h : Became i f s t) (h1 : SameBut i t u)
    (h2 : KeepsTimer i t u) : Became i f s u := by
  obtain ⟨n, l, h⟩ := h
  obtain ⟨v, l', h1⟩ := h1
  have hv := h2 n (by rw [h])
  rw [h1] at hv
  exact ⟨n, l', by rw [h1, h]; simp_all⟩

/-- A shelf whose switch is abandoned, back on `c`: R139. -/
def Shelf.backOn (c : RefIx) (x : Shelf) : Shelf :=
  { x with state := .locked c, pendEdge := none, latches := { x.latches with abandon := true } }

/-- A shelf moved to `u` by a hard cut: R141. -/
def Shelf.cutTo (u : RefIx) (x : Shelf) : Shelf :=
  { x with
    state := .locked u, route := some u, curEdge := x.pendEdge, pendEdge := none
    latches := { x.latches with hard := true } }

/-- A shelf that has lost its reference: R115. -/
def Shelf.muted (x : Shelf) : Shelf :=
  { x with
    state := x.cfg.holdoverEntry, route := none, curEdge := none, latches := { x.latches with holdover := true } }

/-- Shelf `i` of `t` is shelf `i` of `s` but for its selection condition, its record and a grant of its switch. -/
def Regranted (i : ShelfIx) (s t : State) : Prop :=
  ∃ st v l, t.shelf i = { s.shelf i with state := st, sel := v, lastReport := l }
    ∧ (st = (s.shelf i).state ∨ st = (s.shelf i).state.granted)

theorem Regranted.of_sameBut {i : ShelfIx} {s t : State} (h : SameBut i s t) : Regranted i s t := by
  obtain ⟨v, l, h⟩ := h
  exact ⟨_, v, l, h, Or.inl rfl⟩

theorem Regranted.of_state {i : ShelfIx} {s t : State} {st : ShelfState}
    (h : t.shelf i = { s.shelf i with state := st }) (hst : st = (s.shelf i).state ∨ st = (s.shelf i).state.granted) :
    Regranted i s t :=
  ⟨st, _, _, h, hst⟩

theorem granted_granted (x : ShelfState) : x.granted.granted = x.granted := by cases x <;> rfl
theorem granted_current (x : ShelfState) : x.granted.current = x.current := by cases x <;> rfl

theorem Regranted.trans {i : ShelfIx} {s t u : State} (h : Regranted i s t) (h' : Regranted i t u) :
    Regranted i s u := by
  obtain ⟨st, v, l, h, hst⟩ := h
  obtain ⟨st', v', l', h', hst'⟩ := h'
  refine ⟨st', v', l', by rw [h', h], ?_⟩
  rw [h] at hst'
  dsimp only at hst'
  rcases hst with rfl | rfl <;> rcases hst' with rfl | rfl
  · exact Or.inl rfl
  · exact Or.inr rfl
  · exact Or.inr rfl
  · exact Or.inr (granted_granted _)

theorem Regranted.current {i : ShelfIx} {s t : State} (h : Regranted i s t) :
    (t.shelf i).state.current = (s.shelf i).state.current := by
  obtain ⟨st, v, l, h, hst⟩ := h
  rw [h]
  rcases hst with rfl | rfl
  · rfl
  · exact granted_current _

/-- Grants reach a shelf through its sub-state alone. -/
theorem grantWithin_regranted (i : ShelfIx) : ∀ (n : Nat) (s : State), Regranted i s (s.grantWithin n)
  | 0, s => Regranted.of_sameBut (SameBut.refl i s)
  | n + 1, s => by
    unfold State.grantWithin
    split
    · rename_i j rest e _ _
      refine Regranted.trans ?_ (grantWithin_regranted i n _)
      by_cases hij : i = j
      · subst hij
        exact Regranted.of_state (by rw [grant_shelf, if_pos rfl]) (Or.inr rfl)
      · exact Regranted.of_sameBut (SameBut.of_eq (by rw [grant_shelf, if_neg hij]))
    · exact Regranted.of_sameBut (SameBut.refl i s)

theorem releaseSwitch_regranted (s : State) (i j : ShelfIx) : Regranted i s (s.releaseSwitch j) := by
  have hs : Regranted i s s := Regranted.of_sameBut (SameBut.refl i s)
  unfold State.releaseSwitch
  split
  · exact Regranted.of_sameBut (SameBut.of_eq rfl)
  · exact (Regranted.of_sameBut (t := s.freeEngineOf j) (SameBut.of_eq rfl)).trans (grantWithin_regranted i 4 _)
  all_goals exact hs

/-- The abandonment of another shelf's switch. -/
theorem abandon_regranted (s : State) {i j : ShelfIx} (hij : i ≠ j) : Regranted i s (s.abandon j) := by
  unfold State.abandon
  split
  · exact (releaseSwitch_regranted s i j).trans
      (Regranted.of_sameBut (SameBut.of_eq (updShelf_shelf_of_ne _ hij _)))
  · exact Regranted.of_sameBut (SameBut.refl i s)

/-- The loss of another shelf's current reference. -/
theorem loseCurrent_regranted (s : State) {i j : ShelfIx} (hij : i ≠ j) : Regranted i s (s.loseCurrent j) := by
  have hm : ∀ hard, Regranted i s (s.moveToTarget hard j) := by
    intro hard
    unfold State.moveToTarget
    split
    · refine (releaseSwitch_regranted s i j).trans (Regranted.of_sameBut (SameBut.of_eq ?_))
      rw [updShelf_shelf_of_ne _ hij, offerSn_shelf, updShelf_shelf_of_ne _ hij]
    · exact Regranted.of_sameBut (SameBut.refl i s)
  unfold State.loseCurrent
  split
  · refine Regranted.of_sameBut (SameBut.trans (SameBut.of_eq ?_) (markShelf_sameBut i j _))
    unfold State.enterHoldover
    rw [updShelf_shelf_of_ne _ hij, offerSn_shelf, updShelf_shelf_of_ne _ hij]
  · exact hm true
  · exact hm true
  all_goals exact Regranted.of_sameBut (SameBut.refl i s)

/-! ### A switch in flight -/

/-- The switch of shelf `i` from `c` to `u` is in flight in `t`, the shelf otherwise as in `s`. -/
def InFlight (i : ShelfIx) (c u : RefIx) (b : Basis) (s t : State) : Prop :=
  ∃ st v l, t.shelf i = { s.shelf i with state := st, sel := v, lastReport := l }
    ∧ (st = .waiting c u b ∨ st = .aligning c u b)

/-- The switch is in flight, or has been abandoned. -/
def FlightOrBack (i : ShelfIx) (c u : RefIx) (b : Basis) (s t : State) : Prop :=
  InFlight i c u b s t ∨ Became i (Shelf.backOn c) s t

theorem InFlight.regranted {i : ShelfIx} {c u : RefIx} {b : Basis} {s t w : State} (h : InFlight i c u b s t)
    (h' : Regranted i t w) : InFlight i c u b s w := by
  obtain ⟨st, v, l, h, hst⟩ := h
  obtain ⟨st', v', l', h', hst'⟩ := h'
  refine ⟨st', v', l', by rw [h', h], ?_⟩
  rw [h] at hst'
  dsimp only at hst'
  rcases hst with rfl | rfl <;> rcases hst' with rfl | rfl
  · exact Or.inl rfl
  · exact Or.inr rfl
  · exact Or.inr rfl
  · exact Or.inr rfl

theorem InFlight.current {i : ShelfIx} {c u : RefIx} {b : Basis} {s t : State} (h : InFlight i c u b s t) :
    (t.shelf i).state.current = some c := by
  obtain ⟨st, v, l, h, rfl | rfl⟩ := h <;> rw [h] <;> rfl

theorem InFlight.target {i : ShelfIx} {c u : RefIx} {b : Basis} {s t : State} (h : InFlight i c u b s t) :
    (t.shelf i).state.target = some u := by
  obtain ⟨st, v, l, h, rfl | rfl⟩ := h <;> rw [h] <;> rfl

theorem InFlight.basis {i : ShelfIx} {c u : RefIx} {b : Basis} {s t : State} (h : InFlight i c u b s t) :
    (t.shelf i).state.basis = some b := by
  obtain ⟨st, v, l, h, rfl | rfl⟩ := h <;> rw [h] <;> rfl

theorem backOn_locked {i : ShelfIx} {c : RefIx} {s t : State} (h : Became i (Shelf.backOn c) s t) :
    (t.shelf i).state = .locked c := by
  obtain ⟨n, l, h⟩ := h
  rw [h]
  rfl

theorem not_switching_of_locked {x : Shelf} {c : RefIx} (h : x.state = .locked c) : x.switching = false := by
  simp [Shelf.switching, h, ShelfState.cls]

/-- The abandonment of a switch in flight. -/
theorem InFlight.abandon {i : ShelfIx} {c u : RefIx} {b : Basis} {s t : State} (h : InFlight i c u b s t) :
    Became i (Shelf.backOn c) s (t.abandon i) := by
  obtain ⟨n, hn⟩ := abandon_shelf_self t i h.current h.target
  obtain ⟨st, v, l, h, _⟩ := h
  exact ⟨n, l, by rw [hn, h]; rfl⟩

theorem FlightOrBack.mark {i : ShelfIx} {c u : RefIx} {b : Basis} {s t : State} (h : FlightOrBack i c u b s t)
    (p : Shelf → Bool) : FlightOrBack i c u b s (t.markWhere p) :=
  h.imp (fun h => h.regranted (Regranted.of_sameBut (markWhere_sameBut i t p)))
    (fun h => h.calm (markWhere_sameBut i t p) (markWhere_keepsTimer i t p))

theorem FlightOrBack.abandon {i : ShelfIx} {c u : RefIx} {b : Basis} {s t : State} (h : FlightOrBack i c u b s t)
    (j : ShelfIx) : FlightOrBack i c u b s (t.abandon j) := by
  rcases h with h | h
  · by_cases hij : i = j
    · subst hij; exact Or.inr h.abandon
    · exact Or.inl (h.regranted (abandon_regranted t hij))
  · have e := abandon_shelf t i j (not_switching_of_locked (backOn_locked h))
    exact Or.inr (h.calm (SameBut.of_eq e) (KeepsTimer.of_eq e))

theorem FlightOrBack.follow {i : ShelfIx} {c u : RefIx} {b : Basis} {s t : State} (h : FlightOrBack i c u b s t)
    (s0 : State) : FlightOrBack i c u b s (s0.follow t) :=
  follow_induct (fun _ p h => h.mark p) (fun _ j h _ => h.abandon j) s0 t h

theorem FlightOrBack.lose {i j : ShelfIx} {c u : RefIx} {b : Basis} {s t : State} (h : FlightOrBack i c u b s t)
    (hij : i ≠ j) : FlightOrBack i c u b s (t.loseCurrent j) := by
  rcases h with h | h
  · exact Or.inl (h.regranted (loseCurrent_regranted t hij))
  · have hs := not_switching_of_locked (backOn_locked h)
    exact Or.inr (h.calm (loseCurrent_shelf_of_ne t hij hs) (loseCurrent_keepsTimer_of_ne t hij hs))

theorem FlightOrBack.takePart {i j : ShelfIx} {c u : RefIx} {b : Basis} {s t : State} (h : FlightOrBack i c u b s t)
    (hij : i ≠ j) (r : RefIx) : FlightOrBack i c u b s (State.takePart r t j) := by
  unfold State.takePart
  split
  · exact (h.lose hij).follow t
  · split
    · exact (h.abandon j).follow t
    · exact h

theorem FlightOrBack.foldl {i : ShelfIx} {c u : RefIx} {b : Basis} {s : State} (r : RefIx) :
    ∀ (l : List ShelfIx) (t : State), i ∉ l → FlightOrBack i c u b s t →
      FlightOrBack i c u b s (l.foldl (State.takePart r) t)
  | [], _, _, h => h
  | _ :: l, _, hi, h =>
    FlightOrBack.foldl r l _ (fun hm => hi (List.mem_cons_of_mem _ hm))
      (h.takePart (fun e => hi (e ▸ List.mem_cons_self)) r)

/-! ### The part of the shelf itself -/

/-- A lost reference fails the target test under either basis: R140. -/
theorem targetOk_lost {s : State} {i : ShelfIx} {r : RefIx} {b : Basis} (ht : (s.shelf i).state.target = some r)
    (hb : (s.shelf i).state.basis = some b) (hr : (s.ref r).rt.state = .failed ∨ (s.ref r).rt.state = .disabled) :
    s.targetOk i = false := by
  unfold State.targetOk
  rw [ht, hb]
  cases b <;> rcases hr with hr | hr <;>
    simp [State.eligible, State.eligibleUnder, State.forcedUsable, State.forcedUnder, eligibleState, forcedState, hr]

/-- The part of a shelf SWITCHING from a lost reference: a hard cut while its switch is in flight, holdover once it has
been abandoned. -/
theorem takePart_from {i : ShelfIx} {r u : RefIx} {b : Basis} {s t : State}
    (hr : (t.ref r).rt.state = .failed ∨ (t.ref r).rt.state = .disabled) :
    (InFlight i r u b s t → Became i (Shelf.cutTo u) s (State.takePart r t i))
    ∧ (Became i (Shelf.backOn r) s t → Became i (Shelf.muted ∘ Shelf.backOn r) s (State.takePart r t i)) := by
  constructor
  · intro h
    unfold State.takePart
    rw [if_pos ⟨h.current, hr⟩]
    have hl : t.loseCurrent i = t.moveToTarget true i := by
      unfold State.loseCurrent
      obtain ⟨st, v, l, h, rfl | rfl⟩ := h <;> rw [h]
    obtain ⟨v', hv⟩ := moveToTarget_shelf_self t true i h.current h.target
    obtain ⟨n, hn⟩ := moveToTarget_sel t true i h.current h.target
    have hc : Became i (Shelf.cutTo u) s (t.loseCurrent i) := by
      rw [hl]
      rw [hv] at hn
      obtain ⟨st, v, l, h, _⟩ := h
      refine ⟨n, l, ?_⟩
      rw [hv, h]
      simp_all [Shelf.cutTo]
    have hs : ((t.loseCurrent i).shelf i).switching = false := by
      obtain ⟨n, l, h⟩ := hc
      rw [h]
      rfl
    have hf := follow_calm i t _ hs
    exact hc.calm hf.1 hf.2
  · intro h
    obtain ⟨n, l, hl⟩ := takePart_locked r t i (backOn_locked h) hr
    obtain ⟨n', l', h⟩ := h
    refine ⟨n, l, ?_⟩
    rw [hl, h]
    rfl

/-- The part of a shelf SWITCHING to a lost reference: the switch is abandoned. -/
theorem takePart_to {i : ShelfIx} {c r : RefIx} {b : Basis} {s t : State} (hc : c ≠ r)
    (hr : (t.ref r).rt.state = .failed ∨ (t.ref r).rt.state = .disabled) (h : FlightOrBack i c r b s t) :
    Became i (Shelf.backOn c) s (State.takePart r t i) := by
  unfold State.takePart
  rcases h with h | h
  · have hcur : ¬((t.shelf i).state.current = some r
        ∧ ((t.ref r).rt.state = .failed ∨ (t.ref r).rt.state = .disabled)) := by
      rw [h.current]
      exact fun hh => hc (Option.some.inj hh.1)
    rw [if_neg hcur, if_pos ⟨h.target, targetOk_lost h.target h.basis hr⟩]
    have ha := h.abandon
    have hf := follow_calm i t _ (not_switching_of_locked (backOn_locked ha))
    exact ha.calm hf.1 hf.2
  · have hl := backOn_locked h
    have hcur : ¬((t.shelf i).state.current = some r
        ∧ ((t.ref r).rt.state = .failed ∨ (t.ref r).rt.state = .disabled)) := by
      rw [hl]
      exact fun hh => hc (Option.some.inj hh.1)
    have htar : ¬((t.shelf i).state.target = some r ∧ t.targetOk i = false) := by
      rw [hl]
      exact fun hh => by cases hh.1
    rw [if_neg hcur, if_neg htar]
    exact h

/-- The parts of later shelves at a shelf that has settled. -/
theorem Became.foldl {i : ShelfIx} {f : Shelf → Shelf} {s t : State} (h : Became i f s t)
    (hf : ∀ x : Shelf, (f x).switching = false) (r : RefIx) (l : List ShelfIx) (hi : i ∉ l) :
    Became i f s (l.foldl (State.takePart r) t) := by
  have hs : (t.shelf i).switching = false := by
    obtain ⟨n, l, h⟩ := h
    rw [h]
    exact hf _
  have hc := foldl_takePart_calm r i l t hi hs
  exact h.calm hc.1 hc.2

/-! ### Selection Notices -/

theorem grantWithin_ring : ∀ (n : Nat) (s : State), (s.grantWithin n).ring = s.ring
  | 0, _ => rfl
  | n + 1, s => by
    unfold State.grantWithin
    split
    · rw [grantWithin_ring n]; rfl
    · rfl

theorem releaseSwitch_ring (s : State) (i : ShelfIx) : (s.releaseSwitch i).ring = s.ring := by
  unfold State.releaseSwitch
  split
  · rfl
  · exact grantWithin_ring 4 _
  all_goals rfl

theorem abandon_ring (s : State) (i : ShelfIx) : (s.abandon i).ring = s.ring := by
  unfold State.abandon
  split
  · exact releaseSwitch_ring s i
  · rfl

/-- What an action sets off places no frame. -/
theorem follow_ring (s0 s1 : State) : (s0.follow s1).ring = s1.ring :=
  follow_induct (P := fun t => t.ring = s1.ring) (fun t p h => by rw [markWhere_ring, h])
    (fun t i h _ => by rw [abandon_ring, h]) s0 s1 rfl

/-- An offer of a Selection Notice reads the drive state and the port alone. -/
theorem offerSn_ring_congr {s t : State} (hd : t.drive = s.drive) (hr : t.ring = s.ring) (i : ShelfIx)
    (p n : Option RefIx) (c : Cause) (h : Bool) : (t.offerSn i p n c h).ring = (s.offerSn i p n c h).ring := by
  unfold State.offerSn State.insertRoom State.loseNotice State.updCounters State.updRing State.pushInsert
    State.makeFrame State.updRing
  rw [hd, hr]
  split
  · exact hr
  · split <;> rfl

/-- The notice of a LOCKED shelf that loses its reference. -/
theorem loseCurrent_locked_ring (s : State) (i : ShelfIx) {c : RefIx} (h : (s.shelf i).state = .locked c) :
    (s.loseCurrent i).ring = (s.offerSn i (some c) none .lost false).ring := by
  unfold State.loseCurrent
  rw [h]
  dsimp only
  unfold State.enterHoldover
  rw [markShelf_ring, updShelf_ring]
  refine offerSn_ring_congr ?_ ?_ i _ _ _ _ <;> rfl

/-- The notice of a SWITCHING shelf that loses its reference. -/
theorem loseCurrent_switching_ring (s : State) (i : ShelfIx) {c u : RefIx} {b : Basis}
    (h : (s.shelf i).state = .waiting c u b ∨ (s.shelf i).state = .aligning c u b) :
    (s.loseCurrent i).ring = (s.offerSn i (some c) (some u) .chosen true).ring := by
  have hl : s.loseCurrent i = s.moveToTarget true i := by
    unfold State.loseCurrent
    rcases h with h | h <;> rw [h]
  have hc : (s.shelf i).state.current = some c := by rcases h with h | h <;> rw [h] <;> rfl
  have ht : (s.shelf i).state.target = some u := by rcases h with h | h <;> rw [h] <;> rfl
  rw [hl]
  unfold State.moveToTarget
  simp only [hc, ht]
  rw [updShelf_ring]
  refine offerSn_ring_congr ?_ ?_ i _ _ _ _
  · exact (releaseSwitch_kept s i).drive
  · rw [updShelf_ring, releaseSwitch_ring]

end Sys2Proof.Machine
end

