-- ==== Sys2Proof/Laws/Report.lean ====
section
/-! SUPPORT. The comparison of the reports and the full report: which events end with the comparison, what it leaves in
the last-reported records and in the Insert Queue, and the same for an event of a reference. -/

namespace Sys2Proof.Machine

/-! ### Which events end with the comparison -/

theorem reportable_iff (s t : State) : reportable s t = true ↔ ReportEvent s t := by
  unfold reportable ReportEvent Shelf.reportKey shelfIxs refIxs
  rw [Bool.or_eq_true, List.any_eq_true, List.any_eq_true]
  refine or_congr ⟨?_, ?_⟩ ⟨?_, ?_⟩
  · rintro ⟨i, _, h⟩
    refine ⟨i, ?_⟩
    by_contra hc
    simp only [not_or, not_not] at hc
    simp [hc.1, hc.2.1, hc.2.2.1, hc.2.2.2] at h
  · rintro ⟨i, h⟩
    refine ⟨i, List.mem_finRange i, ?_⟩
    rw [bne_iff_ne]
    intro he
    simp only [Prod.mk.injEq] at he
    obtain ⟨h1, h2, h3, h4⟩ := he
    rcases h with h | h | h | h
    · exact h h1.symm
    · exact h h2.symm
    · exact h h3.symm
    · exact h h4.symm
  · rintro ⟨r, _, h⟩
    exact ⟨r, fun he => by simp [he] at h⟩
  · rintro ⟨r, h⟩
    exact ⟨r, List.mem_finRange r, bne_iff_ne.mpr (Ne.symm h)⟩

theorem endEvent_event {s t : State} (h : ReportEvent s t) : s.endEvent t = t.compareReports :=
  if_pos ((reportable_iff s t).mpr h)

theorem endEvent_no_event {s t : State} (h : ¬ReportEvent s t) : s.endEvent t = t :=
  if_neg fun hr => h ((reportable_iff s t).mp hr)

/-! ### What a report reads -/

/-- Two states agree on everything a report reads. -/
structure SameReports (s t : State) : Prop where
  refs : t.refs = s.refs
  tables : ∀ d, t.table d = s.table d
  cfg : ∀ i, (t.shelf i).cfg = (s.shelf i).cfg
  state : ∀ i, (t.shelf i).state = (s.shelf i).state

theorem SameReports.refl (s : State) : SameReports s s := ⟨rfl, fun _ => rfl, fun _ => rfl, fun _ => rfl⟩

theorem SameReports.trans {s t u : State} (h : SameReports s t) (h' : SameReports t u) : SameReports s u :=
  ⟨h'.refs.trans h.refs, fun d => (h'.tables d).trans (h.tables d), fun i => (h'.cfg i).trans (h.cfg i),
    fun i => (h'.state i).trans (h.state i)⟩

theorem SameReports.sameRanks {s t : State} (h : SameReports s t) : SameRanks s t :=
  ⟨fun r => by rw [ref_congr h.refs r], fun r => by rw [ref_congr h.refs r], h.cfg, h.state⟩

theorem SameReports.rootWithin {s t : State} (h : SameReports s t) :
    ∀ (n : Nat) (i : ShelfIx), t.rootWithin n i = s.rootWithin n i
  | 0, _ => rfl
  | n + 1, i => by
    unfold State.rootWithin
    rw [h.state i]
    cases (s.shelf i).state.current with
    | none => rfl
    | some c =>
      dsimp only
      rw [ref_congr h.refs c]
      cases (s.ref c).cfg.kind with
      | announced => rfl
      | fixed => rfl
      | derived =>
        dsimp only
        cases (s.ref c).cfg.source with
        | none => rfl
        | some j => exact h.rootWithin n j

theorem SameReports.root {s t : State} (h : SameReports s t) (i : ShelfIx) : t.root i = s.root i := h.rootWithin 24 i

theorem SameReports.squelch {s t : State} (h : SameReports s t) (i : ShelfIx) : t.squelch i = s.squelch i := by
  unfold State.squelch
  rw [h.root i]
  cases s.root i with
  | none => rfl
  | some r => dsimp only; rw [ref_congr h.refs r]

theorem SameReports.report {s t : State} (h : SameReports s t) (i : ShelfIx) : t.report i = s.report i := by
  have hc : t.outCode i = s.outCode i := by
    unfold State.outCode
    rw [h.cfg i, h.tables]
    simp only [h.sameRanks.outRank i]
  unfold State.report
  rw [hc, h.sameRanks.outRank i, h.state i, h.squelch i, h.root i]

theorem SameReports.enabled {s t : State} (h : SameReports s t) (i : ShelfIx) :
    (t.shelf i).enabled = (s.shelf i).enabled := by
  unfold Shelf.enabled
  rw [h.state i]

theorem offerSq_sameReports (s : State) (i : ShelfIx) : SameReports s (s.offerSq i) :=
  have h := offerSq_kept s i
  ⟨h.refs, h.table, h.cfg, fun j => (offerSq_sameBut j i s).state⟩

/-- A report event depends on the ranks and shelf states alone. -/
theorem ReportEvent.congr {s s' t t' : State} (hs : SameRanks s s') (ht : SameRanks t t') :
    ReportEvent s' t' ↔ ReportEvent s t := by
  unfold ReportEvent
  simp only [hs.state, ht.state, hs.effRank, ht.effRank]

/-! ### One offer -/

theorem Kept.makeFrame {s t : State} (h : Kept s t) (d ty : Byte) (p : List Byte) :
    t.makeFrame d ty p = s.makeFrame d ty p := by
  obtain ⟨n, hr⟩ := h.ring
  unfold State.makeFrame
  rw [hr]

/-- Shelf `i`'s report has been offered, and its record is the report. -/
def ToldAt (i : ShelfIx) (s u : State) : Prop :=
  (u.shelf i).lastReport = some (s.report i)
    ∧ .sq i (s.makeFrame 0xFF 0x22 (sqPayload i (s.shelf i).cfg.dialect (s.report i))) ∈ u.ring.insertQ

theorem offerSq_told {s : State} {i : ShelfIx} (hd : s.drive = .driving)
    (hr : (s.offerSq i).ring.insertQ.length < 32 ∨ s.ring.insertQ.length < 32) : ToldAt i s (s.offerSq i) := by
  unfold State.offerSq State.offerSqOf State.insertRoom State.loseNotice State.pushInsert at *
  simp only [hd] at hr ⊢
  by_cases ha : s.ring.insertQ.any (InsertEntry.isSqOf i) = true
  · simp only [ha, if_true]
    refine ⟨by rw [updShelf_shelf_self], ?_⟩
    rw [updShelf_ring, updRing_ring]
    unfold coalesceSq
    rw [List.any_eq_true] at ha
    obtain ⟨e, he, hi⟩ := ha
    exact List.mem_map.mpr ⟨e, he, by rw [if_pos hi]; rfl⟩
  · simp only [ha, Bool.false_eq_true, if_false, Config.insertCapacity] at hr ⊢
    by_cases hl : s.ring.insertQ.length < 32
    · simp only [hl, decide_true, if_true]
      refine ⟨by rw [updShelf_shelf_self], ?_⟩
      rw [updShelf_ring, updRing_ring]
      exact List.mem_append_right _ (List.mem_singleton.mpr rfl)
    · simp [hl, State.updCounters, State.updRing] at hr

/-- An offer for one shelf leaves the record of another. -/
theorem offerSq_shelf_of_ne (s : State) {i j : ShelfIx} (h : i ≠ j) : (s.offerSq j).shelf i = s.shelf i := by
  unfold State.offerSq State.offerSqOf
  split
  · rfl
  · dsimp only
    split
    · rw [updShelf_shelf_of_ne _ h]; rfl
    · split
      · rw [updShelf_shelf_of_ne _ h]; rfl
      · rfl

/-- An offer for one shelf leaves the waiting SQ of another. -/
theorem offerSq_mem_of_ne (s : State) {i j : ShelfIx} (h : i ≠ j) {f : Frame} (hf : .sq i f ∈ s.ring.insertQ) :
    .sq i f ∈ (s.offerSq j).ring.insertQ := by
  unfold State.offerSq State.offerSqOf
  split
  · exact hf
  · dsimp only
    split
    · rw [updShelf_ring, updRing_ring]
      unfold coalesceSq
      refine List.mem_map.mpr ⟨_, hf, ?_⟩
      rw [if_neg]
      simpa [InsertEntry.isSqOf] using Ne.symm h
    · split
      · exact List.mem_append_left _ hf
      · exact hf

theorem offerSq_length_le (s : State) (i : ShelfIx) :
    (s.offerSq i).ring.insertQ.length ≤ s.ring.insertQ.length + 1 := by
  unfold State.offerSq State.offerSqOf
  split
  · exact Nat.le_succ _
  · dsimp only
    split
    · simp [State.updRing, coalesceSq]
    · split
      · simp [State.pushInsert, State.updRing]
      · simp [State.loseNotice, State.updCounters, State.updRing]

/-! ### A run of offers -/

/-- One offer in a run, made where `p` holds. -/
def offerWhere (p : State → ShelfIx → Bool) (s : State) (i : ShelfIx) : State := if p s i then s.offerSq i else s

theorem offerWhere_kept (p : State → ShelfIx → Bool) (s : State) (i : ShelfIx) : Kept s (offerWhere p s i) := by
  unfold offerWhere
  split
  · exact offerSq_kept s i
  · exact Kept.refl s

theorem offerWhere_sameReports (p : State → ShelfIx → Bool) (s : State) (i : ShelfIx) :
    SameReports s (offerWhere p s i) := by
  unfold offerWhere
  split
  · exact offerSq_sameReports s i
  · exact SameReports.refl s

theorem offerRun_kept (p : State → ShelfIx → Bool) (l : List ShelfIx) (s : State) :
    Kept s (l.foldl (offerWhere p) s) :=
  foldl_induct _ (fun b a h => h.trans (offerWhere_kept p b a)) l s (Kept.refl s)

theorem offerRun_sameReports (p : State → ShelfIx → Bool) (l : List ShelfIx) (s : State) :
    SameReports s (l.foldl (offerWhere p) s) :=
  foldl_induct _ (fun b a h => h.trans (offerWhere_sameReports p b a)) l s (SameReports.refl s)

/-- A run leaves a shelf it does not name, and its waiting SQ. -/
theorem offerRun_other (p : State → ShelfIx → Bool) (i : ShelfIx) : ∀ (l : List ShelfIx) (s : State), i ∉ l →
    (l.foldl (offerWhere p) s).shelf i = s.shelf i
      ∧ ∀ f, .sq i f ∈ s.ring.insertQ → .sq i f ∈ (l.foldl (offerWhere p) s).ring.insertQ
  | [], _, _ => ⟨rfl, fun _ hf => hf⟩
  | j :: l, s, hi => by
    have hij : i ≠ j := fun e => hi (e ▸ List.mem_cons_self)
    obtain ⟨h1, h2⟩ := offerRun_other p i l (offerWhere p s j) (fun hm => hi (List.mem_cons_of_mem _ hm))
    rw [List.foldl_cons]
    unfold offerWhere at h1 h2
    split at h1
    · rename_i hp
      rw [if_pos hp] at h2
      refine ⟨?_, fun f hf => ?_⟩
      · unfold offerWhere; rw [if_pos hp, ← offerSq_shelf_of_ne s hij]; exact h1
      · unfold offerWhere; rw [if_pos hp]; exact h2 f (offerSq_mem_of_ne s hij hf)
    · rename_i hp
      rw [if_neg hp] at h2
      refine ⟨?_, fun f hf => ?_⟩
      · unfold offerWhere; rw [if_neg hp]; exact h1
      · unfold offerWhere; rw [if_neg hp]; exact h2 f hf

/-- A run with room for all its offers, or at whose end there is room, tells the report of every shelf it offers: the
test `p` of shelf `i` is made in a state with the reports of the start and the record of `i` as it was. -/
theorem offerRun_tells (p : State → ShelfIx → Bool) (i : ShelfIx) : ∀ (l : List ShelfIx) (s : State), l.Nodup → i ∈ l →
    s.drive = .driving →
    (l.foldl (offerWhere p) s).ring.insertQ.length < 32 ∨ s.ring.insertQ.length + l.length ≤ 32 →
    ∃ v, SameReports s v ∧ v.shelf i = s.shelf i
      ∧ (p v i = true → ToldAt i s (l.foldl (offerWhere p) s))
      ∧ (p v i = false → (l.foldl (offerWhere p) s).shelf i = s.shelf i)
  | [], _, _, hi, _, _ => by cases hi
  | j :: l, s, hn, hi, hd, hr => by
    obtain ⟨hj, hn⟩ := List.nodup_cons.mp hn
    rw [List.foldl_cons] at hr ⊢
    by_cases hij : i = j
    · subst hij
      obtain ⟨h1, h2⟩ := offerRun_other p i l (offerWhere p s i) hj
      refine ⟨s, SameReports.refl s, rfl, fun hp => ?_, fun hp => ?_⟩
      · have hw : offerWhere p s i = s.offerSq i := if_pos hp
        rw [hw] at h1 h2 hr ⊢
        have ht : ToldAt i s (s.offerSq i) := by
          refine offerSq_told hd (hr.imp (fun h => ?_) fun h => ?_)
          · have := (offerRun_kept p l (s.offerSq i)).queue.length
            omega
          · simp only [List.length_cons] at h; omega
        exact ⟨by rw [h1]; exact ht.1, h2 _ ht.2⟩
      · have hw : offerWhere p s i = s := if_neg (by rw [hp]; exact Bool.false_ne_true)
        rw [hw] at h1 ⊢
        exact h1
    · have hi' : i ∈ l := (List.mem_cons.mp hi).resolve_left hij
      have hk := offerWhere_kept p s j
      have hs := offerWhere_sameReports p s j
      have hsh : (offerWhere p s j).shelf i = s.shelf i := by
        unfold offerWhere
        split
        · exact offerSq_shelf_of_ne s hij
        · rfl
      have hle : (offerWhere p s j).ring.insertQ.length ≤ s.ring.insertQ.length + 1 := by
        unfold offerWhere
        split
        · exact offerSq_length_le s j
        · exact Nat.le_succ _
      obtain ⟨v, hv, hvs, h1, h2⟩ := offerRun_tells p i l (offerWhere p s j) hn hi' (hk.drive.trans hd)
        (hr.imp id fun h => by simp only [List.length_cons] at h; omega)
      refine ⟨v, hs.trans hv, hvs.trans hsh, fun hp => ?_, fun hp => (h2 hp).trans hsh⟩
      have ht := h1 hp
      unfold ToldAt at ht ⊢
      rw [hs.report, hk.makeFrame, hsh] at ht
      exact ht

/-! ### The full report and the comparison -/

theorem fullReport_eq (s : State) : s.fullReport = shelfIxs.foldl (offerWhere fun v i => (v.shelf i).enabled) s := rfl

theorem compareReports_eq (s : State) : s.compareReports = shelfIxs.foldl
    (offerWhere fun v i => (v.shelf i).enabled && (v.shelf i).lastReport != some (v.report i)) s := rfl

theorem compareReports_sameReports (s : State) : SameReports s s.compareReports :=
  offerRun_sameReports _ shelfIxs s

theorem endEvent_sameReports (s0 s1 : State) : SameReports s1 (s0.endEvent s1) := by
  unfold State.endEvent
  split
  · exact compareReports_sameReports s1
  · exact SameReports.refl s1

/-- R163: a full report that drops no offer tells every enabled shelf's report. -/
theorem fullReport_tells (s : State) (hd : s.drive = .driving)
    (hr : s.fullReport.ring.insertQ.length < 32 ∨ s.ring.insertQ.length + 24 ≤ 32) (i : ShelfIx)
    (hi : (s.shelf i).enabled = true) : ToldAt i s s.fullReport := by
  rw [fullReport_eq] at hr ⊢
  obtain ⟨v, _, hv, h, _⟩ := offerRun_tells _ i shelfIxs s (List.nodup_finRange 24) (List.mem_finRange i) hd
    (hr.imp id fun h => by simpa [shelfIxs] using h)
  exact h (by rw [hv]; exact hi)

/-- R162: a comparison that drops no offer leaves every enabled shelf's record its report, and the SQ of every shelf
whose record differed in the Insert Queue. -/
theorem compareReports_compared (s : State) (hd : s.drive = .driving)
    (hr : s.compareReports.ring.insertQ.length < 32 ∨ s.ring.insertQ.length + 24 ≤ 32) :
    Compared s s.compareReports := by
  intro i hi
  have hs := compareReports_sameReports s
  have hk := compareReports_kept s
  rw [hs.enabled] at hi
  rw [hs.report, hk.makeFrame, hk.cfg]
  rw [compareReports_eq] at hr ⊢
  obtain ⟨v, hv, hvs, h1, h2⟩ := offerRun_tells _ i shelfIxs s (List.nodup_finRange 24) (List.mem_finRange i) hd
    (hr.imp id fun h => by simpa [shelfIxs] using h)
  by_cases hl : (s.shelf i).lastReport = some (s.report i)
  · have hu := h2 (by rw [hvs, hv.report, hl]; simp)
    exact ⟨by rw [hu, hl], fun hne => absurd hl hne⟩
  · have ht := h1 (by rw [hvs, hv.report, hi]; simpa using hl)
    exact ⟨ht.1, fun _ => ht.2⟩

/-- The end of an event that R162 names, with no offer dropped. -/
theorem endEvent_compared {s0 s1 : State} (hd : (s0.endEvent s1).drive = .driving)
    (hr : (s0.endEvent s1).ring.insertQ.length < 32) (he : ReportEvent s0 (s0.endEvent s1)) :
    Compared s1 (s0.endEvent s1) := by
  have hs := endEvent_sameReports s0 s1
  have h1 : ReportEvent s0 s1 := (ReportEvent.congr (SameRanks.refl s0) hs.sameRanks).mp he
  rw [endEvent_event h1] at hd hr ⊢
  exact compareReports_compared s1 ((compareReports_kept s1).drive.symm.trans hd) (Or.inl hr)

/-! ### What keeps the last-reported records -/

/-- Every last-reported record of `t` is that of `s`. -/
def SameRecords (s t : State) : Prop := ∀ i, (t.shelf i).lastReport = (s.shelf i).lastReport

theorem SameRecords.refl (s : State) : SameRecords s s := fun _ => rfl

theorem SameRecords.trans {s t u : State} (h : SameRecords s t) (h' : SameRecords t u) : SameRecords s u :=
  fun i => (h' i).trans (h i)

theorem SameRecords.compared {s s' t : State} (h : SameRecords s s') (hc : Compared s' t) : Compared s t :=
  fun i hi => ⟨(hc i hi).1, fun hne => (hc i hi).2 (by rw [h i]; exact hne)⟩

theorem updShelf_records (s : State) (i : ShelfIx) (f : Shelf → Shelf) (hf : ∀ x, (f x).lastReport = x.lastReport) :
    SameRecords s (s.updShelf i f) := by
  intro j
  rw [updShelf_shelf]
  split
  · rename_i e; subst e; exact hf _
  · rfl

theorem mark_record (x : Shelf) : x.mark.lastReport = x.lastReport := by rw [mark_eq]

theorem markWhere_records (s : State) (p : Shelf → Bool) : SameRecords s (s.markWhere p) := by
  intro i
  rw [markWhere_shelf]
  split
  · exact mark_record _
  · rfl

theorem markShelf_records (s : State) (i : ShelfIx) : SameRecords s (s.markShelf i) :=
  updShelf_records s i _ mark_record

theorem offerSn_records (s : State) (i : ShelfIx) (p n : Option RefIx) (c : Cause) (h : Bool) :
    SameRecords s (s.offerSn i p n c h) := fun j => by rw [offerSn_shelf]

theorem releaseSwitch_records (s : State) (i : ShelfIx) : SameRecords s (s.releaseSwitch i) := by
  intro j
  obtain ⟨st, e⟩ := releaseSwitch_shelf_state s j i
  rw [e]

theorem abandon_records (s : State) (i : ShelfIx) : SameRecords s (s.abandon i) := by
  unfold State.abandon
  split
  · exact (releaseSwitch_records s i).trans (updShelf_records _ i _ fun _ => mark_record _)
  · exact SameRecords.refl s

theorem moveToTarget_records (s : State) (hard : Bool) (i : ShelfIx) : SameRecords s (s.moveToTarget hard i) := by
  unfold State.moveToTarget
  split
  · refine SameRecords.trans ?_ (updShelf_records _ i _ fun _ => mark_record _)
    refine SameRecords.trans ?_ (offerSn_records _ i _ _ _ _)
    exact (releaseSwitch_records s i).trans (updShelf_records _ i _ fun _ => rfl)
  · exact SameRecords.refl s

theorem enterHoldover_records (s : State) (i : ShelfIx) (c : RefIx) (cause : Cause) :
    SameRecords s (s.enterHoldover i c cause) := by
  refine SameRecords.trans ?_ (updShelf_records _ i _ fun _ => rfl)
  refine SameRecords.trans ?_ (offerSn_records _ i _ _ _ _)
  exact updShelf_records s i _ fun _ => rfl

theorem loseCurrent_records (s : State) (i : ShelfIx) : SameRecords s (s.loseCurrent i) := by
  unfold State.loseCurrent
  split
  · exact (enterHoldover_records s i _ _).trans (markShelf_records _ i)
  · exact moveToTarget_records s true i
  · exact moveToTarget_records s true i
  all_goals exact SameRecords.refl s

theorem follow_records (s0 s1 : State) : SameRecords s1 (s0.follow s1) :=
  follow_induct (fun t p h => h.trans (markWhere_records t p)) (fun t i h _ => h.trans (abandon_records t i)) s0 s1
    (SameRecords.refl s1)

theorem takePart_records (r : RefIx) (s : State) (i : ShelfIx) : SameRecords s (State.takePart r s i) :=
  takePart_induct (fun t p h => h.trans (markWhere_records t p)) (fun t j h _ => h.trans (abandon_records t j))
    (fun t j _ h _ _ => h.trans (loseCurrent_records t j)) r s i (SameRecords.refl s)

/-! ### The event of a reference -/

/-- R162 at the event of a reference. -/
theorem putRef_compared {s : State} {r : RefIx} {x : Reference} (hd : (s.putRef r x).drive = .driving)
    (hr : (s.putRef r x).ring.insertQ.length < 32) (he : ReportEvent s (s.putRef r x)) :
    Compared s (s.putRef r x) := by
  unfold State.putRef at hd hr he ⊢
  refine SameRecords.compared ?_ (endEvent_compared hd hr he)
  have h0 : SameRecords s (s.setRef r x) := fun i => by rw [setRef_shelf]
  split
  · exact h0.trans (follow_records _ _)
  · unfold State.deliverState
    refine SameRecords.trans ?_ (follow_records _ _)
    exact foldl_induct _ (fun b a h => h.trans (takePart_records r b a)) _ _ (h0.trans (markWhere_records _ _))

/-! ### The reply of a request -/

theorem fillReserved_sq (f : Frame) {i : ShelfIx} {g : Frame} : ∀ {q : List InsertEntry}, .sq i g ∈ q →
    .sq i g ∈ fillReserved f q := by
  intro q
  induction q with
  | nil => exact fun h => by cases h
  | cons e q ih =>
    intro h
    rcases List.mem_cons.mp h with rfl | hm
    · exact List.mem_cons_self
    · cases e with
      | reserved => exact List.mem_cons_of_mem _ hm
      | sq j g' => exact List.mem_cons_of_mem _ (ih hm)
      | sn g' => exact List.mem_cons_of_mem _ (ih hm)
      | rep g' => exact List.mem_cons_of_mem _ (ih hm)

theorem fillReserved_length (f : Frame) (q : List InsertEntry) : (fillReserved f q).length = q.length := by
  induction q with
  | nil => rfl
  | cons e q ih => cases e <;> simp_all [fillReserved]

/-- The reply leaves every record and report. -/
theorem placed_compared {s : State} {a : Answer} (h : Compared s a.state) (src : Byte) (payload : List Byte) :
    Compared s (a.placed src payload) :=
  fun i hi => ⟨(h i hi).1, fun hne => fillReserved_sq _ ((h i hi).2 hne)⟩

theorem placed_length (a : Answer) (src : Byte) (payload : List Byte) :
    (a.placed src payload).ring.insertQ.length = a.state.ring.insertQ.length := fillReserved_length _ _

theorem placed_sameTables (a : Answer) (src : Byte) (payload : List Byte) :
    SameTables a.state (a.placed src payload) := ⟨rfl, rfl⟩

/-! ### Marks of an event that reads the reply's queue -/

/-- A Quality Announcement marks every enabled shelf whose list names a reference of changed rank: R48, R58. -/
theorem announce_marks (s : State) (src : Byte) (l : List QaEntry) (i : ShelfIx) (q : RefIx)
    (he : ((l.foldl (State.takeEntry src) s).shelf i).enabled = true)
    (hn : ((l.foldl (State.takeEntry src) s).shelf i).names q = true)
    (hq : (l.foldl (State.takeEntry src) s).effRank q ≠ s.effRank q) : DirtyAt i (s.announce src l) :=
  endEvent_dirty i _ _ (follow_marks i _ _ q he hn hq)

/-- The reply leaves a dirty shelf dirty. -/
theorem placed_dirty {a : Answer} {i : ShelfIx} (h : DirtyAt i a.state) (src : Byte) (payload : List Byte) :
    DirtyAt i (a.placed src payload) := h

end Sys2Proof.Machine
end

