-- ==== Sys2Proof/Laws/Marks.lean ====
section
/-! SUPPORT. What `State.follow` guarantees whatever the action before it did: every enabled shelf that names a reference
of changed rank, or a DERIVED reference where an edge changed, is dirty, and no AUTOMATIC switch stands whose target's
changed rank fails the floor. Its bound of 25 levels is never reached, since each level ends a switch. -/

namespace Sys2Proof.Machine

/-! ### The shelves in flight -/

/-- The number of SWITCHING shelves. -/
def flying (s : State) : Nat := (Finset.univ.filter fun i : ShelfIx => (s.shelf i).switching = true).card

theorem flying_le (s : State) : flying s ≤ 24 := by
  unfold flying
  exact (Finset.card_filter_le _ _).trans (by simp)

theorem flying_mono {s t : State} (h : ∀ i, (t.shelf i).switching = true → (s.shelf i).switching = true) :
    flying t ≤ flying s :=
  Finset.card_le_card fun i hi => by
    rw [Finset.mem_filter] at hi ⊢
    exact ⟨hi.1, h i hi.2⟩

theorem flying_lt {s t : State} (i : ShelfIx) (h : ∀ j, (t.shelf j).switching = true → (s.shelf j).switching = true)
    (hs : (s.shelf i).switching = true) (ht : (t.shelf i).switching = false) : flying t < flying s := by
  refine Finset.card_lt_card ⟨fun j hj => ?_, fun hsub => ?_⟩
  · rw [Finset.mem_filter] at hj ⊢
    exact ⟨hj.1, h j hj.2⟩
  · have := hsub (Finset.mem_filter.mpr ⟨Finset.mem_univ i, hs⟩)
    rw [Finset.mem_filter, ht] at this
    exact Bool.false_ne_true this.2

theorem granted_switching (x : ShelfState) : x.granted.cls = x.cls := by cases x <;> rfl
theorem granted_target (x : ShelfState) : x.granted.target = x.target := by cases x <;> rfl
theorem granted_basis (x : ShelfState) : x.granted.basis = x.basis := by cases x <;> rfl

theorem Regranted.switching {i : ShelfIx} {s t : State} (h : Regranted i s t) :
    (t.shelf i).switching = (s.shelf i).switching := by
  obtain ⟨st, v, l, h, hst⟩ := h
  unfold Shelf.switching
  rw [h]
  rcases hst with rfl | rfl
  · rfl
  · rw [granted_switching]

/-- A target belongs to a SWITCHING shelf, with its current reference. -/
theorem target_switching {x : Shelf} {r : RefIx} (h : x.state.target = some r) :
    x.switching = true ∧ ∃ c, x.state.current = some c := by
  unfold Shelf.switching
  cases hs : x.state <;> rw [hs] at h <;> simp_all [ShelfState.target, ShelfState.cls, ShelfState.current]

/-- An abandonment puts no shelf into flight. -/
theorem abandon_switching (s : State) (a j : ShelfIx) (h : ((s.abandon a).shelf j).switching = true) :
    (s.shelf j).switching = true := by
  by_cases hj : j = a
  · subst hj
    cases ht : (s.shelf j).state.target with
    | none =>
      have he : s.abandon j = s := by
        unfold State.abandon
        rw [ht]
        cases (s.shelf j).state.current <;> rfl
      rwa [he] at h
    | some r => exact (target_switching ht).1
  · rwa [(abandon_regranted s hj).switching] at h

theorem abandon_flying (s : State) (a : ShelfIx) : flying (s.abandon a) ≤ flying s :=
  flying_mono fun j => abandon_switching s a j

/-- The abandonment of a switch ends it. -/
theorem abandon_flying_lt (s : State) (a : ShelfIx) {r : RefIx} (ht : (s.shelf a).state.target = some r) :
    flying (s.abandon a) < flying s := by
  obtain ⟨hs, c, hc⟩ := target_switching ht
  refine flying_lt a (fun j => abandon_switching s a j) hs ?_
  obtain ⟨n, h⟩ := abandon_shelf_self s a hc ht
  rw [h]
  rfl

theorem markWhere_flying (s : State) (p : Shelf → Bool) : flying (s.markWhere p) ≤ flying s :=
  flying_mono fun i h => by rwa [(markWhere_sameBut i s p).switching] at h

theorem settle_flying (n : Nat) (s0 s1 : State) : flying (State.settle n s0 s1) ≤ flying s1 :=
  settle_induct (P := fun t => flying t ≤ flying s1) (fun t p h => (markWhere_flying t p).trans h)
    (fun t i h _ => (abandon_flying t i).trans h) n s0 s1 le_rfl

/-! ### What stays -/

/-- Shelf `i` keeps its configuration, its list, its dirt and its being enabled from `s` to `t`, the references keep
their configuration, and a switch of the shelf that stands in `t` stood in `s`. -/
structure Steady (i : ShelfIx) (s t : State) : Prop where
  refCfg : ∀ r, (t.ref r).cfg = (s.ref r).cfg
  cfg : (t.shelf i).cfg = (s.shelf i).cfg
  list : (t.shelf i).list = (s.shelf i).list
  enabled : (t.shelf i).enabled = (s.shelf i).enabled
  dirty : DirtyAt i s → DirtyAt i t
  flight : ∀ r, (t.shelf i).state.target = some r →
    (s.shelf i).state.target = some r ∧ (t.shelf i).state.basis = (s.shelf i).state.basis

theorem Steady.refl (i : ShelfIx) (s : State) : Steady i s s :=
  ⟨fun _ => rfl, rfl, rfl, rfl, id, fun _ h => ⟨h, rfl⟩⟩

theorem Steady.trans {i : ShelfIx} {s t u : State} (h : Steady i s t) (h' : Steady i t u) : Steady i s u where
  refCfg r := (h'.refCfg r).trans (h.refCfg r)
  cfg := h'.cfg.trans h.cfg
  list := h'.list.trans h.list
  enabled := h'.enabled.trans h.enabled
  dirty hd := h'.dirty (h.dirty hd)
  flight r hr :=
    have ht := h'.flight r hr
    have hs := h.flight r ht.1
    ⟨hs.1, ht.2.trans hs.2⟩

/-- Marks and reports are steady. -/
theorem Steady.of_sameBut {i : ShelfIx} {s t : State} (h : SameBut i s t) (hr : ∀ r, (t.ref r).cfg = (s.ref r).cfg)
    (hd : DirtyAt i s → DirtyAt i t) : Steady i s t where
  refCfg := hr
  cfg := h.cfg
  list := h.list
  enabled := by unfold Shelf.enabled; rw [h.state]
  dirty := hd
  flight r ht := by rw [h.state] at ht ⊢; exact ⟨ht, rfl⟩

theorem markWhere_steady (i : ShelfIx) (s : State) (p : Shelf → Bool) : Steady i s (s.markWhere p) :=
  Steady.of_sameBut (markWhere_sameBut i s p) (fun r => by rw [markWhere_ref]) (markWhere_dirty i s p)

theorem abandon_steady (i a : ShelfIx) (s : State) : Steady i s (s.abandon a) := by
  have hk := abandon_kept s a
  have hr : ∀ r, ((s.abandon a).ref r).cfg = (s.ref r).cfg := fun r => by rw [ref_congr hk.refs r]
  by_cases hi : i = a
  · subst hi
    cases ht : (s.shelf i).state.target with
    | none =>
      have he : s.abandon i = s := by
        unfold State.abandon
        rw [ht]
        cases (s.shelf i).state.current <;> rfl
      rw [he]
      exact Steady.refl i s
    | some r =>
      obtain ⟨_, c, hc⟩ := target_switching ht
      obtain ⟨n, h⟩ := abandon_shelf_self s i hc ht
      refine ⟨hr, hk.cfg i, hk.list i, ?_, abandon_dirty i i s, fun q hq => ?_⟩
      · have he : (s.shelf i).enabled = true := by
          unfold Shelf.enabled
          cases hs : (s.shelf i).state <;> rw [hs] at ht <;> simp_all [ShelfState.target, ShelfState.cls]
        rw [he, h]
        rfl
      · rw [h] at hq
        cases hq
  · obtain ⟨st, v, l, h, hst⟩ := abandon_regranted s hi
    refine ⟨hr, hk.cfg i, hk.list i, ?_, abandon_dirty i a s, fun q hq => ?_⟩
    · unfold Shelf.enabled
      rw [h]
      rcases hst with rfl | rfl
      · rfl
      · rw [granted_switching]
    · rw [h] at hq ⊢
      rcases hst with rfl | rfl
      · exact ⟨hq, rfl⟩
      · exact ⟨by rwa [granted_target] at hq, granted_basis _⟩

theorem settle_steady (i : ShelfIx) (n : Nat) (s0 s1 : State) : Steady i s1 (State.settle n s0 s1) :=
  settle_induct (P := fun t => Steady i s1 t) (fun t p h => h.trans (markWhere_steady i t p))
    (fun t j h _ => h.trans (abandon_steady i j t)) n s0 s1 (Steady.refl i s1)

theorem follow_steady (i : ShelfIx) (s0 s1 : State) : Steady i s1 (s0.follow s1) := settle_steady i 25 s0 s1

/-! ### What an action sets off at one shelf -/

/-- Shelf `i` has heard of what differs between `s` and `t`: it is dirty in `t` if it is enabled and names a reference of
changed rank (R58), or a DERIVED reference where an edge changed (R156), and an AUTOMATIC switch of it that stands
passes the floor where its target's rank changed (R140). -/
structure Heard (i : ShelfIx) (s t : State) : Prop where
  rank : ∀ q, (t.shelf i).enabled = true → (t.shelf i).names q = true → t.effRank q ≠ s.effRank q → DirtyAt i t
  edge : edgesDiffer s t = true → (t.shelf i).enabled = true → t.namesDerived (t.shelf i) = true → DirtyAt i t
  tested : ∀ r, (t.shelf i).state.target = some r → (t.shelf i).state.basis = some .automatic →
    t.effRank r ≠ s.effRank r → (t.effRank r).val ≤ (t.shelf i).cfg.floor.val

/-- An action that changes no rank and no edge leaves nothing to hear. -/
theorem Heard.quiet {i : ShelfIx} {s t : State} (h : ∀ q, t.effRank q = s.effRank q) (he : edgesDiffer s t = false) :
    Heard i s t :=
  ⟨fun q _ _ hq => absurd (h q) hq,
    fun hd => absurd hd (by rw [he]; exact Bool.false_ne_true), fun r _ _ hr => absurd (h r) hr⟩

theorem edgesDiffer_self (s : State) : edgesDiffer s s = false := edgesDiffer_of_shelf fun _ => rfl

theorem Heard.refl (i : ShelfIx) (s : State) : Heard i s s := Heard.quiet (fun _ => rfl) (edgesDiffer_self s)

/-- No edge differs where no slot does. -/
theorem edgesDiffer_false {s t : State} :
    edgesDiffer s t = false ↔
      ∀ i, (s.shelf i).curEdge = (t.shelf i).curEdge ∧ (s.shelf i).pendEdge = (t.shelf i).pendEdge := by
  unfold edgesDiffer
  rw [List.any_eq_false]
  constructor
  · intro h i
    have := h i (List.mem_finRange i)
    simpa using this
  · intro h i _
    simpa using h i

theorem edgesDiffer_split {s t u : State} (h : edgesDiffer s u = true) :
    edgesDiffer s t = true ∨ edgesDiffer t u = true := by
  by_contra hn
  simp only [not_or, Bool.not_eq_true] at hn
  have h1 := edgesDiffer_false.mp hn.1
  have h2 := edgesDiffer_false.mp hn.2
  rw [edgesDiffer_false.mpr fun i => ⟨(h1 i).1.trans (h2 i).1, (h1 i).2.trans (h2 i).2⟩] at h
  cases h

theorem Steady.namesDerived {i : ShelfIx} {s t : State} (h : Steady i s t) :
    t.namesDerived (t.shelf i) = s.namesDerived (s.shelf i) := by
  unfold State.namesDerived
  rw [h.list]
  congr 1
  funext c
  rw [h.refCfg]

theorem Steady.names {i : ShelfIx} {s t : State} (h : Steady i s t) (q : RefIx) :
    (t.shelf i).names q = (s.shelf i).names q := by
  unfold Shelf.names
  rw [h.list]

theorem Heard.trans {i : ShelfIx} {s t u : State} (h : Heard i s t) (h' : Heard i t u) (hs : Steady i t u) :
    Heard i s u where
  rank q he hn hq := by
    by_cases ht : t.effRank q = s.effRank q
    · exact h'.rank q he hn (by rw [ht]; exact hq)
    · exact hs.dirty (h.rank q (by rw [← hs.enabled]; exact he) (by rw [← hs.names]; exact hn) ht)
  edge hd he hn := by
    rcases edgesDiffer_split (t := t) hd with hd | hd
    · exact hs.dirty (h.edge hd (by rw [← hs.enabled]; exact he) (by rw [← hs.namesDerived]; exact hn))
    · exact h'.edge hd he hn
  tested r hr hb hq := by
    by_cases hu : u.effRank r = t.effRank r
    · obtain ⟨ht, hbt⟩ := hs.flight r hr
      rw [hu, hs.cfg]
      exact h.tested r ht (by rw [← hbt]; exact hb) (by rw [← hu]; exact hq)
    · exact h'.tested r hr hb hu

/-- What is heard stands where nothing that a rank reads and no edge changes after it. -/
theorem Heard.same {i : ShelfIx} {s t u : State} (h : Heard i s t) (hr : SameRanks t u) (he : edgesDiffer t u = false)
    (hs : Steady i t u) : Heard i s u := h.trans (Heard.quiet hr.effRank he) hs

theorem Heard.endEvent {i : ShelfIx} {s t : State} (h : Heard i s t) (s0 : State) : Heard i s (s0.endEvent t) := by
  have hr := endEvent_sameReports s0 t
  refine h.same hr.sameRanks (edgesDiffer_false.mpr fun j => ?_)
    (Steady.of_sameBut (endEvent_sameBut i s0 t) (fun r => by rw [ref_congr hr.refs r]) (endEvent_dirty i s0 t))
  have hb := endEvent_sameBut j s0 t
  exact ⟨hb.curEdge.symm, hb.pendEdge.symm⟩

theorem markWhere_sameRanks (s : State) (p : Shelf → Bool) : SameRanks s (s.markWhere p) :=
  ⟨fun r => by rw [markWhere_ref], fun r => by rw [markWhere_ref], fun i => (markWhere_sameBut i s p).cfg,
    fun i => (markWhere_sameBut i s p).state⟩

theorem markWhere_edges (s : State) (p : Shelf → Bool) : edgesDiffer s (s.markWhere p) = false :=
  edgesDiffer_false.mpr fun i => ⟨(markWhere_sameBut i s p).curEdge.symm, (markWhere_sameBut i s p).pendEdge.symm⟩

/-- The marks of `State.settle`: those of an edge change, then those of the ranks that changed. -/
def State.settleMarks (s0 s1 : State) : State :=
  (if edgesDiffer s0 s1 then s1.markEdgeChange else s1).markWhere (namesChanged s0 s1)

/-- The test of one shelf in `State.settle`. -/
def State.settleTest (n : Nat) (s0 s1 st : State) (i : ShelfIx) : State :=
  if ((st.shelf i).state.target.any fun t => rankDiffers s0 s1 t) && !st.targetOk i then
    State.settle n st (st.abandon i)
  else st

theorem settle_succ (n : Nat) (s0 s1 : State) :
    State.settle (n + 1) s0 s1 = shelfIxs.foldl (State.settleTest n s0 s1) (s0.settleMarks s1) := rfl

theorem settleMarks_steady (i : ShelfIx) (s0 s1 : State) : Steady i s1 (s0.settleMarks s1) := by
  unfold State.settleMarks
  split
  · exact (markWhere_steady i s1 _).trans (markWhere_steady i _ _)
  · exact markWhere_steady i s1 _

theorem settleMarks_sameRanks (s0 s1 : State) : SameRanks s1 (s0.settleMarks s1) := by
  unfold State.settleMarks
  split
  · exact (markWhere_sameRanks s1 _).trans (markWhere_sameRanks _ _)
  · exact markWhere_sameRanks s1 _

theorem settleMarks_edges (s0 s1 : State) : edgesDiffer s1 (s0.settleMarks s1) = false := by
  unfold State.settleMarks
  split
  · have h1 := edgesDiffer_false.mp (markWhere_edges s1 s1.namesDerived)
    have h2 := edgesDiffer_false.mp (markWhere_edges s1.markEdgeChange (namesChanged s0 s1))
    exact edgesDiffer_false.mpr fun i => ⟨(h1 i).1.trans (h2 i).1, (h1 i).2.trans (h2 i).2⟩
  · exact markWhere_edges s1 _

theorem settleMarks_flying (s0 s1 : State) : flying (s0.settleMarks s1) ≤ flying s1 := by
  unfold State.settleMarks
  split
  · exact (markWhere_flying _ _).trans (markWhere_flying s1 _)
  · exact markWhere_flying s1 _

/-- The marks reach every enabled shelf that names a reference of changed rank. -/
theorem settleMarks_rank (i : ShelfIx) (s0 s1 : State) (q : RefIx) (he : (s1.shelf i).enabled = true)
    (hq : (s1.shelf i).names q = true) (hr : s1.effRank q ≠ s0.effRank q) : DirtyAt i (s0.settleMarks s1) := by
  have hk : Steady i s1 (if edgesDiffer s0 s1 then s1.markEdgeChange else s1) := by
    split
    · exact markWhere_steady i s1 _
    · exact Steady.refl i s1
  refine markWhere_hits i _ _ (by rw [hk.enabled]; exact he) ?_
  have hn : ((if edgesDiffer s0 s1 then s1.markEdgeChange else s1).shelf i).names q = true := by rw [hk.names]; exact hq
  unfold Shelf.names at hn
  unfold namesChanged
  rw [List.any_eq_true] at hn ⊢
  obtain ⟨c, hc, hcq⟩ := hn
  obtain rfl : c.ref = q := by simpa using hcq
  exact ⟨c, hc, by unfold rankDiffers; simpa using fun h => hr h.symm⟩

/-- The marks reach every enabled shelf that names a DERIVED reference, where an edge changed. -/
theorem settleMarks_edge (i : ShelfIx) (s0 s1 : State) (hd : edgesDiffer s0 s1 = true)
    (he : (s1.shelf i).enabled = true) (hn : s1.namesDerived (s1.shelf i) = true) : DirtyAt i (s0.settleMarks s1) := by
  unfold State.settleMarks
  rw [if_pos hd]
  exact markWhere_dirty i _ _ (markWhere_hits i s1 _ he hn)

theorem settleTest_steady (i : ShelfIx) (n : Nat) (s0 s1 st : State) (a : ShelfIx) :
    Steady i st (State.settleTest n s0 s1 st a) := by
  unfold State.settleTest
  split
  · exact (abandon_steady i a st).trans (settle_steady i n st _)
  · exact Steady.refl i st

theorem settleTest_flying (n : Nat) (s0 s1 st : State) (a : ShelfIx) :
    flying (State.settleTest n s0 s1 st a) ≤ flying st := by
  unfold State.settleTest
  split
  · exact (settle_flying n _ _).trans (abandon_flying st a)
  · exact le_rfl

/-- An AUTOMATIC switch that passes the target test passes the floor. -/
theorem targetOk_floor {s : State} {i : ShelfIx} {r : RefIx} (h : s.targetOk i = true)
    (ht : (s.shelf i).state.target = some r) (hb : (s.shelf i).state.basis = some .automatic) :
    (s.effRank r).val ≤ (s.shelf i).cfg.floor.val := by
  unfold State.targetOk at h
  rw [ht, hb] at h
  unfold State.eligible State.eligibleUnder at h
  simp only [Bool.and_eq_true, decide_eq_true_eq] at h
  exact h.1.2

/-- The test of shelf `i` leaves no AUTOMATIC switch of it whose target's rank differed and fails the floor. -/
theorem settleTest_tested (n : Nat) (s0 s1 st : State) (i : ShelfIx) {r : RefIx}
    (ht : ((State.settleTest n s0 s1 st i).shelf i).state.target = some r)
    (hb : ((State.settleTest n s0 s1 st i).shelf i).state.basis = some .automatic) (hr : s1.effRank r ≠ s0.effRank r) :
    ((State.settleTest n s0 s1 st i).effRank r).val
      ≤ ((State.settleTest n s0 s1 st i).shelf i).cfg.floor.val := by
  have hst := ((settleTest_steady i n s0 s1 st i).flight r ht).1
  unfold State.settleTest at ht hb ⊢
  split at ht
  · exfalso
    obtain ⟨_, c, hc⟩ := target_switching hst
    obtain ⟨k, h⟩ := abandon_shelf_self st i hc hst
    have := ((settle_steady i n st (st.abandon i)).flight r ht).1
    rw [h] at this
    cases this
  · rename_i hn
    rw [if_neg hn] at hb ⊢
    refine targetOk_floor ?_ hst hb
    have hd : rankDiffers s0 s1 r = true := by unfold rankDiffers; simpa using fun h => hr h.symm
    rw [hst] at hn
    simpa [hd] using hn

/-- What `State.settle` guarantees at every shelf, while more levels are left than shelves are in flight. -/
theorem settle_heard (i : ShelfIx) : ∀ (n : Nat) (s0 s1 : State), flying s1 < n → Heard i s0 (State.settle n s0 s1)
  | 0, _, _, h => absurd h (Nat.not_lt_zero _)
  | n + 1, s0, s1, h => by
    have hstep : ∀ st a, flying st ≤ flying s1 → Heard i st (State.settleTest n s0 s1 st a) := by
      intro st a hf
      unfold State.settleTest
      split
      · rename_i hc
        have hany := (Bool.and_eq_true _ _ ▸ hc).1
        cases ht : (st.shelf a).state.target with
        | none => rw [ht] at hany; cases hany
        | some r =>
          exact settle_heard i n st (st.abandon a) (by have := abandon_flying_lt st a ht; omega)
      · exact Heard.refl i st
    have hfold : ∀ (l : List ShelfIx) (b : State), flying b ≤ flying s1 →
        Heard i b (l.foldl (State.settleTest n s0 s1) b) ∧ Steady i b (l.foldl (State.settleTest n s0 s1) b)
        ∧ (i ∈ l → ∀ r, ((l.foldl (State.settleTest n s0 s1) b).shelf i).state.target = some r →
          ((l.foldl (State.settleTest n s0 s1) b).shelf i).state.basis = some .automatic →
          s1.effRank r ≠ s0.effRank r →
          ((l.foldl (State.settleTest n s0 s1) b).effRank r).val
            ≤ ((l.foldl (State.settleTest n s0 s1) b).shelf i).cfg.floor.val) := by
      intro l
      induction l with
      | nil => exact fun b _ => ⟨Heard.refl i b, Steady.refl i b, fun hm => by cases hm⟩
      | cons a l ih =>
        intro b hb
        rw [List.foldl_cons]
        have hsb := settleTest_steady i n s0 s1 b a
        have hhb := hstep b a hb
        obtain ⟨hh, hs, ht⟩ := ih (State.settleTest n s0 s1 b a) ((settleTest_flying n s0 s1 b a).trans hb)
        refine ⟨hhb.trans hh hs, hsb.trans hs, fun hm r hr hba hd => ?_⟩
        rcases List.mem_cons.mp hm with rfl | hm
        · by_cases hc : ((l.foldl (State.settleTest n s0 s1) (State.settleTest n s0 s1 b i)).effRank r)
              = (State.settleTest n s0 s1 b i).effRank r
          · obtain ⟨htr, hbb⟩ := hs.flight r hr
            rw [hc, hs.cfg]
            exact settleTest_tested n s0 s1 b i htr (by rw [← hbb]; exact hba) hd
          · exact hh.tested r hr hba hc
        · exact ht hm r hr hba hd
    rw [settle_succ]
    have hm := settleMarks_steady i s0 s1
    have hk := settleMarks_sameRanks s0 s1
    obtain ⟨hh, hs, ht⟩ := hfold shelfIxs (s0.settleMarks s1) (settleMarks_flying s0 s1)
    refine ⟨fun q he hn hq => ?_, fun hd he hn => ?_, fun r hr hb hq => ?_⟩
    · by_cases h1 : s1.effRank q = s0.effRank q
      · exact hh.rank q he hn (by rw [hk.effRank, h1]; exact hq)
      · refine hs.dirty (settleMarks_rank i s0 s1 q ?_ ?_ h1)
        · rw [← hm.enabled, ← hs.enabled]; exact he
        · rw [← hm.names, ← hs.names]; exact hn
    · rcases edgesDiffer_split (t := s1) hd with h1 | h1
      · refine hs.dirty (settleMarks_edge i s0 s1 h1 ?_ ?_)
        · rw [← hm.enabled, ← hs.enabled]; exact he
        · rw [← hm.namesDerived, ← hs.namesDerived]; exact hn
      · rcases edgesDiffer_split (t := s0.settleMarks s1) h1 with h2 | h2
        · rw [settleMarks_edges] at h2; cases h2
        · exact hh.edge h2 he hn
    · by_cases h1 : s1.effRank r = s0.effRank r
      · exact hh.tested r hr hb (by rw [hk.effRank, h1]; exact hq)
      · exact ht (List.mem_finRange i) r hr hb h1

/-- What an action sets off, whatever the action did: R57, R58, R140, R156. -/
theorem follow_heard (i : ShelfIx) (s0 s1 : State) : Heard i s0 (s0.follow s1) :=
  settle_heard i 25 s0 s1 (by have := flying_le s1; omega)

/-- A change of one reference's record is heard. -/
theorem putRef_heard (i : ShelfIx) (s : State) (r : RefIx) (x : Reference) : Heard i s (s.putRef r x) := by
  unfold State.putRef
  dsimp only
  refine Heard.endEvent ?_ s
  split
  · exact follow_heard i s _
  · exact follow_heard i s _

/-! ### A freed engine -/

/-- The only free engine passes to the head of the queue, and no second grant follows. -/
theorem grantFree_one {s : State} {e : EngineIx} {j : ShelfIx} {rest : List ShelfIx} (hq : s.alignQ = j :: rest)
    (he : s.engines[e] = none) (ho : ∀ e' : EngineIx, e' ≠ e → s.engines[e'] ≠ none) :
    s.grantFree = s.grant e j rest := by
  have hf : s.freeEngine = some e := by
    unfold State.freeEngine
    rw [List.find?_eq_some_iff_getElem]
    refine ⟨by rw [he]; rfl, e.val, by simp [engineIxs], by simp [engineIxs], fun k hk => ?_⟩
    have hne : (⟨k, by omega⟩ : EngineIx) ≠ e := fun h => by rw [← h] at hk; exact absurd hk (lt_irrefl _)
    have := ho ⟨k, by omega⟩ hne
    simpa [engineIxs] using Option.ne_none_iff_isSome.mp this
  have hn : (s.grant e j rest).freeEngine = none := by
    unfold State.freeEngine
    rw [List.find?_eq_none]
    intro k _
    rw [grant_engines]
    by_cases hk : k = e
    · subst hk; simp
    · have := ho k hk
      have hv : e.val ≠ k.val := fun h => hk (Fin.ext h.symm)
      simp only [Fin.getElem_fin, Vector.getElem_set, hv, if_false]
      simpa using this
  unfold State.grantFree State.grantWithin
  rw [hq, hf]
  dsimp only
  unfold State.grantWithin
  rw [hn]
  cases (s.grant e j rest).alignQ <;> rfl

end Sys2Proof.Machine
end

