-- ==== Sys2Proof/Laws/Reported.lean ====
section
/-! SUPPORT. R162 at the operations of the commands: each either changes nothing that R162 names, or ends with the
comparison. -/

namespace Sys2Proof.Machine

/-- The event from `s` to `t` ends with the comparison where R162 says so, if `t` drives and no offer was dropped. -/
def Reported (s t : State) : Prop :=
  ReportEvent s t → t.drive = .driving → t.ring.insertQ.length < 32 → Compared s t

theorem SameRanks.not_event {s t : State} (h : SameRanks s t) : ¬ReportEvent s t := by
  unfold ReportEvent
  simp [h.state, h.effRank]

theorem Reported.quiet {s t : State} (h : SameRanks s t) : Reported s t := fun he => absurd he h.not_event

theorem Reported.refl (s : State) : Reported s s := Reported.quiet (SameRanks.refl s)

theorem Reported.floating {s t : State} (h : t.drive = .floating) : Reported s t :=
  fun _ hd => by rw [h] at hd; cases hd

/-- The records of the shelves that end up enabled count alone. -/
theorem compared_of_enabled {s s' t : State}
    (h : ∀ i, (t.shelf i).enabled = true → (s'.shelf i).lastReport = (s.shelf i).lastReport) (hc : Compared s' t) :
    Compared s t :=
  fun i hi => ⟨(hc i hi).1, fun hne => (hc i hi).2 (by rw [h i hi]; exact hne)⟩

theorem Reported.endEvent_enabled {s s1 : State}
    (h : ∀ i, (s1.shelf i).enabled = true → (s1.shelf i).lastReport = (s.shelf i).lastReport) :
    Reported s (s.endEvent s1) :=
  fun he hd hr => compared_of_enabled
    (fun i hi => h i (by rw [← (endEvent_sameReports s s1).enabled]; exact hi)) (endEvent_compared hd hr he)

theorem Reported.endEvent {s s1 : State} (h : SameRecords s s1) : Reported s (s.endEvent s1) :=
  Reported.endEvent_enabled fun i _ => h i

/-- A write that ends with the comparison whatever it changed. -/
theorem Reported.compare {s s1 : State} (h : SameRecords s s1) : Reported s s1.compareReports :=
  fun _ hd hr => h.compared
    (compareReports_compared s1 ((compareReports_kept s1).drive.symm.trans hd) (Or.inl hr))

theorem putRef_reported (s : State) (r : RefIx) (x : Reference) : Reported s (s.putRef r x) :=
  fun he hd hr => putRef_compared hd hr he

/-- What stands before an event matters by its records alone. -/
theorem Reported.of_tables {s s' t : State} (h : SameTables s s') (ht : Reported s' t) : Reported s t :=
  fun he hd hr => SameRecords.compared (fun i => by rw [h.shelf])
    (ht ((ReportEvent.congr h.sameRanks (SameRanks.refl t)).mpr he) hd hr)

/-- The reply of a request. -/
theorem Reported.placed {s : State} {a : Answer} (h : Reported s a.state) (src : Byte) (payload : List Byte) :
    Reported s (a.placed src payload) :=
  fun he hd hr => placed_compared (h ((ReportEvent.congr (SameRanks.refl s)
    (placed_sameTables a src payload).sameRanks).mp he) hd (by rw [← placed_length a src payload]; exact hr)) src payload

/-! ### The operations -/

theorem outcome_records (s : State) (i : ShelfIx) (c : Command) (t : Option RefIx) : SameRecords s (s.outcome i c t) := by
  have hl : ∀ r, SameRecords s (s.directLock i r) := fun r =>
    SameRecords.trans (t := s.updShelf i fun x => { x with
      curEdge := (s.ref r).sourceShelf, route := some r, state := .locked r })
      (updShelf_records s i _ fun _ => rfl) (offerSn_records _ i _ _ _ _)
  have hs : ∀ c r b, SameRecords s (s.startSwitch i c r b) := by
    intro c r b
    have h := updShelf_records s i (fun x => { x with
      pendEdge := (s.ref r).sourceShelf, state := .waiting c r b }) fun _ => rfl
    intro j
    refine Eq.trans ?_ (h j)
    unfold State.startSwitch State.grantFree
    generalize hu : { (s.updShelf i fun x => { x with pendEdge := (s.ref r).sourceShelf, state := .waiting c r b }) with
        alignQ := s.alignQ ++ [i] } = u
    obtain ⟨st, e⟩ := grantWithin_shelf_state j 4 u
    rw [e, ← hu]
    rfl
  unfold State.outcome
  split
  · exact enterHoldover_records s i _ _
  · split
    · exact SameRecords.refl s
    · exact hs _ _ _
  · exact hl _
  · exact hl _
  all_goals exact SameRecords.refl s

theorem settleExpired_records (s : State) (i : ShelfIx) : SameRecords s (s.settleExpired i) := by
  unfold State.settleExpired
  split
  · split
    · exact updShelf_records s i _ fun _ => rfl
    · split
      · unfold State.decideShelf
        dsimp only
        have h : SameRecords s (s.updShelf i fun x => x.judged (s.clearsManual i) (s.loopBlocked i)) :=
          updShelf_records s i _ fun _ => rfl
        split
        · exact ((h.trans (outcome_records _ i _ _)).trans (follow_records _ _)).trans (markShelf_records _ i)
        · exact (h.trans (outcome_records _ i _ _)).trans (follow_records _ _)
      · exact SameRecords.refl s
  all_goals exact SameRecords.refl s

theorem engineEnds_reported (s : State) (hard : Bool) (e : EngineIx) (g : Nat) : Reported s (s.engineEnds hard e g) := by
  unfold State.engineEnds
  split
  · exact Reported.refl s
  · split
    · exact Reported.endEvent ((moveToTarget_records s hard _).trans (follow_records _ _))
    · exact Reported.refl s

theorem writeShelf_reported (s : State) (i : ShelfIx) (cfg : ShelfConfig) : Reported s (s.writeShelf i cfg) := by
  unfold State.writeShelf
  refine Reported.compare (SameRecords.trans ?_ (follow_records _ _))
  have h : SameRecords s (s.updShelf i fun x => { x with cfg := cfg }) := updShelf_records s i _ fun _ => rfl
  split
  · exact h.trans (markShelf_records _ i)
  · exact h

theorem writeList_reported (s : State) (i : ShelfIx) (l : List Candidate) : Reported s (s.writeList i l) := by
  have h1 : SameRecords s (s.updShelf i fun x =>
      let y := { x with list := l }
      if y.commandStands then y else { y with command := .none }) := by
    refine updShelf_records s i _ fun x => ?_
    dsimp only
    split <;> rfl
  have h2 : ∀ u : State, SameRecords u (u.candTarget i) := by
    intro u
    unfold State.candTarget
    split
    · split
      · exact SameRecords.refl u
      · exact (abandon_records u i).trans (follow_records _ _)
    · exact SameRecords.refl u
  have h3 : ∀ u : State, SameRecords u (u.candCurrent i) := by
    intro u
    unfold State.candCurrent
    split
    · split
      · exact SameRecords.refl u
      · exact (loseCurrent_records u i).trans (follow_records _ _)
    · exact SameRecords.refl u
  unfold State.writeList
  exact Reported.endEvent (((h1.trans (h2 _)).trans (h3 _)).trans (markShelf_records _ i))

theorem enableShelf_reported (s : State) (i : ShelfIx) : Reported s (s.enableShelf i) := by
  unfold State.enableShelf
  refine Reported.endEvent ((updShelf_records s i _ fun x => ?_).trans (follow_records _ _))
  rw [mark_record]

theorem disableShelf_reported (s : State) (i : ShelfIx) : Reported s (s.disableShelf i) := by
  have hc : SameRecords s (s.closeShelf i) := by
    unfold State.closeShelf
    dsimp only
    refine SameRecords.trans ?_ (updShelf_records _ i _ fun _ => rfl)
    refine SameRecords.trans ?_ (releaseSwitch_records _ i)
    split
    · exact offerSn_records s i _ _ _ _
    · exact SameRecords.refl s
  have ho : ((s.closeShelf i).shelf i).state = .off := by
    unfold State.closeShelf
    rw [updShelf_shelf_self]
  have hf : ((s.follow (s.closeShelf i)).shelf i).state = .off := by
    rw [(follow_sameBut i s (s.closeShelf i) (by simp [Shelf.switching, ho, ShelfState.cls])).state, ho]
  unfold State.disableShelf
  refine Reported.endEvent_enabled fun j hj => ?_
  by_cases hij : j = i
  · subst hij
    rw [(offerSq_sameReports _ j).enabled] at hj
    simp [Shelf.enabled, hf, ShelfState.cls] at hj
  · rw [offerSq_shelf_of_ne _ hij]
    exact (hc.trans (follow_records s _)) j

theorem changeLockout_reported (s : State) (i : ShelfIx) (r : RefIx) (on : Bool) :
    Reported s (s.changeLockout i r on) := by
  unfold State.changeLockout
  dsimp only
  refine Reported.endEvent (SameRecords.trans ?_ (markShelf_records _ i))
  have h : SameRecords s (s.updShelf i fun x => { x with
      list := setLockout r on x.list, command := if on && x.command.names r then .none else x.command }) :=
    updShelf_records s i _ fun _ => rfl
  split
  · exact (h.trans (abandon_records _ i)).trans (follow_records _ _)
  · exact h

theorem warmRestart_reported (s : State) : Reported s s.warmRestart := by
  refine Reported.quiet ?_
  unfold State.warmRestart
  refine SameRanks.trans ?_ (offerRun_sameReports (fun v i => (v.shelf i).enabled) shelfIxs _).sameRanks
  refine ⟨fun r => ?_, fun r => ?_, fun i => ?_, fun i => ?_⟩
  · rw [mapShelves_ref, mapRefs_ref]; rfl
  · rw [mapShelves_ref, mapRefs_ref]; rfl
  · rw [mapShelves_shelf, mapRefs_shelf]; unfold Shelf.restarted; rw [mark_eq]; rfl
  · rw [mapShelves_shelf, mapRefs_shelf]; unfold Shelf.restarted; rw [mark_eq]; rfl

theorem announce_reported (s : State) (src : Byte) (l : List QaEntry) : Reported s (s.announce src l) := by
  have h : SameRecords s (l.foldl (State.takeEntry src) s) := by
    refine foldl_induct (P := fun t => SameRecords s t) _ (fun t e ht => ht.trans ?_) l s (SameRecords.refl s)
    unfold State.takeEntry
    split
    · exact fun i => by rw [setRef_shelf]
    · exact fun _ => rfl
  unfold State.announce
  exact Reported.endEvent (h.trans (follow_records _ _))

end Sys2Proof.Machine
end

