-- ==== Sys2Proof/Laws/Time.lean ====
section
/-! SUPPORT. What the passing of time does to each record. -/

namespace Sys2Proof.Machine

/-- An expiry is due exactly when the timer runs with nothing left. -/
@[simp] theorem Timer.due_iff (t : Timer) : Timer.due t = true ↔ t = some 0 := by
  simp [Timer.due]

/-- A timer that has been started again has no expiry due. -/
@[simp] theorem Timer.not_due_started (n : Nat) : Timer.due (some (n + 1)) = false := rfl

/-- A stopped timer has no expiry due. -/
@[simp] theorem Timer.not_due_stopped : Timer.due none = false := rfl

@[simp] theorem elapse_ref (d : Nat) (s : State) (r : RefIx) : (s.elapse d).ref r = (s.ref r).elapse d := by
  unfold State.elapse State.mapShelves State.mapRefs State.ref
  simp

@[simp] theorem elapse_shelf (d : Nat) (s : State) (i : ShelfIx) : (s.elapse d).shelf i = (s.shelf i).elapse d := by
  unfold State.elapse State.mapShelves State.mapRefs State.shelf
  simp

@[simp] theorem elapse_ring (d : Nat) (s : State) : (s.elapse d).ring =
    { s.ring with sendLeft := s.ring.sendLeft - d, idleLeft := s.ring.idleLeft - d } := rfl

/-- A monitor's watch runs down, and the gate under a running watch counts. -/
theorem Monitor.elapse_eq (d : Nat) (m : Monitor) : m.elapse d = { m with
    watch := m.watch.map (· - d)
    ticks := match m.watch, m.gate with
      | some w, .opened => m.ticks + min d w
      | _, _ => m.ticks } := by
  unfold Monitor.elapse
  cases m with
  | mk p run signal watch gate =>
    cases watch <;> cases gate <;> rfl

end Sys2Proof.Machine
end

