-- ==== Sys2Proof/Tests/Slice0.lean ====
section
/-! SUPPORT. The package's own tests: ill-formed commands, one step of each command on a small state, and for every
obligation with hypotheses a state and operands that meet them, clause by clause. -/

namespace Sys2Proof.Tests

set_option Elab.async false

open Sys2Proof.Machine

/-! ### Ill-formed commands -/

theorem test_wellFormed_accepts :
    (Instr.comparisonPulse 0 15625 250000).wellFormed = true ∧ (Instr.receiverReady (List.replicate 16 true)).wellFormed
      ∧ (Instr.unknownRequestCode 1 [0x06, 0]).wellFormed = true
      ∧ (Instr.wrXlate 1 0 (List.replicate 86 0)).wellFormed = true := by decide

theorem test_wellFormed_refuses_cycles : (Instr.comparisonPulse 0 15626 0).wellFormed = false := by decide
theorem test_wellFormed_refuses_ticks : (Instr.comparisonPulse 0 1 250001).wellFormed = false := by decide
theorem test_wellFormed_refuses_levels :
    (Instr.receiverReady (List.replicate 17 true)).wellFormed = false := by decide
theorem test_wellFormed_refuses_known_code : (Instr.unknownRequestCode 1 [0x01, 0]).wellFormed = false := by decide
theorem test_wellFormed_refuses_long_payload :
    (Instr.unknownRequestCode 1 (List.replicate 89 0xFF)).wellFormed = false := by decide
theorem test_wellFormed_refuses_long_arguments :
    (Instr.rdRef 1 0 (List.replicate 87 0)).wellFormed = false := by decide

/-! ### Small states -/

/-- What the next state shows, if there is one. -/
def read {α : Type} (o : Host.Outcome State Fault Refusal) (f : State → α) : Option α :=
  match o with
  | .next t => some (f t)
  | .fault _ => none
  | .refused _ => none

/-- After reset, with ROLE high and the outputs driven. -/
def up : State := { State.reset with role := true, drive := .driving }

/-- The timer of a state of R63, its expiry due. -/
def inState (st st' : RefState) : Timer := if st = st' then some 0 else none

/-- A FIXED reference of rank 2 in a state of R63. -/
def fixed (st : RefState) : Reference :=
  { Reference.cold with
    cfg := { RefConfig.cold with kind := .fixed, fixedRank := 2, gate := .g800 }
    mon := { Monitor.started with
      watch := some 9, gate := .opened, settling := false, last := some 0, filtered := some 0, qual := .inside
      verdict := if st = .active ∨ st = .restoring then .good else .fail
      hits := if st = .active ∨ st = .restoring then 0 else 1 }
    rt := { RefDynamic.cold with
      state := st, holdOffTimer := inState st .holdoff, restoreTimer := inState st .restoring
      decayTimer := inState st .active } }

/-- A DERIVED reference in ACTIVE with a source shelf. -/
def derived (i : ShelfIx) : Reference :=
  { fixed .active with cfg := { (fixed .active).cfg with kind := .derived, source := some i } }

/-- A shelf in a state, which lists references 0 and 1, with its settle expiry due. -/
def shelfIn (x : ShelfState) : Shelf :=
  { Shelf.cold with
    state := x, list := [⟨0, 1, false⟩, ⟨1, 2, false⟩], route := x.current
    sel := if x = .off then .clean else .settling 0 }

/-- The same shelf, CLEAN. -/
def clean (x : ShelfState) : Shelf := { shelfIn x with sel := .clean }

/-- References 0 and 1 ACTIVE, and shelf 0 in the state `x`. -/
def node (x : ShelfState) : State :=
  ((up.setRef 0 (fixed .active)).setRef 1 (fixed .active)).setShelf 0 (shelfIn x)

/-- `node`, with engine 2 held by the shelf under grant 0, its limit run out. -/
def aligning : State :=
  { node (.aligning 0 1 .automatic) with
    engines := up.engines.set 2 (some { shelf := 0, grant := 0, timer := 0 }), grants := 1 }

/-- `s` with shelf 0 changed. -/
def with0 (s : State) (f : Shelf → Shelf) : State := s.updShelf 0 f

/-- `s` with reference 0 in a state of R63. -/
def ref0 (s : State) (st : RefState) : State := s.setRef 0 (fixed st)

/-- Reference 0 of `s` with its activity watch's expiry due. -/
def silent (s : State) : State := s.setRef 0 { s.ref 0 with mon := { (s.ref 0).mon with watch := some 0 } }

/-- `s` with the refresh timer's expiry due. -/
def stale (s : State) : State := { s with refreshTimer := some 0 }

/-- `s` with its ring port changed. -/
def ring (s : State) (f : Ring → Ring) : State := s.updRing f

/-- A broadcast Selection Notice of another station. -/
def someFrame : Frame := { dest := 0xFF, src := 5, type := 0x23, ttl := 2, payload := [0, 0, 0, 0, 0] }

/-- The status octets of the replies that wait. -/
def statuses (s : State) : List Byte :=
  s.ring.insertQ.filterMap fun e => match e with
    | .rep f => f.payload[2]?
    | .reserved => none
    | .sq _ _ => none
    | .sn _ => none

/-! ### One step of each command -/

theorem test_frameArrival :
    read (exec .frameArrival (ring up fun g => { g with receiver := .inFrame (someFrame.wire) 12 false }))
      (fun t => (t.ring.rxQ, t.ring.receiver)) = some ([someFrame], .ready) := by decide +kernel

theorem test_frameTake : read (exec .frameTake (ring up fun g => { g with rxQ := [someFrame] }))
    (fun t => (t.ring.rxQ, t.ring.relayQ)) = some ([], [{ someFrame with ttl := 1 }]) := by decide +kernel

theorem test_transmissionStart : read (exec .transmissionStart (ring up fun g => { g with relayQ := [someFrame] }))
    (fun t => (t.ring.relayQ, t.ring.sending.map (·.take 5), t.ring.sendLeft, t.sto))
      = some ([], some [0xFF, 5, 0x23, 2, 5], 2400, false) := by decide +kernel

theorem test_transmissionStart_in_the_idle :
    read (exec .transmissionStart (ring up fun g => { g with relayQ := [someFrame], idleLeft := 1 }))
      (fun t => (t.ring.sending, t.ring.relayQ)) = some (none, [someFrame]) := by decide +kernel

/-- The octet 96h on STO, bit time by bit time: a start bit, bits 0 to 7 of 1001 0110, a stop bit, and the idle. -/
theorem test_sto :
    (List.range 11).map (fun k => (ring up fun g => { g with sending := some [0x96], sendLeft := 200 - 20 * k }).sto)
      = [false, false, true, true, false, true, false, false, true, true, true] := by decide +kernel

theorem test_transmissionEnd : read (exec .transmissionEnd (ring up fun g => { g with sending := some [1, 2] }))
    (fun t => (t.ring.sending, t.ring.idleLeft)) = some (none, 320) := by decide +kernel

theorem test_transmissionEnd_in_the_frame :
    read (exec .transmissionEnd (ring up fun g => { g with sending := some [1, 2], sendLeft := 1 })) (·.ring.sending)
      = some (some [1, 2]) := by decide +kernel

theorem test_receiverReady :
    read (exec (.receiverReady [false, true, true]) State.reset) (·.ring.receiver) = some (.waitIdle 2)
      ∧ read (exec (.receiverReady (List.replicate 16 true)) State.reset) (·.ring.receiver) = some .ready := by
  decide +kernel

theorem test_octetTaken : read (exec (.octetTaken 0x42 true) (ring up fun g => { g with receiver := .ready }))
    (·.ring.receiver) = some (.inFrame [0x42] 1 false) := by decide +kernel

theorem test_comparisonPulse :
    read (exec (.comparisonPulse 0 1 5) (node .free)) (fun t => ((t.ref 0).mon.pulses, (t.ref 0).mon.ticks,
      (t.ref 0).mon.watch)) = some (1, 5, some 250000) := by decide +kernel

theorem test_offsetResult : offsetResult .g800 25000001 = -40 ∧ offsetResult .g8000 250000000 = 0
    ∧ offsetResult .g80000 2500000003 = -1 ∧ offsetResult .g80000 2499999996 = 2
    ∧ offsetResult .g800 0 = 1000000 ∧ filterStep 3 (some 0) 15 = 1 ∧ filterStep 3 (some 0) (-15) = -1
    ∧ filterStep 0 (some 7) 40 = 40 := by decide +kernel

theorem test_activityWatchExpiry : read (exec (.activityWatchExpiry 0) (silent (node .free)))
    (fun t => ((t.ref 0).mon.signal, (t.ref 0).rt.state, (t.ref 0).rt.holdOffTimer, t.alarm))
      = some (.lost, .holdoff, some 75000000, true) := by decide +kernel

/-- R9: a pulse taken first restarts the watch, and the expiry that was due declares no loss. -/
theorem test_pulse_before_watch_expiry :
    ((silent (node .free)).ref 0).watchExpired.mon.signal = .lost
      ∧ (((silent (node .free)).ref 0).clockIn 1 0).watchExpired.mon.signal = .present := by decide +kernel

theorem test_holdOffExpiry : read (exec (.holdOffExpiry 0) (ref0 (node (.locked 0)) .holdoff))
    (fun t => ((t.ref 0).rt.state, (t.shelf 0).state, t.output 0, (t.shelf 0).latches.holdover))
      = some (.failed, .holdover .inSpec (some 225000000000), .low, true) := by decide +kernel

theorem test_restoreWaitExpiry : read (exec (.restoreWaitExpiry 0) (ref0 (node .free) .restoring))
    (fun t => ((t.ref 0).rt.state, (t.ref 0).rt.decayTimer)) = some (.active, some 225000000000) := by decide +kernel

theorem test_decayExpiry : read (exec (.decayExpiry 0) (up.setRef 0 { fixed .active with
      rt := { (fixed .active).rt with flap := 2 } }))
    (fun t => ((t.ref 0).rt.flap, (t.ref 0).rt.decayTimer)) = some (1, some 225000000000) := by decide +kernel

theorem test_announcementTimerExpiry : read (exec (.announcementTimerExpiry 0) (up.setRef 0 { fixed .active with
      qt := { received := 3, source := .announced, timer := some 0 } }))
    (fun t => ((t.ref 0).qt, (t.ref 0).rt.latches.timeout)) = some (⟨15, .timedOut, none⟩, true) := by decide +kernel

theorem test_settleTimerExpiry : read (exec (.settleTimerExpiry 0) (node .free))
    (fun t => ((t.shelf 0).state, t.output 0, (t.shelf 0).sel)) = some (.locked 0, .clock 0, .clean) := by decide +kernel

theorem test_settleTimerExpiry_switch :
    read (exec (.settleTimerExpiry 0) (with0 (node (.locked 1)) fun x => { x with cfg := { x.cfg with mode := .revertive } }))
      (fun t => ((t.shelf 0).state, t.output 0, t.engines[(0 : EngineIx)].map (·.timer)))
      = some (.aligning 1 0 .automatic, .clock 1, some 2500000) := by decide +kernel

theorem test_engineDone : read (exec (.engineDone 2 0) aligning)
    (fun t => ((t.shelf 0).state, t.output 0, t.engines[(2 : EngineIx)])) = some (.locked 1, .clock 1, none) := by
  decide +kernel

theorem test_alignmentLimitExpiry : read (exec (.alignmentLimitExpiry 2 0) aligning)
    (fun t => ((t.shelf 0).state, (t.shelf 0).latches.hard)) = some (.locked 1, true) := by decide +kernel

theorem test_holdoverPhaseExpiry :
    read (exec (.holdoverPhaseExpiry 0) (node (.holdover .inSpec (some 0))))
      (fun t => ((t.shelf 0).state, t.outRank 0)) = some (.holdover .degraded (some 3600000000000), 12) := by
  decide +kernel

theorem test_refreshExpiry : read (exec .refreshExpiry (stale (node (.locked 0))))
    (fun t => (t.refreshTimer, t.ring.insertQ.length, (t.shelf 0).lastReport.map (·.rank)))
      = some (some 250000000, 1, some 2) := by decide +kernel

theorem test_pins : read (exec .roleFallingEdge (node (.locked 0))) (fun t => (t.drive, t.output 0))
      = some (.floating, .highImpedance)
    ∧ read (exec .roleRisingEdge State.reset) (fun t => (t.role, t.drive)) = some (true, .floating)
    ∧ read (exec .resetAssert (node (.locked 0))) (fun t => (t.resetn, t.shelf 0)) = some (false, Shelf.cold)
    ∧ read (exec (.resetRelease 10) (State.cold true 0 [])) (fun t => (t.ring.station, t.refreshTimer))
      = some (0x4A, some 250000000) := by decide +kernel

theorem test_unknownRequestCode :
    read (exec (.unknownRequestCode 1 [0x7F]) State.reset) (fun t => t.ring.insertQ)
      = some [.rep { dest := 1, src := 64, type := 0x31, ttl := 16, payload := [0x7F, 0, 0x02] }] := by decide +kernel

theorem test_reads : read (exec (.rdRef 1 9 [31]) up) statuses = some [0]
    ∧ read (exec (.rdShelf 1 9 [24]) up) statuses = some [3] ∧ read (exec (.rdXlate 1 9 [2]) up) statuses = some [0]
    ∧ read (exec (.rdGlobal 1 9 []) up) (fun t => t.ring.insertQ)
      = some [.rep { dest := 1, src := 64, type := 0x31, ttl := 16, payload := [4, 9, 0, 0, 64, 1, 5, 10, 16, 3] }]
    ∧ read (exec (.rdCount 1 9 [0]) up) statuses = some [2] := by decide +kernel

/-- Reference configuration octets: FIXED, class 0, gate 8,000, depth 3, A 4,600, J 9,200, hold-off 1,001 steps. -/
def octets23 : List Byte :=
  [1, 0, 1, 3, 0, 0x11, 0xF8, 0, 0x23, 0xF0, 0, 0, 0, 0x03, 0xE9, 0x01, 0x2C, 0xFF, 4, 0xFF, 0, 0xFF, 0xFF]

theorem test_wrRef : read (exec (.wrRef 1 9 (2 :: octets23)) up) (fun t => (statuses t, (t.ref 2).cfg))
    = some ([1], { RefConfig.cold with kind := .fixed, holdOff := 1000, fixedRank := 4 }) := by decide +kernel

theorem test_wrShelf : read (exec (.wrShelf 1 9 [5, 1, 10, 0, 2, 1, 2, 3, 0, 1, 0x10, 0]) up)
    (fun t => (statuses t, (t.shelf 5).cfg)) = some ([0],
      { mode := .revertive, floor := 10, window := .short, dialect := .two, holdoverRank := 1, degradedRank := 2
        freeRank := 3, phaseA := 1, phaseB := 4096 }) := by decide +kernel

theorem test_wrCand : read (exec (.wrCand 1 9 [0, 2, 1, 0x81, 7, 2]) (node (.locked 0)))
    (fun t => (statuses t, (t.shelf 0).list, (t.shelf 0).state.cls))
      = some ([0], [⟨1, 1, true⟩, ⟨7, 2, false⟩], .holdover) := by decide +kernel

theorem test_wrXlate : read (exec (.wrXlate 1 9 (2 :: (List.replicate 16 0x83 ++ List.replicate 16 7))) up)
    (fun t => (t.dialect2.inTable[(4 : Code)], t.dialect2.outTable[(15 : Code)], t.dialect1))
      = some (⟨true, 3⟩, 7, XlateTable.cold) := by decide +kernel

theorem test_wrGlobal : read (exec (.wrGlobal 1 9 [0x12, 70, 0, 15, 31, 63]) up)
    (fun t => (statuses t, t.globals, t.ring.station)) = some ([1],
      { controller := 0x12, refreshInterval := 1, announceTimeout := 15, alignLimit := 30 }, 70) := by decide +kernel

theorem test_refOn : read (exec (.refOn 1 7 [3]) State.reset)
    (fun t => (statuses t, (t.ref 3).rt.state, (t.ref 3).mon.watch, (t.ref 3).qt.timer))
      = some ([0], .starting, some 250000, some 1250000000) := by decide +kernel

theorem test_refOff : read (exec (.refOff 1 7 [0]) (node (.locked 0)))
    (fun t => (statuses t, (t.ref 0).rt.state, (t.shelf 0).state.cls)) = some ([0], .disabled, .holdover) := by
  decide +kernel

theorem test_shelfOn : read (exec (.shelfOn 1 7 [0]) (node .off))
    (fun t => (statuses t, (t.shelf 0).state, (t.shelf 0).sel, t.outRank 0))
      = some ([0], .free, .settling 250000000, 14) := by decide +kernel

theorem test_shelfOff : read (exec (.shelfOff 1 7 [0]) (node (.locked 0)))
    (fun t => ((t.shelf 0).state, t.ring.insertQ.length, (t.shelf 0).lastReport.map (·.cls)))
      = some (.off, 3, some .off) := by decide +kernel

theorem test_cmd : read (exec (.cmdManual 1 7 0 1) (node .free)) (fun t => (statuses t, (t.shelf 0).command))
      = some ([0], .manual 1)
    ∧ read (exec (.cmdForced 1 7 0 2) (node .free)) statuses = some [7]
    ∧ read (exec (.cmdHold 1 7 0 0xFF) (node .free)) (fun t => (t.shelf 0).command) = some .hold
    ∧ read (exec (.cmdClear 1 7 0 0) (with0 (node .free) fun x => { x with command := .hold }))
      (fun t => (t.shelf 0).command) = some .none := by decide +kernel

theorem test_lock : read (exec (.lock 1 7 [0, 1, 1]) (node (.locked 0)))
    (fun t => (statuses t, (t.shelf 0).list)) = some ([0], [⟨0, 1, false⟩, ⟨1, 2, true⟩]) := by decide +kernel

theorem test_clrWtr : read (exec (.clrWtr 1 7 [0]) (ref0 (node .free) .restoring))
    (fun t => (statuses t, (t.ref 0).rt.state)) = some ([0], .active) := by decide +kernel

theorem test_ack : read (exec (.ack 1 7 [1, 0, 3]) (with0 (node .free) fun x =>
      { x with latches := { x.latches with holdover := true, hard := true, abandon := true } }))
    (fun t => (statuses t, (t.shelf 0).latches)) = some ([0], ⟨false, false, false, true⟩) := by decide +kernel

theorem test_clrCount : read (exec (.clrCount 1 7 []) (ring up fun g => { g with
      counters := { g.counters with check := 5 } })) (fun t => t.ring.counters) = some Counters.zero := by decide +kernel

theorem test_restart : read (exec (.restart 1 7 []) (ring (node (.locked 0)) fun g => { g with relayQ := [someFrame] }))
    (fun t => (statuses t, t.ring.relayQ, t.ring.insertQ.length, (t.shelf 0).state)) = some ([0], [], 2, .locked 0) := by
  decide +kernel

theorem test_roles : read (exec (.takeRole 1 7 []) State.reset) statuses = some [0x0A]
    ∧ read (exec (.takeRole 1 7 []) { node (.locked 0) with drive := .floating })
      (fun t => (t.drive, t.ring.insertQ.length)) = some (.driving, 2)
    ∧ read (exec (.yieldRole 1 7 []) (node (.locked 0))) (fun t => (statuses t, t.drive)) = some ([0], .floating) := by
  decide +kernel

/-! ### The hypotheses of the obligations are met -/

/-- The step answers a next state. -/
def steps (s : State) : Bool := (read (step s) fun _ => true).isSome

/-- A request from station 1 is taken in its step. -/
abbrev Open (s : State) : Prop := s.readyFor 1 ∧ s.admits 1

/-- `s` under the controller address 5. -/
def owned (s : State) : State := { s with globals := { s.globals with controller := 5 } }

/-- `s` with `n` Selection Notices waiting. -/
def waiting (n : Nat) (s : State) : State := ring s fun g => { g with insertQ := List.replicate n (.sn someFrame) }

theorem test_witness_EveryCommandAnswersANextState :
    (State.cold true 0 []).resetn = false ∧ Instr.frameTake ≠ .resetAssert ∧ Instr.frameTake ≠ .resetRelease 3
      ∧ Instr.frameTake ≠ .roleFallingEdge ∧ Instr.frameTake ≠ .roleRisingEdge := by decide

theorem test_witness_EmptyQueueLetsOneTickPass :
    (State.cold true 0 []).pending = [] ∧ (State.cold true 0 []).resetn = false
      ∧ (node .free).pending = [] ∧ (node .free).resetn = true
      ∧ read (step (ring (node .free) fun g => { g with sendLeft := 3 }))
          (fun t => ((t.ref 0).mon.watch, (t.ref 0).mon.ticks, (t.shelf 0).sel, t.ring.sendLeft))
        = some (some 8, 1, .settling 0, 2) := by decide +kernel

theorem test_witness_ResetAssertAndRelease :
    up.resetn = true ∧ (State.cold true 0 []).resetn = false
      ∧ read (exec .resetAssert up) (·.resetn) = some false := by decide +kernel

theorem test_witness_RoleEdgesAndYieldRole :
    State.reset.drive = .floating ∧ up.drive = .driving ∧ Open State.reset ∧ Open up := by decide +kernel

theorem test_witness_TakeRoleDrivesTheOutputs :
    (Open State.reset ∧ State.reset.role = false) ∧ (Open up ∧ up.role = true ∧ up.drive = .driving)
      ∧ let s := waiting 7 { node (.locked 0) with drive := .floating }
        Open s ∧ s.role = true ∧ s.drive = .floating ∧ s.ring.insertQ.length + 25 ≤ 32 ∧ (s.shelf 0).enabled = true := by
  decide +kernel

theorem test_witness_OutputsAndAlarm :
    (State.cold true 0 []).resetn = false ∧ (State.reset.resetn = true ∧ State.reset.drive = .floating)
      ∧ (up.resetn = true ∧ up.drive = .driving ∧ (up.shelf 0).route = none)
      ∧ ((node (.locked 0)).drive = .driving ∧ ((node (.locked 0)).shelf 0).route = some 0) := by decide +kernel

/-- Shelf 0's monitor of reference 0 with `f` applied, at rate class 1 (divisor 8). -/
def watched (f : Monitor → Monitor) : State :=
  up.setRef 0 { fixed .active with
    cfg := { (fixed .active).cfg with rate := 1, hit := 10 }, mon := f { (fixed .active).mon with prescaler := 1 } }

theorem test_witness_PulsesAreCounted :
    (State.reset.ref 0).mon.run = .idle
      ∧ ((watched id).resetn = true ∧ ((watched id).ref 0).mon.run = .running
        ∧ ((watched id).ref 0).mon.prescaler + 6 < rateDivisor ((watched id).ref 0).cfg.rate
        ∧ rateDivisor ((watched id).ref 0).cfg.rate ≤ ((watched id).ref 0).mon.prescaler + 7)
      ∧ (let x := (watched fun m => { m with signal := .lost, qual := .unmeasured, verdict := .fail }).ref 0
        x.mon.signal = .lost ∧ x.mon.qual = .unmeasured ∧ x.mon.verdict = .fail)
      ∧ (((watched fun m => { m with gate := .closed }).ref 0).mon.signal = .present
        ∧ ((watched fun m => { m with gate := .closed }).ref 0).mon.gate = .closed)
      ∧ let x := (watched fun m => { m with pulses := 798 }).ref 0
        x.mon.gate = .opened ∧ x.mon.pulses + 1 < x.cfg.gate.size := by decide +kernel

theorem test_witness_GateCloses :
    let ready : State → Bool := fun s =>
      s.resetn && (s.ref 0).mon.run == .running && (s.ref 0).mon.signal == .present && (s.ref 0).mon.gate == .opened
        && decide ((s.ref 0).cfg.gate.size ≤ (s.ref 0).mon.pulses + 1) && (s.ref 0).mon.verdict == (s.ref 0).mon.formVerdict
    let last : Monitor → Monitor := fun m => { m with pulses := 799 }
    let result : State → Int := fun s => offsetResult (s.ref 0).cfg.gate ((s.ref 0).mon.elapse 1).ticks
    let ticks : Nat → Monitor → Monitor := fun n m => { last m with ticks := n }
    (ready (watched fun m => { last m with settling := true }) = true)
      ∧ (ready (watched (ticks 24999999)) = true ∧ result (watched (ticks 24999999)) = 0)
      ∧ (ready (watched (ticks 0)) = true ∧ result (watched (ticks 0)) = 1000000
        ∧ ((watched (ticks 0)).ref 0).mon.filtered = some 0 ∧ ((watched (ticks 0)).ref 0).mon.hits + 1 < 3)
      ∧ ready (watched fun m => { last m with hits := 2, verdict := .fail }) = true
      ∧ 3 ≤ ((watched fun m => { last m with hits := 2, verdict := .fail }).ref 0).mon.hits + 1 := by
  decide +kernel

/-- The close that fails an ACTIVE reference marks the shelf that lists it. -/
theorem test_witness_GateCloses_marks :
    let s := (watched fun m => { m with pulses := 799, ticks := 0 }).setShelf 0 (clean (.locked 0))
    (s.shelf 0).state ≠ .off ∧ (∃ c ∈ (s.shelf 0).list, c.ref = 0)
      ∧ read (exec (.comparisonPulse 0 7 1) s) (fun t => ((t.ref 0).rt.state, (t.shelf 0).sel))
        = some (.holdoff, .settling 250000000) := by decide +kernel

theorem test_witness_VerdictEventsMoveTheState :
    (fixed .starting).rt.state = .starting ∧ (fixed .active).rt.state = .active ∧ (fixed .failed).rt.state = .failed
      ∧ (fixed .restoring).rt.state = .restoring ∧ Reference.cold.rt.state = .disabled
      ∧ ({ RefConfig.cold with holdOff := 0 } : RefConfig).holdOff = 0 ∧ 0 < RefConfig.cold.holdOff
      ∧ min 3600 (RefConfig.cold.restoreBase * 2 ^ (3 : Fin 4).val) = 2400
      ∧ min 3600 (({ RefConfig.cold with restoreBase := 0 } : RefConfig).restoreBase * 2 ^ (3 : Fin 4).val) = 0 := by
  decide +kernel

theorem test_witness_ReferenceTimersExpire :
    up.resetn = true
      ∧ (¬((up.ref 0).mon.run = .running ∧ (up.ref 0).mon.watch = some 0) ∧ ((node .free).ref 0).mon.watch = some 9)
      ∧ (let s := silent (with0 (node (.locked 0)) fun x => { x with sel := .clean })
        (s.ref 0).mon.run = .running ∧ (s.ref 0).mon.watch = some 0 ∧ (s.shelf 0).state ≠ .off
          ∧ (∃ c ∈ (s.shelf 0).list, c.ref = 0)
          ∧ read (exec (.activityWatchExpiry 0) s) (fun t => ((t.ref 0).rt.state, (t.shelf 0).sel))
            = some (.holdoff, .settling 250000000))
      ∧ (fixed .holdoff).rt.state = .holdoff ∧ (fixed .holdoff).rt.holdOffTimer = some 0
      ∧ (fixed .restoring).rt.state = .restoring ∧ (fixed .restoring).rt.restoreTimer = some 0
      ∧ (fixed .active).rt.decayTimer = some 0 ∧ (fixed .failed).rt.decayTimer = none
      ∧ (up.ref 0).qt.timer = none
      ∧ (let s := (with0 (node (.locked 0)) fun x => { x with sel := .clean }).setRef 0 { fixed .active with
          cfg := RefConfig.cold, qt := ⟨3, .announced, some 0⟩ }
        (s.ref 0).qt.timer = some 0 ∧ (s.ref 0).cfg.kind = .announced ∧ (s.ref 0).cfg.overrideRank = none
          ∧ s.effRank 0 ≠ 15
          ∧ read (exec (.announcementTimerExpiry 0) s) (fun t => (t.shelf 0).sel) = some (.settling 250000000)) := by
  decide +kernel

theorem test_witness_ImmediateLossMutesEveryLockedShelf :
    let s := (ref0 (node (.locked 0)) .holdoff).setShelf 1 (shelfIn (.waiting 0 1 .automatic)) |>.setShelf 2
      (shelfIn (.waiting 1 0 .forced))
    let z := (ref0 (node (.aligning 0 1 .automatic)) .holdoff)
    s.resetn = true ∧ (s.ref 0).rt.state = .holdoff ∧ (s.ref 0).rt.holdOffTimer = some 0
      ∧ Open s ∧ (s.ref 0).rt.state ≠ .disabled
      ∧ (s.shelf 0).state = .locked 0
      ∧ ((s.shelf 1).state.current = some 0 ∧ (s.shelf 1).state.target = some 1 ∧ (1 : RefIx) ≠ 0)
      ∧ ((s.shelf 2).state.target = some 0 ∧ (s.shelf 2).state.current = some 1)
      ∧ (∀ j, j < (0 : ShelfIx) → (z.shelf j).state.current ≠ some 0 ∧ (z.shelf j).state.target ≠ some 0)
      ∧ read (exec (.holdOffExpiry 0) s) (fun t => (t.ring.insertQ.length, (t.shelf 0).state.cls, (t.shelf 1).state,
          (t.shelf 2).state)) = some (5, .holdover, .locked 1, .locked 1)
      ∧ read (exec (.holdOffExpiry 0) z) (fun t => ((t.shelf 0).state, (t.shelf 0).latches.hard))
        = some (.locked 1, true) := by decide +kernel

/-- The verdict FAIL that takes a reference to FAILED: the expiry of the activity watch in RESTORING, and in ACTIVE with
hold-off 0, and the close of a gate. -/
theorem test_witness_ImmediateLossMutesEveryLockedShelf_verdict :
    let restoring := silent ((node (.locked 0)).setRef 0 { fixed .restoring with
      mon := { (fixed .restoring).mon with verdict := .good } })
    let active := silent ((node (.locked 0)).setRef 0 { fixed .active with cfg := { (fixed .active).cfg with holdOff := 0 } })
    let shut := (watched fun m => { m with pulses := 799, ticks := 0 }).setShelf 0 (clean (.locked 0))
    let closing := shut.setRef 0 { shut.ref 0 with cfg := { (shut.ref 0).cfg with holdOff := 0 } }
    (restoring.ref 0).mon.run = .running ∧ (restoring.ref 0).mon.watch = some 0
      ∧ (restoring.ref 0).mon.verdict = .good ∧ (restoring.ref 0).rt.state = .restoring
      ∧ read (exec (.activityWatchExpiry 0) restoring) (fun t => (t.shelf 0).state.cls) = some .holdover
      ∧ (active.ref 0).rt.state = .active ∧ (active.ref 0).cfg.holdOff = 0
      ∧ read (exec (.activityWatchExpiry 0) active) (fun t => (t.shelf 0).state.cls) = some .holdover
      ∧ (closing.ref 0).rt.state ≠ .failed
      ∧ read (exec (.comparisonPulse 0 7 1) closing) (fun t => ((t.ref 0).rt.state, (t.shelf 0).state.cls))
        = some (.failed, .holdover) := by decide +kernel

theorem test_witness_RefOnAndRefOff :
    Open up ∧ 32 ≤ (32 : Byte).toNat ∧ (up.ref 0).rt.state = .disabled ∧ ((node .free).ref 0).rt.state ≠ .disabled
      ∧ Open (node .free)
      ∧ (((node .free).shelf 0).state ≠ .off ∧ ∃ c ∈ ((node .free).shelf 0).list, c.ref = 0) := by decide +kernel

theorem test_witness_ClrWtrEndsTheRestoreWait :
    (owned up).readyFor 1 ∧ ¬(owned up).admits 1 ∧ Open up ∧ 31 < (32 : Byte).toNat
      ∧ (up.ref 0).rt.state ≠ .restoring ∧ Open (ref0 up .restoring) ∧ ((ref0 up .restoring).ref 0).rt.state = .restoring := by
  decide +kernel

theorem test_witness_ClrWtrEndsTheRestoreWait_marks :
    let s := (ref0 (node .free) .restoring).setShelf 0 (clean .free)
    Open s ∧ (s.ref 0).rt.state = .restoring ∧ (s.shelf 0).state ≠ .off ∧ (∃ c ∈ (s.shelf 0).list, c.ref = 0)
      ∧ read (exec (.clrWtr 1 7 [0]) s) (fun t => (t.shelf 0).sel) = some (.settling 250000000) := by decide +kernel

/-- An override of rank 5 over the rank 2 that reference 0 has, and a fixed rank 6 in its place. -/
theorem test_witness_WrRefWritesTheConfiguration_marks :
    let s := (node (.locked 0)).setShelf 0 (clean (.locked 0))
    let put : RefConfig := { (s.ref 0).cfg with overrideRank := some 5 }
    let fix : RefConfig := { (s.ref 0).cfg with fixedRank := 6 }
    Open s ∧ s.effRank 0 = 2 ∧ (s.shelf 0).state ≠ .off ∧ (∃ c ∈ (s.shelf 0).list, c.ref = 0)
      ∧ readRefConfig put.octets = some ⟨put, false⟩ ∧ readRefConfig fix.octets = some ⟨fix, false⟩
      ∧ (s.setRef 0 { s.ref 0 with cfg := put }).effRank 0 ≠ s.effRank 0
      ∧ read (exec (.wrRef 1 9 (0 :: put.octets)) s) (fun t => (t.shelf 0).sel) = some (.settling 250000000)
      ∧ read (exec (.wrRef 1 9 (0 :: fix.octets)) s) (fun t => (t.shelf 0).sel) = some (.settling 250000000) := by
  decide +kernel

theorem test_witness_WrRefWritesTheConfiguration :
    Open up ∧ Open (node .free) ∧ octets23.length = 23 ∧ readRefConfig (octets23.set 0 3) = none
      ∧ ((readRefConfig octets23).any fun w =>
        decide (w.cfg.accept < w.cfg.reject) && w.cfg.gate != ((node .free).ref 0).cfg.gate) = true
      ∧ (up.ref 0).rt.state = .disabled ∧ ((node .free).ref 0).rt.state ≠ .disabled
      ∧ ((readRefConfig (octets23.set 8 0x11)).any fun w => decide (w.cfg.reject ≤ w.cfg.accept)) = true := by
  decide +kernel

theorem test_witness_RefConfigurationOctets : (readRefConfig octets23).isSome = true := by decide +kernel

/-- Shelf 0 LOCKED to reference 0, and shelf 1 LOCKED to reference 4, which is DERIVED from shelf 0. -/
def chain : State :=
  ((node (.locked 0)).setRef 4 (derived 0)).setShelf 1
    { shelfIn (.locked 4) with list := [⟨4, 1, false⟩], curEdge := some 0 }

theorem noCycle_of_descent (s : State) (p : ShelfIx → Nat) (h : ∀ a b, s.Edge a b → p b < p a) : s.NoCycle := by
  have step : ∀ a b, Relation.TransGen s.Edge a b → p b < p a := by
    intro a b hab
    induction hab with
    | single e => exact h _ _ e
    | tail _ e ih => exact lt_trans (h _ _ e) ih
  exact fun a hab => lt_irrefl _ (step a a hab)

theorem chain_noCycle : chain.NoCycle :=
  noCycle_of_descent chain (fun i => i.val) (by unfold State.Edge; decide +kernel)

theorem chain_edgesOk : chain.EdgesOk := by unfold State.EdgesOk; decide +kernel

theorem test_witness_EffectiveAndOutgoingRanks :
    (((up.setRef 0 { fixed .active with cfg := { RefConfig.cold with overrideRank := some 15 } }).ref 0).cfg.overrideRank
        = some 15)
      ∧ (up.ref 0).cfg.overrideRank = none ∧ (up.ref 0).cfg.kind = .announced ∧ (chain.ref 0).cfg.kind = .fixed
      ∧ (chain.ref 4).cfg.kind = .derived ∧ (chain.ref 4).cfg.source = some 0 ∧ chain.outRank 1 = 2
      ∧ ({ RefConfig.cold with kind := .derived } : RefConfig).source = none := by decide +kernel

theorem test_witness_EffectiveAndOutgoingRanks_edges : chain.NoCycle ∧ chain.EdgesOk :=
  ⟨chain_noCycle, chain_edgesOk⟩

/-- Reference 0 ANNOUNCED by station 1 and enabled; code 3 of dialect 1 valid. -/
def announced : State :=
  { up.setRef 0 { Reference.cold with
      cfg := { RefConfig.cold with announcer := 1, origin := some ⟨0, 63⟩ }
      mon := Monitor.started, rt := { RefDynamic.cold with state := .starting }
      qt := { Quality.cold with timer := some 4 } } with
    dialect1 := { up.dialect1 with inTable := up.dialect1.inTable.set 3 ⟨true, 2⟩ } }

/-- The entry for reference `r` in dialect 1. -/
def entry (r : Byte) (active : Bool) (c : Code) : QaEntry := { ref := r, dialect := 1, active := active, code := c }

theorem test_witness_QaEntryIsTakenOrRefused :
    (indexOctet (0 : RefIx) = 0 ∧ (entry 0 true 3).dialect.toNat = Dialect.one.octet.toNat
      ∧ (announced.ref 0).cfg.kind = .announced ∧ (announced.ref 0).rt.state ≠ .disabled
      ∧ (announced.ref 0).cfg.announcer = 1 ∧ (announced.table .one).inTable[(3 : Code)].valid = true
      ∧ (announced.table .one).inTable[(4 : Code)].valid = false)
      ∧ ((State.takeEntry 1 announced (entry 0 true 3)).ref 0).qt.received = 2
      ∧ ((State.takeEntry 1 announced (entry 0 false 4)).ref 0).qt.source = .withdrawn
      ∧ (∀ r : RefIx, (entry 32 true 3).ref ≠ indexOctet r)
      ∧ (State.takeEntry 1 announced (entry 32 true 3)).ring.counters.entryRef = 1
      ∧ (State.takeEntry 1 announced (entry 0 true 4)).ring.counters.entryRef = 1 := by decide +kernel

theorem test_witness_WrXlateReplacesOneTable :
    Open up ∧ Dialect.two ≠ Dialect.one ∧ (List.replicate 16 (0x10 : Byte)).length = 16
      ∧ (3 : Byte) ≠ 1 ∧ (3 : Byte) ≠ 2
      ∧ (∃ x ∈ List.replicate 16 (0x10 : Byte), 15 < (x &&& 0x7F).toNat)
      ∧ ∃ x ∈ List.replicate 16 (0x10 : Byte), 15 < x.toNat := by decide +kernel

/-- While DRIVING, with room, a new out-code of the shelf's rank 2 is reported. -/
theorem test_witness_WrXlateReplacesOneTable_reports :
    let s := node (.locked 0)
    let x : XlateTable := { s.dialect1 with outTable := s.dialect1.outTable.set 2 9 }
    Open s ∧ s.drive = .driving ∧ s.ring.insertQ.length + 25 ≤ 32 ∧ (s.shelf 0).enabled = true
      ∧ read (exec (.wrXlate 1 9 (tableReport .one x)) s) (fun t => ((t.report 0).code, t.ring.insertQ.length))
        = some (9, 2) := by decide +kernel

theorem test_witness_MarkStartsTheSettleTimer :
    Shelf.cold.state = .off ∧ ({ shelfIn .free with sel := .clean } : Shelf).mark.sel = .settling 250000000
      ∧ (shelfIn .free).sel = .settling 0 ∧ (shelfIn .free).state ≠ .off
      ∧ ({ shelfIn .free with sel := .deferred } : Shelf).mark.sel = .settling 250000000
      ∧ ({ shelfIn (.waiting 0 1 .forced) with sel := .deferred } : Shelf).mark.sel = .deferred := by decide +kernel

/-- Commands that change a reference's state, an effective rank, and an edge, and the CLEAN shelf 0 that they mark. -/
theorem test_witness_MarkStartsTheSettleTimer_commands :
    let lost := with0 (ref0 (node (.locked 0)) .holdoff) fun x => { x with sel := .clean }
    let aged := ((node (.locked 0)).setRef 1 (derived 5)).setShelf 5 (shelfIn (.holdover .inSpec (some 0))) |>.setShelf 0
      (clean (.locked 0))
    let locks := ((node .free).setRef 0 (derived 5)).setShelf 5 (clean (.locked 1)) |>.setShelf 3 (shelfIn .free)
      |>.setShelf 0 (clean .free)
    (lost.shelf 0).state ≠ .off ∧ (∃ c ∈ (lost.shelf 0).list, c.ref = 0)
      ∧ read (exec (.holdOffExpiry 0) lost) (fun t => ((t.ref 0).rt.state, (t.shelf 0).sel))
        = some (.failed, .settling 250000000)
      ∧ (∃ c ∈ (aged.shelf 0).list, c.ref = 1)
      ∧ read (exec (.holdoverPhaseExpiry 5) aged) (fun t => (aged.effRank 1, t.effRank 1, (t.shelf 0).sel))
        = some (9, 12, .settling 250000000)
      ∧ (∃ c ∈ (locks.shelf 0).list, (locks.ref c.ref).cfg.kind = .derived) ∧ (locks.shelf 3).curEdge = none
      ∧ read (exec (.settleTimerExpiry 3) locks) (fun t => ((t.shelf 3).curEdge, (t.shelf 0).sel))
        = some (some 5, .settling 250000000) := by decide +kernel

theorem test_witness_AutomaticEligibility :
    (up.effRank 0 = 15) ∧ (node (.locked 0)).eligible 0 0 = true
      ∧ (let s := ref0 (node (.locked 1)) .holdoff
        (s.ref 0).rt.state = .holdoff ∧ (s.shelf 0).state.current ≠ some 0)
      ∧ (((node .free).shelf 0).command = .none ∧ (node .free).chooseTarget ((node .free).permits 0) 0 = some 0)
      ∧ up.eligible 0 0 = false
      ∧ (aligning.shelf 0).state.target = some 1 ∧ (aligning.shelf 0).state.basis = some .automatic := by decide +kernel

theorem test_witness_ForcedUsability :
    (∃ c ∈ ((node .free).shelf 0).list, c.ref = 0 ∧ c.lockout = false) ∧ (node .free).permits 0 0 = true
      ∧ ((node .free).effRank 0).val ≤ ((node .free).shelf 0).cfg.floor.val
      ∧ (ref0 (node .free) .restoring).forcedUsable 0 0 = true ∧ (ref0 (node .free) .restoring).eligible 0 0 = false
      ∧ ((with0 (node .free) fun x => { x with command := .forced 0 }).shelf 0).command = .forced 0
      ∧ ((node (.waiting 0 1 .forced)).shelf 0).state.target = some 1
      ∧ ((node (.waiting 0 1 .forced)).shelf 0).state.basis = some .forced := by decide +kernel

theorem test_witness_LoopGuardPermit :
    (chain.ref 0).cfg.kind ≠ .derived ∧ (chain.ref 0).cfg.source = none
      ∧ (chain.ref 4).cfg.kind = .derived ∧ (chain.ref 4).cfg.source = some 0
      ∧ chain.permits 1 4 = true ∧ chain.permits 0 4 = false := by decide +kernel

theorem test_witness_TargetOfADecision :
    let s := node (.locked 1)
    let ok : Candidate → Bool := fun c => s.eligibleUnder (fun _ => true) 0 c.ref
    (∀ c ∈ (up.shelf 0).list, ok c = false)
      ∧ (⟨0, 1, false⟩ ∈ (s.shelf 0).list ∧ ok ⟨0, 1, false⟩ = true)
      ∧ (∀ d ∈ (s.shelf 0).list, s.effRank 0 = s.effRank d.ref ∧ ((1 : Fin 16) < d.prio ∨ (1 = d.prio ∧ 0 ≤ d.ref)))
      ∧ ((s.shelf 0).cfg.mode = .nonRevertive ∧ (s.shelf 0).state.current = some 1 ∧ s.effRank 1 ≤ s.effRank 0
        ∧ s.autoTarget (fun _ => true) 0 = some 1)
      ∧ ((node .free).shelf 0).state.current = none
      ∧ (s.shelf 0).command = .none
      ∧ ∀ c ∈ [Command.hold, .forced 0, .manual 0], ((with0 s fun x => { x with command := c }).shelf 0).command = c := by
  decide +kernel

theorem test_witness_SettleExpiryDecides :
    (up.resetn = true ∧ (up.shelf 0).sel = .clean ∧ (up.shelf 0).sel ≠ .settling 0)
      ∧ (((node (.aligning 0 1 .forced)).shelf 0).sel = .settling 0
        ∧ ((node (.aligning 0 1 .forced)).shelf 0).state.cls = .switching)
      ∧ (let s := with0 (node (.locked 0)) fun x => { x with command := .manual 5 }
        s.clearsManual 0 = true ∧ (s.shelf 0).state = .locked 0 ∧ s.chooseTarget (s.permits 0) 0 = some 0)
      ∧ (let s := with0 (node .free) fun x => { x with command := .hold }
        (∀ c, (s.shelf 0).state ≠ .locked c) ∧ s.chooseTarget (s.permits 0) 0 = none) := by decide +kernel

theorem test_witness_DecisionLocksAMutedShelf :
    (let s := node .free;
      s.resetn = true ∧ (s.shelf 0).sel = .settling 0 ∧ (s.shelf 0).state = .free
        ∧ s.chooseTarget (s.permits 0) 0 = some 0)
      ∧ let s := node (.holdover .expired none)
        (s.shelf 0).sel = .settling 0 ∧ s.chooseTarget (s.permits 0) 0 = some 0 := by decide +kernel

theorem test_witness_DecisionEntersHoldover :
    let s := with0 (node (.locked 0)) fun x => { x with command := .hold }
    s.resetn = true ∧ (s.shelf 0).sel = .settling 0 ∧ (s.shelf 0).state = .locked 0
      ∧ s.chooseTarget (s.permits 0) 0 = none := by decide +kernel

/-- A decision moves shelf 0 from reference 1 to reference 0. -/
def mover : State := with0 (node (.locked 1)) fun x => { x with command := .forced 0 }

/-- `s` with every engine held by a shelf that is not 0. -/
def busy (s : State) : State :=
  { s with engines := Vector.ofFn fun e => some { shelf := ⟨e.val + 1, by omega⟩, grant := e.val, timer := 9 }, grants := 4 }

theorem test_witness_DecisionStartsASwitch :
    (mover.resetn = true ∧ (mover.shelf 0).sel = .settling 0 ∧ (mover.shelf 0).state = .locked 1
      ∧ mover.chooseTarget (mover.permits 0) 0 = some 0 ∧ (0 : RefIx) ≠ 1)
      ∧ ((busy mover).chooseTarget ((busy mover).permits 0) 0 = some 0 ∧ ∀ e : EngineIx, (busy mover).engines[e] ≠ none)
      ∧ (mover.alignQ = [] ∧ mover.engines[(0 : EngineIx)] = none) := by decide +kernel

/-- Shelves 0 to 3 ALIGNING, each on the engine of its number, its limit run out, and shelves 4 and 5 waiting. -/
def queued : State :=
  { ((List.range 6).foldl (fun s k => s.setShelf (Fin.ofNat 24 k)
      (shelfIn (if k < 4 then .aligning 0 1 .automatic else .waiting 0 1 .automatic))) (node .free)) with
    engines := Vector.ofFn fun e : EngineIx => some { shelf := Fin.ofNat 24 e.val, grant := e.val, timer := 0 }
    alignQ := [4, 5]
    grants := 4 }

theorem test_queued_EnginesOk : queued.EnginesOk := by
  have held : ∀ e : EngineIx, queued.engines[e] = some { shelf := Fin.ofNat 24 e.val, grant := e.val, timer := 0 } := by
    decide +kernel
  refine ⟨by decide +kernel, by decide +kernel, ?_, ?_, ?_, by decide +kernel⟩
  · intro e h he
    rw [held] at he
    cases he
    revert e
    decide +kernel
  · intro i hi
    have hlt : i.val < 4 := by revert i; decide +kernel
    exact ⟨⟨i.val, hlt⟩, _, held _, Fin.ext (Nat.mod_eq_of_lt i.isLt)⟩
  · intro e e' h h' he he' hs
    rw [held] at he he'
    cases he
    cases he'
    revert e e'
    decide +kernel

/-- Engine 1 is freed at shelf 1 and passes to shelf 4, the head of the queue: at the done report, at the limit's expiry,
at an abandonment, at the loss of the current reference and at SHELF_OFF. -/
theorem test_witness_EngineEndsTheSwitch_passes :
    let seen : State → Option Hold × List ShelfIx × ShelfState := fun t =>
      (t.engines[(1 : EngineIx)], t.alignQ, (t.shelf 4).state)
    let passed : Option Hold × List ShelfIx × ShelfState :=
      (some { shelf := 4, grant := 4, timer := 2500000 }, [5], .aligning 0 1 .automatic)
    queued.resetn = true ∧ queued.engines[(1 : EngineIx)] = some { shelf := 1, grant := 1, timer := 0 }
      ∧ (queued.shelf 1).state = .aligning 0 1 .automatic ∧ queued.alignQ = [4, 5]
      ∧ read (exec (.engineDone 1 1) queued) seen = some passed
      ∧ read (exec (.alignmentLimitExpiry 1 1) queued) seen = some passed
      ∧ seen (queued.abandon 1) = passed ∧ seen (queued.loseCurrent 1) = passed
      ∧ read (exec (.shelfOff 1 9 [1]) queued) seen = some passed := by decide +kernel

theorem test_witness_EngineEndsTheSwitch :
    aligning.resetn = true ∧ aligning.engines[(2 : EngineIx)] = some { shelf := 0, grant := 0, timer := 0 }
      ∧ (aligning.shelf 0).state = .aligning 0 1 .automatic
      ∧ aligning.engines[(1 : EngineIx)] = none ∧ (0 : Nat) ≠ 1 ∧ aligning.alignQ = []
      ∧ ((busy mover).engines[(1 : EngineIx)].map Hold.timer) = some 9 := by decide +kernel

theorem test_witness_HoldoverPhaseExpiryMovesTheStage :
    let s := node (.holdover .inSpec (some 0))
    let z := with0 s fun x => { x with cfg := { x.cfg with phaseB := 0 } }
    s.resetn = true ∧ (s.shelf 0).state = .holdover .inSpec (some 0) ∧ 0 < (s.shelf 0).cfg.phaseB.toNat
      ∧ (z.shelf 0).cfg.phaseB.toNat = 0
      ∧ ((node (.holdover .degraded (some 0))).shelf 0).state = .holdover .degraded (some 0)
      ∧ ((node .free).shelf 0).state = .free := by decide +kernel

theorem test_witness_AbandonmentAndHardCut :
    let s := { node (.waiting 0 1 .forced) with alignQ := [3, 0] }
    (s.shelf 0).state = .waiting 0 1 .forced ∧ [3] = s.alignQ.filter (fun j => j != 0)
      ∧ (aligning.shelf 0).state = .aligning 0 1 .automatic := by decide +kernel

/-- Events that reach the target of shelf 0's switch: it enters HOLDOFF at the close of a gate and at the expiry of its
activity watch, its announcement times out, and a write makes its rank worse within the floor. -/
theorem test_witness_AbandonmentAndHardCut_targets :
    let switching : State → State := fun s => { s.setRef 1 (fixed .active) with alignQ := [0] }.setShelf 0
      (shelfIn (.waiting 1 0 .automatic))
    let closing := switching (watched fun m => { m with pulses := 799, ticks := 0 })
    let stopped := silent (switching (node .free))
    let told := (switching (node .free)).setRef 0 { fixed .active with
      cfg := RefConfig.cold, qt := ⟨3, .announced, some 0⟩ }
    let written : RefConfig := { ((switching (node .free)).ref 0).cfg with overrideRank := some 13 }
    let kept : ShelfState × Bool := (.locked 1, true)
    let seen : State → ShelfState × Bool := fun t => ((t.shelf 0).state, (t.shelf 0).latches.abandon)
    (closing.shelf 0).state = .waiting 1 0 .automatic ∧ closing.resetn = true ∧ (closing.ref 0).rt.state ≠ .holdoff
      ∧ read (exec (.comparisonPulse 0 7 1) closing) (fun t => ((t.ref 0).rt.state, seen t)) = some (.holdoff, kept)
      ∧ (stopped.ref 0).mon.run = .running ∧ (stopped.ref 0).mon.watch = some 0 ∧ (stopped.ref 0).mon.verdict = .good
      ∧ (stopped.ref 0).rt.state = .active ∧ 0 < (stopped.ref 0).cfg.holdOff
      ∧ read (exec (.activityWatchExpiry 0) stopped) seen = some kept
      ∧ (told.ref 0).qt.timer = some 0 ∧ (told.ref 0).cfg.kind = .announced ∧ (told.ref 0).cfg.overrideRank = none
      ∧ told.effRank 0 ≠ 15 ∧ read (exec (.announcementTimerExpiry 0) told) seen = some kept
      ∧ read (exec (.wrRef 1 9 (0 :: written.octets)) (switching (node .free)))
          (fun t => ((t.shelf 0).state.target, t.effRank 0, (t.shelf 0).cfg.floor.val)) = some (some 0, 13, 14)
      ∧ (switching (node .free)).effRank 0 ≠ 13 := by decide +kernel

theorem test_witness_NoticesEnterTheInsertQueue :
    State.reset.drive = .floating ∧ up.drive = .driving ∧ (waiting 31 up).ring.insertQ.length < 32
      ∧ 32 ≤ (waiting 32 up).ring.insertQ.length
      ∧ InsertEntry.sq 3 someFrame ∈ (ring up fun g => { g with insertQ := [.sq 3 someFrame] }).ring.insertQ := by
  decide +kernel

theorem test_witness_ReportsAreBroughtUpToDate :
    State.reset.drive = .floating ∧ State.reset.resetn = true ∧ State.reset.refreshTimer ≠ some 0
      ∧ (stale State.reset).drive = .floating ∧ (stale State.reset).refreshTimer = some 0
      ∧ let s := stale (waiting 8 (node (.locked 0)))
        s.drive = .driving ∧ s.ring.insertQ.length + 24 ≤ 32 ∧ (s.shelf 0).enabled = true
          ∧ (s.shelf 0).lastReport ≠ some (s.report 0) ∧ s.resetn = true ∧ s.refreshTimer = some 0 := by decide +kernel

/-- A stage change while DRIVING, with room left at its end. -/
theorem test_witness_ReportsAreBroughtUpToDate_stage :
    read (exec (.holdoverPhaseExpiry 0) (node (.holdover .inSpec (some 0))))
      (fun t => (t.drive, t.ring.insertQ.length, (t.shelf 0).state.stage)) = some (.driving, 1, some .degraded) := by
  decide +kernel

/-- A refresh of a shelf whose record is its report already. -/
theorem test_witness_ReportsAreBroughtUpToDate_refresh :
    let c : Report := { code := 15, rank := 14, cls := .free, squelch := none, root := none }
    let z := stale (with0 (node .free) fun x => { x with lastReport := some c })
    z.report 0 = c ∧ z.drive = .driving ∧ (z.shelf 0).enabled = true
      ∧ read (exec .refreshExpiry z) (·.ring.insertQ.length) = some 1 := by decide +kernel

theorem test_witness_ReportsAreBroughtUpToDate_event :
    ReportEvent (node (.holdover .inSpec (some 0))) (node (.holdover .degraded none)) ∧ ¬ReportEvent up up :=
  ⟨Or.inl ⟨0, Or.inr (Or.inl (by decide +kernel))⟩, fun h => by
    rcases h with ⟨_, h⟩ | ⟨_, h⟩
    · simp at h
    · exact h rfl⟩

theorem test_witness_RootAndSquelchLine :
    ((up.shelf 0).state.current = none)
      ∧ ((chain.shelf 0).state.current = some 0 ∧ (chain.ref 0).cfg.kind ≠ .derived)
      ∧ ((chain.shelf 1).state.current = some 4 ∧ (chain.ref 4).cfg.kind = .derived ∧ (chain.ref 4).cfg.source = some 0
        ∧ chain.root 1 = some 0)
      ∧ (let s := node (.locked 0) |>.setRef 0 { derived 0 with cfg := { (derived 0).cfg with source := none } }
        (s.ref 0).cfg.kind = .derived ∧ (s.ref 0).cfg.source = none ∧ s.root 0 = none)
      ∧ (announced.setShelf 0 (shelfIn (.locked 0))).squelch 0 = some ⟨0, 63⟩ := by decide +kernel

/-- A frame of the largest size. -/
def largest : Frame := { someFrame with payload := List.replicate 88 7 }

theorem test_witness_SentFrameArrives :
    largest.payload.length ≤ 88 ∧ largest.wire.length = 95
      ∧ let s := ring up fun g => { g with receiver := .inFrame largest.wire 95 false }
        s.resetn = true
          ∧ (ring s fun g => { g with rxQ := List.replicate 15 someFrame }).ring.rxQ.length < 16
          ∧ 16 ≤ (ring s fun g => { g with rxQ := List.replicate 16 someFrame }).ring.rxQ.length := by decide +kernel

/-- The part receives the octets of `body` with its CHECK. -/
def receiving (body : List Byte) : State :=
  ring up fun g => { g with receiver := .inFrame (body ++ octets 2 (crc16 body).toNat) (body.length + 2) false }

theorem test_witness_DamagedFramesAreCounted :
    up.ring.receiver = .waitIdle 0 ∧ up.resetn = true
      ∧ (crc16 [1, 2, 0x30, 4, 0]).toNat ≠ (0 : Byte).toNat * 256 + (0 : Byte).toNat
      ∧ read (exec .frameArrival (receiving [1, 2, 0x30, 4, 1])) (·.ring.counters.format) = some 1
      ∧ read (exec .frameArrival (receiving [1, 2, 0x30, 4, 89, 0]))
        (fun t => (t.ring.counters.format, t.ring.counters.check)) = some (1, 0) := by decide +kernel

/-- A REQ for the part of station 64, RD-GLOBAL with tag 9. -/
def request : Frame := { dest := 64, src := 1, type := 0x30, ttl := 3, payload := [4, 9] }

theorem test_witness_FrameTakeHandlesTheHead :
    let s : Frame → State := fun f => ring up fun g => { g with rxQ := [f] }
    up.resetn = true ∧ up.ring.rxQ = [] ∧ (s someFrame).ring.rxQ = [someFrame]
      ∧ ({ someFrame with src := 64 } : Frame).src = up.ring.station
      ∧ (request.src ≠ up.ring.station ∧ request.dest = up.ring.station ∧ request.type = 0x30)
      ∧ 32 ≤ (waiting 32 (s request)).ring.insertQ.length
      ∧ (State.readyFor { s request with ring := { (s request).ring with rxQ := [] } } 1
        ∧ requestSent (.rdGlobal 1 9 []) = some (request.src, request.payload))
      ∧ (let again : Frame := { request with payload := [0x41, 9] }
        let z := ring up fun g => { g with rxQ := [again, someFrame] }
        State.readyFor { z with ring := { z.ring with rxQ := [] } } 1 ∧ z.admits 1
          ∧ requestSent (.restart 1 9 []) = some (again.src, again.payload)
          ∧ read (exec .frameTake z) (·.ring.rxQ) = some []
          ∧ read (exec .frameTake (ring up fun g => { g with rxQ := [request, someFrame] })) (·.ring.rxQ)
            = some [someFrame])
      ∧ (someFrame.src ≠ up.ring.station ∧ someFrame.dest ≠ up.ring.station ∧ someFrame.type ≠ 0x21)
      ∧ (({ someFrame with ttl := 1 } : Frame).ttl.toNat < 2 ∧ 2 ≤ someFrame.ttl.toNat)
      ∧ (List.replicate 15 someFrame).length < 16 ∧ 16 ≤ (List.replicate 16 someFrame).length
      ∧ (let qa : Frame := { someFrame with type := 0x21, payload := List.replicate 16 0 }
        qa.src ≠ up.ring.station ∧ up.ring.station ≠ 0xFF ∧ qa.dest = 0xFF ∧ qa.payload.length % 2 = 0
          ∧ 2 ≤ qa.payload.length ∧ qa.payload.length ≤ 16
          ∧ (qa.payload ++ [0, 0]).length = 18 ∧ (qa.payload ++ [0]).length % 2 = 1) := by decide +kernel

/-- The two octets of a QA entry, and a Quality Announcement that raises a rank. -/
theorem test_witness_FrameTakeHandlesTheHead_announcement :
    readQaEntries [31, 0x53, 200, 0x0F] = [⟨31, 2, true, 3⟩, ⟨200, 0, false, 15⟩]
      ∧ (let qa : Frame := { someFrame with src := 1, type := 0x21, payload := [0, 0x33] }
        let s := ring (announced.setShelf 0 (clean (.locked 0))) fun g => { g with rxQ := [qa] }
        s.resetn = true ∧ qa.src ≠ s.ring.station ∧ (s.shelf 0).state ≠ .off ∧ (∃ c ∈ (s.shelf 0).list, c.ref = 0)
          ∧ s.effRank 0 = 15
          ∧ read (exec .frameTake s) (fun t => (t.effRank 0, (t.shelf 0).sel)) = some (2, .settling 250000000)) := by
  decide +kernel

theorem test_witness_LineCommands :
    (up.ring.sending = none ∧ up.ring.relayQ = [] ∧ up.ring.insertQ = [] ∧ up.resetn = true)
      ∧ (let s := ring up fun g => { g with sending := some [1] }
        s.ring.sending ≠ none ∧ s.ring.sending = some [1] ∧ s.ring.sendLeft = 0 ∧ up.ring.idleLeft = 0
          ∧ (s.resetn = true ∧ ([1] : List Byte)[0]? = some 1 ∧ 100 + 200 * 0 + 20 * 5 + 0 = 200 * ([1] : List Byte).length))
      ∧ ((0x5F : Byte).getLsbD 7 = false ∧ (0xBF : Byte).getLsbD 7 = true ∧ (0xBF : Byte).getLsbD 6 = false)
      ∧ (let s := waiting 1 (ring up fun g => { g with relayQ := [someFrame], marker := .insert })
        s.ring.relayQ = [someFrame] ∧ s.ring.marker = .insert ∧ s.ring.insertQ = [.sn someFrame])
      ∧ (up.ring.marker = .relay)
      ∧ (up.ring.receiver = .waitIdle 0 ∧ 15 + 1 = 16)
      ∧ read (exec (.receiverReady [true, false]) up) (·.ring.receiver) = some (.waitIdle 0)
      ∧ (List.replicate 94 (0 : Byte)).length < 95 ∧ 95 ≤ (List.replicate 95 (0 : Byte)).length := by decide +kernel

theorem test_witness_RequestsWaitTheirTurn :
    let payload : Nat → List Byte := fun n => List.replicate n 0
    (∀ n, requestSent (.unknownRequestCode 1 (payload n)) = some (1, payload n))
      ∧ up.resetn = true ∧ 88 < (payload 89).length ∧ (payload 88).length ≤ 88
      ∧ (let s := ring up fun g => { g with rxQ := List.replicate 15 someFrame }
        s.ring.rxQ ≠ [] ∧ s.ring.rxQ.length < 16)
      ∧ 16 ≤ (ring up fun g => { g with rxQ := List.replicate 16 someFrame }).ring.rxQ.length
      ∧ up.ring.rxQ = [] ∧ up.ring.station = 64 ∧ (1 : Byte) ≠ up.ring.station
      ∧ 32 ≤ (waiting 32 up).ring.insertQ.length :=
  ⟨fun _ => rfl, by decide +kernel⟩

theorem test_witness_RequestsAreRefusedInOrder :
    (owned up).readyFor 1 ∧ ¬(owned up).admits 1 ∧ up.admits 1
      ∧ requestSent (.unknownRequestCode 1 [0x10]) = some (1, [0x10])
      ∧ (0x06 : Byte) ∉ knownRequestCodes ∧ (0x10 : Byte) ∈ knownRequestCodes ∧ 5 < (0x10 : Byte).toNat
      ∧ ((0x01 : Byte), 1) ∈ argumentLengths ∧ (0x01 : Byte).toNat ≤ 5
      ∧ ([0, 2, 1, 1] : List Byte).length ≠ 2 + 2 * (([0, 2, 1, 1] : List Byte).getD 1 0).toNat := by decide +kernel

theorem test_witness_ReadsReportAndChangeNothing :
    (owned up).readyFor 1 ∧ 31 < (32 : Byte).toNat ∧ 23 < (24 : Byte).toNat ∧ (0 : Byte).toNat ≠ 1
      ∧ (3 : Byte).toNat ≠ 2 := by decide +kernel

theorem test_witness_ReportLayouts :
    (fixed .holdoff).rt.TimersOk ∧ (fixed .restoring).rt.TimersOk ∧ (fixed .active).mon.last = some 0
      ∧ (fixed .active).mon.hits ≤ 2 ∧ (shelfIn .free).list.length ≤ 8
      ∧ (shelfIn .free).list[1]? = some ⟨1, 2, false⟩ ∧ (shelfIn .free).sel = .settling 0
      ∧ (shelfIn (.holdover .inSpec (some 0))).state = .holdover .inSpec (some 0) := by
  refine ⟨?_, ?_, by decide +kernel⟩ <;>
    exact ⟨by decide +kernel, by decide +kernel, by decide +kernel, by rintro t h; revert h; simp [fixed, inState]; try (rintro rfl; decide),
      by rintro t h; revert h; simp [fixed, inState]; try (rintro rfl; decide), by rintro t h; revert h; simp [fixed, inState]⟩

theorem test_witness_WrGlobalWritesSixSettings :
    Open up ∧ ((254 : Byte) ≠ 0xFF ∧ (1 : Byte) ≠ 0 ∧ (1 : Byte) ≠ 0xFF)
      ∧ (1 ≤ (10 : Byte).toNat ∧ (10 : Byte).toNat ≤ 10 ∧ (15 : Byte).toNat ≤ 15 ∧ 2 ≤ (2 : Byte).toNat
        ∧ (30 : Byte).toNat ≤ 30 ∧ (63 : Byte).toNat ≤ 63)
      ∧ ¬(1 ≤ (0 : Byte).toNat) ∧ ¬((64 : Byte).toNat ≤ 63) := by decide +kernel

theorem test_witness_AckClearsWhatIsNotLive :
    Open up ∧ (31 : Byte).toNat < 32 ∧ (15 : Byte).toNat < 16 ∧ 1 < (2 : Byte).toNat ∧ 31 < (32 : Byte).toNat
      ∧ 23 < (24 : Byte).toNat ∧ 15 < (16 : Byte).toNat := by decide +kernel

theorem test_witness_ClrCountClearsTheCounters :
    Open up ∧ ((owned up).readyFor 1 ∧ ¬(owned up).admits 1) ∧ ([0] : List Byte) ≠ [] := by decide +kernel

theorem test_witness_RestartKeepsTheTables : Open (node (.locked 0)) := by decide +kernel

theorem test_witness_ShelfOnAndShelfOff :
    Open up ∧ 24 ≤ (24 : Byte).toNat ∧ (up.shelf 0).state = .off ∧ (up.shelf 0).sel = .clean
      ∧ (let s := waiting 29 (node (.locked 0))
        Open s ∧ (s.shelf 0).state ≠ .off ∧ (s.shelf 0).state.current = some 0 ∧ s.drive = .driving
          ∧ s.ring.insertQ.length + 3 ≤ 32) := by decide +kernel

theorem test_witness_CommandsAreTestedAndTaken :
    Open (node .free) ∧ 24 ≤ (24 : Byte).toNat ∧ 32 ≤ (32 : Byte).toNat
      ∧ ((node .off).shelf 0).state = .off ∧ ((node .free).shelf 0).state ≠ .off
      ∧ (∃ c ∈ ((node .free).shelf 0).list, c.ref = 1 ∧ c.lockout = false)
      ∧ (¬∃ c ∈ ((node .free).shelf 0).list, c.ref = 2)
      ∧ (node .free).eligible 0 1 = true ∧ (ref0 (node .free) .failed).eligible 0 0 = false
      ∧ (let s := with0 (node .free) fun x => { x with command := .hold, list := [⟨1, 1, true⟩] }
        (s.shelf 0).command = .hold ∧ (∃ c ∈ (s.shelf 0).list, c.ref = 1)
          ∧ ¬∃ c ∈ (s.shelf 0).list, c.ref = 1 ∧ c.lockout = false) := by decide +kernel

theorem test_witness_LockSetsOrClearsALockout :
    Open (node (.waiting 0 1 .automatic)) ∧ (23 < (24 : Byte).toNat ∧ 31 < (32 : Byte).toNat ∧ 1 < (2 : Byte).toNat)
      ∧ (let x := (node (.waiting 0 1 .automatic)).shelf 0
        (¬∃ c ∈ x.list, c.ref = 2) ∧ (∃ c ∈ x.list, c.ref = 1 ∧ c.lockout = false)
          ∧ x.state.target = some 1 ∧ x.state.current = some 0 ∧ x.state ≠ .off) := by decide +kernel

theorem test_witness_WrCandReplacesTheList :
    Open (node (.waiting 0 1 .automatic))
      ∧ (let es : List (Byte × Byte) := [(32, 1)]
        es.length ≤ 42 ∧ (1 : Byte).toNat = es.length ∧ ∃ e ∈ es, 31 < e.1.toNat)
      ∧ (List.replicate 9 ((0 : Byte), (1 : Byte))).length ≤ 42
      ∧ (let l : List Candidate := [⟨0, 15, false⟩, ⟨1, 1, true⟩]
        l.length ≤ 8 ∧ (∀ c ∈ l, c.prio ≠ 0) ∧ (l.map Candidate.ref).Nodup ∧ (∃ c ∈ l, c.ref = 0)
          ∧ ¬∃ c ∈ l, c.ref = 1 ∧ c.lockout = false)
      ∧ (let l : List Candidate := [⟨1, 1, false⟩]
        (∃ c ∈ l, c.ref = 1 ∧ c.lockout = false) ∧ ¬∃ c ∈ l, c.ref = 0)
      ∧ ¬(([⟨3, 1, false⟩, ⟨3, 2, true⟩] : List Candidate).map Candidate.ref).Nodup
      ∧ ((node (.waiting 0 1 .automatic)).shelf 0).state.current = some 0
      ∧ ((node (.waiting 0 1 .automatic)).shelf 0).state.target = some 1
      ∧ ((node .free).shelf 0).state.current = none := by decide +kernel

/-- A list without the current reference, for a LOCKED shelf, and without current and target, for a SWITCHING one. -/
theorem test_witness_WrCandReplacesTheList_loss :
    let switching := { node (.waiting 0 1 .automatic) with alignQ := [0] }
    let seen : State → StateClass × Bool × Option InsertEntry := fun t =>
      ((t.shelf 0).state.cls, (t.shelf 0).latches.abandon, t.ring.insertQ[1]?)
    ((node (.locked 0)).shelf 0).state.current = some 0 ∧ ((node (.locked 0)).shelf 0).state.target = none
      ∧ read (exec (.wrCand 1 9 [0, 0]) (node (.locked 0))) seen
        = some (.holdover, false, some (.sn ((node .free).noticeFrame 0 (some 0) none 2 0)))
      ∧ read (exec (.wrCand 1 9 [0, 0]) switching) seen
        = some (.holdover, true, some (.sn ((node .free).noticeFrame 0 (some 0) none 2 0)))
      ∧ read (exec (.wrCand 1 9 [0, 1, 1, 2]) switching) seen
        = some (.locked, false, some (.sn ((node .free).noticeFrame 0 (some 0) (some 1) 1 1))) := by decide +kernel

theorem test_witness_WrShelfWritesTheConfiguration :
    Open (node .free) ∧ 23 < (24 : Byte).toNat ∧ 14 < (15 : Byte).toNat ∧ 2 < (3 : Byte).toNat ∧ (3 : Byte).toNat ≠ 2
      ∧ ((node .free).shelf 0).state ≠ .off ∧ ((node .free).shelf 0).state.cls ≠ .switching
      ∧ ((node .free).shelf 0).cfg.floor ≠ 13 := by decide +kernel

/-- While DRIVING, with room, a WR_SHELF of another free-run rank at a SWITCHING and at a FREE shelf. -/
theorem test_witness_WrShelfWritesTheConfiguration_reports :
    let s := { node (.waiting 0 1 .automatic) with alignQ := [0] }
    let c : ShelfConfig := { (s.shelf 0).cfg with freeRank := 3 }
    Open s ∧ s.drive = .driving ∧ s.ring.insertQ.length + 25 ≤ 32
      ∧ read (exec (.wrShelf 1 9 (0 :: c.octets)) s) (fun t => ((t.shelf 0).state, (t.shelf 0).cfg.freeRank))
        = some (.waiting 0 1 .automatic, 3)
      ∧ read (exec (.wrShelf 1 9 (0 :: c.octets)) (node .free)) (fun t => ((t.report 0).rank, t.ring.insertQ.length))
        = some (3, 2) := by decide +kernel

theorem test_witness_RecordsAreReadBack :
    RefConfig.cold.InRange ∧ ∀ c ∈ ((node .free).shelf 0).list, c.prio ≠ 0 := by
  unfold RefConfig.InRange; decide +kernel

theorem test_witness_QueuesDriveAndSettingsStayLegal :
    (waiting 32 up).QueuesOk ∧ up.ring.LineOk ∧ up.DriveOk ∧ up.SettingsOk ∧ steps (waiting 32 up) = true := by
  refine ⟨?_, ⟨fun _ => rfl, fun l h => by simp [up, State.reset, State.cold, Ring.cold] at h, by decide⟩, ?_⟩
  · unfold State.QueuesOk; decide +kernel
  · unfold State.DriveOk State.SettingsOk; decide +kernel

/-- `aligning`, about to take the done report of its engine. -/
def finishing : State := { aligning with pending := [.engineDone 2 0] }

theorem test_witness_EnginesServeTheSwitchingShelves : finishing.EnginesOk ∧ steps finishing = true := by
  have held : ∀ e : EngineIx, finishing.engines[e] = if e = 2 then some { shelf := 0, grant := 0, timer := 0 } else none := by
    decide +kernel
  refine ⟨⟨by decide +kernel, by decide +kernel, ?_, ?_, ?_, by decide +kernel⟩, by decide +kernel⟩
  · intro e h he
    rw [held] at he
    split at he <;> cases he
    decide +kernel
  · intro i hi
    refine ⟨2, _, held 2, ?_⟩
    revert i
    decide +kernel
  · intro e e' h h' he he' _
    rw [held] at he he'
    split at he <;> split at he' <;> simp_all

theorem test_witness_EdgesNeverFormACycle : chain.NoCycle ∧ steps chain = true :=
  ⟨chain_noCycle, by decide +kernel⟩

theorem test_witness_RoutesFollowUsableReferences :
    chain.RoutesOk ∧ chain.EdgesOk ∧ chain.UsedRefsOk ∧ steps chain = true := by
  unfold State.RoutesOk State.EdgesOk State.UsedRefsOk; decide +kernel

theorem test_witness_ShelfRecordsStayLegal : (∀ i, (chain.shelf i).RecordOk) ∧ steps chain = true := by
  unfold Shelf.RecordOk; decide +kernel

theorem test_witness_ReferenceRecordsStayLegal :
    ∀ x : Reference, x = fixed .active →
      x.cfg.InRange ∧ x.VerdictOk ∧ x.rt.TimersOk ∧ x.mon.Ok x.cfg.gate ∧ x.QualityOk := by
  rintro x rfl
  refine ⟨by unfold RefConfig.InRange; decide +kernel, by unfold Reference.VerdictOk; decide +kernel, ?_, ?_,
    by unfold Reference.QualityOk; decide +kernel⟩
  · exact ⟨by decide +kernel, by decide +kernel, by decide +kernel, by rintro t ⟨⟩, by rintro t ⟨⟩,
      by rintro t ⟨⟩; decide⟩
  · exact ⟨by decide +kernel, by decide +kernel, by rintro w ⟨⟩; decide, by decide +kernel, by decide +kernel,
      by decide +kernel, by decide +kernel, by decide +kernel, by decide +kernel, by rintro o ⟨⟩; decide,
      by rintro f ⟨⟩; decide⟩

end Sys2Proof.Tests
end

section
/-! What one step can do to a reference record: `RefChange` lists the changes, and `step_refsReach` says that every step
is made of them. A property of the records that each change keeps is kept by every step. -/

namespace Sys2Proof.Machine

/-! ### The changes of a reference record -/

/-- The ways in which an event changes a reference record, with the guards under which each is made. -/
inductive RefChange : Reference → Reference → Prop
  /-- R179 -/
  | reset (x : Reference) : RefChange x Reference.cold
  /-- `d` MCLK ticks pass. -/
  | elapsed (x : Reference) (d : Nat) : RefChange x (x.elapse d)
  /-- R1, R2, R9 to R22 -/
  | clocked (x : Reference) (cycles ticks : Nat) : RefChange x (x.clockIn cycles ticks)
  /-- R8 -/
  | watchExpired (x : Reference) : RefChange x x.watchExpired
  /-- R69 -/
  | holdOffExpired (x : Reference) : RefChange x x.holdOffExpired
  /-- R72 -/
  | restoreExpired (x : Reference) : RefChange x x.restoreExpired
  /-- R75 -/
  | decayExpired (x : Reference) : RefChange x x.decayExpired
  /-- R53 -/
  | announceExpired (x : Reference) : RefChange x x.announceExpired
  /-- R62: an enabled reference keeps the fields that `RefConfig.fixedDiffers` compares. -/
  | configured (x : Reference) (cfg : RefConfig) (hcfg : cfg.InRange)
      (hfixed : x.rt.state ≠ .disabled → x.cfg.fixedDiffers cfg = false) : RefChange x { x with cfg := cfg }
  /-- R65 -/
  | turnedOn (x : Reference) (timeout : Nat) (hoff : x.rt.state = .disabled) : RefChange x (x.turnedOn timeout)
  /-- R66 -/
  | turnedOff (x : Reference) : RefChange x x.turnedOff
  /-- R74 -/
  | waitCleared (x : Reference) (hwait : x.rt.state = .restoring) : RefChange x { x with rt := x.rt.activate }
  /-- R79, R84 -/
  | acknowledged (x : Reference) (l : RefLatches) : RefChange x { x with rt := { x.rt with latches := l } }
  /-- R50 -/
  | entryTaken (x : Reference) (k : Rank) (n : Nat) (hkind : x.cfg.kind = .announced) (hon : x.rt.state ≠ .disabled) :
      RefChange x { x with qt := { received := k, source := .announced, timer := some n } }
  /-- R51 -/
  | withdrawn (x : Reference) (hkind : x.cfg.kind = .announced) (hon : x.rt.state ≠ .disabled) :
      RefChange x { x with qt := { received := Rank.unusable, source := .withdrawn, timer := none } }

/-- Every reference record of `t` comes from the one of `s` by changes of `RefChange`. -/
def RefsReach (s t : State) : Prop := ∀ r, Relation.ReflTransGen RefChange (s.ref r) (t.ref r)

theorem RefsReach.of_refs {s t : State} (h : t.refs = s.refs) : RefsReach s t := fun r => by
  rw [ref_congr h r]

theorem RefsReach.refl (s : State) : RefsReach s s := RefsReach.of_refs rfl

theorem RefsReach.trans {s t u : State} (h : RefsReach s t) (h' : RefsReach t u) : RefsReach s u :=
  fun r => (h r).trans (h' r)

theorem RefsReach.all {s t : State} (h : ∀ r, RefChange (s.ref r) (t.ref r)) : RefsReach s t :=
  fun r => .single (h r)

theorem Kept.refsReach {s t : State} (h : Kept s t) : RefsReach s t := RefsReach.of_refs h.refs

theorem setRef_refsReach {s : State} {r : RefIx} {x : Reference} (h : RefChange (s.ref r) x) :
    RefsReach s (s.setRef r x) := fun q => by
  rw [setRef_ref]
  split
  · rename_i hq
    rw [hq]
    exact .single h
  · exact .refl

theorem putRef_refsReach {s : State} {r : RefIx} {x : Reference} (h : RefChange (s.ref r) x) :
    RefsReach s (s.putRef r x) :=
  (setRef_refsReach h).trans (putRef_kept s r x).refsReach

/-- A property that every change keeps is kept along `RefsReach`. -/
theorem RefsReach.keeps {P : Reference → Prop} (hP : ∀ x y, RefChange x y → P x → P y) {s t : State}
    (h : RefsReach s t) (hs : ∀ r, P (s.ref r)) (r : RefIx) : P (t.ref r) := by
  have hr := h r
  generalize t.ref r = y at hr
  induction hr with
  | refl => exact hs r
  | tail _ hc ih => exact hP _ _ hc ih

/-! ### Operations that leave every reference record alone -/

@[simp] theorem compareReports_refs (s : State) : s.compareReports.refs = s.refs := (compareReports_kept s).refs
@[simp] theorem fullReport_refs (s : State) : s.fullReport.refs = s.refs := (fullReport_kept s).refs
@[simp] theorem endEvent_refs (s0 s1 : State) : (s0.endEvent s1).refs = s1.refs := (endEvent_kept s0 s1).refs
@[simp] theorem follow_refs (s0 s1 : State) : (s0.follow s1).refs = s1.refs := (follow_kept s0 s1).refs
@[simp] theorem abandon_refs (s : State) (i : ShelfIx) : (s.abandon i).refs = s.refs := (abandon_kept s i).refs
@[simp] theorem loseCurrent_refs (s : State) (i : ShelfIx) : (s.loseCurrent i).refs = s.refs :=
  (loseCurrent_kept s i).refs
@[simp] theorem moveToTarget_refs (s : State) (hard : Bool) (i : ShelfIx) : (s.moveToTarget hard i).refs = s.refs :=
  (moveToTarget_kept s hard i).refs
@[simp] theorem offerSn_refs (s : State) (i : ShelfIx) (p n : Option RefIx) (c : Cause) (h : Bool) :
    (s.offerSn i p n c h).refs = s.refs := (offerSn_kept s i p n c h).refs
@[simp] theorem offerSq_refs (s : State) (i : ShelfIx) : (s.offerSq i).refs = s.refs := (offerSq_kept s i).refs
@[simp] theorem releaseSwitch_refs (s : State) (i : ShelfIx) : (s.releaseSwitch i).refs = s.refs :=
  (releaseSwitch_kept s i).refs
@[simp] theorem outcome_refs (s : State) (i : ShelfIx) (c : Command) (t : Option RefIx) :
    (s.outcome i c t).refs = s.refs := (outcome_kept s i c t).refs
@[simp] theorem setTable_refs (s : State) (d : Dialect) (x : XlateTable) : (s.setTable d x).refs = s.refs := by
  cases d <;> rfl

@[simp] theorem decideShelf_refs (s : State) (i : ShelfIx) : (s.decideShelf i).refs = s.refs := by
  unfold State.decideShelf
  dsimp only
  split <;> simp

@[simp] theorem settleExpired_refs (s : State) (i : ShelfIx) : (s.settleExpired i).refs = s.refs := by
  unfold State.settleExpired
  split
  · split
    · rfl
    · split
      · exact decideShelf_refs s i
      · rfl
  all_goals rfl

@[simp] theorem engineEnds_refs (s : State) (hard : Bool) (e : EngineIx) (g : Nat) :
    (s.engineEnds hard e g).refs = s.refs := by
  unfold State.engineEnds
  split
  · rfl
  · split
    · simp
    · rfl

@[simp] theorem limitExpired_refs (s : State) (e : EngineIx) (g : Nat) : (s.limitExpired e g).refs = s.refs := by
  unfold State.limitExpired
  split
  · exact engineEnds_refs s true e g
  · rfl

@[simp] theorem refreshExpired_refs (s : State) : s.refreshExpired.refs = s.refs := by
  unfold State.refreshExpired
  split
  · simp
  · rfl

@[simp] theorem enterFloating_refs (s : State) : s.enterFloating.refs = s.refs := by
  unfold State.enterFloating
  split <;> rfl

@[simp] theorem writeShelf_refs (s : State) (i : ShelfIx) (cfg : ShelfConfig) : (s.writeShelf i cfg).refs = s.refs := by
  unfold State.writeShelf
  dsimp only
  split <;> simp

@[simp] theorem candTarget_refs (s : State) (i : ShelfIx) : (s.candTarget i).refs = s.refs := by
  unfold State.candTarget
  split
  · split <;> simp
  · rfl

@[simp] theorem candCurrent_refs (s : State) (i : ShelfIx) : (s.candCurrent i).refs = s.refs := by
  unfold State.candCurrent
  split
  · split <;> simp
  · rfl

@[simp] theorem writeList_refs (s : State) (i : ShelfIx) (l : List Candidate) : (s.writeList i l).refs = s.refs := by
  unfold State.writeList
  simp

@[simp] theorem enableShelf_refs (s : State) (i : ShelfIx) : (s.enableShelf i).refs = s.refs := by
  unfold State.enableShelf
  simp

@[simp] theorem closeShelf_refs (s : State) (i : ShelfIx) : (s.closeShelf i).refs = s.refs := by
  unfold State.closeShelf
  dsimp only
  split <;> simp

@[simp] theorem disableShelf_refs (s : State) (i : ShelfIx) : (s.disableShelf i).refs = s.refs := by
  unfold State.disableShelf
  simp

@[simp] theorem setCommand_refs (s : State) (i : ShelfIx) (c : Command) : (s.setCommand i c).refs = s.refs := rfl

@[simp] theorem changeLockout_refs (s : State) (i : ShelfIx) (r : RefIx) (on : Bool) :
    (s.changeLockout i r on).refs = s.refs := by
  unfold State.changeLockout
  dsimp only
  split <;> simp

@[simp] theorem offerRx_refs (s : State) (f : Frame) : (s.offerRx f).refs = s.refs := by
  unfold State.offerRx
  split <;> rfl

@[simp] theorem arrive_refs (s : State) (a : Arrival) : (s.arrive a).refs = s.refs := by
  cases a
  · rfl
  · rfl
  · exact offerRx_refs s _

@[simp] theorem frameArrives_refs (s : State) : s.frameArrives.refs = s.refs := by
  unfold State.frameArrives
  split <;> simp

@[simp] theorem relay_refs (s : State) (f : Frame) : (s.relay f).refs = s.refs := by
  unfold State.relay
  split
  · rfl
  · split <;> rfl

/-! ### Requests -/

theorem clampNat_ge {lo hi v : Nat} : lo ≤ clampNat lo hi v := le_max_left _ _

theorem clampNat_le {lo hi v : Nat} (h : lo ≤ hi) : clampNat lo hi v ≤ hi := max_le h (min_le_left _ _)

/-- What WR-REF reads is in its ranges, once its limits are in order: R62. -/
theorem readRefConfig_inRange {l : List Byte} {w : RefWrite} (h : readRefConfig l = some w)
    (ho : w.cfg.accept < w.cfg.reject) : w.cfg.InRange := by
  unfold readRefConfig at h
  split at h
  · simp only [Option.bind_eq_bind, Option.bind_eq_some_iff, Option.pure_def, Option.some.injEq] at h
    obtain ⟨kind, -, rate, -, gate, -, depth, -, override, -, fixed, -, source, -, announcer, hann, origin, -, rfl⟩ := h
    have hall : announcer ≠ Byte.all := by
      unfold readAnnouncer at hann
      split at hann
      · cases hann
      · obtain rfl := Option.some.inj hann
        assumption
    exact ⟨clampNat_ge, ho, clampNat_le (by decide), clampNat_le (by decide), clampNat_le (by decide),
      clampNat_le (by decide), hall⟩
  · cases h

theorem reqWrRef_refsReach (args : List Byte) (s : State) : RefsReach s (reqWrRef args s).state := by
  unfold reqWrRef
  split
  · exact RefsReach.refl s
  · split
    · split
      · rename_i r w _ hw
        split
        · exact RefsReach.refl s
        · rename_i hf
          split
          · rename_i ho
            refine putRef_refsReach (.configured _ w.cfg (readRefConfig_inRange hw ho) fun hon => ?_)
            simpa [hon] using hf
          · exact RefsReach.refl s
      · exact RefsReach.refl s
    · exact RefsReach.refl s

theorem reqRefOn_refsReach (args : List Byte) (s : State) : RefsReach s (reqRefOn args s).state := by
  unfold reqRefOn
  split
  · split
    · exact RefsReach.refl s
    · split
      · exact putRef_refsReach (.turnedOn _ _ ‹_›)
      · exact RefsReach.refl s
  · exact RefsReach.refl s

theorem reqRefOff_refsReach (args : List Byte) (s : State) : RefsReach s (reqRefOff args s).state := by
  unfold reqRefOff
  split
  · split
    · exact RefsReach.refl s
    · split
      · exact RefsReach.refl s
      · exact putRef_refsReach (.turnedOff _)
  · exact RefsReach.refl s

theorem reqClrWtr_refsReach (args : List Byte) (s : State) : RefsReach s (reqClrWtr args s).state := by
  unfold reqClrWtr
  split
  · split
    · exact RefsReach.refl s
    · split
      · exact putRef_refsReach (.waitCleared _ ‹_›)
      · exact RefsReach.refl s
  · exact RefsReach.refl s

theorem reqAck_refsReach (args : List Byte) (s : State) : RefsReach s (reqAck args s).state := by
  unfold reqAck
  split
  · split
    · split
      · exact setRef_refsReach (.acknowledged _ _)
      · exact RefsReach.refl s
    · split
      · split <;> exact RefsReach.of_refs rfl
      · exact RefsReach.refl s
  · exact RefsReach.refl s

theorem warmRestart_refsReach (s : State) : RefsReach s s.warmRestart := by
  refine RefsReach.trans (RefsReach.all fun r => ?_) (fullReport_kept _).refsReach
  rw [mapShelves_ref, mapRefs_ref]
  exact .acknowledged _ _

theorem reqRestart_refsReach (args : List Byte) (s : State) : RefsReach s (reqRestart args s).state := by
  unfold reqRestart
  split
  · dsimp only [Answer.ok]
    exact warmRestart_refsReach s
  · exact RefsReach.refl s

/-- No request but WR-REF, REF-ON, REF-OFF, CLR-WTR, ACK and RESTART touches a reference record. -/
theorem run_refs (q : Request) (args : List Byte) (s : State)
    (hq : q ∉ [.wrRef, .refOn, .refOff, .clrWtr, .ack, .restart]) : (q.run args s).state.refs = s.refs := by
  cases q <;> dsimp only [Request.run]
  case wrRef | refOn | refOff | clrWtr | ack | restart => simp at hq
  case rdRef => unfold reqRdRef; (repeat' split) <;> rfl
  case rdShelf => unfold reqRdShelf; (repeat' split) <;> rfl
  case rdXlate => unfold reqRdXlate; (repeat' split) <;> rfl
  case rdGlobal => unfold reqRdGlobal; (repeat' split) <;> rfl
  case rdCount => unfold reqRdCount; (repeat' split) <;> rfl
  case wrShelf => unfold reqWrShelf; (repeat' split) <;> simp [Answer.ok, Answer.refuse]
  case wrCand => unfold reqWrCand; (repeat' split) <;> simp [Answer.ok, Answer.refuse]
  case wrXlate => unfold reqWrXlate; (repeat' split) <;> simp [Answer.ok, Answer.refuse]
  case wrGlobal => unfold reqWrGlobal; (repeat' split) <;> rfl
  case shelfOn => unfold reqShelfOn; (repeat' split) <;> simp [Answer.ok, Answer.refuse]
  case shelfOff => unfold reqShelfOff; (repeat' split) <;> simp [Answer.ok, Answer.refuse]
  case cmd => unfold reqCmd; (repeat' split) <;> rfl
  case lock => unfold reqLock; (repeat' split) <;> simp [Answer.ok, Answer.refuse]
  case clrCount => unfold reqClrCount; (repeat' split) <;> rfl
  case takeRole => unfold reqTakeRole; (repeat' split) <;> simp [Answer.ok, Answer.refuse]
  case yieldRole => unfold reqYieldRole; (repeat' split) <;> simp [Answer.ok, Answer.refuse]

theorem run_refsReach (q : Request) (args : List Byte) (s : State) : RefsReach s (q.run args s).state := by
  by_cases hq : q ∈ [.wrRef, .refOn, .refOff, .clrWtr, .ack, .restart]
  · simp only [List.mem_cons, List.not_mem_nil, or_false] at hq
    rcases hq with rfl | rfl | rfl | rfl | rfl | rfl
    · exact reqWrRef_refsReach args s
    · exact reqRefOn_refsReach args s
    · exact reqRefOff_refsReach args s
    · exact reqClrWtr_refsReach args s
    · exact reqAck_refsReach args s
    · exact reqRestart_refsReach args s
  · exact RefsReach.of_refs (run_refs q args s hq)

theorem execute_refsReach (s : State) (src : Byte) (payload : List Byte) :
    RefsReach s (s.execute src payload).state := by
  unfold State.execute
  split
  · split
    · exact RefsReach.refl s
    · split
      · exact RefsReach.refl s
      · exact run_refsReach _ _ s
  · exact RefsReach.refl s

theorem takeRequest_refsReach (s : State) (f : Frame) : RefsReach s (s.takeRequest f) := by
  have h0 : RefsReach s ((s.updRing fun g => { g with rxQ := g.rxQ.tail }).pushInsert .reserved) :=
    RefsReach.of_refs rfl
  exact (h0.trans (execute_refsReach _ f.src f.payload)).trans (RefsReach.of_refs rfl)

/-! ### Quality announcements and the Frame Handler -/

theorem takeEntry_refsReach (src : Byte) (s : State) (e : QaEntry) : RefsReach s (State.takeEntry src s e) := by
  unfold State.takeEntry
  split
  · rename_i r q h
    refine setRef_refsReach ?_
    unfold State.acceptEntry at h
    split at h
    · dsimp only at h
      split at h
      · rename_i hx
        obtain ⟨hkind, hon, -, -⟩ := hx
        split at h
        · split at h
          · obtain ⟨rfl, rfl⟩ := Prod.mk.inj (Option.some.inj h)
            exact .entryTaken _ _ _ hkind hon
          · cases h
        · obtain ⟨rfl, rfl⟩ := Prod.mk.inj (Option.some.inj h)
          exact .withdrawn _ hkind hon
      · cases h
    · cases h
  · exact RefsReach.of_refs rfl

theorem announce_refsReach (s : State) (src : Byte) (l : List QaEntry) : RefsReach s (s.announce src l) := by
  unfold State.announce
  refine RefsReach.trans (t := l.foldl (State.takeEntry src) s) ?_ (RefsReach.of_refs (by simp))
  exact foldl_induct _ (fun b e h => h.trans (takeEntry_refsReach src b e)) l s (RefsReach.refl s)

theorem passFrame_refsReach (s : State) (f : Frame) : RefsReach s (s.passFrame f) := by
  have hr : RefsReach s (s.relay f) := RefsReach.of_refs (relay_refs s f)
  unfold State.passFrame State.handOff
  dsimp only
  split
  · split
    · exact hr.trans (announce_refsReach _ _ _)
    · exact hr.trans (RefsReach.of_refs rfl)
  · exact hr

theorem takeHead_refsReach (s : State) : RefsReach s s.takeHead := by
  unfold State.takeHead
  split
  · exact RefsReach.refl s
  · split
    · exact RefsReach.of_refs rfl
    · split
      · split
        · split
          · exact takeRequest_refsReach s _
          · exact RefsReach.refl s
        · exact RefsReach.of_refs rfl
      · exact (RefsReach.of_refs (dropHead_refs s)).trans (passFrame_refsReach _ _)

theorem submit_refsReach (s : State) (src : Byte) (payload : List Byte) : RefsReach s (s.submit src payload) := by
  have ho : RefsReach s (s.offerRx (s.requestFrame src payload)) := RefsReach.of_refs (offerRx_refs s _)
  unfold State.submit
  split
  · split
    · exact ho.trans (takeHead_refsReach _)
    · exact ho
  · exact RefsReach.of_refs rfl

/-! ### Every step -/

/-- A command that RESETn low holds off. -/
theorem running_refsReach {s t : State} {f : State → State} (h : s.running f = .next t) (hf : RefsReach s (f s)) :
    RefsReach s t := by
  unfold State.running at h
  obtain rfl := Host.Outcome.next.inj h
  split
  · exact hf
  · exact RefsReach.refl s

theorem exec_refsReach {c : Instr} {s t : State} (h : exec c s = .next t) : RefsReach s t := by
  cases c with
  | frameArrival =>
    exact running_refsReach (f := State.frameArrives) h (RefsReach.of_refs (frameArrives_refs s))
  | frameTake => exact running_refsReach (f := State.takeHead) h (takeHead_refsReach s)
  | transmissionStart =>
    exact running_refsReach (f := fun s => s.updRing Ring.startSending) h (RefsReach.of_refs rfl)
  | transmissionEnd =>
    exact running_refsReach (f := fun s => s.updRing Ring.endSending) h (RefsReach.of_refs rfl)
  | receiverReady levels =>
    exact running_refsReach
      (f := fun s => s.updRing fun g => { g with receiver := levels.foldl Receiver.bit g.receiver })
      h (RefsReach.of_refs rfl)
  | octetTaken octet stop =>
    exact running_refsReach (f := fun s => s.updRing fun g => { g with receiver := g.receiver.octet octet stop })
      h (RefsReach.of_refs rfl)
  | comparisonPulse r cycles ticks =>
    exact running_refsReach (f := fun s => s.putRef r ((s.ref r).clockIn cycles ticks)) h
      (putRef_refsReach (.clocked _ cycles ticks))
  | activityWatchExpiry r =>
    exact running_refsReach (f := fun s => s.putRef r (s.ref r).watchExpired) h (putRef_refsReach (.watchExpired _))
  | holdOffExpiry r =>
    exact running_refsReach (f := fun s => s.putRef r (s.ref r).holdOffExpired) h
      (putRef_refsReach (.holdOffExpired _))
  | restoreWaitExpiry r =>
    exact running_refsReach (f := fun s => s.putRef r (s.ref r).restoreExpired) h
      (putRef_refsReach (.restoreExpired _))
  | decayExpiry r =>
    exact running_refsReach (f := fun s => s.setRef r (s.ref r).decayExpired) h (setRef_refsReach (.decayExpired _))
  | announcementTimerExpiry r =>
    exact running_refsReach (f := fun s => s.putRef r (s.ref r).announceExpired) h
      (putRef_refsReach (.announceExpired _))
  | settleTimerExpiry i =>
    exact running_refsReach (f := fun s => s.endEvent (s.settleExpired i)) h (RefsReach.of_refs (by simp))
  | engineDone e g =>
    exact running_refsReach (f := fun s => s.engineEnds false e g) h (RefsReach.of_refs (by simp))
  | alignmentLimitExpiry e g =>
    exact running_refsReach (f := fun s => s.limitExpired e g) h (RefsReach.of_refs (by simp))
  | holdoverPhaseExpiry i =>
    exact running_refsReach (f := fun s => s.endEvent (s.follow (s.updShelf i fun x =>
      { x with state := x.state.phaseExpired x.cfg.phaseB.toNat }))) h (RefsReach.of_refs (by simp))
  | refreshExpiry => exact running_refsReach (f := State.refreshExpired) h (RefsReach.of_refs (by simp))
  | roleFallingEdge =>
    obtain rfl := Host.Outcome.next.inj h
    exact RefsReach.of_refs (enterFloating_refs _)
  | roleRisingEdge =>
    obtain rfl := Host.Outcome.next.inj h
    exact RefsReach.of_refs rfl
  | resetAssert =>
    obtain rfl := Host.Outcome.next.inj h
    refine RefsReach.all fun r => ?_
    have hr : (State.cold s.role s.grants s.pending).ref r = Reference.cold := by simp [State.ref, State.cold]
    rw [hr]
    exact .reset _
  | resetRelease straps =>
    obtain rfl := Host.Outcome.next.inj h
    split <;> exact RefsReach.of_refs rfl
  | _ => exact running_refsReach (f := fun s => s.submit _ _) h (submit_refsReach s _ _)

/-- Every step changes the reference records by changes of `RefChange` alone. -/
theorem step_refsReach {s t : State} (h : step s = .next t) : RefsReach s t := by
  unfold step at h
  split at h
  · obtain rfl := Host.Outcome.next.inj h
    unfold State.idleTick
    split
    · exact RefsReach.all fun r => by rw [elapse_ref]; exact .elapsed _ 1
    · exact RefsReach.refl s
  · rename_i c rest _
    have h0 : RefsReach s { s with pending := rest } := RefsReach.of_refs rfl
    exact h0.trans (exec_refsReach h)

end Sys2Proof.Machine
end

section
/-! What the Frequency Monitor does, said once: the arithmetic of a gate's result and of the filter, one equation for
each thing a comparison pulse can do, and what a change of the monitor makes of its reference. -/

namespace Sys2Proof.Machine

/-! ### The arithmetic of a result -/

theorem Gate.size_pos (g : Gate) : 0 < g.size := by cases g <;> decide

theorem offsetResult_natAbs_le (g : Gate) (c : Nat) : (offsetResult g c).natAbs ≤ 1000000 := by
  unfold offsetResult clampPpb
  omega

/-- The filter moves up towards a result that is not below it by the difference over 2^k, rounded down: R18. -/
theorem filterStep_up (k : Fin 8) {f o : Int} (h : f ≤ o) : ∃ d : Int, filterStep k (some f) o = f + d
    ∧ 0 ≤ d ∧ d * 2 ^ k.val ≤ o - f ∧ o - f < (d + 1) * 2 ^ k.val := by
  have hk : (0 : Int) < 2 ^ k.val := by positivity
  have hd : (o - f).tdiv (2 ^ k.val) = (o - f) / 2 ^ k.val := Int.tdiv_eq_ediv_of_nonneg (by omega)
  exact ⟨(o - f) / 2 ^ k.val, by rw [← hd]; rfl, Int.ediv_nonneg (by omega) hk.le, Int.ediv_mul_le _ hk.ne',
    Int.lt_ediv_add_one_mul_self _ hk⟩

/-- The filter moves down towards a result that is not above it by the difference over 2^k, rounded down: R18. -/
theorem filterStep_down (k : Fin 8) {f o : Int} (h : o ≤ f) : ∃ d : Int, filterStep k (some f) o = f - d
    ∧ 0 ≤ d ∧ d * 2 ^ k.val ≤ f - o ∧ f - o < (d + 1) * 2 ^ k.val := by
  have hk : (0 : Int) < 2 ^ k.val := by positivity
  have hd : (o - f).tdiv (2 ^ k.val) = -((f - o) / 2 ^ k.val) := by
    rw [← neg_sub f o, Int.neg_tdiv, Int.tdiv_eq_ediv_of_nonneg (by omega)]
  exact ⟨(f - o) / 2 ^ k.val, by rw [sub_eq_add_neg, ← hd]; rfl, Int.ediv_nonneg (by omega) hk.le,
    Int.ediv_mul_le _ hk.ne', Int.lt_ediv_add_one_mul_self _ hk⟩

/-- The filter does not pass the result: it stays within the bounds of both. -/
theorem filterStep_natAbs_le {b : Nat} (k : Fin 8) {f : Option Int} {o : Int} (hf : ∀ v, f = some v → v.natAbs ≤ b)
    (ho : o.natAbs ≤ b) : (filterStep k f o).natAbs ≤ b := by
  have hmul : ∀ d : Int, 0 ≤ d → d ≤ d * 2 ^ k.val := fun d hd =>
    le_mul_of_one_le_right hd (one_le_pow₀ (by decide))
  cases f with
  | none => exact ho
  | some v =>
    have hv := hf v rfl
    rcases le_total v o with hvo | hvo
    · obtain ⟨d, he, hd, hle, -⟩ := filterStep_up k hvo
      have := hmul d hd
      rw [he]
      omega
    · obtain ⟨d, he, hd, hle, -⟩ := filterStep_down k hvo
      have := hmul d hd
      rw [he]
      omega

theorem judge_ne_unmeasured (a j : Nat) (q : Qualification) (f : Int) : judge a j q f ≠ .unmeasured := by
  cases q <;> (unfold judge; dsimp only; split <;> exact fun h => by cases h)

/-- The hit test as R16 words it. -/
theorem isHit_iff (limit : Nat) (f : Option Int) (o : Int) :
    isHit limit f o = true ↔ limit ≠ 0 ∧ ∃ v, f = some v ∧ (limit : Int) < |o - v| := by
  cases f with
  | none => simp [isHit]
  | some v =>
    have h : (limit : Int) < |o - v| ↔ limit < (o - v).natAbs := by rw [Int.abs_eq_natAbs, Int.ofNat_lt]
    simp [isHit, h]

/-! ### The monitor as time passes -/

@[simp] theorem Monitor.elapse_prescaler (d : Nat) (m : Monitor) : (m.elapse d).prescaler = m.prescaler := by
  rw [Monitor.elapse_eq]
@[simp] theorem Monitor.elapse_run (d : Nat) (m : Monitor) : (m.elapse d).run = m.run := by rw [Monitor.elapse_eq]
@[simp] theorem Monitor.elapse_signal (d : Nat) (m : Monitor) : (m.elapse d).signal = m.signal := by
  rw [Monitor.elapse_eq]
@[simp] theorem Monitor.elapse_gate (d : Nat) (m : Monitor) : (m.elapse d).gate = m.gate := by rw [Monitor.elapse_eq]
@[simp] theorem Monitor.elapse_settling (d : Nat) (m : Monitor) : (m.elapse d).settling = m.settling := by
  rw [Monitor.elapse_eq]
@[simp] theorem Monitor.elapse_pulses (d : Nat) (m : Monitor) : (m.elapse d).pulses = m.pulses := by
  rw [Monitor.elapse_eq]
@[simp] theorem Monitor.elapse_filtered (d : Nat) (m : Monitor) : (m.elapse d).filtered = m.filtered := by
  rw [Monitor.elapse_eq]
@[simp] theorem Monitor.elapse_qual (d : Nat) (m : Monitor) : (m.elapse d).qual = m.qual := by rw [Monitor.elapse_eq]
@[simp] theorem Monitor.elapse_hits (d : Nat) (m : Monitor) : (m.elapse d).hits = m.hits := by rw [Monitor.elapse_eq]
@[simp] theorem Monitor.elapse_verdict (d : Nat) (m : Monitor) : (m.elapse d).verdict = m.verdict := by
  rw [Monitor.elapse_eq]

theorem Monitor.elapse_stopped (d : Nat) {m : Monitor} (h : m.watch = none) : m.elapse d = m := by
  unfold Monitor.elapse
  rw [h]

theorem Monitor.elapse_watched (d : Nat) {m : Monitor} {w : Nat} (h : m.watch = some w) : m.elapse d = { m with
    watch := some (w - d)
    ticks := if m.gate = .opened then m.ticks + min d w else m.ticks } := by
  unfold Monitor.elapse
  rw [h]
  cases m.gate <;> rfl

/-! ### The verdict -/

/-- A RUNNING monitor whose signal is PRESENT is GOOD exactly when it is IN with no hit counted: R21. -/
theorem Monitor.formVerdict_present {m : Monitor} (hr : m.run = .running) (hs : m.signal = .present) :
    m.formVerdict = if m.qual = .inside ∧ m.hits = 0 then .good else .fail := by
  unfold Monitor.formVerdict
  rw [hr, hs]
  cases m.qual <;> simp

theorem Monitor.formVerdict_unmeasured {m : Monitor} (hq : m.qual = .unmeasured) : m.formVerdict = .fail := by
  unfold Monitor.formVerdict
  rw [hq]
  cases m.run <;> cases m.signal <;> rfl

/-- The verdict reads the run state, the signal, the qualification and the hit count. -/
theorem Monitor.formVerdict_congr {m m' : Monitor} (hr : m'.run = m.run) (hs : m'.signal = m.signal)
    (hq : m'.qual = m.qual) (hh : m'.hits = m.hits) : m'.formVerdict = m.formVerdict := by
  unfold Monitor.formVerdict
  rw [hr, hs, hq, hh]

theorem Monitor.withVerdict_eq {m : Monitor} {v : Verdict} (h : m.formVerdict = v) :
    m.withVerdict = { m with verdict := v } := by
  unfold Monitor.withVerdict
  rw [h]

/-! ### What a comparison pulse does to the monitor -/

theorem Monitor.pulse_lost (cfg : RefConfig) {m : Monitor} (hr : m.run = .running) (hs : m.signal = .lost) :
    m.pulse cfg = { m with
      signal := .present, watch := some watchTicks, gate := .opened, settling := true, pulses := 0
      ticks := 0 }.withVerdict := by
  unfold Monitor.pulse
  rw [hr, hs]

theorem Monitor.pulse_opens (cfg : RefConfig) {m : Monitor} (hr : m.run = .running) (hs : m.signal = .present)
    (hg : m.gate = .closed) :
    m.pulse cfg = { m with watch := some watchTicks, gate := .opened, pulses := 0, ticks := 0 } := by
  unfold Monitor.pulse
  rw [hr, hs, hg]

theorem Monitor.pulse_counts (cfg : RefConfig) {m : Monitor} (hr : m.run = .running) (hs : m.signal = .present)
    (hg : m.gate = .opened) (hp : m.pulses + 1 < cfg.gate.size) :
    m.pulse cfg = { m with watch := some watchTicks, pulses := m.pulses + 1 } := by
  unfold Monitor.pulse
  rw [hr, hs, hg]
  exact if_pos hp

theorem Monitor.pulse_closes (cfg : RefConfig) {m : Monitor} (hr : m.run = .running) (hs : m.signal = .present)
    (hg : m.gate = .opened) (hp : cfg.gate.size ≤ m.pulses + 1) :
    m.pulse cfg = ({ m with watch := some watchTicks }.closeGate cfg).withVerdict := by
  unfold Monitor.pulse
  rw [hr, hs, hg]
  exact if_neg (by omega)

theorem Monitor.closeGate_settling (cfg : RefConfig) {m : Monitor} (h : m.settling = true) :
    m.closeGate cfg = { m with pulses := 0, ticks := 0, settling := false } := by
  unfold Monitor.closeGate
  exact if_pos h

theorem Monitor.closeGate_used (cfg : RefConfig) {m : Monitor} (h : m.settling = false) :
    m.closeGate cfg = { m with pulses := 0, ticks := 0 }.useResult cfg (offsetResult cfg.gate m.ticks) := by
  unfold Monitor.closeGate
  exact if_neg (by simp [h])

theorem Monitor.useResult_applied (cfg : RefConfig) {o : Int} {m : Monitor} (h : isHit cfg.hit m.filtered o = false) :
    m.useResult cfg o = { m with
      last := some o
      filtered := some (filterStep cfg.depth m.filtered o)
      hits := 0
      qual := judge cfg.accept cfg.reject m.qual (filterStep cfg.depth m.filtered o) } := by
  unfold Monitor.useResult
  exact if_neg (by simp [h])

theorem Monitor.useResult_withheld (cfg : RefConfig) {o : Int} {m : Monitor} (h : isHit cfg.hit m.filtered o = true)
    (hh : m.hits + 1 < 3) : m.useResult cfg o = { m with last := some o, hits := m.hits + 1 } := by
  unfold Monitor.useResult
  exact (if_pos h).trans (if_pos hh)

theorem Monitor.useResult_reseeded (cfg : RefConfig) {o : Int} {m : Monitor} (h : isHit cfg.hit m.filtered o = true)
    (hh : 3 ≤ m.hits + 1) : m.useResult cfg o = { m with
      last := some o, filtered := some o, hits := 0, qual := judge cfg.accept cfg.reject m.qual o } := by
  unfold Monitor.useResult
  exact (if_pos h).trans (if_neg (by omega))

/-- The pulse's result is a hit exactly when the pulse closes a gate that is used and its result is a hit: R15, R16. -/
theorem Monitor.hitAt_iff (cfg : RefConfig) (m : Monitor) : m.hitAt cfg = true ↔
    (m.run = .running ∧ m.signal = .present ∧ m.gate = .opened ∧ cfg.gate.size ≤ m.pulses + 1 ∧ m.settling = false)
      ∧ isHit cfg.hit m.filtered (offsetResult cfg.gate m.ticks) = true := by
  unfold Monitor.hitAt Monitor.closesUsedGate
  simp [and_assoc]

/-! ### What becomes of the reference -/

theorem Reference.clockIn_idle {x : Reference} (cycles ticks : Nat) (h : x.mon.run = .idle) :
    x.clockIn cycles ticks = x := by
  unfold Reference.clockIn
  rw [h]

theorem Reference.clockIn_counts {x : Reference} {cycles : Nat} (ticks : Nat) (h : x.mon.run = .running)
    (hn : x.mon.prescaler + cycles < rateDivisor x.cfg.rate) :
    x.clockIn cycles ticks =
      { x with mon := { x.mon.elapse ticks with prescaler := x.mon.prescaler + cycles } } := by
  unfold Reference.clockIn
  rw [h]
  dsimp only
  rw [Monitor.elapse_prescaler, if_pos hn]

/-- The monitor that meets the comparison pulse: the time has passed, and the divisor's cycles have left the prescaler.
-/
def Reference.atPulse (x : Reference) (cycles ticks : Nat) : Monitor :=
  { x.mon.elapse ticks with prescaler := x.mon.prescaler + cycles - rateDivisor x.cfg.rate }

@[simp] theorem Reference.atPulse_run (x : Reference) (cycles ticks : Nat) :
    (x.atPulse cycles ticks).run = x.mon.run := Monitor.elapse_run ticks x.mon
@[simp] theorem Reference.atPulse_signal (x : Reference) (cycles ticks : Nat) :
    (x.atPulse cycles ticks).signal = x.mon.signal := Monitor.elapse_signal ticks x.mon
@[simp] theorem Reference.atPulse_gate (x : Reference) (cycles ticks : Nat) :
    (x.atPulse cycles ticks).gate = x.mon.gate := Monitor.elapse_gate ticks x.mon
@[simp] theorem Reference.atPulse_settling (x : Reference) (cycles ticks : Nat) :
    (x.atPulse cycles ticks).settling = x.mon.settling := Monitor.elapse_settling ticks x.mon
@[simp] theorem Reference.atPulse_pulses (x : Reference) (cycles ticks : Nat) :
    (x.atPulse cycles ticks).pulses = x.mon.pulses := Monitor.elapse_pulses ticks x.mon
@[simp] theorem Reference.atPulse_filtered (x : Reference) (cycles ticks : Nat) :
    (x.atPulse cycles ticks).filtered = x.mon.filtered := Monitor.elapse_filtered ticks x.mon
@[simp] theorem Reference.atPulse_qual (x : Reference) (cycles ticks : Nat) :
    (x.atPulse cycles ticks).qual = x.mon.qual := Monitor.elapse_qual ticks x.mon
@[simp] theorem Reference.atPulse_hits (x : Reference) (cycles ticks : Nat) :
    (x.atPulse cycles ticks).hits = x.mon.hits := Monitor.elapse_hits ticks x.mon
@[simp] theorem Reference.atPulse_verdict (x : Reference) (cycles ticks : Nat) :
    (x.atPulse cycles ticks).verdict = x.mon.verdict := Monitor.elapse_verdict ticks x.mon

theorem Reference.clockIn_pulses {x : Reference} {cycles : Nat} (ticks : Nat) (h : x.mon.run = .running)
    (hn : rateDivisor x.cfg.rate ≤ x.mon.prescaler + cycles) :
    x.clockIn cycles ticks = x.measured ((x.atPulse cycles ticks).pulse x.cfg) false
      ((x.atPulse cycles ticks).hitAt x.cfg) := by
  unfold Reference.clockIn
  rw [h]
  dsimp only
  rw [Monitor.elapse_prescaler, if_neg (by omega)]
  rfl

theorem Reference.measured_rt (x : Reference) (m : Monitor) (los hit : Bool) :
    (x.measured m los hit).rt = { x.rt with latches := { x.rt.latches with
      los := x.rt.latches.los || los
      freq := x.rt.latches.freq || entersOut x.mon m
      hit := x.rt.latches.hit || hit } }.verdictEvent x.cfg x.mon.verdict m.verdict := rfl

theorem RefDynamic.verdictEvent_same (cfg : RefConfig) (v : Verdict) (x : RefDynamic) : x.verdictEvent cfg v v = x := by
  cases v <;> rfl

theorem entersOut_eq_decide (before after : Monitor) :
    entersOut before after = decide (before.qual ≠ .outside ∧ after.qual = .outside) := by
  rw [Bool.eq_iff_iff, decide_eq_true_iff]
  simp [entersOut]

/-- A measurement that keeps qualification and verdict, with no loss and no hit, changes the monitor alone. -/
theorem Reference.measured_quiet {x : Reference} {m : Monitor} (hq : m.qual = x.mon.qual)
    (hv : m.verdict = x.mon.verdict) : x.measured m false false = { x with mon := m } := by
  have ho : entersOut x.mon m = false := by simp [entersOut, hq]
  unfold Reference.measured
  simp only [ho, hv, RefDynamic.verdictEvent_same, Bool.or_false]

end Sys2Proof.Machine
end

section
/-! A reference record that is legal stays legal under every change of `RefChange`: R3, R7, R21, R47, R52, R60, R63. -/

namespace Sys2Proof.Machine

/-- Every field of the record is in its values and they agree with one another. -/
structure Reference.Legal (x : Reference) : Prop where
  cfg : x.cfg.InRange
  verdict : x.VerdictOk
  timers : x.rt.TimersOk
  mon : x.mon.Ok x.cfg.gate
  quality : x.QualityOk

/-! ### Timers -/

/-- A timer whose values are bounded stays so as it runs down. -/
theorem Timer.elapse_le {b d : Nat} {t : Timer} (h : ∀ n, t = some n → n ≤ b) :
    ∀ n, Timer.elapse d t = some n → n ≤ b := by
  intro n hn
  obtain ⟨v, hv, rfl⟩ := Option.map_eq_some_iff.mp hn
  have := h v hv
  omega

@[simp] theorem Timer.elapse_isSome (d : Nat) (t : Timer) : (Timer.elapse d t).isSome = t.isSome := by
  cases t <;> rfl

theorem RefDynamic.activate_timersOk (x : RefDynamic) : x.activate.TimersOk := by
  simp [RefDynamic.TimersOk, RefDynamic.activate, decayTicks, secTicks]

theorem RefDynamic.enterFailed_timersOk (x : RefDynamic) : x.enterFailed.TimersOk := by
  simp [RefDynamic.TimersOk, RefDynamic.enterFailed]

theorem restoreSeconds_le (base : Nat) (flap : Fin 4) : restoreSeconds base flap ≤ 3600 := min_le_left _ _

theorem RefDynamic.verdictGood_timersOk {cfg : RefConfig} {x : RefDynamic} (h : x.TimersOk) :
    (x.verdictGood cfg).TimersOk := by
  unfold RefDynamic.verdictGood
  split
  · exact x.activate_timersOk
  · exact x.activate_timersOk
  · rename_i hs
    split
    · exact x.activate_timersOk
    · have hw := restoreSeconds_le cfg.restoreBase x.flap
      simp only [RefDynamic.TimersOk, hs, secTicks, Config.ticksPerSecond, Option.some.injEq] at h ⊢
      obtain ⟨hho, -, hde, hbho, -, hbde⟩ := h
      refine ⟨by simpa using hho, by simp, by simpa using hde, hbho, ?_, hbde⟩
      rintro n rfl
      omega
  all_goals exact h

theorem RefDynamic.verdictFail_timersOk {cfg : RefConfig} {x : RefDynamic} (hc : cfg.holdOff ≤ 1000)
    (h : x.TimersOk) : (x.verdictFail cfg).TimersOk := by
  unfold RefDynamic.verdictFail
  split
  · rename_i hs
    split
    · exact x.enterFailed_timersOk
    · simp only [RefDynamic.TimersOk, hs, msTicks, Config.ticksPerMs, Option.some.injEq] at h ⊢
      obtain ⟨-, hre, -, -, hbre, hbde⟩ := h
      refine ⟨by simp, by simpa using hre, by simp, ?_, hbre, hbde⟩
      rintro n rfl
      omega
  · exact x.enterFailed_timersOk
  all_goals exact h

theorem RefDynamic.verdictEvent_timersOk {cfg : RefConfig} {x : RefDynamic} (hc : cfg.holdOff ≤ 1000)
    (h : x.TimersOk) (before after : Verdict) : (x.verdictEvent cfg before after).TimersOk := by
  cases before <;> cases after
  · exact h
  · exact RefDynamic.verdictFail_timersOk hc h
  · exact RefDynamic.verdictGood_timersOk h
  · exact h

/-! ### The state and the verdict -/

/-- A verdict GOOD takes an enabled reference to ACTIVE or RESTORING: R64. -/
theorem RefDynamic.verdictGood_state (cfg : RefConfig) {x : RefDynamic} (hon : x.state ≠ .disabled) :
    (x.verdictGood cfg).state = .active ∨ (x.verdictGood cfg).state = .restoring := by
  unfold RefDynamic.verdictGood
  split
  · exact .inl rfl
  · exact .inl rfl
  · split
    · exact .inl rfl
    · exact .inr rfl
  · contradiction
  · exact .inl ‹_›
  · exact .inr ‹_›

/-- A verdict FAIL takes a reference from ACTIVE or RESTORING to HOLDOFF or FAILED: R64. -/
theorem RefDynamic.verdictFail_state (cfg : RefConfig) {x : RefDynamic}
    (h : x.state = .active ∨ x.state = .restoring) :
    (x.verdictFail cfg).state = .holdoff ∨ (x.verdictFail cfg).state = .failed := by
  unfold RefDynamic.verdictFail
  rcases h with h | h <;> rw [h] <;> dsimp only
  · split
    · exact .inr rfl
    · exact .inl rfl
  · exact .inr rfl

/-- The state of an enabled reference holds the verdict delivered last: R22, R63. -/
theorem RefDynamic.verdictEvent_state {cfg : RefConfig} {x : RefDynamic} {before : Verdict} (after : Verdict)
    (hon : x.state ≠ .disabled) (hv : before = .good ↔ x.state = .active ∨ x.state = .restoring) :
    (x.verdictEvent cfg before after).state ≠ .disabled
      ∧ (after = .good ↔ (x.verdictEvent cfg before after).state = .active
        ∨ (x.verdictEvent cfg before after).state = .restoring) := by
  cases before <;> cases after
  · exact ⟨hon, hv⟩
  · have h : (x.verdictEvent cfg .good .fail).state = .holdoff ∨ (x.verdictEvent cfg .good .fail).state = .failed :=
      RefDynamic.verdictFail_state cfg (hv.mp rfl)
    rcases h with h | h <;> simp [h]
  · have h : (x.verdictEvent cfg .fail .good).state = .active ∨ (x.verdictEvent cfg .fail .good).state = .restoring :=
      RefDynamic.verdictGood_state cfg hon
    rcases h with h | h <;> simp [h]
  · exact ⟨hon, hv⟩

/-- The received rank asks of the record its kind and whether it is enabled. -/
theorem Reference.QualityOk.congr {x y : Reference} (h : x.QualityOk) (hk : y.cfg.kind = x.cfg.kind)
    (hq : y.qt = x.qt) (hs : y.rt.state = .disabled ↔ x.rt.state = .disabled) : y.QualityOk := by
  unfold Reference.QualityOk at *
  rw [hk, hq, ne_eq y.rt.state, hs]
  exact h

/-! ### The monitor -/

theorem Monitor.idle_ok (g : Gate) : Monitor.idle.Ok g := by
  simp [Monitor.Ok, Monitor.idle, Monitor.formVerdict]

theorem Monitor.started_ok (g : Gate) : Monitor.started.Ok g := by
  simp [Monitor.Ok, Monitor.started, Monitor.idle, watchTicks, Monitor.formVerdict]

/-- Only the watch and the tick count of a legal monitor move with time, and against each other. -/
theorem Monitor.Ok.elapse {g : Gate} {m : Monitor} (h : m.Ok g) (d : Nat) : (m.elapse d).Ok g := by
  cases hw : m.watch with
  | none => rwa [Monitor.elapse_stopped d hw]
  | some w =>
    obtain ⟨-, hwatch, hbound, hopen, hclosed, hrest⟩ := h
    obtain ⟨hrun, -⟩ := hwatch.mp (by simp [hw])
    obtain ⟨hw1, hw2⟩ := hbound w hw
    rw [Monitor.elapse_watched d hw]
    refine ⟨fun hi => ?_, ?_, ?_, hopen, fun hg => ?_, hrest⟩
    · rw [hrun] at hi
      cases hi
    · rw [hw] at hwatch
      exact hwatch
    · intro v hv
      obtain rfl := Option.some.inj hv
      dsimp only
      split <;> omega
    · obtain ⟨hp, ht⟩ := hclosed hg
      have hno : ¬m.gate = .opened := fun ho => by
        rw [ho] at hg
        cases hg
      exact ⟨hp, (if_neg hno).trans ht⟩

/-- The prescaler of a RUNNING monitor may hold anything. -/
theorem Monitor.Ok.prescaler {g : Gate} {m : Monitor} (h : m.Ok g) (hr : m.run = .running) (n : Nat) :
    Monitor.Ok g { m with prescaler := n } := by
  obtain ⟨-, hrest⟩ := h
  refine ⟨fun hi => ?_, hrest⟩
  rw [hr] at hi
  cases hi

/-- A RUNNING, PRESENT monitor whose gate opens at this pulse is legal as soon as its results are. -/
theorem Monitor.ok_of_gate_start {g : Gate} {m : Monitor} (hr : m.run = .running) (hs : m.signal = .present)
    (hw : m.watch = some watchTicks) (hg : m.gate = .opened) (hp : m.pulses = 0) (ht : m.ticks = 0) (hh : m.hits ≤ 2)
    (hq : m.qual = .unmeasured ↔ m.filtered = none) (hv : m.verdict = m.formVerdict)
    (hl : ∀ o, m.last = some o → o.natAbs ≤ 1000000) (hf : ∀ f, m.filtered = some f → f.natAbs ≤ 1000000) :
    m.Ok g := by
  refine ⟨?_, ?_, ?_, ?_, ?_, ?_, hh, hq, hv, hl, hf⟩
  · simp [hr]
  · simp [hw, hr, hs]
  · simp [hw, hp, ht, watchTicks]
  · simp [hp, g.size_pos]
  · simp [hg]
  · simp [hs]

/-- What the results of a monitor are to be. -/
structure Monitor.ResultsOk (m : Monitor) : Prop where
  hits : m.hits ≤ 2
  qual : m.qual = .unmeasured ↔ m.filtered = none
  last : ∀ o, m.last = some o → o.natAbs ≤ 1000000
  filtered : ∀ f, m.filtered = some f → f.natAbs ≤ 1000000

theorem Monitor.Ok.results {g : Gate} {m : Monitor} (h : m.Ok g) : m.ResultsOk := by
  obtain ⟨-, -, -, -, -, -, hh, hq, -, hl, hf⟩ := h
  exact ⟨hh, hq, hl, hf⟩

theorem Monitor.ResultsOk.useResult {m : Monitor} (h : m.ResultsOk) (cfg : RefConfig) {o : Int}
    (ho : o.natAbs ≤ 1000000) : (m.useResult cfg o).ResultsOk := by
  have hone : ∀ {v b : Int}, b.natAbs ≤ 1000000 → some b = some v → v.natAbs ≤ 1000000 := by
    rintro v b hb ⟨⟩
    exact hb
  cases hit : isHit cfg.hit m.filtered o with
  | false =>
    rw [Monitor.useResult_applied cfg hit]
    have hf := filterStep_natAbs_le cfg.depth h.filtered ho
    exact ⟨by simp, by simp [judge_ne_unmeasured], fun _ => hone ho, fun _ => hone hf⟩
  | true =>
    by_cases hh : m.hits + 1 < 3
    · rw [Monitor.useResult_withheld cfg hit hh]
      exact ⟨Nat.le_of_lt_succ hh, h.qual, fun _ => hone ho, h.filtered⟩
    · rw [Monitor.useResult_reseeded cfg hit (by omega)]
      exact ⟨by simp, by simp [judge_ne_unmeasured], fun _ => hone ho, fun _ => hone ho⟩

/-- A used result moves no field but the results. -/
theorem Monitor.useResult_frame (cfg : RefConfig) (o : Int) (m : Monitor) : m.useResult cfg o = { m with
    last := (m.useResult cfg o).last, filtered := (m.useResult cfg o).filtered
    hits := (m.useResult cfg o).hits, qual := (m.useResult cfg o).qual } := by
  unfold Monitor.useResult
  dsimp only
  split
  · split <;> rfl
  · rfl

theorem Monitor.Ok.closeGate {g : Gate} {m : Monitor} (h : m.Ok g) (cfg : RefConfig) (hr : m.run = .running)
    (hs : m.signal = .present) (hg : m.gate = .opened) :
    ({ m with watch := some watchTicks }.closeGate cfg).withVerdict.Ok g := by
  by_cases hset : m.settling = true
  · rw [Monitor.closeGate_settling cfg (by exact hset)]
    exact Monitor.ok_of_gate_start hr hs rfl hg rfl rfl h.results.hits h.results.qual rfl h.results.last
      h.results.filtered
  · have hres := Monitor.ResultsOk.useResult (m := { m with watch := some watchTicks, pulses := 0, ticks := 0 })
      ⟨h.results.hits, h.results.qual, h.results.last, h.results.filtered⟩ cfg
      (offsetResult_natAbs_le cfg.gate m.ticks)
    rw [Monitor.closeGate_used cfg (by simpa using hset)]
    dsimp only
    rw [Monitor.useResult_frame]
    exact Monitor.ok_of_gate_start hr hs rfl hg rfl rfl hres.hits hres.qual rfl hres.last hres.filtered

theorem Monitor.Ok.pulse {m : Monitor} {cfg : RefConfig} (h : m.Ok cfg.gate) (hr : m.run = .running) :
    (m.pulse cfg).Ok cfg.gate := by
  have hres := h.results
  cases hs : m.signal with
  | lost =>
    rw [Monitor.pulse_lost cfg hr hs]
    exact Monitor.ok_of_gate_start hr rfl rfl rfl rfl rfl hres.hits hres.qual rfl hres.last hres.filtered
  | present =>
    obtain ⟨hidle, hwatch, hbound, hopen, hclosed, hlost, hh, hq, hv, hrest⟩ := id h
    cases hg : m.gate with
    | closed =>
      rw [Monitor.pulse_opens cfg hr hs hg]
      exact Monitor.ok_of_gate_start hr hs rfl rfl rfl rfl hh hq hv hres.last hres.filtered
    | opened =>
      by_cases hp : m.pulses + 1 < cfg.gate.size
      · rw [Monitor.pulse_counts cfg hr hs hg hp]
        obtain ⟨w, hw⟩ := Option.isSome_iff_exists.mp (hwatch.mpr ⟨hr, hs⟩)
        obtain ⟨-, hticks⟩ := hbound w hw
        refine ⟨?_, ?_, ?_, fun _ => hp, ?_, hlost, hh, hq, hv, hrest⟩
        · simp [hr]
        · simp [hr, hs]
        · intro v hv
          obtain rfl := Option.some.inj hv
          dsimp only [watchTicks]
          omega
        · simp [hg]
      · rw [Monitor.pulse_closes cfg hr hs hg (by omega)]
        exact h.closeGate cfg hr hs hg

theorem Monitor.Ok.loseSignal {g : Gate} {m : Monitor} (h : m.Ok g) (hr : m.run = .running) : m.loseSignal.Ok g := by
  refine ⟨?_, ?_, ?_, ?_, ?_, ?_, ?_, ?_, rfl, h.results.last, ?_⟩ <;>
    simp [Monitor.loseSignal, Monitor.withVerdict, hr]

theorem Monitor.pulse_run (cfg : RefConfig) (m : Monitor) : (m.pulse cfg).run = m.run := by
  cases hr : m.run with
  | idle => unfold Monitor.pulse; rw [hr]; exact hr
  | running =>
    cases hs : m.signal with
    | lost => rw [Monitor.pulse_lost cfg hr hs]; exact hr
    | present =>
      cases hg : m.gate with
      | closed => rw [Monitor.pulse_opens cfg hr hs hg]; exact hr
      | opened =>
        by_cases hp : m.pulses + 1 < cfg.gate.size
        · rw [Monitor.pulse_counts cfg hr hs hg hp]; exact hr
        · rw [Monitor.pulse_closes cfg hr hs hg (by omega)]
          unfold Monitor.closeGate Monitor.withVerdict
          dsimp only
          split
          · exact hr
          · rw [Monitor.useResult_frame]; exact hr

/-! ### The reference -/

/-- A RUNNING monitor may be replaced by another legal one, with the verdict event that follows: R22. -/
theorem Reference.Legal.measured {x : Reference} {m : Monitor} (h : x.Legal) (hm : m.Ok x.cfg.gate)
    (hx : x.mon.run = .running) (hr : m.run = .running) (los hit : Bool) : (x.measured m los hit).Legal := by
  obtain ⟨hdis, hv⟩ := h.verdict
  have hon : x.rt.state ≠ .disabled := fun hd => by
    rw [hdis.mp hd] at hx
    cases hx
  obtain ⟨-, -, -, -, hholdOff, -, -⟩ := id h.cfg
  have ht : (x.measured m los hit).rt.TimersOk := by
    rw [Reference.measured_rt]
    refine RefDynamic.verdictEvent_timersOk hholdOff ?_ _ _
    exact h.timers
  have hrt : (x.measured m los hit).rt.state ≠ .disabled
      ∧ (m.verdict = .good ↔ (x.measured m los hit).rt.state = .active
        ∨ (x.measured m los hit).rt.state = .restoring) := by
    rw [Reference.measured_rt]
    exact RefDynamic.verdictEvent_state m.verdict hon hv
  refine ⟨h.cfg, ⟨?_, hrt.2⟩, ht, hm, ?_⟩
  · refine iff_of_false hrt.1 ?_
    show m.run ≠ .idle
    rw [hr]
    exact fun hi => by cases hi
  · exact h.quality.congr rfl rfl (iff_of_false hrt.1 hon)

theorem Reference.Legal.elapse {x : Reference} (h : x.Legal) (d : Nat) : (x.elapse d).Legal := by
  obtain ⟨hcfg, hver, ⟨hho, hre, hde, hbho, hbre, hbde⟩, hmon, hqual⟩ := h
  refine ⟨hcfg, ?_, ⟨?_, ?_, ?_, ?_, ?_, ?_⟩, hmon.elapse d, ?_⟩
  · simpa [Reference.VerdictOk, Reference.elapse] using hver
  · simpa [Reference.elapse] using hho
  · simpa [Reference.elapse] using hre
  · simpa [Reference.elapse] using hde
  · exact Timer.elapse_le hbho
  · exact Timer.elapse_le hbre
  · exact Timer.elapse_le hbde
  · simpa [Reference.QualityOk, Reference.elapse] using hqual

theorem Reference.Legal.clockIn {x : Reference} (h : x.Legal) (cycles ticks : Nat) :
    (x.clockIn cycles ticks).Legal := by
  cases hr : x.mon.run with
  | idle => rwa [Reference.clockIn_idle cycles ticks hr]
  | running =>
    have hre : (x.mon.elapse ticks).run = .running := by simp [hr]
    by_cases hn : x.mon.prescaler + cycles < rateDivisor x.cfg.rate
    · rw [Reference.clockIn_counts ticks hr hn]
      refine ⟨h.cfg, ?_, h.timers, (h.mon.elapse ticks).prescaler hre _, h.quality⟩
      simpa [Reference.VerdictOk] using h.verdict
    · rw [Reference.clockIn_pulses ticks hr (by omega)]
      have hp : (x.atPulse cycles ticks).Ok x.cfg.gate := (h.mon.elapse ticks).prescaler hre _
      exact h.measured (hp.pulse hre) hr ((Monitor.pulse_run _ _).trans hre) false _

theorem Reference.Legal.watchExpired {x : Reference} (h : x.Legal) : x.watchExpired.Legal := by
  unfold Reference.watchExpired
  split
  · rename_i hw
    exact h.measured (h.mon.loseSignal hw.1) hw.1 hw.1 true false
  · exact h

/-- The record may change its dynamic fields, if the new ones agree with the verdict and with the monitor. -/
theorem Reference.Legal.withDynamic {x : Reference} (h : x.Legal) {rt : RefDynamic} (ht : rt.TimersOk)
    (hd : rt.state = .disabled ↔ x.rt.state = .disabled)
    (hg : (rt.state = .active ∨ rt.state = .restoring) ↔ (x.rt.state = .active ∨ x.rt.state = .restoring)) :
    Reference.Legal { x with rt := rt } :=
  ⟨h.cfg, ⟨hd.trans h.verdict.1, h.verdict.2.trans hg.symm⟩, ht, h.mon, h.quality.congr rfl rfl hd⟩

theorem Reference.Legal.holdOffExpired {x : Reference} (h : x.Legal) : x.holdOffExpired.Legal := by
  unfold Reference.holdOffExpired
  split
  · rename_i hs
    exact h.withDynamic x.rt.enterFailed_timersOk (by simp [RefDynamic.enterFailed, hs.1])
      (by simp [RefDynamic.enterFailed, hs.1])
  · exact h

theorem Reference.Legal.activate {x : Reference} (h : x.Legal) (hs : x.rt.state = .restoring) :
    Reference.Legal { x with rt := x.rt.activate } :=
  h.withDynamic x.rt.activate_timersOk (by simp [RefDynamic.activate, hs]) (by simp [RefDynamic.activate, hs])

theorem Reference.Legal.restoreExpired {x : Reference} (h : x.Legal) : x.restoreExpired.Legal := by
  unfold Reference.restoreExpired
  split
  · rename_i hs
    exact h.activate hs.1
  · exact h

theorem Reference.Legal.decayExpired {x : Reference} (h : x.Legal) : x.decayExpired.Legal := by
  unfold Reference.decayExpired
  split
  · rename_i hdue
    obtain ⟨hho, hre, hde, hbho, hbre, -⟩ := h.timers
    rw [Timer.due_iff] at hdue
    refine h.withDynamic ⟨hho, hre, fun _ => hde (by simp [hdue]), hbho, hbre, ?_⟩ Iff.rfl Iff.rfl
    intro n hn
    dsimp only at hn
    split at hn
    · obtain rfl := Option.some.inj hn
      exact le_refl _
    · cases hn
  · exact h

theorem Reference.Legal.latched {x : Reference} (h : x.Legal) (l : RefLatches) :
    Reference.Legal { x with rt := { x.rt with latches := l } } :=
  h.withDynamic h.timers Iff.rfl Iff.rfl

/-- The received rank of an enabled ANNOUNCED reference may change, if its rank and its timer fit its source. -/
theorem Reference.Legal.withQuality {x : Reference} (h : x.Legal) {q : Quality} (hk : x.cfg.kind = .announced)
    (hon : x.rt.state ≠ .disabled) (hr : q.source ≠ .announced → q.received = 15)
    (ht : q.timer.isSome = true ↔ q.source = .none ∨ q.source = .announced) :
    Reference.Legal { x with qt := q } :=
  ⟨h.cfg, h.verdict, h.timers, h.mon, hr, fun hn => absurd hk hn, fun hd => absurd hd hon,
    ht.trans (by simp [hk, hon])⟩

theorem Reference.Legal.announceExpired {x : Reference} (h : x.Legal) : x.announceExpired.Legal := by
  unfold Reference.announceExpired
  split
  · rename_i hdue
    rw [Timer.due_iff] at hdue
    obtain ⟨-, -, -, htimer⟩ := h.quality
    obtain ⟨hk, hon, -⟩ := htimer.mp (by simp [hdue])
    exact (h.latched { x.rt.latches with timeout := true }).withQuality
      (q := ⟨Rank.unusable, .timedOut, none⟩) hk hon (fun _ => rfl) (by simp)
  · exact h

/-- The fields that an enabled reference keeps stand: R62. -/
theorem RefConfig.fixedDiffers_false {a b : RefConfig} (h : a.fixedDiffers b = false) :
    b.kind = a.kind ∧ b.gate = a.gate := by
  unfold RefConfig.fixedDiffers at h
  simp only [Bool.or_eq_false_iff, bne_eq_false_iff_eq] at h
  obtain ⟨⟨⟨⟨⟨hk, -⟩, hg⟩, -⟩, -⟩, -⟩ := h
  exact ⟨hk.symm, hg.symm⟩

theorem Reference.Legal.configured {x : Reference} (h : x.Legal) {cfg : RefConfig} (hcfg : cfg.InRange)
    (hfixed : x.rt.state ≠ .disabled → x.cfg.fixedDiffers cfg = false) : Reference.Legal { x with cfg := cfg } := by
  by_cases hd : x.rt.state = .disabled
  · have hidle : x.mon = Monitor.idle := h.mon.1 (h.verdict.1.mp hd)
    obtain ⟨hr, -, hsrc, htimer⟩ := h.quality
    refine ⟨hcfg, h.verdict, h.timers, ?_, hr, fun _ => hsrc hd, hsrc, ?_⟩
    · show x.mon.Ok cfg.gate
      rw [hidle]
      exact Monitor.idle_ok _
    · exact htimer.trans (by simp [hd])
  · obtain ⟨hk, hg⟩ := RefConfig.fixedDiffers_false (hfixed hd)
    refine ⟨hcfg, h.verdict, h.timers, ?_, h.quality.congr hk rfl Iff.rfl⟩
    show x.mon.Ok cfg.gate
    rw [hg]
    exact h.mon

theorem Reference.Legal.turnedOn {x : Reference} (h : x.Legal) (timeout : Nat) (hoff : x.rt.state = .disabled) :
    (x.turnedOn timeout).Legal := by
  obtain ⟨hho, hre, hde, hb⟩ := h.timers
  obtain ⟨hr, -, hsrc, htimer⟩ := h.quality
  have hnone := hsrc hoff
  simp only [hoff, hnone] at hho hre hde htimer
  refine ⟨h.cfg, ?_, ⟨?_, ?_, ?_, hb⟩, Monitor.started_ok _, hr, fun _ => hnone, fun _ => hnone, ?_⟩
  · simp [Reference.VerdictOk, Reference.turnedOn, Monitor.started, Monitor.idle]
  · simpa [Reference.turnedOn] using hho
  · simpa [Reference.turnedOn] using hre
  · simpa [Reference.turnedOn] using hde
  · by_cases hk : x.cfg.kind = .announced
    · simp [Reference.turnedOn, hk, hnone]
    · simpa [Reference.turnedOn, hk] using htimer

theorem Reference.Legal.turnedOff {x : Reference} (h : x.Legal) : x.turnedOff.Legal := by
  refine ⟨h.cfg, ?_, ?_, Monitor.idle_ok _, ?_⟩
  · simp [Reference.VerdictOk, Reference.turnedOff, RefDynamic.cold, Monitor.idle]
  · simp [RefDynamic.TimersOk, Reference.turnedOff, RefDynamic.cold]
  · simp [Reference.QualityOk, Reference.turnedOff, RefDynamic.cold, Quality.cold]

/-- The cold-reset record is what REF-OFF leaves under the cold-reset configuration. -/
theorem Reference.cold_legal : Reference.cold.Legal := by
  refine ⟨by simp [RefConfig.InRange, Reference.cold, RefConfig.cold, Byte.all], ?_, ?_, Monitor.idle_ok _, ?_⟩
  · simp [Reference.VerdictOk, Reference.cold, RefDynamic.cold, Monitor.idle]
  · simp [RefDynamic.TimersOk, Reference.cold, RefDynamic.cold]
  · simp [Reference.QualityOk, Reference.cold, RefDynamic.cold, Quality.cold]

/-- Every change of a reference record keeps it legal. -/
theorem RefChange.legal {x y : Reference} (h : RefChange x y) (hx : x.Legal) : y.Legal := by
  cases h with
  | reset => exact Reference.cold_legal
  | elapsed d => exact hx.elapse d
  | clocked cycles ticks => exact hx.clockIn cycles ticks
  | watchExpired => exact hx.watchExpired
  | holdOffExpired => exact hx.holdOffExpired
  | restoreExpired => exact hx.restoreExpired
  | decayExpired => exact hx.decayExpired
  | announceExpired => exact hx.announceExpired
  | configured cfg hcfg hfixed => exact hx.configured hcfg hfixed
  | turnedOn timeout hoff => exact hx.turnedOn timeout hoff
  | turnedOff => exact hx.turnedOff
  | waitCleared hwait => exact hx.activate hwait
  | acknowledged l => exact hx.latched l
  | entryTaken k n hkind hon => exact hx.withQuality hkind hon (fun hn => absurd rfl hn) (by simp)
  | withdrawn hkind hon => exact hx.withQuality hkind hon (fun _ => rfl) (by simp)

/-- Settles O60: a step is made of the changes of `RefChange`, and each keeps a legal record legal. -/
theorem referenceRecordsStayLegal : Obligations.ReferenceRecordsStayLegal := by
  intro s t hstep Ok hs r
  have hlegal : ∀ q, (s.ref q).Legal := fun q => by
    obtain ⟨hcfg, hverdict, htimers, hmon, hquality⟩ := hs q
    exact ⟨hcfg, hverdict, htimers, hmon, hquality⟩
  have hr := (step_refsReach hstep).keeps (fun _ _ => RefChange.legal) hlegal r
  exact ⟨hr.cfg, hr.verdict, hr.timers, hr.mon, hr.quality⟩

end Sys2Proof.Machine
end

section
/-! The numbers of the measurement, and COMPARISON_PULSE short of a gate close and at one. -/

namespace Sys2Proof.Machine

/-! ### The offset result of each gate -/

/-- A rounded quotient is a nearest integer to the quotient: R13. -/
theorem roundDiv_near (num : Int) {den : Nat} (h : 0 < den) : |2 * (den * roundDiv num den - num)| ≤ den := by
  have hpos : 0 < 2 * den := by omega
  have hlow := Nat.mul_div_le (2 * num.natAbs + den) (2 * den)
  have hhigh := Nat.lt_mul_div_succ (2 * num.natAbs + den) hpos
  unfold roundDiv
  dsimp only
  generalize (2 * num.natAbs + den) / (2 * den) = q at hlow hhigh
  have hq : (den : Int) * ((q : Nat) : Int) = ((den * q : Nat) : Int) := by push_cast; rfl
  rw [mul_add, mul_one, mul_assoc] at hhigh
  rw [mul_assoc] at hlow
  rw [abs_le]
  split
  · rw [mul_neg, hq]
    omega
  · rw [hq]
    omega

/-- The offset result before its clamp is a nearest integer to (E - C) * 32000 / G: R12, R13. -/
theorem offsetResult_near (g : Gate) (c : Nat) : ∃ o : Int, offsetResult g c = clampPpb o
    ∧ |2 * (g.size * o - (((31250 * g.size : Nat) : Int) - c) * 32000)| ≤ g.size :=
  ⟨_, rfl, roundDiv_near _ g.size_pos⟩

theorem offsetResult_g800 (c : Nat) :
    offsetResult .g800 c = max (-1000000) (min 1000000 (40 * (25000000 - (c : Int)))) := by
  obtain ⟨o, ho, hnear⟩ := offsetResult_near .g800 c
  have : o = 40 * (25000000 - (c : Int)) := by
    simp only [Gate.size, abs_le] at hnear
    omega
  rw [ho, this]
  rfl

theorem offsetResult_g8000 (c : Nat) :
    offsetResult .g8000 c = max (-1000000) (min 1000000 (4 * (250000000 - (c : Int)))) := by
  obtain ⟨o, ho, hnear⟩ := offsetResult_near .g8000 c
  have : o = 4 * (250000000 - (c : Int)) := by
    simp only [Gate.size, abs_le] at hnear
    omega
  rw [ho, this]
  rfl

/-- At the largest gate the result is two fifths of the difference, rounded to a nearest integer. -/
theorem offsetResult_g80000 (c : Nat) : ∃ o : Int, |5 * o - 2 * (2500000000 - (c : Int))| ≤ 2
    ∧ offsetResult .g80000 c = max (-1000000) (min 1000000 o) := by
  obtain ⟨o, ho, hnear⟩ := offsetResult_near .g80000 c
  refine ⟨o, ?_, ho⟩
  simp only [Gate.size, abs_le] at hnear ⊢
  omega

/-- Settles O8: the offset results by a nearest integer to the quotient, the filter by its steps up and down. -/
theorem measurementArithmetic : Obligations.MeasurementArithmetic := by
  have hle : ∀ (f : Int) (n : Nat), f.natAbs ≤ n ↔ |f| ≤ n := fun f n => by rw [Int.abs_eq_natAbs, Int.ofNat_le]
  have hlt : ∀ (f : Int) (n : Nat), n < f.natAbs ↔ n < |f| := fun f n => by rw [Int.abs_eq_natAbs, Int.ofNat_lt]
  refine ⟨by decide, rfl, rfl, rfl, offsetResult_g800, offsetResult_g8000, offsetResult_g80000, fun _ _ => rfl,
    fun k f o => filterStep_up k, fun k f o => filterStep_down k, fun a j f => ?_⟩
  simp only [judge, hle, hlt]
  exact ⟨trivial, trivial, trivial⟩

/-! ### COMPARISON_PULSE short of a gate close -/

/-- Short of a used gate's close no pulse is a hit. -/
theorem Monitor.hitAt_false (cfg : RefConfig) {m : Monitor}
    (h : m.signal = .lost ∨ m.gate = .closed ∨ m.pulses + 1 < cfg.gate.size ∨ m.settling = true) :
    m.hitAt cfg = false := by
  rw [Bool.eq_false_iff]
  intro hh
  obtain ⟨⟨-, hs, hg, hp, hset⟩, -⟩ := (Monitor.hitAt_iff cfg m).mp hh
  rcases h with h | h | h | h
  · rw [hs] at h; cases h
  · rw [hg] at h; cases h
  · omega
  · rw [hset] at h; cases h

/-- A comparison pulse that keeps qualification and verdict and is no hit changes the monitor alone. -/
theorem exec_comparisonPulse_quiet {s : State} (hn : s.resetn = true) {r : RefIx} {cycles : Nat} (ticks : Nat)
    (hr : (s.ref r).mon.run = .running) (hd : rateDivisor (s.ref r).cfg.rate ≤ (s.ref r).mon.prescaler + cycles)
    {m : Monitor} (hm : ((s.ref r).atPulse cycles ticks).pulse (s.ref r).cfg = m)
    (hh : ((s.ref r).atPulse cycles ticks).hitAt (s.ref r).cfg = false) (hq : m.qual = (s.ref r).mon.qual)
    (hv : m.verdict = (s.ref r).mon.verdict) :
    exec (.comparisonPulse r cycles ticks) s = .next (s.setRef r { s.ref r with mon := m }) := by
  rw [exec_comparisonPulse hn, Reference.clockIn_pulses ticks hr hd, hh, hm, Reference.measured_quiet hq hv,
    putRef_quiet]
  · rfl
  · rfl
  · rfl

/-- Settles O9, by the branches of `Monitor.pulse` short of a close. -/
theorem pulsesAreCounted : Obligations.PulsesAreCounted := by
  intro s r cycles ticks hn x m n N
  refine ⟨fun hr => ?_, fun hr hlt => ?_, fun hr hd hs hq hv => ?_, fun hr hd hs hg => ?_, fun hr hd hs hg hp => ?_⟩
  · rw [exec_comparisonPulse hn, Reference.clockIn_idle cycles ticks hr, putRef_self]
  · rw [exec_comparisonPulse hn, Reference.clockIn_counts ticks hr hlt, putRef_quiet]
    · rfl
    · rfl
    · rfl
  · refine exec_comparisonPulse_quiet hn ticks hr hd ?_ (Monitor.hitAt_false _ (.inl (by simpa using hs)))
      (x.atPulse_qual cycles ticks) (x.atPulse_verdict cycles ticks)
    rw [Monitor.pulse_lost _ (by simpa using hr) (by simpa using hs), Monitor.withVerdict_eq (v := m.verdict)]
    · rfl
    · refine (Monitor.formVerdict_unmeasured ?_).trans ((Monitor.elapse_verdict ticks x.mon).trans hv).symm
      exact (x.atPulse_qual cycles ticks).trans hq
  · refine exec_comparisonPulse_quiet hn ticks hr hd ?_ (Monitor.hitAt_false _ (.inr (.inl (by simpa using hg))))
      (x.atPulse_qual cycles ticks) (x.atPulse_verdict cycles ticks)
    rw [Monitor.pulse_opens _ (by simpa using hr) (by simpa using hs) (by simpa using hg)]
    rfl
  · refine exec_comparisonPulse_quiet hn ticks hr hd ?_
      (Monitor.hitAt_false _ (.inr (.inr (.inl (by simpa using hp)))))
      (x.atPulse_qual cycles ticks) (x.atPulse_verdict cycles ticks)
    rw [Monitor.pulse_counts _ (by simpa using hr) (by simpa using hs) (by simpa using hg) (by simpa using hp),
      Reference.atPulse_pulses]
    rfl

/-! ### COMPARISON_PULSE that closes a gate -/

theorem Shelf.enabled_iff (x : Shelf) : x.enabled = true ↔ x.state ≠ .off := by
  unfold Shelf.enabled
  cases x.state <;> simp [ShelfState.cls]

theorem Shelf.names_iff (x : Shelf) (r : RefIx) : x.names r = true ↔ ∃ c ∈ x.list, c.ref = r := by
  simp [Shelf.names]

theorem putRef_marked_state (s : State) (r : RefIx) (x : Reference) (h : x.rt.state ≠ (s.ref r).rt.state) :
    Marked r s (s.putRef r x) := fun i hon hin =>
  putRef_marks_state s r x i h ((Shelf.enabled_iff _).mpr hon) ((Shelf.names_iff _ r).mpr hin)

/-- The event that replaces a reference record: the record, and what the event keeps beyond it. -/
theorem putRef_event (s : State) (r : RefIx) (x : Reference) :
    (s.putRef r x).ref r = x ∧ Kept (s.setRef r ((s.putRef r x).ref r)) (s.putRef r x) := by
  have h : (s.putRef r x).ref r = x := by rw [putRef_ref, if_pos rfl]
  rw [h]
  exact ⟨rfl, putRef_kept s r x⟩

/-- A comparison pulse that makes of the monitor `m` and counts `hit` as its hit. -/
theorem exec_comparisonPulse_measured {s : State} (hn : s.resetn = true) {r : RefIx} {cycles : Nat} (ticks : Nat)
    (hr : (s.ref r).mon.run = .running) (hd : rateDivisor (s.ref r).cfg.rate ≤ (s.ref r).mon.prescaler + cycles)
    {m : Monitor} {hit : Bool} (hm : ((s.ref r).atPulse cycles ticks).pulse (s.ref r).cfg = m)
    (hh : ((s.ref r).atPulse cycles ticks).hitAt (s.ref r).cfg = hit) :
    ∃ t, exec (.comparisonPulse r cycles ticks) s = .next t
      ∧ t.ref r = { s.ref r with
          mon := m
          rt := { (s.ref r).rt with latches := { (s.ref r).rt.latches with
            freq := (s.ref r).rt.latches.freq
              || decide ((s.ref r).mon.qual ≠ Qualification.outside ∧ m.qual = Qualification.outside)
            hit := (s.ref r).rt.latches.hit || hit } }.verdictEvent (s.ref r).cfg (s.ref r).mon.verdict m.verdict }
      ∧ ((t.ref r).rt.state ≠ (s.ref r).rt.state → Marked r s t) ∧ Kept (s.setRef r (t.ref r)) t := by
  obtain ⟨href, hkept⟩ := putRef_event s r ((s.ref r).measured m false hit)
  refine ⟨_, ?_, ?_, fun hne => ?_, hkept⟩
  · rw [exec_comparisonPulse hn, Reference.clockIn_pulses ticks hr hd, hh, hm]
  · rw [href, ← entersOut_eq_decide]
    unfold Reference.measured
    simp only [Bool.or_false]
  · rw [href] at hne
    exact putRef_marked_state s r _ hne

/-- Settles O10, by the branches of `Monitor.closeGate` and `Monitor.useResult`. -/
theorem gateCloses : Obligations.GateCloses := by
  intro s r cycles ticks hn x m n N o hit closed good Ends hr hd hs hg hp hv
  have hpulse : (x.atPulse cycles ticks).pulse x.cfg =
      ({ x.atPulse cycles ticks with watch := some watchTicks }.closeGate x.cfg).withVerdict :=
    Monitor.pulse_closes _ (by simpa using hr) (by simpa using hs) (by simpa using hg) (by simpa using hp)
  have hhit : x.mon.settling = false →
      ((x.atPulse cycles ticks).hitAt x.cfg = true ↔ isHit x.cfg.hit x.mon.filtered o = true) := fun hset => by
    rw [Monitor.hitAt_iff, Reference.atPulse_filtered]
    exact and_iff_right
      ⟨by simpa using hr, by simpa using hs, by simpa using hg, by simpa using hp, by simpa using hset⟩
  have hdecide : isHit x.cfg.hit x.mon.filtered o = true ↔ hit := isHit_iff _ _ _
  have hused : x.mon.settling = false → (x.atPulse cycles ticks).pulse x.cfg =
      (closed.useResult x.cfg o).withVerdict := fun hset => by
    rw [hpulse, Monitor.closeGate_used _ (by simpa using hset)]
    rfl
  have hrun : closed.run = .running := (Monitor.elapse_run ticks x.mon).trans hr
  have hsig : closed.signal = .present := (Monitor.elapse_signal ticks x.mon).trans hs
  have hfil : closed.filtered = x.mon.filtered := Monitor.elapse_filtered ticks x.mon
  have hhits : closed.hits = x.mon.hits := Monitor.elapse_hits ticks x.mon
  have hqual : closed.qual = x.mon.qual := Monitor.elapse_qual ticks x.mon
  refine ⟨fun hset => ?_, fun hset hno => ?_, fun hset hyes hlt => ?_, fun hset hyes hge => ?_⟩
  · refine exec_comparisonPulse_quiet hn ticks hr hd ?_
      (Monitor.hitAt_false _ (.inr (.inr (.inr (by simpa using hset))))) (x.atPulse_qual cycles ticks)
      (x.atPulse_verdict cycles ticks)
    rw [hpulse, Monitor.closeGate_settling _ (by simpa using hset), Monitor.withVerdict_eq (v := m.verdict)]
    · rfl
    · rw [Monitor.elapse_verdict, hv]
      exact Monitor.formVerdict_congr (x.atPulse_run cycles ticks) (x.atPulse_signal cycles ticks)
        (x.atPulse_qual cycles ticks) (x.atPulse_hits cycles ticks)
  · have hi : isHit x.cfg.hit x.mon.filtered o = false := by rw [Bool.eq_false_iff]; exact fun h => hno (hdecide.mp h)
    refine exec_comparisonPulse_measured hn ticks hr hd ?_ ?_
    · rw [hused hset, Monitor.useResult_applied _ (hfil ▸ hi), hfil, hqual]
      refine Monitor.withVerdict_eq ((Monitor.formVerdict_present (by exact hrun) (by exact hsig)).trans ?_)
      simp [good]
    · rw [Bool.eq_false_iff, ne_eq, hhit hset, hi]
      exact Bool.false_ne_true
  · have hi := hdecide.mpr hyes
    refine exec_comparisonPulse_measured hn ticks hr hd ?_ ((hhit hset).mpr hi)
    rw [hused hset, Monitor.useResult_withheld _ (hfil ▸ hi) (hhits ▸ hlt), hhits]
    refine Monitor.withVerdict_eq ((Monitor.formVerdict_present (by exact hrun) (by exact hsig)).trans ?_)
    simp
  · have hi := hdecide.mpr hyes
    refine exec_comparisonPulse_measured hn ticks hr hd ?_ ((hhit hset).mpr hi)
    rw [hused hset, Monitor.useResult_reseeded _ (hfil ▸ hi) (hhits ▸ hge), hqual]
    refine Monitor.withVerdict_eq ((Monitor.formVerdict_present (by exact hrun) (by exact hsig)).trans ?_)
    simp [good]

end Sys2Proof.Machine
end

section
/-! The five timers of a reference: the expiry of each when it is due, and when it is not. -/

namespace Sys2Proof.Machine

/-! ### Expiries that are not due -/

theorem Reference.watchExpired_not_due {x : Reference} (h : ¬(x.mon.run = .running ∧ x.mon.watch = some 0)) :
    x.watchExpired = x := by
  unfold Reference.watchExpired
  exact if_neg (by rwa [Timer.due_iff])

theorem Reference.holdOffExpired_not_due {x : Reference}
    (h : ¬(x.rt.state = .holdoff ∧ x.rt.holdOffTimer = some 0)) : x.holdOffExpired = x := by
  unfold Reference.holdOffExpired
  exact if_neg (by rwa [Timer.due_iff])

theorem Reference.restoreExpired_not_due {x : Reference}
    (h : ¬(x.rt.state = .restoring ∧ x.rt.restoreTimer = some 0)) : x.restoreExpired = x := by
  unfold Reference.restoreExpired
  exact if_neg (by rwa [Timer.due_iff])

theorem Reference.decayExpired_not_due {x : Reference} (h : x.rt.decayTimer ≠ some 0) : x.decayExpired = x := by
  unfold Reference.decayExpired
  exact if_neg (by rwa [Timer.due_iff])

theorem Reference.announceExpired_not_due {x : Reference} (h : x.qt.timer ≠ some 0) : x.announceExpired = x := by
  unfold Reference.announceExpired
  exact if_neg (by rwa [Timer.due_iff])

/-! ### Expiries that are due -/

theorem Reference.watchExpired_due {x : Reference} (hr : x.mon.run = .running) (hw : x.mon.watch = some 0) :
    x.watchExpired = x.measured x.mon.loseSignal true false := by
  unfold Reference.watchExpired
  exact if_pos ⟨hr, (Timer.due_iff _).mpr hw⟩

theorem Reference.holdOffExpired_due {x : Reference} (hs : x.rt.state = .holdoff) (ht : x.rt.holdOffTimer = some 0) :
    x.holdOffExpired = { x with rt := x.rt.enterFailed } := by
  unfold Reference.holdOffExpired
  exact if_pos ⟨hs, (Timer.due_iff _).mpr ht⟩

theorem Reference.restoreExpired_due {x : Reference} (hs : x.rt.state = .restoring)
    (ht : x.rt.restoreTimer = some 0) : x.restoreExpired = { x with rt := x.rt.activate } := by
  unfold Reference.restoreExpired
  exact if_pos ⟨hs, (Timer.due_iff _).mpr ht⟩

theorem Reference.decayExpired_due {x : Reference} (ht : x.rt.decayTimer = some 0) :
    x.decayExpired = { x with rt := { x.rt with
      flap := if x.rt.flap = 0 then 0 else x.rt.flap - 1
      decayTimer := if 1 < x.rt.flap then some decayTicks else none } } := by
  have hflap : ∀ n : Fin 4, n - (if n = 0 then 0 else 1) = if n = 0 then 0 else n - 1 := by decide
  unfold Reference.decayExpired
  rw [if_pos ((Timer.due_iff _).mpr ht), hflap]
  rfl

theorem Reference.announceExpired_due {x : Reference} (ht : x.qt.timer = some 0) :
    x.announceExpired = { x with
      qt := { received := Rank.unusable, source := .timedOut, timer := none }
      rt := { x.rt with latches := { x.rt.latches with timeout := true } } } := by
  unfold Reference.announceExpired
  exact if_pos ((Timer.due_iff _).mpr ht)

/-- A monitor that has lost its signal: R8. -/
theorem Monitor.loseSignal_eq (m : Monitor) : m.loseSignal = { m with
    signal := .lost, gate := .closed, pulses := 0, ticks := 0, settling := true, filtered := none
    qual := .unmeasured, hits := 0, watch := none, verdict := .fail } :=
  Monitor.withVerdict_eq (Monitor.formVerdict_unmeasured rfl)

/-- The loss of signal sets the LOS latch and delivers its verdict FAIL: R8, R22. -/
theorem Reference.measured_loseSignal (x : Reference) : x.measured x.mon.loseSignal true false = { x with
    mon := x.mon.loseSignal
    rt := { x.rt with latches := { x.rt.latches with los := true } }.verdictEvent x.cfg x.mon.verdict .fail } := by
  have ho : entersOut x.mon x.mon.loseSignal = false := by simp [entersOut, Monitor.loseSignal_eq]
  have hv : x.mon.loseSignal.verdict = .fail := by rw [Monitor.loseSignal_eq]
  unfold Reference.measured
  simp only [ho, hv, Bool.or_true, Bool.or_false]

/-! ### Marks -/

/-- An event that leaves the reference's state alone marks every enabled shelf that names a reference of changed rank:
R58. -/
theorem putRef_marked_rank (s : State) (r q : RefIx) (x : Reference) (hx : x.rt.state = (s.ref r).rt.state)
    (hq : (s.setRef r x).effRank q ≠ s.effRank q) : Marked q s (s.putRef r x) := fun i hon hin =>
  putRef_marks_rank s r q x i hx ((Shelf.enabled_iff _).mpr hon) ((Shelf.names_iff _ q).mpr hin) hq

/-- The effective rank of an ANNOUNCED reference without an override is its received rank: R55. -/
theorem effRank_announced {s : State} {r : RefIx} (hk : (s.ref r).cfg.kind = .announced)
    (ho : (s.ref r).cfg.overrideRank = none) : s.effRank r = (s.ref r).qt.received := by
  rw [effRank_eq]
  unfold Reference.rankWith
  rw [ho, hk]

/-! ### The commands -/

/-- Settles O12: each expiry is `putRef` of its record, or of the record that stands when it is not due. -/
theorem referenceTimersExpire : Obligations.ReferenceTimersExpire := by
  intro s r hn x
  refine ⟨fun h => ?_, fun hr hw => ?_, fun h => ?_, fun hs ht => ?_, fun h => ?_, fun hs ht => ?_, fun h => ?_,
    fun ht => ?_, fun h => ?_, fun ht => ?_⟩
  · rw [exec_activityWatchExpiry hn, Reference.watchExpired_not_due h, putRef_self]
  · obtain ⟨href, hkept⟩ := putRef_event s r x.watchExpired
    refine ⟨_, exec_activityWatchExpiry hn r, ?_, fun hne => ?_, hkept⟩
    · rw [href, Reference.watchExpired_due hr hw, Reference.measured_loseSignal, Monitor.loseSignal_eq]
    · rw [href] at hne
      exact putRef_marked_state s r _ hne
  · rw [exec_holdOffExpiry hn, Reference.holdOffExpired_not_due h, putRef_self]
  · obtain ⟨href, hkept⟩ := putRef_event s r x.holdOffExpired
    refine ⟨_, exec_holdOffExpiry hn r, ?_, putRef_marked_state s r _ ?_, hkept⟩
    · rw [href, Reference.holdOffExpired_due hs ht]
      rfl
    · rw [Reference.holdOffExpired_due hs ht]
      simp [RefDynamic.enterFailed, x, hs]
  · rw [exec_restoreWaitExpiry hn, Reference.restoreExpired_not_due h, putRef_self]
  · obtain ⟨href, hkept⟩ := putRef_event s r x.restoreExpired
    refine ⟨_, exec_restoreWaitExpiry hn r, ?_, putRef_marked_state s r _ ?_, hkept⟩
    · rw [href, Reference.restoreExpired_due hs ht]
      rfl
    · rw [Reference.restoreExpired_due hs ht]
      simp [RefDynamic.activate, x, hs]
  · rw [exec_decayExpiry hn, Reference.decayExpired_not_due h, setRef_self]
  · rw [exec_decayExpiry hn, Reference.decayExpired_due ht]
    rfl
  · rw [exec_announcementTimerExpiry hn, Reference.announceExpired_not_due h, putRef_self]
  · obtain ⟨href, hkept⟩ := putRef_event s r x.announceExpired
    have hstate : x.announceExpired.rt.state = x.rt.state := by rw [Reference.announceExpired_due ht]
    have hmarks : ∀ q, (s.setRef r x.announceExpired).effRank q ≠ s.effRank q →
        Marked q s (s.putRef r x.announceExpired) := fun q => putRef_marked_rank s r q _ hstate
    refine ⟨_, exec_announcementTimerExpiry hn r, ?_, ?_, fun hk ho hrank => hmarks r ?_, hkept⟩
    · rw [href, Reference.announceExpired_due ht]
    · rw [href]
      exact hmarks
    · have h15 : (s.setRef r x.announceExpired).effRank r = 15 := by
        rw [Reference.announceExpired_due ht]
        refine (effRank_announced ?_ ?_).trans ?_
        · rw [setRef_ref_self]; exact hk
        · rw [setRef_ref_self]; exact ho
        · rw [setRef_ref_self]
      rw [h15]
      exact hrank.symm

end Sys2Proof.Machine
end

section
/-! Where the reports carry their values: the number that a run of octets of a concatenation carries, the number of each
octet the reports are built of, and the layouts of spec/10. -/

namespace Sys2Proof.Machine

/-! ### Runs of octets -/

/-- The number that the `n` octets of `l` from place `k` carry. -/
def fieldAt (l : List Byte) (k n : Nat) : Nat := fromOctets ((l.drop k).take n)

@[simp] theorem fieldAt_append_left {a b : List Byte} {k n : Nat} (h : k + n ≤ a.length) :
    fieldAt (a ++ b) k n = fieldAt a k n := by
  unfold fieldAt
  rw [List.drop_append_of_le_length (by omega), List.take_append_of_le_length (by rw [List.length_drop]; omega)]

@[simp] theorem fieldAt_append_right {a b : List Byte} {k n : Nat} (h : a.length ≤ k) :
    fieldAt (a ++ b) k n = fieldAt b (k - a.length) n := by
  unfold fieldAt
  rw [List.drop_append, List.drop_of_length_le h, List.nil_append]

@[simp] theorem fieldAt_cons_succ (b : Byte) (l : List Byte) (k n : Nat) :
    fieldAt (b :: l) (k + 1) n = fieldAt l k n := rfl

@[simp] theorem fieldAt_cons_zero (b : Byte) (l : List Byte) : fieldAt (b :: l) 0 1 = b.toNat := by
  simp [fieldAt, fromOctets]

/-- A run that is a whole segment. -/
@[simp] theorem fieldAt_segment {a : List Byte} {n : Nat} (h : a.length = n) : fieldAt a 0 n = fromOctets a := by
  unfold fieldAt
  rw [List.drop_zero, List.take_of_length_le h.le]

/-- A run within segment `k` of a concatenation of pairs. -/
theorem fieldAt_pairs {j n : Nat} (hjn : j + n ≤ 2) : ∀ {L : List (List Byte)} {k : Nat} {p : List Byte},
    (∀ q ∈ L, q.length = 2) → L[k]? = some p → fieldAt L.flatten (2 * k + j) n = fieldAt p j n
  | [], k, p, _, h => by simp at h
  | q :: L, 0, p, hL, h => by
    obtain rfl : q = p := by simpa using h
    have hq := hL q List.mem_cons_self
    rw [List.flatten_cons, fieldAt_append_left (by omega), Nat.mul_zero, Nat.zero_add]
  | q :: L, k + 1, p, hL, h => by
    have hq := hL q List.mem_cons_self
    rw [List.flatten_cons, fieldAt_append_right (by omega), hq,
      show 2 * (k + 1) + j - 2 = 2 * k + j by omega]
    exact fieldAt_pairs hjn (fun q' hq' => hL q' (List.mem_cons_of_mem _ hq')) (by simpa using h)

theorem length_flatten_pairs {L : List (List Byte)} (h : ∀ q ∈ L, q.length = 2) : L.flatten.length = 2 * L.length := by
  rw [List.length_flatten, List.map_congr_left h, List.map_const', List.sum_replicate, smul_eq_mul, Nat.mul_comm]

theorem fromOctets_concat (l : List Byte) (b : Byte) : fromOctets (l ++ [b]) = fromOctets l * 256 + b.toNat := by
  simp [fromOctets]

@[simp] theorem fromOctets_singleton (b : Byte) : fromOctets [b] = b.toNat := by simp [fromOctets]

@[simp] theorem octets_length (n v : Nat) : (octets n v).length = n := by
  induction n generalizing v with
  | zero => rfl
  | succ n ih => simp [octets, ih]

/-- `n` octets carry a number up to 256^n. -/
theorem fromOctets_octets (n v : Nat) : fromOctets (octets n v) = v % 256 ^ n := by
  induction n generalizing v with
  | zero => simp [octets, fromOctets, Nat.mod_one]
  | succ n ih =>
    have hmod : v % 256 ^ (n + 1) = v % 256 + 256 * (v / 256 % 256 ^ n) := by rw [pow_succ', Nat.mod_mul]
    rw [octets, fromOctets_concat, ih, BitVec.toNat_ofNat, hmod]
    omega

theorem fromOctets_octets_of_lt {n v : Nat} (h : v < 256 ^ n) : fromOctets (octets n v) = v := by
  rw [fromOctets_octets, Nat.mod_eq_of_lt h]

theorem fromOctets_all (n : Nat) : fromOctets (List.replicate n Byte.all) = 256 ^ n - 1 := by
  induction n with
  | zero => rfl
  | succ n ih =>
    have hpos : 0 < 256 ^ n := by positivity
    have hall : BitVec.toNat Byte.all = 255 := rfl
    rw [List.replicate_succ', fromOctets_concat, ih, hall, pow_succ]
    omega

/-! ### Timers and offsets -/

@[simp] theorem timerOctets_length (n : Nat) (t : Timer) : (timerOctets n t).length = n := by
  cases t <;> simp [timerOctets]

theorem ceilMs_eq (v : Nat) : ceilMs v = (v + 249999) / 250000 := by simp [ceilMs]

/-- A timer's octets carry its remaining time in whole milliseconds, rounded up, or all ones. -/
theorem fromOctets_timerOctets {b n : Nat} {t : Timer} (h : ∀ v, t = some v → v ≤ b * 250000) (hb : b < 256 ^ n) :
    fromOctets (timerOctets n t) = t.elim (256 ^ n - 1) fun v => (v + 249999) / 250000 := by
  cases t with
  | none => exact fromOctets_all n
  | some v =>
    have hv := h v rfl
    have hlt : (v + 249999) / 250000 < 256 ^ n := by omega
    rw [Option.elim_some, ← fromOctets_octets_of_lt hlt, timerOctets, ceilMs_eq]

@[simp] theorem offsetOctets_length (o : Option Int) : (offsetOctets o).length = 3 := by
  cases o <;> rfl

/-- An offset's octets carry it as a signed number of 24 bits, or 800000h. -/
theorem toInt_offsetOctets {o : Option Int} (h : ∀ v, o = some v → v.natAbs ≤ 1000000) :
    (BitVec.ofNat 24 (fromOctets (offsetOctets o))).toInt = o.getD (-0x800000) := by
  cases o with
  | none => rfl
  | some v =>
    have hv := h v rfl
    have hf : fromOctets (offsetOctets (some v)) = (BitVec.ofInt 24 v).toNat :=
      fromOctets_octets_of_lt (BitVec.isLt _)
    rw [hf, BitVec.ofNat_toNat, BitVec.setWidth_eq, BitVec.toInt_ofInt, Option.getD_some]
    exact Int.bmod_eq_of_le (by omega) (by omega)

/-! ### The number of an octet -/

theorem toNat_ofNat_fin {n : Nat} (hn : n ≤ 256) (i : Fin n) : (BitVec.ofNat 8 i.val).toNat = i.val := by
  rw [BitVec.toNat_ofNat]
  exact Nat.mod_eq_of_lt (by have := i.isLt; omega)

theorem ixOctet_toNat {n : Nat} (hn : n ≤ 256) (o : Option (Fin n)) :
    (ixOctet o).toNat = (o.map Fin.val).getD 255 := by
  cases o with
  | none => rfl
  | some i => exact toNat_ofNat_fin hn i

theorem nibbles_toNat {hi lo : Nat} (hhi : hi < 16) (hlo : lo < 16) : (nibbles hi lo).toNat = 16 * hi + lo := by
  unfold nibbles
  rw [BitVec.toNat_ofNat]
  omega

theorem Kind.octet_toNat (k : Kind) : k.octet.toNat = match k with
    | .announced => 0
    | .fixed => 1
    | .derived => 2 := by
  cases k <;> rfl

theorem Gate.octet_toNat (g : Gate) : g.octet.toNat = match g with
    | .g800 => 0
    | .g8000 => 1
    | .g80000 => 2 := by
  cases g <;> rfl

theorem RefState.octet_toNat (st : RefState) : st.octet.toNat = match st with
    | .disabled => 0
    | .starting => 1
    | .active => 2
    | .holdoff => 3
    | .failed => 4
    | .restoring => 5 := by
  cases st <;> rfl

theorem Window.octet_toNat (w : Window) : w.octet.toNat = match w with
    | .short => 0
    | .medium => 1
    | .long => 2 := by
  cases w <;> rfl

theorem Mode.octet_toNat (m : Mode) : m.octet.toNat = if m = .revertive then 1 else 0 := by cases m <;> rfl

theorem Dialect.octet_toNat (d : Dialect) : d.octet.toNat = if d = .one then 1 else 2 := by cases d <;> rfl

/-- The two octets of a command: its kind, then its reference or FFh. -/
theorem Command.octets_number (c : Command) : fromOctets c.octets = match c with
    | .none => 0x00FF
    | .manual r => 0x0100 + r.val
    | .forced r => 0x0200 + r.val
    | .hold => 0x03FF := by
  have hpair : ∀ a b : Byte, fromOctets [a, b] = a.toNat * 256 + b.toNat := fun a b => by simp [fromOctets]
  cases c with
  | none => rfl
  | manual r => rw [Command.octets, hpair, toNat_ofNat_fin (by decide)]; rfl
  | forced r => rw [Command.octets, hpair, toNat_ofNat_fin (by decide)]; rfl
  | hold => rfl

theorem Candidate.octets_fields (c : Candidate) : fieldAt c.octets 0 1 = c.ref.val
    ∧ fieldAt c.octets 1 1 = 128 * c.lockout.toNat + c.prio.val := by
  have hl := c.lockout.toNat_le
  have hp := c.prio.isLt
  refine ⟨(fieldAt_cons_zero _ _).trans (toNat_ofNat_fin (by decide) c.ref), ?_⟩
  rw [Candidate.octets, fieldAt_cons_succ, fieldAt_cons_zero, BitVec.toNat_ofNat]
  omega

theorem InEntry.octet_toNat (e : InEntry) : e.octet.toNat = 128 * e.valid.toNat + e.rank.val := by
  have hv := e.valid.toNat_le
  have hr := e.rank.isLt
  rw [InEntry.octet, BitVec.toNat_ofNat]
  omega

theorem RefLatches.octet_toNat (l : RefLatches) : l.octet.toNat =
    l.los.toNat + 2 * l.freq.toNat + 4 * l.hit.toNat + 8 * l.timeout.toNat + 16 * l.fail.toNat := by
  have h1 := l.los.toNat_le
  have h2 := l.freq.toNat_le
  have h3 := l.hit.toNat_le
  have h4 := l.timeout.toNat_le
  have h5 := l.fail.toNat_le
  simp only [RefLatches.octet, bitsOctet, List.foldr, BitVec.toNat_ofNat]
  omega

theorem ShelfLatches.octet_toNat (l : ShelfLatches) (companion : Bool) : (l.octet companion).toNat =
    l.holdover.toNat + 2 * l.hard.toNat + 4 * l.loop.toNat + 8 * l.abandon.toNat + 128 * companion.toNat := by
  have h1 := l.holdover.toNat_le
  have h2 := l.hard.toNat_le
  have h3 := l.loop.toNat_le
  have h4 := l.abandon.toNat_le
  have h5 := companion.toNat_le
  simp only [ShelfLatches.octet, bitsOctet, List.foldr, Bool.toNat_false, BitVec.toNat_ofNat]
  omega

end Sys2Proof.Machine
end

section
/-! The reports of RD-REF, RD-SHELF and RD-XLATE and the payload of an SQ, field by field: spec/10. -/

namespace Sys2Proof.Machine

/-! ### The reference report -/

theorem Monitor.octet_toNat (m : Monitor) : m.octet.toNat = (if m.run = .running then 1 else 0)
    + (if m.signal = .lost then 2 else 0) + (if m.settling = true then 4 else 0) + 8 * m.qual.num
    + (if m.verdict = .good then 32 else 0) := by
  have hr : (m.run == .running).toNat = if m.run = .running then 1 else 0 := by cases m.run <;> rfl
  have hs : 2 * (m.signal == .lost).toNat = if m.signal = .lost then 2 else 0 := by cases m.signal <;> rfl
  have ht : 4 * m.settling.toNat = if m.settling = true then 4 else 0 := by cases m.settling <;> rfl
  have hv : 32 * (m.verdict == .good).toNat = if m.verdict = .good then 32 else 0 := by cases m.verdict <;> rfl
  have hq : m.qual.num ≤ 2 := by cases m.qual <;> decide
  have hr1 := (m.run == .running).toNat_le
  have hs1 := (m.signal == .lost).toNat_le
  have ht1 := m.settling.toNat_le
  have hv1 := (m.verdict == .good).toNat_le
  rw [← hr, ← hs, ← ht, ← hv, Monitor.octet, BitVec.toNat_ofNat]
  omega

theorem Source.num_lt (q : Source) : q.num < 16 := by cases q <;> decide

@[simp] theorem RefConfig.octets_length (c : RefConfig) : c.octets.length = 23 := by
  simp [RefConfig.octets, originOctets]

/-- Octets 0 to 22 of a reference report are the configuration's. -/
theorem refReport_config (s : State) (r : RefIx) {k n : Nat} (h : k + n ≤ 23) :
    fieldAt (s.refReport r) k n = fieldAt (s.ref r).cfg.octets k n := by
  have happ : ∃ rest, s.refReport r = (s.ref r).cfg.octets ++ rest :=
    ⟨_, by simp only [State.refReport, List.append_assoc]; rfl⟩
  obtain ⟨rest, he⟩ := happ
  rw [he, fieldAt_append_left (by simpa using h)]

/-- The fields of a reference configuration that are one octet. -/
theorem RefConfig.octets_codes (c : RefConfig) :
    fieldAt c.octets 0 1 = c.kind.octet.toNat ∧ fieldAt c.octets 1 1 = c.rate.val
      ∧ fieldAt c.octets 2 1 = c.gate.octet.toNat ∧ fieldAt c.octets 3 1 = c.depth.val
      ∧ fieldAt c.octets 17 1 = (c.overrideRank.map Fin.val).getD 255 ∧ fieldAt c.octets 18 1 = c.fixedRank.val
      ∧ fieldAt c.octets 19 1 = (c.source.map Fin.val).getD 255 ∧ fieldAt c.octets 20 1 = c.announcer.toNat
      ∧ fieldAt c.octets 21 1 = (c.origin.map fun line => line.shelf.val).getD 255
      ∧ fieldAt c.octets 22 1 = (c.origin.map fun line => line.port.val).getD 255 := by
  refine ⟨?_, ?_, ?_, ?_, ?_, ?_, ?_, ?_, ?_, ?_⟩ <;>
    simp [RefConfig.octets, originOctets, toNat_ofNat_fin, ixOctet_toNat, -BitVec.toNat_ofNat, Function.comp_def]

/-- The magnitudes of a reference configuration in its ranges. -/
theorem RefConfig.octets_magnitudes {c : RefConfig} (h : c.InRange) :
    fieldAt c.octets 4 3 = c.accept ∧ fieldAt c.octets 7 3 = c.reject ∧ fieldAt c.octets 10 3 = c.hit
      ∧ fieldAt c.octets 13 2 = c.holdOff ∧ fieldAt c.octets 15 2 = c.restoreBase := by
  obtain ⟨-, ha, hj, hh, hho, hrb, -⟩ := h
  refine ⟨?_, ?_, ?_, ?_, ?_⟩ <;> simp [RefConfig.octets, fromOctets_octets] <;> omega

/-- Octets 23 to 45 of a reference report, segment by segment. -/
theorem refReport_segments (s : State) (r : RefIx) :
    fieldAt (s.refReport r) 23 1 = (s.ref r).rt.state.octet.toNat ∧ fieldAt (s.refReport r) 24 1 = (s.ref r).rt.flap.val
      ∧ fieldAt (s.refReport r) 25 1 = (s.ref r).rt.latches.octet.toNat
      ∧ fieldAt (s.refReport r) 26 2 = fromOctets (timerOctets 2 (s.ref r).rt.holdOffTimer)
      ∧ fieldAt (s.refReport r) 28 3 = fromOctets (timerOctets 3 (s.ref r).rt.restoreTimer)
      ∧ fieldAt (s.refReport r) 31 3 = fromOctets (timerOctets 3 (s.ref r).rt.decayTimer)
      ∧ fieldAt (s.refReport r) 34 1 = (s.ref r).mon.octet.toNat
      ∧ fieldAt (s.refReport r) 35 3 = fromOctets (offsetOctets (s.ref r).mon.last)
      ∧ fieldAt (s.refReport r) 38 3 = fromOctets (offsetOctets (s.ref r).mon.filtered)
      ∧ fieldAt (s.refReport r) 41 1 = (BitVec.ofNat 8 (s.ref r).mon.hits).toNat
      ∧ fieldAt (s.refReport r) 42 1 = 16 * (s.ref r).qt.received.val + (s.ref r).qt.source.num
      ∧ fieldAt (s.refReport r) 43 2 = fromOctets (timerOctets 2 (s.ref r).qt.timer)
      ∧ fieldAt (s.refReport r) 45 1 = (s.effRank r).val := by
  have hnib := nibbles_toNat (s.ref r).qt.received.isLt (s.ref r).qt.source.num_lt
  refine ⟨?_, ?_, ?_, ?_, ?_, ?_, ?_, ?_, ?_, ?_, ?_, ?_, ?_⟩ <;>
    simp [State.refReport, toNat_ofNat_fin, hnib, -BitVec.toNat_ofNat]

/-! ### The shelf report -/

@[simp] theorem ShelfConfig.octets_length (c : ShelfConfig) : c.octets.length = 11 := by simp [ShelfConfig.octets]

@[simp] theorem Candidate.octets_length (c : Candidate) : c.octets.length = 2 := rfl

@[simp] theorem Command.octets_length (c : Command) : c.octets.length = 2 := by cases c <;> rfl

/-- The eight places of a candidate list, two octets each: the entries, then the unused places. -/
def listPlaces (l : List Candidate) : List (List Byte) :=
  l.map Candidate.octets ++ List.replicate (8 - l.length) [Byte.all, 0x00#8]

theorem listOctets_eq (l : List Candidate) : listOctets l = BitVec.ofNat 8 l.length :: (listPlaces l).flatten := by
  simp [listOctets, listPlaces, List.flatMap_def]

theorem listPlaces_pairs (l : List Candidate) : ∀ q ∈ listPlaces l, q.length = 2 := by
  intro q hq
  rcases List.mem_append.mp hq with hq | hq
  · obtain ⟨c, -, rfl⟩ := List.mem_map.mp hq
    rfl
  · rw [(List.mem_replicate.mp hq).2]
    rfl

theorem listOctets_length {l : List Candidate} (h : l.length ≤ 8) : (listOctets l).length = 17 := by
  rw [listOctets_eq, List.length_cons, length_flatten_pairs (listPlaces_pairs l)]
  simp [listPlaces]
  omega

/-- A run within place `k` of the list. -/
theorem listOctets_place {l : List Candidate} {k j n : Nat} {p : List Byte} (hjn : j + n ≤ 2)
    (h : (listPlaces l)[k]? = some p) : fieldAt (listOctets l) (1 + 2 * k + j) n = fieldAt p j n := by
  rw [listOctets_eq, show 1 + 2 * k + j = 2 * k + j + 1 by omega, fieldAt_cons_succ]
  exact fieldAt_pairs hjn (listPlaces_pairs l) h

theorem listPlaces_entry {l : List Candidate} {k : Nat} {c : Candidate} (h : l[k]? = some c) :
    (listPlaces l)[k]? = some c.octets := by
  have hk : k < l.length := (List.getElem?_eq_some_iff.mp h).1
  rw [listPlaces, List.getElem?_append_left (by simpa using hk), List.getElem?_map, h]
  rfl

theorem listPlaces_unused {l : List Candidate} {k : Nat} (h : l.length ≤ k) (hk : k < 8) :
    (listPlaces l)[k]? = some [Byte.all, 0x00#8] := by
  rw [listPlaces, List.getElem?_append_right (by simpa using h), List.getElem?_replicate, List.length_map,
    if_pos (by omega)]

/-- The candidate list stands in octets 11 to 27 of the shelf report. -/
theorem shelfReport_list (s : State) {i : ShelfIx} (h : (s.shelf i).list.length ≤ 8) {k n : Nat} (hk : k + n ≤ 17) :
    fieldAt (s.shelfReport i) (11 + k) n = fieldAt (listOctets (s.shelf i).list) k n := by
  have hl := listOctets_length h
  have happ : ∃ rest, s.shelfReport i = (s.shelf i).cfg.octets ++ (listOctets (s.shelf i).list ++ rest) :=
    ⟨_, by simp only [State.shelfReport, List.append_assoc]; rfl⟩
  obtain ⟨rest, he⟩ := happ
  rw [he, fieldAt_append_right (by simp), ShelfConfig.octets_length, fieldAt_append_left (by omega),
    Nat.add_sub_cancel_left]

theorem shelfReport_count (s : State) {i : ShelfIx} (h : (s.shelf i).list.length ≤ 8) :
    fieldAt (s.shelfReport i) 11 1 = (s.shelf i).list.length := by
  refine (shelfReport_list s h (k := 0) (by decide)).trans ?_
  rw [listOctets_eq, fieldAt_cons_zero, BitVec.toNat_ofNat]
  exact Nat.mod_eq_of_lt (by omega)

/-- A run within place `k` of the list, in the shelf report. -/
theorem shelfReport_place (s : State) {i : ShelfIx} (h : (s.shelf i).list.length ≤ 8) {k j n : Nat} {p : List Byte}
    (hk : k < 8) (hjn : j + n ≤ 2) (hp : (listPlaces (s.shelf i).list)[k]? = some p) :
    fieldAt (s.shelfReport i) (12 + 2 * k + j) n = fieldAt p j n := by
  rw [show 12 + 2 * k + j = 11 + (1 + 2 * k + j) by omega, shelfReport_list s h (by omega)]
  exact listOctets_place hjn hp

theorem shelfReport_entry (s : State) {i : ShelfIx} (h : (s.shelf i).list.length ≤ 8) {k : Nat} {c : Candidate}
    (hc : (s.shelf i).list[k]? = some c) : fieldAt (s.shelfReport i) (12 + 2 * k) 1 = c.ref.val
      ∧ fieldAt (s.shelfReport i) (13 + 2 * k) 1 = 128 * c.lockout.toNat + c.prio.val := by
  have hk : k < (s.shelf i).list.length := (List.getElem?_eq_some_iff.mp hc).1
  obtain ⟨href, hprio⟩ := c.octets_fields
  refine ⟨(shelfReport_place s h (by omega) (by decide) (listPlaces_entry hc)).trans href, ?_⟩
  rw [show 13 + 2 * k = 12 + 2 * k + 1 by omega]
  exact (shelfReport_place s h (by omega) (by decide) (listPlaces_entry hc)).trans hprio

theorem shelfReport_unused (s : State) {i : ShelfIx} (h : (s.shelf i).list.length ≤ 8) {k : Nat}
    (hk : (s.shelf i).list.length ≤ k) (hk8 : k < 8) : fieldAt (s.shelfReport i) (12 + 2 * k) 2 = 0xFF00 :=
  (shelfReport_place s h (j := 0) hk8 (by decide) (listPlaces_unused hk hk8)).trans rfl

theorem shelfReport_length (s : State) {i : ShelfIx} (h : (s.shelf i).list.length ≤ 8) :
    (s.shelfReport i).length = 43 := by
  simp [State.shelfReport, listOctets_length h]

theorem ShelfState.subNum_lt (x : ShelfState) : x.subNum < 16 := by
  unfold ShelfState.subNum
  split <;> decide

theorem StateClass.num_lt (c : StateClass) : c.num < 16 := by cases c <;> decide

/-- Octets 0 to 10 of a shelf report. -/
theorem shelfReport_config (s : State) (i : ShelfIx) :
    fieldAt (s.shelfReport i) 0 1 = (s.shelf i).cfg.mode.octet.toNat
      ∧ fieldAt (s.shelfReport i) 1 1 = (s.shelf i).cfg.floor.val
      ∧ fieldAt (s.shelfReport i) 2 1 = (s.shelf i).cfg.window.octet.toNat
      ∧ fieldAt (s.shelfReport i) 3 1 = (s.shelf i).cfg.dialect.octet.toNat
      ∧ fieldAt (s.shelfReport i) 4 1 = (s.shelf i).cfg.holdoverRank.val
      ∧ fieldAt (s.shelfReport i) 5 1 = (s.shelf i).cfg.degradedRank.val
      ∧ fieldAt (s.shelfReport i) 6 1 = (s.shelf i).cfg.freeRank.val
      ∧ fieldAt (s.shelfReport i) 7 2 = (s.shelf i).cfg.phaseA.toNat
      ∧ fieldAt (s.shelfReport i) 9 2 = (s.shelf i).cfg.phaseB.toNat := by
  have hword : ∀ w : BitVec 16, fromOctets (octets 2 w.toNat) = w.toNat := fun w => fromOctets_octets_of_lt w.isLt
  refine ⟨?_, ?_, ?_, ?_, ?_, ?_, ?_, ?_, ?_⟩ <;>
    simp [State.shelfReport, ShelfConfig.octets, toNat_ofNat_fin, hword, -BitVec.toNat_ofNat]

/-- Octets 28 to 42 of a shelf report, segment by segment. -/
theorem shelfReport_segments (s : State) {i : ShelfIx} (h : (s.shelf i).list.length ≤ 8) :
    fieldAt (s.shelfReport i) 28 2 = fromOctets (s.shelf i).command.octets
      ∧ fieldAt (s.shelfReport i) 30 1 = 16 * (s.shelf i).state.subNum + (s.shelf i).state.cls.num
      ∧ fieldAt (s.shelfReport i) 31 1 = ((s.shelf i).state.current.map Fin.val).getD 255
      ∧ fieldAt (s.shelfReport i) 32 1 = ((s.shelf i).state.target.map Fin.val).getD 255
      ∧ fieldAt (s.shelfReport i) 33 1 = ((s.shelf i).route.map Fin.val).getD 255
      ∧ fieldAt (s.shelfReport i) 34 1 = (BitVec.ofNat 8 (s.shelf i).sel.dirty.toNat).toNat
      ∧ fieldAt (s.shelfReport i) 35 2 = fromOctets (timerOctets 2 (s.shelf i).sel.timer)
      ∧ fieldAt (s.shelfReport i) 37 4 = fromOctets (timerOctets 4 (s.shelf i).state.timer)
      ∧ fieldAt (s.shelfReport i) 41 1 = ((s.shelf i).latches.octet (s.shelf i).loopBit).toNat
      ∧ fieldAt (s.shelfReport i) 42 1 = 16 * (s.outRank i).val + (s.outCode i).val := by
  have hl := listOctets_length h
  have hstate := nibbles_toNat (s.shelf i).state.subNum_lt (s.shelf i).state.cls.num_lt
  have hout := nibbles_toNat (s.outRank i).isLt (s.outCode i).isLt
  refine ⟨?_, ?_, ?_, ?_, ?_, ?_, ?_, ?_, ?_, ?_⟩ <;>
    simp [State.shelfReport, hl, ixOctet_toNat, hstate, hout, -BitVec.toNat_ofNat]

/-- The settle timer runs only in SETTLING: R103. -/
theorem Selection.timer_eq_some {x : Selection} {n : Nat} (h : x.timer = some n) : x = .settling n := by
  cases x with
  | settling m => rw [Selection.timer, Option.some.injEq] at h; rw [h]
  | clean => cases h
  | deferred => cases h

/-- The holdover timer runs only in HOLDOVER: R88. -/
theorem ShelfState.timer_eq_some {x : ShelfState} {n : Nat} (h : x.timer = some n) :
    ∃ g, x = .holdover g (some n) := by
  cases x with
  | holdover g t => exact ⟨g, by rw [← h]; rfl⟩
  | off | free | locked | waiting | aligning => cases h

theorem Selection.dirty_octet (x : Selection) :
    (BitVec.ofNat 8 x.dirty.toNat).toNat = if x = .clean then 0 else 1 := by
  cases x <;> rfl

theorem ShelfState.subNum_eq (x : ShelfState) : x.subNum = match x with
    | .waiting _ _ _ => 1
    | .aligning _ _ _ => 2
    | .holdover .inSpec _ => 3
    | .holdover .degraded _ => 4
    | .holdover .expired _ => 5
    | _ => 0 := by
  cases x with
  | holdover g t => cases g <;> rfl
  | off | free | locked | waiting | aligning => rfl

/-! ### The translation table and the SQ payload -/

theorem toList_eq_map_finRange {α : Type} {n : Nat} (v : Vector α n) :
    v.toList = (List.finRange n).map fun k => v[k] := by
  apply List.ext_getElem
  · simp
  · intro k hk hk'
    simp

theorem tableReport_toNat (d : Dialect) (x : XlateTable) : (tableReport d x).map BitVec.toNat =
    (if d = .one then 1 else 2)
      :: (((List.finRange 16).map fun k => 128 * x.inTable[k].valid.toNat + x.inTable[k].rank.val)
        ++ (List.finRange 16).map fun k => x.outTable[k].val) := by
  have hcode : ∀ c : Code, (BitVec.ofNat 8 c.val).toNat = c.val := toNat_ofNat_fin (by decide)
  unfold tableReport
  rw [toList_eq_map_finRange, toList_eq_map_finRange]
  simp only [List.map_cons, List.map_append, List.map_map, Function.comp_def, Dialect.octet_toNat,
    InEntry.octet_toNat, hcode]

theorem sqPayload_toNat (i : ShelfIx) (d : Dialect) (c : Report) : (sqPayload i d c).map BitVec.toNat =
    [i.val, c.cls.num, 16 * c.rank.val + c.code.val, if d = .one then 1 else 2,
      (c.squelch.map fun line => line.shelf.val).getD 255, (c.squelch.map fun line => line.port.val).getD 255,
      (c.root.map Fin.val).getD 255] := by
  have hcls : (BitVec.ofNat 8 c.cls.num).toNat = c.cls.num := by cases c.cls <;> rfl
  simp [sqPayload, hcls, ixOctet_toNat, nibbles_toNat c.rank.isLt c.code.isLt, Dialect.octet_toNat,
    toNat_ofNat_fin, -BitVec.toNat_ofNat, Function.comp_def]

/-! ### The obligation -/

/-- A timer read by cases. The time is an arbitrary function here, so that no numeral is unfolded to compare the two. -/
theorem timer_elim_eq_match (f : Nat → Nat) (stopped : Nat) (t : Timer) : t.elim stopped f = match t with
    | none => stopped
    | some n => f n := by
  cases t <;> rfl

/-- Settles O43: each field is a segment of the octets that the report is built of, and each segment carries its value.
-/
theorem reportLayouts : Obligations.ReportLayouts := by
  intro s field time classCode
  have htime : ∀ {b n stopped : Nat} {t : Timer}, (∀ v, t = some v → v ≤ b * 250000) → b < 256 ^ n →
      256 ^ n - 1 = stopped → fromOctets (timerOctets n t) = time t stopped := by
    rintro b n _ t ht hb rfl
    rw [fromOctets_timerOctets ht hb]
    exact timer_elim_eq_match (fun v => (v + 249999) / 250000) _ t
  have hclass : ∀ c : StateClass, c.num = classCode c := fun c => by cases c <;> rfl
  refine ⟨fun r => ?_, fun i => ?_, tableReport_toNat, fun i d c => ?_⟩
  · intro x l
    have hcfg : ∀ {k n v : Nat}, k + n ≤ 23 → fieldAt x.cfg.octets k n = v → field l k n = v :=
      fun hk hv => (refReport_config s r hk).trans hv
    obtain ⟨hkind, hrate, hgate, hdepth, hoverride, hfixed, hsource, hannouncer, hshelf, hport⟩ :=
      RefConfig.octets_codes x.cfg
    obtain ⟨hstate, hflap, hlatches, hholdOff, hrestore, hdecay, hmon, hlast, hfiltered, hhits, hquality, htimer,
      hrank⟩ := refReport_segments s r
    refine ⟨by simp [l, State.refReport], by simp [l, x, State.refReport],
      (hcfg (by decide) hkind).trans (Kind.octet_toNat _), hcfg (by decide) hrate,
      (hcfg (by decide) hgate).trans (Gate.octet_toNat _), hcfg (by decide) hdepth, fun hin => ?_,
      hcfg (by decide) hoverride, hcfg (by decide) hfixed, hcfg (by decide) hsource, hcfg (by decide) hannouncer,
      hcfg (by decide) hshelf, hcfg (by decide) hport, hstate.trans (RefState.octet_toNat _), hflap,
      hlatches.trans (RefLatches.octet_toNat _), fun hok => ?_, hmon.trans (Monitor.octet_toNat _), fun hb => ?_,
      fun hb => ?_, fun hb => ?_, hquality, fun hb => ?_, hrank⟩
    · obtain ⟨ha, hj, hh, hho, hrb⟩ := RefConfig.octets_magnitudes hin
      exact ⟨hcfg (by decide) ha, hcfg (by decide) hj, hcfg (by decide) hh, hcfg (by decide) hho,
        hcfg (by decide) hrb⟩
    · obtain ⟨-, -, -, hbho, hbre, hbde⟩ := hok
      exact ⟨hholdOff.trans (htime (b := 10000) hbho (by decide) (by decide)),
        hrestore.trans (htime (b := 3600000) hbre (by decide) (by decide)),
        hdecay.trans (htime (b := 900000) hbde (by decide) (by decide))⟩
    · rw [show field l 35 3 = _ from hlast]
      exact toInt_offsetOctets hb
    · rw [show field l 38 3 = _ from hfiltered]
      exact toInt_offsetOctets hb
    · refine hhits.trans ?_
      rw [BitVec.toNat_ofNat]
      exact Nat.mod_eq_of_lt (lt_of_le_of_lt hb (by decide))
    · exact htimer.trans (htime (b := 15000) hb (by decide) (by decide))
  · intro x l hlen
    obtain ⟨hmode, hfloor, hwindow, hdialect, hholdover, hdegraded, hfree, hphaseA, hphaseB⟩ := shelfReport_config s i
    obtain ⟨hcommand, hstate, hcurrent, htarget, hroute, hdirty, hsettle, hphase, hlatches, hrank⟩ :=
      shelfReport_segments s hlen
    refine ⟨shelfReport_length s hlen, by simp [l, x, State.shelfReport],
      hmode.trans (Mode.octet_toNat _), hfloor, hwindow.trans (Window.octet_toNat _),
      hdialect.trans (Dialect.octet_toNat _), hholdover, hdegraded, hfree, hphaseA, hphaseB, shelfReport_count s hlen,
      fun k c hc => shelfReport_entry s hlen hc, fun k hk hk8 => shelfReport_unused s hlen hk hk8,
      hcommand.trans (Command.octets_number _), ?_, hcurrent, htarget, hroute,
      hdirty.trans (Selection.dirty_octet _), fun hb => ?_, fun hb => ?_, hlatches.trans (ShelfLatches.octet_toNat _ _),
      hrank⟩
    · exact (hstate.trans (Nat.add_comm _ _)).trans
        (congrArg₂ (fun cls sub => cls + 16 * sub) (hclass _) (ShelfState.subNum_eq _))
    · exact hsettle.trans (htime (b := 1000) (fun n hn => hb n (Selection.timer_eq_some hn)) (by decide) (by decide))
    · refine hphase.trans (htime (b := 65535000) (fun n hn => ?_) (by decide) (by decide))
      obtain ⟨g, hg⟩ := ShelfState.timer_eq_some hn
      exact hb g n hg
  · rw [← hclass]
    exact sqPayload_toNat i d c

end Sys2Proof.Machine
end

section
/-! What one step can do to the Status Ring Port, the drive state, the pins and the settings: `PortChange` lists the
changes, and `step_portReach` says that every step is made of them. A property of the port that each change keeps is
kept by every step. -/

namespace Sys2Proof.Machine

/-! ### What an event of the shelves does to the port -/

/-- One offer at the Insert Queue, under a drive state: R34, R146. -/
inductive Offered : Drive → List InsertEntry → List InsertEntry → Prop
  /-- A Selection Notice enters at the tail. -/
  | notice (q : List InsertEntry) (f : Frame) (hroom : q.length < 32) : Offered .driving q (q ++ [.sn f])
  /-- An SQ replaces the content of its shelf's entry. -/
  | coalesced (q : List InsertEntry) (i : ShelfIx) (f : Frame) : Offered .driving q (coalesceSq i f q)
  /-- An SQ of a shelf with no entry enters at the tail. -/
  | report (q : List InsertEntry) (i : ShelfIx) (f : Frame) (hroom : q.length < 32)
      (hnew : q.any (InsertEntry.isSqOf i) = false) : Offered .driving q (q ++ [.sq i f])

/-- An event of the shelves and the references: of the port it changes the Insert Queue, by offers, and the counters. -/
structure PortEvent (s t : State) : Prop where
  globals : t.globals = s.globals
  drive : t.drive = s.drive
  role : t.role = s.role
  resetn : t.resetn = s.resetn
  ring : ∃ c, t.ring = { s.ring with insertQ := t.ring.insertQ, counters := c }
  queue : Relation.ReflTransGen (Offered s.drive) s.ring.insertQ t.ring.insertQ

@[simp] theorem PortEvent.refl (s : State) : PortEvent s s := ⟨rfl, rfl, rfl, rfl, ⟨_, rfl⟩, .refl⟩

theorem PortEvent.trans {s t u : State} (h : PortEvent s t) (h' : PortEvent t u) : PortEvent s u where
  globals := h'.globals.trans h.globals
  drive := h'.drive.trans h.drive
  role := h'.role.trans h.role
  resetn := h'.resetn.trans h.resetn
  ring := by
    obtain ⟨c, hc⟩ := h.ring
    obtain ⟨d, hd⟩ := h'.ring
    exact ⟨d, by rw [hd, hc]⟩
  queue := h.queue.trans (h.drive ▸ h'.queue)

/-- What keeps the port, and does not offer, is such an event. -/
theorem Kept.portEvent {s t : State} (h : Kept s t) (hq : t.ring.insertQ = s.ring.insertQ) : PortEvent s t where
  globals := h.globals
  drive := h.drive
  role := h.role
  resetn := h.resetn
  ring := by
    obtain ⟨n, hn⟩ := h.ring
    exact ⟨_, hn⟩
  queue := hq ▸ .refl

/-- One offer, or none, with whatever else an event of the shelves keeps. -/
theorem Kept.portEvent_of_offered {s t : State} (h : Kept s t) (hd : s.drive = .driving)
    (hq : Offered .driving s.ring.insertQ t.ring.insertQ) : PortEvent s t where
  globals := h.globals
  drive := h.drive
  role := h.role
  resetn := h.resetn
  ring := by
    obtain ⟨n, hn⟩ := h.ring
    exact ⟨_, hn⟩
  queue := .single (hd ▸ hq)

/-- What leaves the port alone is such an event. -/
theorem PortEvent.of_ring {s t : State} (hring : t.ring = s.ring) (hglobals : t.globals = s.globals)
    (hdrive : t.drive = s.drive) (hrole : t.role = s.role) (hresetn : t.resetn = s.resetn) : PortEvent s t where
  globals := hglobals
  drive := hdrive
  role := hrole
  resetn := hresetn
  ring := ⟨s.ring.counters, by rw [hring]⟩
  queue := hring ▸ .refl

@[simp] theorem updShelf_portEvent (s : State) (i : ShelfIx) (f : Shelf → Shelf) : PortEvent s (s.updShelf i f) :=
  .of_ring rfl rfl rfl rfl rfl

@[simp] theorem setRef_portEvent (s : State) (r : RefIx) (x : Reference) : PortEvent s (s.setRef r x) :=
  .of_ring rfl rfl rfl rfl rfl

theorem setTable_portEvent (s : State) (d : Dialect) (x : XlateTable) : PortEvent s (s.setTable d x) := by
  cases d <;> exact .of_ring rfl rfl rfl rfl rfl

theorem mapRefs_portEvent (s : State) (f : Reference → Reference) : PortEvent s (s.mapRefs f) :=
  .of_ring (mapRefs_ring s f) (mapRefs_globals s f) (mapRefs_drive s f) (mapRefs_role s f) (mapRefs_resetn s f)

theorem mapShelves_portEvent (s : State) (f : ShelfIx → Shelf → Shelf) : PortEvent s (s.mapShelves f) :=
  .of_ring (mapShelves_ring s f) (mapShelves_globals s f) (mapShelves_drive s f) (mapShelves_role s f)
    (mapShelves_resetn s f)

theorem setRefreshTimer_portEvent (s : State) (x : Timer) : PortEvent s { s with refreshTimer := x } :=
  .of_ring rfl rfl rfl rfl rfl

@[simp] theorem updCounters_portEvent (s : State) (f : Counters → Counters) : PortEvent s (s.updCounters f) :=
  ⟨rfl, rfl, rfl, rfl, ⟨_, rfl⟩, .refl⟩

/-! ### The shared operations -/

theorem markWhere_portEvent (s : State) (p : Shelf → Bool) : PortEvent s (s.markWhere p) :=
  (markWhere_kept s p).portEvent rfl

theorem markShelf_portEvent (s : State) (i : ShelfIx) : PortEvent s (s.markShelf i) := updShelf_portEvent s i _

theorem insertRoom_iff (s : State) : s.insertRoom = true ↔ s.ring.insertQ.length < 32 := by
  simp [State.insertRoom, Config.insertCapacity]

theorem offerSn_portEvent (s : State) (i : ShelfIx) (p n : Option RefIx) (c : Cause) (h : Bool) :
    PortEvent s (s.offerSn i p n c h) := by
  have hk := offerSn_kept s i p n c h
  unfold State.offerSn at hk ⊢
  cases hd : s.drive with
  | floating => exact PortEvent.refl s
  | driving =>
    rw [hd] at hk
    dsimp only at hk ⊢
    by_cases hroom : s.insertRoom = true
    · rw [if_pos hroom] at hk ⊢
      exact hk.portEvent_of_offered hd (.notice _ _ ((insertRoom_iff s).mp hroom))
    · rw [if_neg hroom] at hk ⊢
      exact hk.portEvent rfl

theorem offerSq_portEvent (s : State) (i : ShelfIx) : PortEvent s (s.offerSq i) := by
  have hk := offerSq_kept s i
  unfold State.offerSq State.offerSqOf at hk ⊢
  cases hd : s.drive with
  | floating => exact PortEvent.refl s
  | driving =>
    rw [hd] at hk
    dsimp only at hk ⊢
    by_cases hwaits : s.ring.insertQ.any (InsertEntry.isSqOf i) = true
    · rw [if_pos hwaits] at hk ⊢
      exact hk.portEvent_of_offered hd (.coalesced _ _ _)
    · rw [if_neg hwaits] at hk ⊢
      by_cases hroom : s.insertRoom = true
      · rw [if_pos hroom] at hk ⊢
        exact hk.portEvent_of_offered hd
          (.report _ _ _ ((insertRoom_iff s).mp hroom) (Bool.eq_false_iff.mpr hwaits))
      · rw [if_neg hroom] at hk ⊢
        exact hk.portEvent rfl

theorem compareReports_portEvent (s : State) : PortEvent s s.compareReports :=
  compareReports_induct (fun t i h => h.trans (offerSq_portEvent t i)) s (PortEvent.refl s)

theorem fullReport_portEvent (s : State) : PortEvent s s.fullReport :=
  fullReport_induct (fun t i h => h.trans (offerSq_portEvent t i)) s (PortEvent.refl s)

theorem endEvent_portEvent (s0 s1 : State) : PortEvent s1 (s0.endEvent s1) :=
  endEvent_induct (fun t i h => h.trans (offerSq_portEvent t i)) s0 s1 (PortEvent.refl s1)

theorem releaseSwitch_portEvent (s : State) (i : ShelfIx) : PortEvent s (s.releaseSwitch i) :=
  (releaseSwitch_kept s i).portEvent (by rw [releaseSwitch_ring])

theorem abandon_portEvent (s : State) (i : ShelfIx) : PortEvent s (s.abandon i) :=
  (abandon_kept s i).portEvent (by rw [abandon_ring])

theorem follow_portEvent (s0 s1 : State) : PortEvent s1 (s0.follow s1) :=
  (follow_kept s0 s1).portEvent (by rw [follow_ring])

theorem moveToTarget_portEvent (s : State) (hard : Bool) (i : ShelfIx) : PortEvent s (s.moveToTarget hard i) := by
  unfold State.moveToTarget
  split
  · refine PortEvent.trans ?_ (updShelf_portEvent _ i _)
    refine PortEvent.trans ?_ (offerSn_portEvent _ i _ _ _ _)
    exact (releaseSwitch_portEvent s i).trans (updShelf_portEvent _ i _)
  · exact PortEvent.refl s

theorem enterHoldover_portEvent (s : State) (i : ShelfIx) (c : RefIx) (cause : Cause) :
    PortEvent s (s.enterHoldover i c cause) :=
  ((updShelf_portEvent s i _).trans (offerSn_portEvent _ i _ _ _ _)).trans (updShelf_portEvent _ i _)

theorem loseCurrent_portEvent (s : State) (i : ShelfIx) : PortEvent s (s.loseCurrent i) := by
  unfold State.loseCurrent
  split
  · exact (enterHoldover_portEvent s i _ _).trans (markShelf_portEvent _ i)
  · exact moveToTarget_portEvent s true i
  · exact moveToTarget_portEvent s true i
  all_goals exact PortEvent.refl s

theorem startSwitch_portEvent (s : State) (i : ShelfIx) (c t : RefIx) (b : Basis) :
    PortEvent s (s.startSwitch i c t b) :=
  (startSwitch_kept s i c t b).portEvent (congrArg Ring.insertQ (grantWithin_ring 4 _))

theorem outcome_portEvent (s : State) (i : ShelfIx) (c : Command) (t : Option RefIx) :
    PortEvent s (s.outcome i c t) := by
  unfold State.outcome
  split
  · exact enterHoldover_portEvent s i _ _
  · split
    · exact PortEvent.refl s
    · exact startSwitch_portEvent s i _ _ _
  · exact (updShelf_portEvent s i _).trans (offerSn_portEvent _ i _ _ _ _)
  · exact (updShelf_portEvent s i _).trans (offerSn_portEvent _ i _ _ _ _)
  all_goals exact PortEvent.refl s

theorem putRef_portEvent (s : State) (r : RefIx) (x : Reference) : PortEvent s (s.putRef r x) :=
  putRef_induct (fun t p h => h.trans (markWhere_portEvent t p)) (fun t i h _ => h.trans (abandon_portEvent t i))
    (fun t i _ h _ _ => h.trans (loseCurrent_portEvent t i)) (fun t i h => h.trans (offerSq_portEvent t i)) s r x
    (setRef_portEvent s r x)

/-! ### The commands of the shelves -/

theorem decideShelf_portEvent (s : State) (i : ShelfIx) : PortEvent s (s.decideShelf i) := by
  have hdecided : ∀ c target s0, PortEvent s (State.follow s0
      ((s.updShelf i fun x => x.judged (s.clearsManual i) (s.loopBlocked i)).outcome i c target)) :=
    fun c target s0 => ((updShelf_portEvent s i _).trans (outcome_portEvent _ i c target)).trans
      (follow_portEvent s0 _)
  unfold State.decideShelf
  dsimp only
  split
  · exact (hdecided _ _ _).trans (markShelf_portEvent _ i)
  · exact hdecided _ _ _

theorem settleExpired_portEvent (s : State) (i : ShelfIx) : PortEvent s (s.settleExpired i) := by
  unfold State.settleExpired
  split
  · split
    · exact updShelf_portEvent s i _
    · split
      · exact decideShelf_portEvent s i
      · exact PortEvent.refl s
  all_goals exact PortEvent.refl s

theorem engineEnds_portEvent (s : State) (hard : Bool) (e : EngineIx) (g : Nat) :
    PortEvent s (s.engineEnds hard e g) := by
  unfold State.engineEnds
  split
  · exact PortEvent.refl s
  · split
    · exact ((moveToTarget_portEvent s hard _).trans (follow_portEvent _ _)).trans (endEvent_portEvent _ _)
    · exact PortEvent.refl s

theorem limitExpired_portEvent (s : State) (e : EngineIx) (g : Nat) : PortEvent s (s.limitExpired e g) := by
  unfold State.limitExpired
  split
  · exact engineEnds_portEvent s true e g
  · exact PortEvent.refl s

theorem refreshExpired_portEvent (s : State) : PortEvent s s.refreshExpired := by
  unfold State.refreshExpired
  split
  · exact (fullReport_portEvent s).trans (setRefreshTimer_portEvent _ _)
  · exact PortEvent.refl s

theorem takeEntry_portEvent (src : Byte) (s : State) (e : QaEntry) : PortEvent s (State.takeEntry src s e) := by
  unfold State.takeEntry
  split
  · exact setRef_portEvent s _ _
  · exact updCounters_portEvent s _

theorem handOff_portEvent (s : State) (f : Frame) : PortEvent s (s.handOff f) := by
  unfold State.handOff State.announce
  split
  · have htaken := foldl_induct (P := PortEvent s) _ (fun b e h => h.trans (takeEntry_portEvent f.src b e))
      (readQaEntries f.payload) s (PortEvent.refl s)
    exact (htaken.trans (follow_portEvent _ _)).trans (endEvent_portEvent _ _)
  · exact updCounters_portEvent s _

/-! ### The requests that are events of the shelves -/

theorem writeShelf_portEvent (s : State) (i : ShelfIx) (cfg : ShelfConfig) : PortEvent s (s.writeShelf i cfg) := by
  have hw := updShelf_portEvent s i fun x => { x with cfg := cfg }
  unfold State.writeShelf
  refine PortEvent.trans ?_ (compareReports_portEvent _)
  refine PortEvent.trans ?_ (follow_portEvent _ _)
  split
  · exact hw.trans (markShelf_portEvent _ i)
  · exact hw

theorem candTarget_portEvent (s : State) (i : ShelfIx) : PortEvent s (s.candTarget i) := by
  unfold State.candTarget
  split
  · split
    · exact PortEvent.refl s
    · exact (abandon_portEvent s i).trans (follow_portEvent _ _)
  · exact PortEvent.refl s

theorem candCurrent_portEvent (s : State) (i : ShelfIx) : PortEvent s (s.candCurrent i) := by
  unfold State.candCurrent
  split
  · split
    · exact PortEvent.refl s
    · exact (loseCurrent_portEvent s i).trans (follow_portEvent _ _)
  · exact PortEvent.refl s

theorem writeList_portEvent (s : State) (i : ShelfIx) (l : List Candidate) : PortEvent s (s.writeList i l) :=
  ((((updShelf_portEvent s i _).trans (candTarget_portEvent _ i)).trans (candCurrent_portEvent _ i)).trans
    (markShelf_portEvent _ i)).trans (endEvent_portEvent _ _)

theorem enableShelf_portEvent (s : State) (i : ShelfIx) : PortEvent s (s.enableShelf i) :=
  ((updShelf_portEvent s i _).trans (follow_portEvent _ _)).trans (endEvent_portEvent _ _)

theorem closeShelf_portEvent (s : State) (i : ShelfIx) : PortEvent s (s.closeShelf i) := by
  unfold State.closeShelf
  refine PortEvent.trans (PortEvent.trans ?_ (releaseSwitch_portEvent _ i)) (updShelf_portEvent _ i _)
  split
  · exact offerSn_portEvent s i _ _ _ _
  · exact PortEvent.refl s

theorem disableShelf_portEvent (s : State) (i : ShelfIx) : PortEvent s (s.disableShelf i) :=
  (((closeShelf_portEvent s i).trans (follow_portEvent _ _)).trans (offerSq_portEvent _ i)).trans
    (endEvent_portEvent _ _)

theorem changeLockout_portEvent (s : State) (i : ShelfIx) (r : RefIx) (on : Bool) :
    PortEvent s (s.changeLockout i r on) := by
  unfold State.changeLockout
  refine PortEvent.trans (PortEvent.trans ?_ (markShelf_portEvent _ i)) (endEvent_portEvent _ _)
  split
  · exact ((updShelf_portEvent s i _).trans (abandon_portEvent _ i)).trans (follow_portEvent _ _)
  · exact updShelf_portEvent s i _

theorem setCommand_portEvent (s : State) (i : ShelfIx) (c : Command) : PortEvent s (s.setCommand i c) :=
  updShelf_portEvent s i _

/-- Every request but WR-GLOBAL, RESTART, TAKE-ROLE and YIELD-ROLE is an event of the shelves. -/
theorem run_portEvent (q : Request) (args : List Byte) (s : State)
    (hq : q ∉ [.wrGlobal, .restart, .takeRole, .yieldRole]) : PortEvent s (q.run args s).state := by
  cases q <;> dsimp only [Request.run]
  case wrGlobal | restart | takeRole | yieldRole => simp at hq
  case rdRef => unfold reqRdRef; (repeat' split) <;> simp [Answer.give, Answer.refuse]
  case rdShelf => unfold reqRdShelf; (repeat' split) <;> simp [Answer.give, Answer.refuse]
  case rdXlate => unfold reqRdXlate; (repeat' split) <;> simp [Answer.give, Answer.refuse]
  case rdGlobal => unfold reqRdGlobal; (repeat' split) <;> simp [Answer.give, Answer.refuse]
  case rdCount => unfold reqRdCount; (repeat' split) <;> simp [Answer.give, Answer.refuse]
  case wrRef => unfold reqWrRef; (repeat' split) <;> simp [Answer.refuse, putRef_portEvent]
  case wrShelf => unfold reqWrShelf; (repeat' split) <;> simp [Answer.ok, Answer.refuse, writeShelf_portEvent]
  case wrCand => unfold reqWrCand; (repeat' split) <;> simp [Answer.ok, Answer.refuse, writeList_portEvent]
  case wrXlate =>
    have hw : ∀ d x, PortEvent s (s.setTable d x).compareReports := fun d x =>
      (setTable_portEvent s d x).trans (compareReports_portEvent _)
    unfold reqWrXlate; (repeat' split) <;> simp [Answer.ok, Answer.refuse, hw]
  case refOn => unfold reqRefOn; (repeat' split) <;> simp [Answer.ok, Answer.refuse, putRef_portEvent]
  case refOff => unfold reqRefOff; (repeat' split) <;> simp [Answer.ok, Answer.refuse, putRef_portEvent]
  case shelfOn => unfold reqShelfOn; (repeat' split) <;> simp [Answer.ok, Answer.refuse, enableShelf_portEvent]
  case shelfOff => unfold reqShelfOff; (repeat' split) <;> simp [Answer.ok, Answer.refuse, disableShelf_portEvent]
  case cmd => unfold reqCmd; (repeat' split) <;> simp [Answer.ok, Answer.refuse, setCommand_portEvent]
  case lock => unfold reqLock; (repeat' split) <;> simp [Answer.ok, Answer.refuse, changeLockout_portEvent]
  case clrWtr => unfold reqClrWtr; (repeat' split) <;> simp [Answer.ok, Answer.refuse, putRef_portEvent]
  case ack => unfold reqAck; (repeat' split) <;> simp [Answer.give, Answer.refuse, State.ackRef, State.ackShelf]
  case clrCount => unfold reqClrCount; split <;> simp [Answer.ok, Answer.refuse]

end Sys2Proof.Machine
end

section
/-! The changes of the Status Ring Port, the drive state, the pins and the settings that one step is made of. -/

namespace Sys2Proof.Machine

/-! ### The execution of a request -/

/-- What the execution of a request does to the port, its reply apart. -/
inductive RequestChange : State → State → Prop
  | event {s t : State} (h : PortEvent s t) : RequestChange s t
  /-- R172 -/
  | settings (s : State) (globals : Globals) (station hopLimit : Byte)
      (hlegal : State.SettingsOk
        { s with globals := globals, ring := { s.ring with station := station, hopLimit := hopLimit } }) :
      RequestChange s { s with globals := globals, ring := { s.ring with station := station, hopLimit := hopLimit } }
  /-- R177 -/
  | restarted {s t : State} (h : PortEvent (s.updRing Ring.restarted) t) : RequestChange s t
  /-- R148 -/
  | roleTaken {s t : State} (hrole : s.role = true) (hresetn : s.resetn = true)
      (h : PortEvent { s with drive := .driving } t) : RequestChange s t
  /-- R147 -/
  | roleYielded (s : State) : RequestChange s s.enterFloating

theorem warmRestart_change (s : State) : RequestChange s s.warmRestart :=
  .restarted (((mapRefs_portEvent _ _).trans (mapShelves_portEvent _ _)).trans (fullReport_portEvent _))

theorem clampNat_hop (v : Nat) : (BitVec.ofNat 8 (clampNat 1 63 v)).toNat = clampNat 1 63 v := by
  rw [BitVec.toNat_ofNat]
  exact Nat.mod_eq_of_lt (lt_of_le_of_lt (clampNat_le (by decide)) (by decide))

theorem reqWrGlobal_change (args : List Byte) (s : State) : RequestChange s (reqWrGlobal args s).state := by
  unfold reqWrGlobal
  split
  · split
    · exact .event (PortEvent.refl s)
    · rename_i hvalues
      simp only [not_or] at hvalues
      obtain ⟨hctl, hzero, hall⟩ := hvalues
      refine .settings s _ _ _ ⟨hctl, hzero, hall, ?_, ?_, clampNat_ge, clampNat_le (by decide), clampNat_ge,
        clampNat_le (by decide), clampNat_ge, clampNat_le (by decide)⟩
      · rw [clampNat_hop]; exact clampNat_ge
      · rw [clampNat_hop]; exact clampNat_le (by decide)
  · exact .event (PortEvent.refl s)

theorem reqTakeRole_change (args : List Byte) {s : State} (hresetn : s.resetn = true) :
    RequestChange s (reqTakeRole args s).state := by
  unfold reqTakeRole
  split
  · split
    · rename_i hrole
      split
      · exact .event (PortEvent.refl s)
      · dsimp only [Answer.ok]
        exact .roleTaken hrole hresetn (fullReport_portEvent _)
    · exact .event (PortEvent.refl s)
  · exact .event (PortEvent.refl s)

theorem reqRestart_change (args : List Byte) (s : State) : RequestChange s (reqRestart args s).state := by
  unfold reqRestart
  split
  · dsimp only [Answer.ok]
    exact warmRestart_change s
  · exact .event (PortEvent.refl s)

theorem reqYieldRole_change (args : List Byte) (s : State) : RequestChange s (reqYieldRole args s).state := by
  unfold reqYieldRole
  split
  · exact .roleYielded s
  · exact .event (PortEvent.refl s)

theorem run_change (q : Request) (args : List Byte) {s : State} (hresetn : s.resetn = true) :
    RequestChange s (q.run args s).state := by
  by_cases hq : q ∈ [.wrGlobal, .restart, .takeRole, .yieldRole]
  · simp only [List.mem_cons, List.not_mem_nil, or_false] at hq
    rcases hq with rfl | rfl | rfl | rfl
    · exact reqWrGlobal_change args s
    · exact reqRestart_change args s
    · exact reqTakeRole_change args hresetn
    · exact reqYieldRole_change args s
  · exact .event (run_portEvent q args s hq)

theorem execute_change {s : State} (hresetn : s.resetn = true) (src : Byte) (payload : List Byte) :
    RequestChange s (s.execute src payload).state := by
  unfold State.execute
  split
  · split
    · exact .event (PortEvent.refl s)
    · split
      · exact .event (PortEvent.refl s)
      · exact run_change _ _ hresetn
  · exact .event (PortEvent.refl s)

/-! ### The changes of the port -/

/-- The ways in which a step changes the port, the drive state, the pins and the settings, with the guards under which
each is made. -/
inductive PortChange : State → State → Prop
  | event {s t : State} (h : PortEvent s t) : PortChange s t
  /-- R179 -/
  | reset (s : State) : PortChange s (State.cold s.role s.grants s.pending)
  /-- R37, R180 -/
  | released {s t : State} (straps : BitVec 6) (hring : t.ring = { s.ring with
      station := 64 + straps.setWidth 8, receiver := .waitIdle 0 }) (hglobals : t.globals = s.globals)
      (hdrive : t.drive = s.drive) (hrole : t.role = s.role) (hresetn : t.resetn = true) : PortChange s t
  /-- `d` MCLK ticks pass. -/
  | elapsed (s : State) (d : Nat) : PortChange s (s.elapse d)
  /-- R147: the pin rises. -/
  | roleRose (s : State) : PortChange s { s with role := true }
  /-- R147: the pin falls. -/
  | roleFell (s : State) : PortChange s { s with role := false }.enterFloating
  /-- R25 -/
  | received (s : State) (v : Receiver) : PortChange s (s.updRing fun g => { g with receiver := v })
  /-- R28 -/
  | arrived (s : State) (f : Frame) (hroom : s.ring.rxQ.length < 16) (hsize : f.payload.length ≤ 88) :
      PortChange s (s.updRing fun g => { g with rxQ := g.rxQ ++ [f] })
  /-- R36 -/
  | started (s : State) : PortChange s (s.updRing Ring.startSending)
  /-- R36 -/
  | ended (s : State) : PortChange s (s.updRing Ring.endSending)
  /-- R29 -/
  | dropped (s : State) : PortChange s s.dropHead
  /-- R31 -/
  | relayed (s : State) (f : Frame) (rest : List Frame) (hq : s.ring.rxQ = f :: rest) :
      PortChange s (s.dropHead.relay f)
  /-- R30: a reserved entry, the execution of the request, and the reply in that entry. -/
  | executed {s t : State} (hroom : s.ring.insertQ.length < 32) (h : RequestChange (s.pushInsert .reserved) t)
      (reply : Frame) : PortChange s (t.updRing fun g => { g with insertQ := fillReserved reply g.insertQ })

/-- `t` comes from `s` by changes of `PortChange`. -/
abbrev PortReach (s t : State) : Prop := Relation.ReflTransGen PortChange s t

/-- A property that every change keeps is kept along `PortReach`. -/
theorem PortReach.keeps {P : State → Prop} (hP : ∀ x y, PortChange x y → P x → P y) {s t : State}
    (h : PortReach s t) (hs : P s) : P t := by
  induction h with
  | refl => exact hs
  | tail _ hc ih => exact hP _ _ hc ih

theorem PortEvent.reach {s t : State} (h : PortEvent s t) : PortReach s t := .single (.event h)

/-! ### The commands of the port -/

theorem offerRx_reach (s : State) {f : Frame} (hsize : f.payload.length ≤ 88) : PortReach s (s.offerRx f) := by
  unfold State.offerRx
  split
  · exact .single (.arrived s f ‹_› hsize)
  · exact (updCounters_portEvent s _).reach

theorem readFrame_size {l : List Byte} {f : Frame} (h : readFrame l = .passed f) : f.payload.length ≤ 88 := by
  unfold readFrame at h
  split at h
  · split at h
    · rename_i hlen
      obtain rfl := Arrival.passed.inj h
      exact (List.length_take_le _ _).trans hlen.1
    · cases h
  · cases h

/-- A frame that passes the tests has at most 88 payload octets: R26. -/
theorem testFrame_size {l : List Byte} {n : Nat} {e : Bool} {f : Frame} (h : testFrame l n e = .passed f) :
    f.payload.length ≤ 88 := by
  unfold testFrame at h
  split at h
  · cases h
  · split at h
    · cases h
    · exact readFrame_size h

theorem frameArrives_reach (s : State) : PortReach s s.frameArrives := by
  unfold State.frameArrives
  split
  · rename_i l n e _
    refine .head (.received s .ready) ?_
    cases ha : testFrame l n e with
    | badFormat => exact (updCounters_portEvent _ _).reach
    | badCheck => exact (updCounters_portEvent _ _).reach
    | passed f => exact offerRx_reach _ (testFrame_size ha)
  · exact .refl
  · exact .refl

theorem takeRequest_reach {s : State} (f : Frame) (hroom : s.insertRoom = true) (hresetn : s.resetn = true) :
    PortReach s (s.takeRequest f) :=
  .head (.dropped s) (.single (.executed (s := s.dropHead) ((insertRoom_iff s).mp hroom)
    (execute_change (s := s.dropHead.pushInsert .reserved) hresetn f.src f.payload) _))

theorem takeHead_reach {s : State} (hresetn : s.resetn = true) : PortReach s s.takeHead := by
  unfold State.takeHead
  split
  · exact .refl
  · rename_i f rest hq
    split
    · exact .single (.dropped s)
    · split
      · split
        · split
          · exact takeRequest_reach f ‹_› hresetn
          · exact .refl
        · exact .single (.dropped s)
      · unfold State.passFrame
        dsimp only
        split
        · exact .head (.relayed s f rest hq) (handOff_portEvent _ f).reach
        · exact .single (.relayed s f rest hq)

theorem offerRx_resetn (s : State) (f : Frame) : (s.offerRx f).resetn = s.resetn := by
  unfold State.offerRx
  split <;> rfl

theorem submit_reach {s : State} (hresetn : s.resetn = true) (src : Byte) (payload : List Byte) :
    PortReach s (s.submit src payload) := by
  unfold State.submit
  split
  · rename_i hsize
    have hoffered : PortReach s (s.offerRx (s.requestFrame src payload)) := offerRx_reach s hsize
    split
    · exact hoffered.trans (takeHead_reach ((offerRx_resetn s _).trans hresetn))
    · exact hoffered
  · exact (updCounters_portEvent s _).reach

/-! ### Every step -/

/-- A command that RESETn low holds off. -/
theorem running_portReach {s t : State} {f : State → State} (h : s.running f = .next t)
    (hf : s.resetn = true → PortReach s (f s)) : PortReach s t := by
  unfold State.running at h
  obtain rfl := Host.Outcome.next.inj h
  split
  · exact hf ‹_›
  · exact .refl

theorem exec_portReach {c : Instr} {s t : State} (h : exec c s = .next t) : PortReach s t := by
  cases c with
  | frameArrival => exact running_portReach (f := State.frameArrives) h fun _ => frameArrives_reach s
  | frameTake => exact running_portReach (f := State.takeHead) h takeHead_reach
  | transmissionStart =>
    exact running_portReach (f := fun s => s.updRing Ring.startSending) h fun _ => .single (.started s)
  | transmissionEnd =>
    exact running_portReach (f := fun s => s.updRing Ring.endSending) h fun _ => .single (.ended s)
  | receiverReady levels =>
    exact running_portReach
      (f := fun s => s.updRing fun g => { g with receiver := levels.foldl Receiver.bit g.receiver })
      h fun _ => .single (.received s _)
  | octetTaken octet stop =>
    exact running_portReach (f := fun s => s.updRing fun g => { g with receiver := g.receiver.octet octet stop })
      h fun _ => .single (.received s _)
  | comparisonPulse r cycles ticks =>
    exact running_portReach (f := fun s => s.putRef r ((s.ref r).clockIn cycles ticks)) h
      fun _ => (putRef_portEvent s r _).reach
  | activityWatchExpiry r =>
    exact running_portReach (f := fun s => s.putRef r (s.ref r).watchExpired) h
      fun _ => (putRef_portEvent s r _).reach
  | holdOffExpiry r =>
    exact running_portReach (f := fun s => s.putRef r (s.ref r).holdOffExpired) h
      fun _ => (putRef_portEvent s r _).reach
  | restoreWaitExpiry r =>
    exact running_portReach (f := fun s => s.putRef r (s.ref r).restoreExpired) h
      fun _ => (putRef_portEvent s r _).reach
  | decayExpiry r =>
    exact running_portReach (f := fun s => s.setRef r (s.ref r).decayExpired) h
      fun _ => (setRef_portEvent s r _).reach
  | announcementTimerExpiry r =>
    exact running_portReach (f := fun s => s.putRef r (s.ref r).announceExpired) h
      fun _ => (putRef_portEvent s r _).reach
  | settleTimerExpiry i =>
    exact running_portReach (f := fun s => s.endEvent (s.settleExpired i)) h
      fun _ => ((settleExpired_portEvent s i).trans (endEvent_portEvent _ _)).reach
  | engineDone e g =>
    exact running_portReach (f := fun s => s.engineEnds false e g) h fun _ => (engineEnds_portEvent s false e g).reach
  | alignmentLimitExpiry e g =>
    exact running_portReach (f := fun s => s.limitExpired e g) h fun _ => (limitExpired_portEvent s e g).reach
  | holdoverPhaseExpiry i =>
    exact running_portReach (f := fun s => s.endEvent (s.follow (s.updShelf i fun x =>
      { x with state := x.state.phaseExpired x.cfg.phaseB.toNat }))) h fun _ =>
        (((updShelf_portEvent s i _).trans (follow_portEvent _ _)).trans (endEvent_portEvent _ _)).reach
  | refreshExpiry =>
    exact running_portReach (f := State.refreshExpired) h fun _ => (refreshExpired_portEvent s).reach
  | roleFallingEdge =>
    obtain rfl := Host.Outcome.next.inj h
    exact .single (.roleFell s)
  | roleRisingEdge =>
    obtain rfl := Host.Outcome.next.inj h
    exact .single (.roleRose s)
  | resetAssert =>
    obtain rfl := Host.Outcome.next.inj h
    exact .single (.reset s)
  | resetRelease straps =>
    obtain rfl := Host.Outcome.next.inj h
    split
    · exact .refl
    · exact .single (.released straps rfl rfl rfl rfl rfl)
  | _ => exact running_portReach (f := fun s => s.submit _ _) h fun hresetn => submit_reach hresetn _ _

/-- Every step changes the port by changes of `PortChange` alone. -/
theorem step_portReach {s t : State} (h : step s = .next t) : PortReach s t := by
  unfold step at h
  split at h
  · obtain rfl := Host.Outcome.next.inj h
    unfold State.idleTick
    split
    · exact .single (.elapsed s 1)
    · exact .refl
  · rename_i c rest _
    have hpopped : PortEvent s { s with pending := rest } := .of_ring rfl rfl rfl rfl rfl
    exact hpopped.reach.trans (exec_portReach h)

end Sys2Proof.Machine
end

section
/-! The queues, the line of STO, the drive state and the settings stay legal under every change of `PortChange`: R27,
R30, R34, R36, R146 to R148, R172. -/

namespace Sys2Proof.Machine

/-! ### The Insert Queue -/

/-- The capacity of R27, at most one SQ for each shelf (R34), and `n` reserved entries (R30). -/
def InsertLegal (n : Nat) (q : List InsertEntry) : Prop :=
  q.length ≤ 32 ∧ (∀ i, q.countP (InsertEntry.isSqOf i) ≤ 1) ∧ q.count .reserved = n

theorem insertLegal_reserved : InsertLegal 1 [.reserved] := ⟨by decide, fun _ => by simp [InsertEntry.isSqOf], rfl⟩

/-- An entry that is no SQ, with room for it. -/
theorem InsertLegal.push {n : Nat} {q : List InsertEntry} (h : InsertLegal n q) (hroom : q.length < 32)
    {e : InsertEntry} (he : ∀ i, e.isSqOf i = false) : InsertLegal (n + [e].count .reserved) (q ++ [e]) := by
  obtain ⟨_, hsq, hres⟩ := h
  refine ⟨by rw [List.length_append, List.length_singleton]; exact hroom, fun i => ?_, ?_⟩
  · rw [List.countP_append, List.countP_singleton, he i]
    exact hsq i
  · rw [List.count_append, hres]

theorem coalesceSq_isSqOf (i j : ShelfIx) (f : Frame) (e : InsertEntry) :
    (if e.isSqOf i then InsertEntry.sq i f else e).isSqOf j = e.isSqOf j := by
  cases e with
  | sq k g =>
    by_cases hk : i = k
    · subst hk; simp [InsertEntry.isSqOf]
    · simp [InsertEntry.isSqOf, hk]
  | reserved => rfl
  | rep g => rfl
  | sn g => rfl

theorem InsertLegal.coalesce {n : Nat} {q : List InsertEntry} (h : InsertLegal n q) (i : ShelfIx) (f : Frame) :
    InsertLegal n (coalesceSq i f q) := by
  obtain ⟨hlen, hsq, hres⟩ := h
  refine ⟨by rwa [coalesceSq, List.length_map], fun j => ?_, ?_⟩
  · rw [coalesceSq, List.countP_map, ← funext (coalesceSq_isSqOf i j f)]
    exact (List.countP_congr fun e _ => by simp [coalesceSq_isSqOf]).trans_le (hsq j)
  · rw [← hres, coalesceSq, List.count, List.countP_map]
    refine List.countP_congr fun e _ => ?_
    cases e with
    | sq k g => by_cases hk : i = k <;> simp [InsertEntry.isSqOf, hk]
    | reserved => rfl
    | rep g => rfl
    | sn g => rfl

theorem Offered.insertLegal {d : Drive} {q q' : List InsertEntry} {n : Nat} (h : Offered d q q')
    (hq : InsertLegal n q) : InsertLegal n q' := by
  cases h with
  | notice _ f hroom => exact hq.push hroom fun _ => rfl
  | coalesced _ i f => exact hq.coalesce i f
  | report _ i f hroom hnew =>
    obtain ⟨_, hsq, hres⟩ := hq
    refine ⟨by rw [List.length_append, List.length_singleton]; exact hroom, fun j => ?_, ?_⟩
    · rw [List.countP_append, List.countP_singleton]
      by_cases hj : j = i
      · subst hj
        have hnone : q.countP (InsertEntry.isSqOf j) = 0 := by
          rw [List.countP_eq_zero]
          exact fun e he => by simpa using List.any_eq_false.mp hnew e he
        simp [hnone, InsertEntry.isSqOf]
      · simp only [InsertEntry.isSqOf, beq_iff_eq, hj, if_false, Nat.add_zero]
        exact hsq j
    · rw [List.count_append, hres]
      rfl

/-- A reply takes the place of a reserved entry. -/
theorem fillReserved_countP (f : Frame) (i : ShelfIx) (q : List InsertEntry) :
    (fillReserved f q).countP (InsertEntry.isSqOf i) = q.countP (InsertEntry.isSqOf i) := by
  induction q with
  | nil => rfl
  | cons e q ih => cases e <;> simp [fillReserved, List.countP_cons, ih, InsertEntry.isSqOf]

theorem fillReserved_count (f : Frame) (q : List InsertEntry) :
    (fillReserved f q).count .reserved = q.count .reserved - 1 := by
  induction q with
  | nil => rfl
  | cons e q ih => cases e <;> simp [fillReserved, ih]

theorem InsertLegal.fill {n : Nat} {q : List InsertEntry} (h : InsertLegal (n + 1) q) (f : Frame) :
    InsertLegal n (fillReserved f q) := by
  obtain ⟨hlen, hsq, hres⟩ := h
  refine ⟨by rwa [fillReserved_length], fun i => ?_, ?_⟩
  · rw [fillReserved_countP]; exact hsq i
  · rw [fillReserved_count, hres, Nat.add_sub_cancel]

theorem InsertLegal.purge {n : Nat} {q : List InsertEntry} (h : InsertLegal n q) : InsertLegal n (purgeNotices q) := by
  obtain ⟨hlen, hsq, hres⟩ := h
  refine ⟨(List.length_filter_le _ _).trans hlen, fun i => ?_, ?_⟩
  · exact List.filter_sublist.countP_le.trans (hsq i)
  · rw [purgeNotices, List.count_filter rfl, hres]

/-! ### The queues -/

/-- The capacities and sizes of R26 and R27, and an Insert Queue with `n` reserved entries. -/
def Ring.QueuesLegal (n : Nat) (g : Ring) : Prop :=
  g.rxQ.length ≤ 16 ∧ g.relayQ.length ≤ 16 ∧ (∀ f ∈ g.rxQ, f.payload.length ≤ 88)
    ∧ (∀ f ∈ g.relayQ, f.payload.length ≤ 88) ∧ InsertLegal n g.insertQ

theorem queuesOk_iff (s : State) : s.QueuesOk ↔ s.ring.QueuesLegal 0 := by
  unfold State.QueuesOk Ring.QueuesLegal InsertLegal
  rw [List.count_eq_zero]
  tauto

theorem PortEvent.queuesLegal {s t : State} {n : Nat} (h : PortEvent s t) (hs : s.ring.QueuesLegal n) :
    t.ring.QueuesLegal n := by
  obtain ⟨c, hc⟩ := h.ring
  obtain ⟨hrx, hrelay, hrxsize, hrelaysize, hinsert⟩ := hs
  have hq : InsertLegal n t.ring.insertQ := by
    have hreach := h.queue
    generalize t.ring.insertQ = q at hreach
    induction hreach with
    | refl => exact hinsert
    | tail _ hoffer ih => exact hoffer.insertLegal ih
  rw [hc]
  exact ⟨hrx, hrelay, hrxsize, hrelaysize, hq⟩

theorem enterFloating_queuesLegal {s : State} {n : Nat} (h : s.ring.QueuesLegal n) :
    s.enterFloating.ring.QueuesLegal n := by
  obtain ⟨hrx, hrelay, hrxsize, hrelaysize, hinsert⟩ := h
  unfold State.enterFloating
  split
  · exact ⟨hrx, hrelay, hrxsize, hrelaysize, hinsert⟩
  · exact ⟨hrx, hrelay, hrxsize, hrelaysize, hinsert.purge⟩

/-- The execution of a request keeps its reserved entry. -/
theorem RequestChange.queuesLegal {s t : State} (h : RequestChange s t) (hs : s.ring.QueuesLegal 1) :
    t.ring.QueuesLegal 1 := by
  cases h with
  | event h => exact h.queuesLegal hs
  | settings => exact hs
  | restarted h => exact h.queuesLegal ⟨by simp [Ring.restarted], by simp [Ring.restarted], by simp [Ring.restarted],
      by simp [Ring.restarted], insertLegal_reserved⟩
  | roleTaken _ _ h => exact h.queuesLegal hs
  | roleYielded => exact enterFloating_queuesLegal hs

/-- A start takes the head of one queue, or nothing. -/
theorem startSending_cases (g : Ring) : g.startSending = g
    ∨ (∃ f q, g.sending = none ∧ g.idleLeft = 0 ∧ g.relayQ = f :: q
        ∧ g.startSending = { g with relayQ := q }.send f .relay)
    ∨ ∃ e f q, g.sending = none ∧ g.idleLeft = 0 ∧ g.insertQ = e :: q
        ∧ g.startSending = { g with insertQ := q }.send f .insert := by
  unfold Ring.startSending
  split
  · split
    · exact .inr (.inl ⟨_, _, ‹_›, ‹_›, ‹_›, rfl⟩)
    · exact .inl rfl
  · split
    · split
      · exact .inr (.inr ⟨_, _, _, ‹_›, ‹_›, ‹_›, rfl⟩)
      · exact .inl rfl
    · exact .inl rfl
  all_goals exact .inl rfl

theorem InsertLegal.tail {e : InsertEntry} {q : List InsertEntry} (h : InsertLegal 0 (e :: q)) : InsertLegal 0 q := by
  obtain ⟨hlen, hsq, hres⟩ := h
  have hsub : q.Sublist (e :: q) := List.sublist_cons_self e q
  exact ⟨hsub.length_le.trans hlen, fun i => hsub.countP_le.trans (hsq i),
    Nat.le_zero.mp ((hsub.count_le _).trans hres.le)⟩

theorem startSending_queuesLegal {g : Ring} (h : g.QueuesLegal 0) : g.startSending.QueuesLegal 0 := by
  obtain ⟨hrx, hrelay, hrxsize, hrelaysize, hinsert⟩ := h
  obtain heq | ⟨f, q, -, -, hq, heq⟩ | ⟨e, f, q, -, -, hq, heq⟩ := startSending_cases g <;> rw [heq]
  · exact ⟨hrx, hrelay, hrxsize, hrelaysize, hinsert⟩
  · rw [hq] at hrelay hrelaysize
    exact ⟨hrx, (Nat.le_succ _).trans hrelay, hrxsize, fun f hf => hrelaysize f (List.mem_cons_of_mem _ hf), hinsert⟩
  · exact ⟨hrx, hrelay, hrxsize, hrelaysize, (hq ▸ hinsert).tail⟩

/-- The end of a frame, or nothing. -/
theorem endSending_cases (g : Ring) : g.endSending = g
    ∨ g.sendLeft = 0 ∧ g.endSending = { g with sending := none, idleLeft := Config.idleTicks } := by
  unfold Ring.endSending
  split
  · exact .inr ⟨‹_›, rfl⟩
  · exact .inl rfl
  · exact .inl rfl

theorem dropHead_queuesLegal {s : State} {n : Nat} (h : s.ring.QueuesLegal n) : s.dropHead.ring.QueuesLegal n := by
  obtain ⟨hrx, hrelay, hrxsize, hrelaysize, hinsert⟩ := h
  have hlen : s.ring.rxQ.tail.length ≤ 16 := (List.tail_sublist _).length_le.trans hrx
  exact ⟨hlen, hrelay, fun f hf => hrxsize f (List.mem_of_mem_tail hf), hrelaysize, hinsert⟩

theorem relay_queuesLegal {s : State} {f : Frame} {rest : List Frame} (hq : s.ring.rxQ = f :: rest)
    (h : s.ring.QueuesLegal 0) : (s.dropHead.relay f).ring.QueuesLegal 0 := by
  have hdropped := dropHead_queuesLegal h
  obtain ⟨-, -, hrxsize, hrelaysize, hinsert⟩ := h
  unfold State.relay
  split
  · exact hdropped
  · split
    · rename_i hroom
      obtain ⟨hrx', -, hrxsize', -, -⟩ := hdropped
      refine ⟨hrx', ?_, hrxsize', fun g hg => ?_, hinsert⟩
      · exact (List.length_append ..).trans_le hroom
      · rcases List.mem_append.mp hg with hg | hg
        · exact hrelaysize g hg
        · obtain rfl := List.mem_singleton.mp hg
          exact hrxsize f (hq ▸ List.mem_cons_self)
    · exact hdropped

theorem PortChange.queuesOk {s t : State} (h : PortChange s t) (hs : s.QueuesOk) : t.QueuesOk := by
  rw [queuesOk_iff] at hs ⊢
  obtain ⟨hrx, hrelay, hrxsize, hrelaysize, hinsert⟩ := id hs
  cases h with
  | event h => exact h.queuesLegal hs
  | reset =>
    rw [← queuesOk_iff]
    simp [State.QueuesOk, State.cold, Ring.cold]
  | released straps hring => rw [hring]; exact hs
  | elapsed d => rw [elapse_ring]; exact hs
  | roleRose => exact hs
  | roleFell => exact enterFloating_queuesLegal (s := { s with role := false }) hs
  | received v => exact hs
  | arrived f hroom hsize =>
    refine ⟨(List.length_append ..).trans_le hroom, hrelay, fun g hg => ?_, hrelaysize, hinsert⟩
    rcases List.mem_append.mp hg with hg | hg
    · exact hrxsize g hg
    · rwa [List.mem_singleton.mp hg]
  | started => exact startSending_queuesLegal hs
  | ended =>
    rw [updRing_ring]
    obtain heq | ⟨-, heq⟩ := endSending_cases s.ring <;> rw [heq] <;> exact hs
  | dropped => exact dropHead_queuesLegal hs
  | relayed f rest hq => exact relay_queuesLegal hq hs
  | executed hroom h reply =>
    have hreserved : (s.pushInsert .reserved).ring.QueuesLegal 1 :=
      ⟨hrx, hrelay, hrxsize, hrelaysize, hinsert.push hroom fun _ => rfl⟩
    obtain ⟨hrx', hrelay', hrxsize', hrelaysize', hinsert'⟩ := h.queuesLegal hreserved
    exact ⟨hrx', hrelay', hrxsize', hrelaysize', hinsert'.fill reply⟩

/-! ### The line of STO -/

/-- The frame on STO and the times left are the same: the line runs by `started`, `ended`, `elapsed` and `reset` alone.
-/
structure SameLine (g h : Ring) : Prop where
  sending : h.sending = g.sending
  sendLeft : h.sendLeft = g.sendLeft
  idleLeft : h.idleLeft = g.idleLeft

theorem SameLine.trans {g h k : Ring} (a : SameLine g h) (b : SameLine h k) : SameLine g k :=
  ⟨b.sending.trans a.sending, b.sendLeft.trans a.sendLeft, b.idleLeft.trans a.idleLeft⟩

theorem SameLine.lineOk {g h : Ring} (a : SameLine g h) (hg : g.LineOk) : h.LineOk := by
  unfold Ring.LineOk
  rw [a.sending, a.sendLeft, a.idleLeft]
  exact hg

theorem PortEvent.sameLine {s t : State} (h : PortEvent s t) : SameLine s.ring t.ring := by
  obtain ⟨c, hc⟩ := h.ring
  rw [hc]
  exact ⟨rfl, rfl, rfl⟩

theorem enterFloating_sameLine (s : State) : SameLine s.ring s.enterFloating.ring := by
  unfold State.enterFloating
  split <;> exact ⟨rfl, rfl, rfl⟩

theorem relay_sameLine (s : State) (f : Frame) : SameLine s.ring (s.relay f).ring := by
  unfold State.relay
  split
  · exact ⟨rfl, rfl, rfl⟩
  · split <;> exact ⟨rfl, rfl, rfl⟩

theorem RequestChange.sameLine {s t : State} (h : RequestChange s t) : SameLine s.ring t.ring := by
  cases h with
  | event h => exact h.sameLine
  | settings => exact ⟨rfl, rfl, rfl⟩
  | restarted h => exact SameLine.trans (h := (s.updRing Ring.restarted).ring) ⟨rfl, rfl, rfl⟩ h.sameLine
  | roleTaken _ _ h => exact h.sameLine
  | roleYielded => exact enterFloating_sameLine s

theorem send_lineOk {g : Ring} (hidle : g.idleLeft = 0) (f : Frame) (served : Marker) : (g.send f served).LineOk := by
  refine ⟨fun h => (nomatch h), fun l hl => ⟨?_, hidle⟩, hidle.trans_le (Nat.zero_le _)⟩
  obtain rfl := Option.some.inj hl
  simp only [Ring.send, octetTicks, Config.bitTicks]
  omega

theorem startSending_lineOk {g : Ring} (h : g.LineOk) : g.startSending.LineOk := by
  obtain heq | ⟨f, q, -, hidle, -, heq⟩ | ⟨e, f, q, -, hidle, -, heq⟩ := startSending_cases g <;> rw [heq]
  · exact h
  · exact send_lineOk hidle f .relay
  · exact send_lineOk hidle f .insert

theorem endSending_lineOk {g : Ring} (h : g.LineOk) : g.endSending.LineOk := by
  obtain heq | ⟨hleft, heq⟩ := endSending_cases g <;> rw [heq]
  · exact h
  · exact ⟨fun _ => hleft, fun _ hl => (nomatch hl), le_rfl⟩

theorem elapse_lineOk {s : State} (h : s.ring.LineOk) (d : Nat) : (s.elapse d).ring.LineOk := by
  obtain ⟨hnone, hsome, hidle⟩ := h
  refine ⟨fun hs => ?_, fun l hl => ?_, (Nat.sub_le _ _).trans hidle⟩
  · exact (congrArg (· - d) (hnone hs)).trans (Nat.zero_sub d)
  · obtain ⟨hleft, hzero⟩ := hsome l hl
    exact ⟨(Nat.sub_le _ _).trans hleft, (congrArg (· - d) hzero).trans (Nat.zero_sub d)⟩

theorem PortChange.lineOk {s t : State} (h : PortChange s t) (hs : s.ring.LineOk) : t.ring.LineOk := by
  cases h with
  | event h => exact h.sameLine.lineOk hs
  | reset => simp [Ring.LineOk, State.cold, Ring.cold]
  | released straps hring => rw [hring]; exact hs
  | elapsed d => exact elapse_lineOk hs d
  | roleRose => exact hs
  | roleFell => exact (enterFloating_sameLine { s with role := false }).lineOk hs
  | received v => exact hs
  | arrived => exact hs
  | started => exact startSending_lineOk hs
  | ended => exact endSending_lineOk hs
  | dropped => exact hs
  | relayed f => exact (relay_sameLine s.dropHead f).lineOk hs
  | executed _ h reply => exact h.sameLine.lineOk hs

/-! ### The drive state -/

/-- While FLOATING nothing is offered. -/
theorem Offered.not_floating {q q' : List InsertEntry} : ¬Offered .floating q q' := fun h => nomatch h

theorem PortEvent.insertQ_floating {s t : State} (h : PortEvent s t) (hd : s.drive = .floating) :
    t.ring.insertQ = s.ring.insertQ := by
  have hq := h.queue
  rw [hd] at hq
  rcases Relation.ReflTransGen.cases_tail hq with heq | ⟨_, _, hoffer⟩
  · exact heq
  · exact absurd hoffer Offered.not_floating

theorem PortEvent.driveOk {s t : State} (h : PortEvent s t) (hs : s.DriveOk) : t.DriveOk := by
  obtain ⟨hfloating, hdriving⟩ := hs
  refine ⟨fun hd => ?_, fun hd => ?_⟩
  · rw [h.drive] at hd
    rw [h.insertQ_floating hd]
    exact hfloating hd
  · rw [h.drive] at hd
    rw [h.role, h.resetn]
    exact hdriving hd

/-- The drive state, the pins and the notices decide: any other change keeps the drive state legal. -/
theorem State.DriveOk.of_insertQ {s t : State} (hs : s.DriveOk) (hdrive : t.drive = s.drive) (hrole : t.role = s.role)
    (hresetn : t.resetn = s.resetn)
    (hq : ∀ e ∈ t.ring.insertQ, e ∈ s.ring.insertQ ∨ e.isNotice = false) : t.DriveOk := by
  obtain ⟨hfloating, hdriving⟩ := hs
  rw [← hdrive] at hfloating hdriving
  rw [← hrole, ← hresetn] at hdriving
  exact ⟨fun hd e he => (hq e he).elim (hfloating hd e) id, hdriving⟩

theorem purgeNotices_notice {q : List InsertEntry} {e : InsertEntry} (h : e ∈ purgeNotices q) :
    e.isNotice = false := by
  simpa using (List.mem_filter.mp h).2

/-- A part that enters FLOATING, whatever the level of ROLE, has no notice left. -/
theorem enterFloating_driveOk {s : State} (h : s.drive = .floating → ∀ e ∈ s.ring.insertQ, e.isNotice = false) :
    s.enterFloating.DriveOk := by
  unfold State.enterFloating
  cases hd : s.drive with
  | floating => exact ⟨h, fun hdriving => absurd (hd.symm.trans hdriving) (by decide)⟩
  | driving => exact ⟨fun _ e he => purgeNotices_notice he, fun hdriving => Drive.noConfusion hdriving⟩

theorem RequestChange.driveOk {s t : State} (h : RequestChange s t) (hs : s.DriveOk) : t.DriveOk := by
  cases h with
  | event h => exact h.driveOk hs
  | settings => exact hs
  | restarted h =>
    refine h.driveOk (hs.of_insertQ rfl rfl rfl fun e he => .inr ?_)
    obtain rfl := List.mem_singleton.mp he
    rfl
  | roleTaken hrole hresetn h => exact h.driveOk ⟨fun hd => Drive.noConfusion hd, fun _ => ⟨hrole, hresetn⟩⟩
  | roleYielded => exact enterFloating_driveOk hs.1

theorem mem_fillReserved {f : Frame} {e : InsertEntry} : ∀ {q : List InsertEntry}, e ∈ fillReserved f q →
    e ∈ q ∨ e.isNotice = false
  | [], h => by cases h
  | a :: q, h => by
    have htail : e ∈ fillReserved f q → e ∈ a :: q ∨ e.isNotice = false := fun h =>
      (mem_fillReserved h).imp (List.mem_cons_of_mem a) id
    cases a with
    | reserved =>
      rcases List.mem_cons.mp h with rfl | h
      · exact .inr rfl
      · exact .inl (List.mem_cons_of_mem _ h)
    | rep g => exact (List.mem_cons.mp h).elim (fun he => .inl (he ▸ List.mem_cons_self)) htail
    | sq j g => exact (List.mem_cons.mp h).elim (fun he => .inl (he ▸ List.mem_cons_self)) htail
    | sn g => exact (List.mem_cons.mp h).elim (fun he => .inl (he ▸ List.mem_cons_self)) htail

theorem startSending_insertQ {g : Ring} {e : InsertEntry} (h : e ∈ g.startSending.insertQ) : e ∈ g.insertQ := by
  obtain heq | ⟨f, q, -, -, -, heq⟩ | ⟨a, f, q, -, -, hq, heq⟩ := startSending_cases g <;> rw [heq] at h
  · exact h
  · exact h
  · exact hq ▸ List.mem_cons_of_mem a h

theorem relay_insertQ (s : State) (f : Frame) : (s.relay f).ring.insertQ = s.ring.insertQ := by
  unfold State.relay
  split
  · rfl
  · split <;> rfl

theorem relay_pins (s : State) (f : Frame) :
    (s.relay f).drive = s.drive ∧ (s.relay f).role = s.role ∧ (s.relay f).resetn = s.resetn := by
  unfold State.relay
  split
  · exact ⟨rfl, rfl, rfl⟩
  · split <;> exact ⟨rfl, rfl, rfl⟩

theorem elapse_pins (s : State) (d : Nat) :
    (s.elapse d).drive = s.drive ∧ (s.elapse d).role = s.role ∧ (s.elapse d).resetn = s.resetn := by
  simp [State.elapse]

theorem PortChange.driveOk {s t : State} (h : PortChange s t) (hs : s.DriveOk) : t.DriveOk := by
  obtain ⟨hfloating, hdriving⟩ := id hs
  cases h with
  | event h => exact h.driveOk hs
  | reset => simp [State.DriveOk, State.cold, Ring.cold]
  | released straps hring _ hdrive hrole hresetn =>
    unfold State.DriveOk
    rw [hring, hdrive, hrole, hresetn]
    exact ⟨hfloating, fun hd => ⟨(hdriving hd).1, rfl⟩⟩
  | elapsed d =>
    obtain ⟨hdrive, hrole, hresetn⟩ := elapse_pins s d
    exact hs.of_insertQ hdrive hrole hresetn fun e he => .inl (by rwa [elapse_ring] at he)
  | roleRose => exact ⟨hfloating, fun hd => ⟨rfl, (hdriving hd).2⟩⟩
  | roleFell => exact enterFloating_driveOk (s := { s with role := false }) hfloating
  | received v => exact hs
  | arrived => exact hs
  | started => exact hs.of_insertQ rfl rfl rfl fun e he => .inl (startSending_insertQ he)
  | ended =>
    refine hs.of_insertQ rfl rfl rfl fun e he => .inl ?_
    rw [updRing_ring] at he
    obtain heq | ⟨-, heq⟩ := endSending_cases s.ring <;> rw [heq] at he <;> exact he
  | dropped => exact hs
  | relayed f =>
    obtain ⟨hdrive, hrole, hresetn⟩ := relay_pins s.dropHead f
    exact hs.of_insertQ hdrive hrole hresetn fun e he => .inl (relay_insertQ s.dropHead f ▸ he)
  | executed _ h reply =>
    have hreserved : (s.pushInsert .reserved).DriveOk := hs.of_insertQ rfl rfl rfl fun e he =>
      (List.mem_append.mp he).imp id fun he => by rw [List.mem_singleton.mp he]; rfl
    exact (h.driveOk hreserved).of_insertQ rfl rfl rfl fun e he => mem_fillReserved he

/-! ### The settings -/

/-- The six settings are the same. -/
structure SameSettings (s t : State) : Prop where
  globals : t.globals = s.globals
  station : t.ring.station = s.ring.station
  hopLimit : t.ring.hopLimit = s.ring.hopLimit

theorem SameSettings.settingsOk {s t : State} (h : SameSettings s t) (hs : s.SettingsOk) : t.SettingsOk := by
  unfold State.SettingsOk
  rw [h.globals, h.station, h.hopLimit]
  exact hs

theorem PortEvent.sameSettings {s t : State} (h : PortEvent s t) : SameSettings s t := by
  obtain ⟨c, hc⟩ := h.ring
  exact ⟨h.globals, by rw [hc], by rw [hc]⟩

theorem enterFloating_sameSettings (s : State) : SameSettings s s.enterFloating := by
  unfold State.enterFloating
  split <;> exact ⟨rfl, rfl, rfl⟩

theorem relay_sameSettings (s : State) (f : Frame) : SameSettings s (s.relay f) := by
  unfold State.relay
  split
  · exact ⟨rfl, rfl, rfl⟩
  · split <;> exact ⟨rfl, rfl, rfl⟩

theorem startSending_sameSettings (s : State) : SameSettings s (s.updRing Ring.startSending) := by
  obtain heq | ⟨f, q, -, -, -, heq⟩ | ⟨e, f, q, -, -, -, heq⟩ := startSending_cases s.ring <;>
    exact ⟨rfl, (congrArg Ring.station heq :), (congrArg Ring.hopLimit heq :)⟩

theorem endSending_sameSettings (s : State) : SameSettings s (s.updRing Ring.endSending) := by
  obtain heq | ⟨-, heq⟩ := endSending_cases s.ring <;>
    exact ⟨rfl, (congrArg Ring.station heq :), (congrArg Ring.hopLimit heq :)⟩

theorem elapse_sameSettings (s : State) (d : Nat) : SameSettings s (s.elapse d) :=
  ⟨by simp [State.elapse], by rw [elapse_ring], by rw [elapse_ring]⟩

theorem RequestChange.settingsOk {s t : State} (h : RequestChange s t) (hs : s.SettingsOk) : t.SettingsOk := by
  cases h with
  | event h => exact h.sameSettings.settingsOk hs
  | settings _ _ _ hlegal => exact hlegal
  | restarted h => exact h.sameSettings.settingsOk hs
  | roleTaken _ _ h => exact h.sameSettings.settingsOk hs
  | roleYielded => exact (enterFloating_sameSettings s).settingsOk hs

/-- A station address given by the straps is 64 to 127: R37. -/
theorem strapped_station (straps : BitVec 6) :
    (64 + straps.setWidth 8 : Byte) ≠ 0 ∧ (64 + straps.setWidth 8 : Byte) ≠ Byte.all := by
  revert straps
  decide

theorem PortChange.settingsOk {s t : State} (h : PortChange s t) (hs : s.SettingsOk) : t.SettingsOk := by
  cases h with
  | event h => exact h.sameSettings.settingsOk hs
  | reset => simp [State.SettingsOk, State.cold, Ring.cold, Globals.cold, Byte.all]
  | released straps hring hglobals =>
    obtain ⟨hctl, -, -, hlimits⟩ := hs
    obtain ⟨hzero, hall⟩ := strapped_station straps
    unfold State.SettingsOk
    rw [hring, hglobals]
    exact ⟨hctl, hzero, hall, hlimits⟩
  | elapsed d => exact (elapse_sameSettings s d).settingsOk hs
  | roleRose => exact hs
  | roleFell => exact (enterFloating_sameSettings { s with role := false }).settingsOk hs
  | received v => exact hs
  | arrived => exact hs
  | started => exact (startSending_sameSettings s).settingsOk hs
  | ended => exact (endSending_sameSettings s).settingsOk hs
  | dropped => exact hs
  | relayed f => exact (relay_sameSettings s.dropHead f).settingsOk hs
  | executed _ h reply => exact h.settingsOk (s := s.pushInsert .reserved) hs

/-! ### The obligation -/

/-- Settles O55: every step is made of changes of `PortChange`, and each of them keeps each invariant by itself. -/
theorem queuesDriveAndSettingsStayLegal : Obligations.QueuesDriveAndSettingsStayLegal := by
  intro s t h
  have hreach := step_portReach h
  exact ⟨hreach.keeps fun _ _ => PortChange.queuesOk,
    hreach.keeps (P := fun s => s.ring.LineOk) fun _ _ => PortChange.lineOk,
    hreach.keeps fun _ _ => PortChange.driveOk, hreach.keeps fun _ _ => PortChange.settingsOk⟩

end Sys2Proof.Machine
end

section
/-! What an offer of a Selection Notice or of an SQ answers, case by case: R34, R146, R161. -/

namespace Sys2Proof.Machine

theorem offerSn_floating {s : State} (hd : s.drive = .floating) (i : ShelfIx) (p n : Option RefIx) (c : Cause)
    (h : Bool) : s.offerSn i p n c h = s := by
  unfold State.offerSn
  rw [hd]

theorem offerSn_room {s : State} (hd : s.drive = .driving) (hroom : s.ring.insertQ.length < 32) (i : ShelfIx)
    (p n : Option RefIx) (c : Cause) (h : Bool) :
    s.offerSn i p n c h = s.pushInsert (.sn (s.makeFrame Byte.all typeSN (snPayload i p n c h))) := by
  unfold State.offerSn
  simp [hd, (insertRoom_iff s).mpr hroom]

theorem insertRoom_full {s : State} (hfull : 32 ≤ s.ring.insertQ.length) : s.insertRoom = false :=
  Bool.eq_false_iff.mpr fun h => absurd ((insertRoom_iff s).mp h) (by omega)

theorem offerSn_full {s : State} (hd : s.drive = .driving) (hfull : 32 ≤ s.ring.insertQ.length) (i : ShelfIx)
    (p n : Option RefIx) (c : Cause) (h : Bool) : s.offerSn i p n c h = s.loseNotice := by
  unfold State.offerSn
  simp [hd, insertRoom_full hfull]

/-- The SQ frame of shelf `i` with its present report content. -/
def State.sqFrame (s : State) (i : ShelfIx) : Frame :=
  s.makeFrame Byte.all typeSQ (sqPayload i (s.shelf i).cfg.dialect (s.report i))

theorem offerSq_floating {s : State} (hd : s.drive = .floating) (i : ShelfIx) : s.offerSq i = s := by
  unfold State.offerSq State.offerSqOf
  rw [hd]

theorem isSqOf_iff {i : ShelfIx} {e : InsertEntry} : e.isSqOf i = true ↔ ∃ f, e = .sq i f := by
  cases e with
  | sq j f => simpa [InsertEntry.isSqOf] using eq_comm
  | reserved => simp [InsertEntry.isSqOf]
  | rep f => simp [InsertEntry.isSqOf]
  | sn f => simp [InsertEntry.isSqOf]

/-- An SQ of shelf `i` waits in the Insert Queue. -/
theorem any_isSqOf_iff {i : ShelfIx} {q : List InsertEntry} :
    q.any (InsertEntry.isSqOf i) = true ↔ ∃ f, .sq i f ∈ q := by
  rw [List.any_eq_true]
  constructor
  · rintro ⟨e, he, hsq⟩
    obtain ⟨f, rfl⟩ := isSqOf_iff.mp hsq
    exact ⟨f, he⟩
  · rintro ⟨f, hf⟩
    exact ⟨_, hf, isSqOf_iff.mpr ⟨f, rfl⟩⟩

theorem offerSq_waiting {s : State} (hd : s.drive = .driving) {i : ShelfIx}
    (hwaits : ∃ f, .sq i f ∈ s.ring.insertQ) :
    s.offerSq i = (s.updRing fun g => { g with insertQ := coalesceSq i (s.sqFrame i) g.insertQ }).updShelf i
      fun x => { x with lastReport := some (s.report i) } := by
  unfold State.offerSq State.offerSqOf
  rw [hd]
  exact if_pos (any_isSqOf_iff.mpr hwaits)

theorem offerSq_new {s : State} (hd : s.drive = .driving) {i : ShelfIx} (hnew : ¬∃ f, .sq i f ∈ s.ring.insertQ) :
    s.offerSq i = if s.insertRoom then (s.pushInsert (.sq i (s.sqFrame i))).updShelf i
      fun x => { x with lastReport := some (s.report i) } else s.loseNotice := by
  unfold State.offerSq State.offerSqOf
  rw [hd]
  exact if_neg (mt any_isSqOf_iff.mp hnew)

/-- Settles O33, by the drive state, the room and, for an SQ, the entry that waits. -/
theorem noticesEnterTheInsertQueue : Obligations.NoticesEnterTheInsertQueue := by
  intro s i prev new cause hard sn sq lost told replaced waits
  refine ⟨fun hd => ⟨offerSn_floating hd .., offerSq_floating hd i⟩, fun hd => ⟨fun hroom => ?_, fun hfull => ?_,
    fun hwaits => offerSq_waiting hd hwaits, fun hnew hroom => ?_, fun hnew hfull => ?_⟩⟩
  · exact offerSn_room hd hroom ..
  · exact offerSn_full hd hfull ..
  · rw [offerSq_new hd hnew, (insertRoom_iff s).mpr hroom]
    rfl
  · rw [offerSq_new hd hnew, insertRoom_full hfull]
    rfl

end Sys2Proof.Machine
end

section
/-! The receiver's octets and the tests of FRAME_ARRIVAL: R25, R26, R28, R39. -/

namespace Sys2Proof.Machine

/-! ### The octets of a frame -/

/-- The two octets of CHECK carry it. -/
theorem check_octets (c : BitVec 16) :
    (BitVec.ofNat 8 (c.toNat / 256)).toNat * 256 + (BitVec.ofNat 8 c.toNat).toNat = c.toNat := by
  rw [BitVec.toNat_ofNat, BitVec.toNat_ofNat]
  omega

theorem wire_eq (f : Frame) : f.wire =
    f.body ++ [BitVec.ofNat 8 ((crc16 f.body).toNat / 256), BitVec.ofNat 8 (crc16 f.body).toNat] := rfl

theorem wire_length (f : Frame) : f.wire.length = f.payload.length + 7 := by
  simp [wire_eq, Frame.body]

/-- A receiver in a frame stores every octet while there is room, and counts them with it. -/
theorem foldl_octet_stores : ∀ (bs l : List Byte), l.length + bs.length ≤ 95 →
    bs.foldl (fun v b => Receiver.octet v b true) (.inFrame l l.length false) =
      .inFrame (l ++ bs) (l ++ bs).length false
  | [], l, _ => by simp
  | b :: bs, l, h => by
    rw [List.length_cons] at h
    have hstored : Receiver.octet (.inFrame l l.length false) b true =
        .inFrame (l ++ [b]) (l ++ [b]).length false := by
      have hroom : l.length < storedOctets := show l.length < 95 by omega
      simp only [Receiver.octet, storeOctet, if_pos hroom, min_eq_right (show l.length + 1 ≤ 96 by omega),
        Bool.not_true, Bool.or_self, List.length_append, List.length_singleton]
    rw [List.foldl_cons, hstored, foldl_octet_stores bs (l ++ [b]) (by simp; omega)]
    simp

theorem foldl_octet_ready {bs : List Byte} (hne : bs ≠ []) (h : bs.length ≤ 95) :
    bs.foldl (fun v b => Receiver.octet v b true) .ready = .inFrame bs bs.length false := by
  obtain ⟨b, bs, rfl⟩ := List.exists_cons_of_ne_nil hne
  exact foldl_octet_stores (b :: bs) [] (by simpa using h)

/-! ### The tests of R26 -/

/-- Test 1 of R26. -/
theorem testFrame_badFormat {l : List Byte} {n : Nat} {e : Bool} (h : e = true ∨ n < 7 ∨ 95 < n) :
    testFrame l n e = .badFormat := by
  unfold testFrame
  rw [if_pos]
  simpa [or_assoc] using h

/-- Test 2 of R26, on the octets before the last two and those two. -/
theorem testFrame_check {body : List Byte} {hi lo : Byte} {n : Nat} (hmin : 7 ≤ n) (hmax : n ≤ 95) :
    testFrame (body ++ [hi, lo]) n false =
      if (crc16 body).toNat = hi.toNat * 256 + lo.toNat then readFrame (body ++ [hi, lo]) else .badCheck := by
  have hlen : (body ++ [hi, lo]).length - 2 = body.length := by simp
  have hcrc : (crc16 body != BitVec.ofNat 16 (fromOctets [hi, lo])) = true ↔
      ¬(crc16 body).toNat = hi.toNat * 256 + lo.toNat := by
    have hnum : fromOctets [hi, lo] = hi.toNat * 256 + lo.toNat := by simp [fromOctets]
    have hlt : hi.toNat * 256 + lo.toNat < 2 ^ 16 := by
      have := hi.isLt
      have := lo.isLt
      omega
    rw [bne_iff_ne, ne_eq, ← BitVec.toNat_inj, hnum, BitVec.toNat_ofNat, Nat.mod_eq_of_lt hlt]
  unfold testFrame
  rw [if_neg (by simp; omega), hlen, List.take_left, List.drop_left]
  by_cases h : (crc16 body).toNat = hi.toNat * 256 + lo.toNat
  · rw [if_neg fun hne => hcrc.mp hne h, if_pos h]
  · rw [if_pos (hcrc.mpr h), if_neg h]

/-- Test 3 of R26. -/
theorem readFrame_header (dest src type ttl len hi lo : Byte) (payload : List Byte) :
    readFrame (([dest, src, type, ttl, len] ++ payload) ++ [hi, lo]) =
      if len.toNat ≤ 88 ∧ payload.length = len.toNat then
        .passed { dest := dest, src := src, type := type, ttl := ttl, payload := payload }
      else .badFormat := by
  simp only [List.cons_append, List.nil_append, readFrame, Config.maxPayload, List.length_append, List.length_cons,
    List.length_nil, Nat.add_right_cancel_iff]
  split
  · rename_i h
    rw [← h.2, List.take_left]
  · rfl

/-- A frame sent passes every test as itself. -/
theorem testFrame_wire {f : Frame} (hsize : f.payload.length ≤ 88) :
    testFrame f.wire f.wire.length false = .passed f := by
  have hlen : (BitVec.ofNat 8 f.payload.length).toNat = f.payload.length := by
    rw [BitVec.toNat_ofNat]
    exact Nat.mod_eq_of_lt (by omega)
  have hwire := wire_length f
  rw [wire_eq, testFrame_check (by rw [← wire_eq]; omega) (by rw [← wire_eq]; omega), if_pos (check_octets _).symm,
    Frame.body, readFrame_header, if_pos (by omega)]

/-! ### FRAME_ARRIVAL -/

theorem frameArrives_inFrame {s : State} {l : List Byte} {n : Nat} {e : Bool}
    (h : s.ring.receiver = .inFrame l n e) :
    s.frameArrives = (s.updRing fun g => { g with receiver := .ready }).arrive (testFrame l n e) := by
  unfold State.frameArrives
  rw [h]

theorem frameArrives_none {s : State} (h : ∀ l n e, s.ring.receiver ≠ .inFrame l n e) : s.frameArrives = s := by
  unfold State.frameArrives
  cases hr : s.ring.receiver with
  | waitIdle n => rfl
  | ready => rfl
  | inFrame l n e => exact absurd hr (h l n e)

theorem offerRx_room {s : State} (h : s.ring.rxQ.length < 16) (f : Frame) :
    s.offerRx f = s.updRing fun g => { g with rxQ := g.rxQ ++ [f] } :=
  if_pos h

theorem offerRx_full {s : State} (h : 16 ≤ s.ring.rxQ.length) (f : Frame) :
    s.offerRx f = s.updCounters Counters.incRxDrop :=
  if_neg (Nat.not_lt.mpr h)

/-- Settles O36: the receiver stores the frame's octets, and they pass the tests of R26 as that frame. -/
theorem sentFrameArrives : Obligations.SentFrameArrives := by
  intro f hsize
  have hwire := wire_length f
  refine ⟨foldl_octet_ready (List.ne_nil_of_length_pos (by omega)) (by omega), fun s hresetn hreceived => ?_⟩
  rw [exec_frameArrival hresetn, frameArrives_inFrame hreceived, testFrame_wire hsize]
  exact ⟨fun hroom => congrArg _ (offerRx_room (s := s.updRing fun g => { g with receiver := .ready }) hroom f),
    fun hfull => congrArg _ (offerRx_full (s := s.updRing fun g => { g with receiver := .ready }) hfull f)⟩

/-- A counter rises by 1 and stays at 65,535. -/
theorem bump_toNat (c : BitVec 16) : (bump c).toNat = min 65535 (c.toNat + 1) := by
  have hc := c.isLt
  unfold bump
  split
  · rename_i h
    rw [h]
    rfl
  · rename_i h
    have hne : c.toNat ≠ 65535 := fun he => h (BitVec.eq_of_toNat_eq he)
    have hone : BitVec.toNat (1 : BitVec 16) = 1 := rfl
    rw [BitVec.toNat_add, hone]
    omega

/-- Settles O37, test by test in the order of R26. -/
theorem damagedFramesAreCounted : Obligations.DamagedFramesAreCounted := by
  refine ⟨bump_toNat, fun s hresetn => ?_⟩
  intro format check
  refine ⟨fun hnone => ?_, fun l n e hreceived => ?_⟩
  · rw [exec_frameArrival hresetn, frameArrives_none hnone]
  · have harrives : ∀ a, testFrame l n e = a →
        exec .frameArrival s = .next ((s.updRing fun g => { g with receiver := .ready }).arrive a) := by
      rintro a rfl
      rw [exec_frameArrival hresetn, frameArrives_inFrame hreceived]
    refine ⟨fun hbad => harrives .badFormat (testFrame_badFormat hbad), ?_⟩
    rintro rfl hmin hmax body hi lo rfl
    refine ⟨fun hcrc => harrives .badCheck (by rw [testFrame_check hmin hmax, if_neg hcrc]), ?_⟩
    rintro dest src type ttl len payload rfl hcrc hlen
    refine harrives .badFormat ?_
    rw [testFrame_check hmin hmax, if_pos hcrc, readFrame_header, if_neg (by omega)]

end Sys2Proof.Machine
end

section
/-! TRANSMISSION_START and TRANSMISSION_END, the levels of STO, RECEIVER_READY and OCTET_TAKEN: R25, R36, R181, R182. -/

namespace Sys2Proof.Machine

/-! ### The transmitter -/

theorem choice_none {g : Ring} (hrelay : g.relayQ = []) (hinsert : g.insertQ = []) : g.choice = none := by
  unfold Ring.choice
  rw [hrelay, hinsert]

/-- The arbiter serves the Relay Queue alone, or after the Insert Queue. -/
theorem choice_relay {g : Ring} {f : Frame} {q : List Frame} (hq : g.relayQ = f :: q)
    (h : g.insertQ = [] ∨ g.marker = .insert) : g.choice = some .relay := by
  unfold Ring.choice
  rw [hq]
  cases hi : g.insertQ with
  | nil => rfl
  | cons e l => rw [h.resolve_left (by simp [hi])]

/-- The arbiter serves the Insert Queue alone, or after the Relay Queue. -/
theorem choice_insert {g : Ring} {e : InsertEntry} {q : List InsertEntry} (hq : g.insertQ = e :: q)
    (h : g.relayQ = [] ∨ g.marker = .relay) : g.choice = some .insert := by
  unfold Ring.choice
  rw [hq]
  cases hr : g.relayQ with
  | nil => rfl
  | cons f l => rw [h.resolve_left (by simp [hr])]

theorem octetTicks_eq (n : Nat) : octetTicks n = 200 * n := by
  unfold octetTicks Config.bitTicks
  omega

theorem send_eq (g : Ring) (f : Frame) (served : Marker) : g.send f served = { g with
    sending := some (f.body ++ octets 2 (crc16 f.body).toNat), sendLeft := 200 * (f.payload.length + 7)
    marker := served } := by
  unfold Ring.send
  rw [octetTicks_eq, wire_length]
  rfl

/-- The entries that hold a frame. -/
theorem frame?_eq_some {e : InsertEntry} {f : Frame} (h : e = .rep f ∨ e = .sn f ∨ ∃ i, e = .sq i f) :
    e.frame? = some f := by
  rcases h with rfl | rfl | ⟨i, rfl⟩ <;> rfl

theorem endSending_none {g : Ring} (h : g.sending = none ∨ g.sendLeft ≠ 0) : g.endSending = g := by
  unfold Ring.endSending
  split
  · rename_i hs hl
    rcases h with h | h
    · exact absurd (hs.symm.trans h) (by simp)
    · exact absurd hl h
  · rfl
  · rfl

theorem endSending_ends {g : Ring} {l : List Byte} (hs : g.sending = some l) (hl : g.sendLeft = 0) :
    g.endSending = { g with sending := none, idleLeft := 320 } := by
  unfold Ring.endSending
  rw [hs, hl]

/-! ### The levels of STO -/

theorem octetBits_getD (b : Byte) {j : Nat} (hj : j < 10) :
    (octetBits b true).getD j true = if j = 0 then false else if j = 9 then true else b.getLsbD (j - 1) := by
  interval_cases j <;> rfl

/-- The level of STO within a frame: the bit time that the ticks left have reached. -/
theorem sto_sending {g : Ring} {l : List Byte} (hs : g.sending = some l) {k j m : Nat} {b : Byte} (hk : l[k]? = some b)
    (hj : j < 10) (hm : m < 20) (ht : g.sendLeft + 200 * k + 20 * j + m = 200 * l.length) :
    g.sto = if j = 0 then false else if j = 9 then true else b.getLsbD (j - 1) := by
  have hbit : (octetTicks l.length - g.sendLeft) / Config.bitTicks = 10 * k + j := by
    unfold Config.bitTicks
    rw [octetTicks_eq]
    omega
  unfold Ring.sto
  rw [hs]
  dsimp only
  rw [hbit, List.getD_eq_getElem?_getD, lineBits_getElem? l k j b hk hj, ← List.getD_eq_getElem?_getD,
    octetBits_getD b hj]

theorem sto_sent {g : Ring} {l : List Byte} (hs : g.sending = some l) (hl : g.sendLeft = 0) : g.sto = true := by
  have hbit : (octetTicks l.length - g.sendLeft) / Config.bitTicks = 10 * l.length := by
    unfold Config.bitTicks
    rw [octetTicks_eq]
    omega
  unfold Ring.sto
  rw [hs]
  dsimp only
  rw [hbit, List.getD_eq_getElem?_getD, List.getElem?_eq_none (lineBits_length l).le, Option.getD_none]

theorem state_sto_high {s : State} (h : s.resetn = true) : s.sto = s.ring.sto := by
  unfold State.sto
  rw [h, Bool.not_true, Bool.false_or]

/-! ### The receiver in WAIT-IDLE -/

/-- Outside WAIT-IDLE the levels of RECEIVER_READY change nothing. -/
theorem foldl_bit_other {v : Receiver} (h : ∀ n, v ≠ .waitIdle n) (l : List Bool) : l.foldl Receiver.bit v = v := by
  have hbit : ∀ b, v.bit b = v := by
    cases v with
    | waitIdle n => exact absurd rfl (h n)
    | ready => exact fun _ => rfl
    | inFrame l n e => exact fun _ => rfl
  induction l with
  | nil => rfl
  | cons b l ih => rw [List.foldl_cons, hbit, ih]

theorem bit_low (n : Nat) : (Receiver.waitIdle n).bit false = .waitIdle 0 := rfl

theorem bit_high {n : Nat} (h : n + 1 < 16) : (Receiver.waitIdle n).bit true = .waitIdle (n + 1) := if_pos h

theorem bit_ready {n : Nat} (h : 16 ≤ n + 1) : (Receiver.waitIdle n).bit true = .ready := if_neg (Nat.not_lt.mpr h)

/-- Levels too few to make the receiver READY leave it in WAIT-IDLE. -/
theorem foldl_bit_few : ∀ (l : List Bool) (n : Nat), n + l.length < 16 →
    ∃ m, l.foldl Receiver.bit (.waitIdle n) = .waitIdle m
  | [], n, _ => ⟨n, rfl⟩
  | false :: l, n, h => by
    rw [List.length_cons] at h
    exact foldl_bit_few l 0 (by omega)
  | true :: l, n, h => by
    rw [List.length_cons] at h
    rw [List.foldl_cons, bit_high (by omega)]
    exact foldl_bit_few l (n + 1) (by omega)

theorem foldl_bit_highs : ∀ (k n : Nat), n + k < 16 →
    (List.replicate k true).foldl Receiver.bit (.waitIdle n) = .waitIdle (n + k)
  | 0, _, _ => rfl
  | k + 1, n, h => by
    rw [List.replicate_succ, List.foldl_cons, bit_high (by omega), foldl_bit_highs k (n + 1) (by omega),
      Nat.add_right_comm, Nat.add_assoc]

/-- After the last low level, the count is the high levels since. -/
theorem foldl_bit_since_low {l : List Bool} {n k : Nat} (hl : n + l.length < 16) (hk : k < 16) :
    (l ++ false :: List.replicate k true).foldl Receiver.bit (.waitIdle n) = .waitIdle k := by
  obtain ⟨m, hm⟩ := foldl_bit_few l n hl
  rw [List.foldl_append, hm, List.foldl_cons, bit_low, foldl_bit_highs k 0 (by omega), Nat.zero_add]

/-- The start bit of an octet is low, so the count before it does not matter. -/
theorem octet_waitIdle (n : Nat) (b : Byte) (stop : Bool) : (Receiver.waitIdle n).octet b stop =
    (((List.range 8).map fun k => b.getLsbD k) ++ [stop]).foldl Receiver.bit (.waitIdle 0) := rfl

theorem octet_waitIdle_low (n : Nat) (b : Byte) : (Receiver.waitIdle n).octet b false = .waitIdle 0 := by
  rw [octet_waitIdle]
  exact foldl_bit_since_low (k := 0) (by simp) (by decide)

/-- An octet's data bits end in `k` high bits and, where not all are high, a low one before them. -/
theorem octet_waitIdle_high (n : Nat) {b : Byte} {k : Nat} (hk : k ≤ 8)
    (hhigh : ∀ j, j < k → b.getLsbD (7 - j) = true) (hlow : k < 8 → b.getLsbD (7 - k) = false) :
    (Receiver.waitIdle n).octet b true = .waitIdle (k + 1) := by
  have hones : ((List.range k).map fun j => b.getLsbD (8 - k + j)) = List.replicate k true := by
    refine List.eq_replicate_iff.mpr ⟨by simp, fun x hx => ?_⟩
    obtain ⟨j, hj, rfl⟩ := List.mem_map.mp hx
    have hj := List.mem_range.mp hj
    have h := hhigh (k - 1 - j) (by omega)
    rwa [show 7 - (k - 1 - j) = 8 - k + j by omega] at h
  have hbits : ((List.range 8).map fun j => b.getLsbD j) =
      ((List.range (8 - k)).map fun j => b.getLsbD j) ++ List.replicate k true := by
    have hrange : List.range 8 = List.range (8 - k) ++ (List.range k).map (8 - k + ·) := by
      rw [← List.range_add, Nat.sub_add_cancel hk]
    rw [← hones, hrange, List.map_append, List.map_map]
    rfl
  rw [octet_waitIdle, hbits, List.append_assoc, ← List.replicate_succ']
  rcases Nat.lt_or_ge k 8 with h8 | h8
  · have hlast : ((List.range (8 - k)).map fun j => b.getLsbD j) =
        ((List.range (7 - k)).map fun j => b.getLsbD j) ++ [false] := by
      rw [show 8 - k = (7 - k) + 1 by omega, List.range_succ, List.map_append, List.map_singleton, hlow h8]
    rw [hlast, List.append_assoc]
    exact foldl_bit_since_low (by simp; omega) (by omega)
  · rw [show 8 - k = 0 by omega]
    exact (foldl_bit_highs (k + 1) 0 (by omega)).trans (congrArg _ (Nat.zero_add _))

/-! ### The obligation -/

/-- The check value of R182: the CRC of the digits 1 to 9. -/
theorem crc16_digits : crc16 [0x31, 0x32, 0x33, 0x34, 0x35, 0x36, 0x37, 0x38, 0x39] = 0x29B1 := by
  simp [crc16, crcOctet, crcShift, List.range_succ, BitVec.msb_eq_getLsbD_last]

/-- What TRANSMISSION_START and TRANSMISSION_END answer is the ring after the operation. -/
theorem exec_start_of {s : State} (h : s.resetn = true) {g : Ring} (hg : s.ring.startSending = g) :
    exec .transmissionStart s = .next { s with ring := g } := by
  rw [exec_transmissionStart h, ← hg]
  rfl

theorem exec_end_of {s : State} (h : s.resetn = true) {g : Ring} (hg : s.ring.endSending = g) :
    exec .transmissionEnd s = .next { s with ring := g } := by
  rw [exec_transmissionEnd h, ← hg]
  rfl

theorem exec_ready_of {s : State} (h : s.resetn = true) {l : List Bool} {v : Receiver}
    (hv : l.foldl Receiver.bit s.ring.receiver = v) :
    exec (.receiverReady l) s = .next { s with ring := { s.ring with receiver := v } } := by
  rw [exec_receiverReady h, ← hv]
  rfl

theorem exec_octet_of {s : State} (h : s.resetn = true) {b : Byte} {stop : Bool} {v : Receiver}
    (hv : s.ring.receiver.octet b stop = v) :
    exec (.octetTaken b stop) s = .next { s with ring := { s.ring with receiver := v } } := by
  rw [exec_octetTaken h, ← hv]
  rfl

/-- Settles O39, part by part: the transmitter, the levels of STO, the check value, the receiver. -/
theorem lineCommands : Obligations.LineCommands := by
  refine ⟨fun s hresetn => ?_, fun s => ⟨fun h => ?_, fun l hresetn hs => ⟨fun hl => ?_, ?_⟩⟩, crc16_digits,
    fun s hresetn => ?_⟩
  · intro Sends
    refine ⟨fun h => ?_, fun hrelay hinsert => ?_, fun f q hs hi hq h => ?_, fun e f q hs hi hq he h => ?_,
      fun h => ?_, fun l hs hl => exec_end_of hresetn (endSending_ends hs hl)⟩
    · exact exec_start_of hresetn (startSending_none (h.imp id .inl))
    · exact exec_start_of hresetn (startSending_none (.inr (.inr (choice_none hrelay hinsert))))
    · exact exec_start_of hresetn ((startSending_relay hs hi (choice_relay hq h) hq).trans (send_eq _ f .relay))
    · exact exec_start_of hresetn ((startSending_insert hs hi (choice_insert hq h) hq (frame?_eq_some he)).trans
        (send_eq _ f .insert))
    · exact exec_end_of hresetn (endSending_none h)
  · unfold State.sto
    rcases h with hreset | hs
    · rw [hreset]
      rfl
    · rw [sto_idle hs, Bool.or_true]
  · rw [state_sto_high hresetn, sto_sent hs hl]
  · intro k j m b hk hj hm ht
    rw [state_sto_high hresetn, sto_sending hs hk hj hm ht]
  · intro Becomes
    refine ⟨fun n hn => ⟨?_, ?_, fun h => ?_, fun h => ?_⟩, fun l l' t ht => ?_, fun l hother => ?_,
      fun b stop hready => ?_, fun l n e b stop hframe => ⟨fun hroom => ?_, fun hfull => ?_⟩,
      fun n b hn => ⟨?_, fun k hk hhigh hlow => ?_⟩⟩
    · exact exec_ready_of hresetn hn
    · exact exec_ready_of hresetn (by rw [hn]; rfl)
    · exact exec_ready_of hresetn (by rw [hn]; exact bit_high h)
    · exact exec_ready_of hresetn (by rw [hn]; exact bit_ready h)
    · rw [exec_receiverReady hresetn] at ht ⊢
      obtain rfl := Host.Outcome.next.inj ht
      rw [exec_receiverReady (s := s.updRing _) hresetn]
      simp only [List.foldl_append]
      rfl
    · exact exec_ready_of hresetn (foldl_bit_other hother l)
    · exact exec_octet_of hresetn (by rw [hready]; rfl)
    · refine exec_octet_of hresetn ?_
      rw [hframe, Receiver.octet, storeOctet, storedOctets, if_pos hroom]
    · refine exec_octet_of hresetn ?_
      rw [hframe, Receiver.octet, storeOctet, storedOctets, if_neg (Nat.not_lt.mpr hfull)]
    · exact exec_octet_of hresetn (by rw [hn]; exact octet_waitIdle_low n b)
    · exact exec_octet_of hresetn (by rw [hn]; exact octet_waitIdle_high n hk hhigh hlow)

end Sys2Proof.Machine
end

section
/-! FRAME_TAKE, by the head of the Receive Queue: R29 to R32, R40, R48. -/

namespace Sys2Proof.Machine

/-! ### The entries of a Quality Announcement -/

/-- A QA ENTRY is read from its octets: spec/10. -/
theorem readQaEntry_octets (e : QaEntry) : readQaEntry e.ref
    (BitVec.ofNat 8 (32 * e.dialect.toNat + (if e.active then 16 else 0) + e.code.val)) = e := by
  obtain ⟨ref, dialect, active, code⟩ := e
  have hd := dialect.isLt
  have hc := code.isLt
  have hoctet : (BitVec.ofNat 8 (32 * dialect.toNat + (if active then 16 else 0) + code.val)).toNat =
      32 * dialect.toNat + (if active then 16 else 0) + code.val := by
    rw [BitVec.toNat_ofNat]
    split <;> omega
  unfold readQaEntry
  congr 1
  · apply BitVec.eq_of_toNat_eq
    rw [BitVec.extractLsb'_toNat, hoctet, Nat.shiftRight_eq_div_pow]
    split <;> omega
  · rw [BitVec.getLsbD, hoctet, Nat.testBit_eq_decide_div_mod_eq]
    cases active <;> simp <;> omega
  · apply Fin.ext
    rw [hoctet]
    simp only [Fin.ofNat]
    split <;> omega

theorem readQaEntries_octets (l : List QaEntry) : readQaEntries (l.flatMap fun e =>
    [e.ref, BitVec.ofNat 8 (32 * e.dialect.toNat + (if e.active then 16 else 0) + e.code.val)]) = l := by
  induction l with
  | nil => rfl
  | cons e l ih =>
    rw [List.flatMap_cons, List.cons_append, List.cons_append, List.nil_append, readQaEntries, readQaEntry_octets, ih]

/-! ### The head of the Receive Queue -/

theorem dropHead_eq {s : State} {f : Frame} {rest : List Frame} (hq : s.ring.rxQ = f :: rest) :
    s.dropHead = s.withRx rest := by
  have htail : s.ring.rxQ.tail = rest := congrArg List.tail hq
  exact congrArg (fun q => s.withRx q) htail

theorem takeHead_empty {s : State} (hq : s.ring.rxQ = []) : s.takeHead = s := by
  unfold State.takeHead
  rw [hq]

section
variable {s : State} {f : Frame} {rest : List Frame}

/-- R29: the part's own frame comes back. -/
theorem takeHead_own (hq : s.ring.rxQ = f :: rest) (hsrc : f.src = s.ring.station) :
    s.takeHead = s.withRx rest := by
  unfold State.takeHead
  rw [← dropHead_eq hq, hq]
  exact if_pos hsrc

/-- R29: a frame addressed to the part. -/
theorem takeHead_addressed (hq : s.ring.rxQ = f :: rest) (hsrc : f.src ≠ s.ring.station)
    (hdest : f.dest = s.ring.station) : s.takeHead =
      if f.type = typeREQ then if s.insertRoom then s.takeRequest f else s else s.withRx rest := by
  unfold State.takeHead
  rw [← dropHead_eq hq, hq]
  exact (if_neg hsrc).trans (if_pos hdest)

/-- R29: a frame for others. -/
theorem takeHead_pass (hq : s.ring.rxQ = f :: rest) (hsrc : f.src ≠ s.ring.station)
    (hdest : f.dest ≠ s.ring.station) : s.takeHead = (s.withRx rest).passFrame f := by
  unfold State.takeHead
  rw [← dropHead_eq hq, hq]
  exact (if_neg hsrc).trans (if_neg hdest)

/-! ### The take of a request -/

/-- A request that is no taken RESTART is its own command on an empty Receive Queue, with the frames behind it left. -/
theorem takeRequest_withRx (hq : s.ring.rxQ = f :: rest)
    (h : (∀ tag, f.payload ≠ [0x41, tag]) ∨ s.denies f.src = true) : s.takeRequest f =
      ((((s.withRx []).pushInsert .reserved).execute f.src f.payload).placed f.src f.payload).withRx rest := by
  have hexecute : ∀ q, ((s.withRx q).pushInsert .reserved).execute f.src f.payload =
      ((s.pushInsert .reserved).execute f.src f.payload).withRx q := fun q =>
    execute_withRx q (s.pushInsert .reserved) f.src f.payload h
  rw [takeRequest_eq hq, hexecute, hexecute, placed_withRx, placed_withRx]
  rfl

/-- A taken RESTART empties the Receive Queue, whatever stood behind it. -/
theorem takeRequest_restart (hq : s.ring.rxQ = f :: rest) {tag : Byte} (hp : f.payload = [0x41, tag])
    (ha : s.admits f.src) : s.takeRequest f =
      (((s.withRx []).pushInsert .reserved).execute f.src f.payload).placed f.src f.payload
    ∧ (s.takeRequest f).ring.rxQ = [] := by
  have hexecute : ∀ q, ((s.withRx q).pushInsert .reserved).execute f.src f.payload =
      Answer.ok (s.pushInsert .reserved).warmRestart := fun q => by
    have hrun : ∀ u : State, Request.restart.run [] u = .ok u.warmRestart := fun _ => rfl
    rw [hp, show (0x41 : Byte) = Request.restart.code from rfl,
      execute_admitted _ _ _ _ _ (.inr (pushInsert_denies (s := s.withRx q) ha .reserved)), hrun, pushInsert_withRx,
      restart_withRx]
  rw [takeRequest_eq hq, hexecute, hexecute]
  refine ⟨rfl, ?_⟩
  rw [placed_rxQ]
  dsimp only [Answer.ok]
  exact warmRestart_rxQ _

end

/-! ### The relay and the hand-off -/

theorem relay_expired {s : State} {f : Frame} (h : f.ttl.toNat < 2) :
    s.relay f = s.updCounters Counters.incTtlExp := if_pos h

theorem ttl_lowered {b : Byte} (h : 2 ≤ b.toNat) : b - 1 = BitVec.ofNat 8 (b.toNat - 1) := by
  bv_omega

theorem relay_room {s : State} {f : Frame} (h : 2 ≤ f.ttl.toNat) (hroom : s.ring.relayQ.length < 16) :
    s.relay f = s.updRing fun g =>
      { g with relayQ := g.relayQ ++ [{ f with ttl := BitVec.ofNat 8 (f.ttl.toNat - 1) }] } := by
  rw [← ttl_lowered h]
  exact (if_neg (Nat.not_lt.mpr h)).trans (if_pos hroom)

theorem relay_full {s : State} {f : Frame} (h : 2 ≤ f.ttl.toNat) (hfull : 16 ≤ s.ring.relayQ.length) :
    s.relay f = s.updCounters Counters.incRelayDrop :=
  (if_neg (Nat.not_lt.mpr h)).trans (if_neg (Nat.not_lt.mpr hfull))

theorem relay_sameTables (s : State) (f : Frame) : SameTables s (s.relay f) := by
  unfold State.relay
  split
  · exact ⟨rfl, rfl⟩
  · split <;> exact ⟨rfl, rfl⟩

theorem passFrame_other {s : State} {f : Frame} (h : ¬(f.type = 0x21 ∧ f.dest = 0xFF)) : s.passFrame f = s.relay f :=
  if_neg h

theorem passFrame_announcement {s : State} {f : Frame} (htype : f.type = 0x21) (hdest : f.dest = 0xFF) :
    s.passFrame f = (s.relay f).handOff f :=
  if_pos ⟨htype, hdest⟩

theorem handOff_badLength {s : State} {f : Frame}
    (h : f.payload.length % 2 = 1 ∨ f.payload.length < 2 ∨ 16 < f.payload.length) :
    s.handOff f = s.updCounters Counters.incFormat :=
  if_neg (by omega)

theorem handOff_entries {s : State} {f : Frame} (heven : f.payload.length % 2 = 0) (hmin : 2 ≤ f.payload.length)
    (hmax : f.payload.length ≤ 16) : s.handOff f = s.announce f.src (readQaEntries f.payload) :=
  if_pos ⟨heven, hmin, hmax⟩

/-- The entries of a QA change no shelf. -/
theorem foldl_takeEntry_shelves (src : Byte) (l : List QaEntry) (s : State) :
    (l.foldl (State.takeEntry src) s).shelves = s.shelves := by
  refine foldl_induct (P := fun t => t.shelves = s.shelves) _ (fun t e h => ?_) l s rfl
  unfold State.takeEntry
  split
  · exact h
  · exact h

theorem announce_kept (s : State) (src : Byte) (l : List QaEntry) :
    Kept (l.foldl (State.takeEntry src) s) (s.announce src l) :=
  (follow_kept _ _).trans (endEvent_kept _ _)

/-- A QA marks, in the terms of the state before its relay. -/
theorem announce_marked {s u : State} (hu : SameTables s u) (src : Byte) (l : List QaEntry) (q : RefIx)
    (hq : (l.foldl (State.takeEntry src) u).effRank q ≠ s.effRank q) : Marked q s (u.announce src l) := by
  intro i hon hnamed
  have hshelf : (l.foldl (State.takeEntry src) u).shelf i = s.shelf i :=
    (shelf_congr (foldl_takeEntry_shelves src l u) i).trans (hu.shelf i)
  refine announce_marks u src l i q ?_ ?_ (by rwa [hu.effRank])
  · rw [hshelf]
    cases hs : (s.shelf i).state <;> simp_all [Shelf.enabled, ShelfState.cls]
  · obtain ⟨c, hc, rfl⟩ := hnamed
    rw [hshelf]
    exact List.any_eq_true.mpr ⟨c, hc, beq_self_eq_true _⟩

/-! ### The obligation -/

/-- Settles O38, by the head of the Receive Queue. -/
theorem frameTakeHandlesTheHead : Obligations.FrameTakeHandlesTheHead := by
  refine ⟨readQaEntries_octets, fun s hresetn => ?_, fun s f rest hresetn hq hsrc hstation hdest htype => ?_⟩
  · have htake : ∀ t, s.takeHead = t → exec .frameTake s = .next t := by
      rintro t rfl
      exact exec_frameTake hresetn
    refine ⟨fun hq => htake _ (takeHead_empty hq), fun f rest hq => ?_⟩
    intro g
    refine ⟨fun hsrc => htake _ (takeHead_own hq hsrc), fun hsrc hdest => ?_, fun hsrc hdest hother => ?_⟩
    · have haddressed := takeHead_addressed hq hsrc hdest
      refine ⟨fun htype => htake _ (haddressed.trans (if_neg htype)), fun htype hfull => htake _ ?_, ?_⟩
      · rw [haddressed, if_pos htype, insertRoom_full hfull]
        rfl
      · intro htype hready hsize c v hc hv
        have hv' := Host.Outcome.next.inj ((exec_ready hc hready hsize).symm.trans hv)
        obtain ⟨-, -, hfree, -, -⟩ := hready
        have hroom : s.insertRoom = true := (insertRoom_iff s).mpr hfree
        have htaken : s.takeHead = s.takeRequest f := by rw [haddressed, if_pos htype, if_pos hroom]
        intro restarts
        refine ⟨?_, fun hnot => ?_⟩
        · rintro ⟨ha, tag, hp⟩
          obtain ⟨heq, hempty⟩ := takeRequest_restart hq hp ha
          have hsame : s.takeRequest f = v := heq.trans hv'
          exact ⟨htake _ (htaken.trans hsame), hsame ▸ hempty⟩
        · have hpast : (∀ tag, f.payload ≠ [0x41, tag]) ∨ s.denies f.src = true := by
            by_cases ha : s.admits f.src
            · exact .inl fun tag hp => hnot ⟨ha, tag, hp⟩
            · exact .inr (denies_of_not_admits ha)
          exact htake _ (htaken.trans ((takeRequest_withRx hq hpast).trans (congrArg (State.withRx rest) hv')))
    · have hpass : ∀ t, (s.withRx rest).relay f = t → exec .frameTake s = .next t := fun t ht =>
        htake t (((takeHead_pass hq hsrc hdest).trans (passFrame_other hother)).trans ht)
      exact ⟨fun httl => hpass _ (relay_expired httl), fun httl hroom => hpass _ (relay_room httl hroom),
        fun httl hfull => hpass _ (relay_full httl hfull)⟩
  · intro u
    have hstrange : f.dest ≠ s.ring.station := fun h => hstation (h.symm.trans hdest)
    have htake : ∀ t, u.handOff f = t → exec .frameTake s = .next t := by
      rintro t rfl
      rw [exec_frameTake hresetn, takeHead_pass hq hsrc hstrange, passFrame_announcement htype hdest]
      rfl
    refine ⟨fun hbad => htake _ (handOff_badLength hbad), fun heven hmin hmax => ?_⟩
    have hu : SameTables s u := by
      obtain ⟨hrefs, hshelves⟩ := relay_sameTables (s.withRx rest) f
      exact ⟨hrefs, hshelves⟩
    exact ⟨_, htake _ (handOff_entries heven hmin hmax), announce_kept u f.src _,
      fun q hrank => announce_marked hu f.src _ q hrank⟩

end Sys2Proof.Machine
end

section
/-! The ranks of R55 and R157. The fuel of `State.outRank` is 24 shelves: where the edges form no cycle and follow the
references in use, the shelves reachable from a shelf become fewer along every edge, so the fuel is never short and the
rank of a shelf is read from the effective ranks of its own references. -/

namespace Sys2Proof.Machine

/-! ### Which references and shelves a rank reads -/

/-- The outgoing rank of a shelf reads the effective ranks of its current reference and its target alone: R157. -/
theorem Shelf.rankWith_of_used {x : Shelf} {eff eff' : RefIx → Rank}
    (h : ∀ r, x.state.current = some r ∨ x.state.target = some r → eff r = eff' r) :
    x.rankWith eff = x.rankWith eff' := by
  unfold Shelf.rankWith
  cases hs : x.state with
  | off => rfl
  | free => rfl
  | locked c => exact h c (by simp [hs, ShelfState.current])
  | waiting c t b | aligning c t b =>
    dsimp only
    rw [h c (by simp [hs, ShelfState.current]), h t (by simp [hs, ShelfState.target])]
  | holdover g n => cases g <;> rfl

/-- The effective rank of a reference reads the outgoing rank of its source shelf alone: R55. -/
theorem Reference.rankWith_of_source {x : Reference} {out out' : ShelfIx → Rank}
    (h : ∀ j, x.sourceShelf = some j → out j = out' j) : x.rankWith out = x.rankWith out' := by
  unfold Reference.sourceShelf at h
  unfold Reference.rankWith
  cases x.cfg.overrideRank with
  | some k => rfl
  | none =>
    cases hk : x.cfg.kind with
    | announced => rfl
    | fixed => rfl
    | derived =>
      cases hj : x.cfg.source with
      | none => rfl
      | some j => exact h j (by rw [hk]; exact hj)

/-- The source shelf of a reference in use is at the end of an edge: R152. -/
theorem State.EdgesOk.edge {s : State} (h : s.EdgesOk) {i j : ShelfIx} {r : RefIx}
    (hr : (s.shelf i).state.current = some r ∨ (s.shelf i).state.target = some r)
    (hj : (s.ref r).sourceShelf = some j) : s.Edge i j := by
  obtain ⟨hcur, hpend⟩ := h i
  rcases hr with hr | hr
  · exact .inl (by rw [hcur, hr]; exact hj)
  · exact .inr (by rw [hpend, hr]; exact hj)

/-- A shelf's rank under two amounts of fuel is the same where it is the same at the end of every edge. -/
theorem outRankFuel_succ_congr {s : State} (he : s.EdgesOk) {n m : Nat} {i : ShelfIx}
    (h : ∀ j, s.Edge i j → s.outRankFuel n j = s.outRankFuel m j) :
    s.outRankFuel (n + 1) i = s.outRankFuel (m + 1) i :=
  Shelf.rankWith_of_used fun _ hr => Reference.rankWith_of_source fun j hj => h j (he.edge hr hj)

/-! ### The shelves that a path reaches -/

/-- The shelves that a path of length 0 or more reaches from shelf `i`. -/
def State.reach (s : State) (i : ShelfIx) : Set ShelfIx := {j | Relation.ReflTransGen s.Edge i j}

theorem reach_ncard_pos (s : State) (i : ShelfIx) : 0 < (s.reach i).ncard :=
  (Set.ncard_pos (Set.toFinite _)).mpr ⟨i, .refl⟩

theorem reach_ncard_le (s : State) (i : ShelfIx) : (s.reach i).ncard ≤ 24 := by
  calc (s.reach i).ncard ≤ (Set.univ : Set ShelfIx).ncard := Set.ncard_le_ncard (Set.subset_univ _)
    _ = 24 := by rw [Set.ncard_univ, Nat.card_fin]

/-- An edge of an acyclic table leads to a shelf that reaches fewer shelves: its own start is no longer reached. -/
theorem reach_ncard_lt {s : State} (hc : s.NoCycle) {i j : ShelfIx} (h : s.Edge i j) :
    (s.reach j).ncard < (s.reach i).ncard := by
  have hsub : s.reach j ⊆ s.reach i := fun k hk => Relation.ReflTransGen.head h hk
  have hi : i ∉ s.reach j := fun hji => hc i (Relation.TransGen.head' h hji)
  exact Set.ncard_lt_ncard ((Set.ssubset_iff_of_subset hsub).mpr ⟨i, .refl, hi⟩)

/-! ### The outgoing rank -/

/-- Fuel for every shelf that is reached is enough. -/
theorem outRankFuel_enough {s : State} (hc : s.NoCycle) (he : s.EdgesOk) : ∀ (n : Nat) (i : ShelfIx),
    (s.reach i).ncard ≤ n → s.outRankFuel n i = s.outRankFuel (n + 1) i
  | 0, i, h => absurd (reach_ncard_pos s i) (by omega)
  | n + 1, i, h => outRankFuel_succ_congr he fun j hj =>
    outRankFuel_enough hc he n j (by have := reach_ncard_lt hc hj; omega)

/-- R157: the outgoing rank of a shelf, from the effective ranks of the references it uses. -/
theorem outRank_eq {s : State} (hc : s.NoCycle) (he : s.EdgesOk) (i : ShelfIx) :
    s.outRank i = (s.shelf i).rankWith s.effRank :=
  calc s.outRank i = s.outRankFuel 25 i := outRankFuel_enough hc he 24 i (reach_ncard_le s i)
    _ = (s.shelf i).rankWith s.effRank := rfl

/-! ### The effective rank -/

/-- R55: the override rank comes first. -/
theorem effRank_override {s : State} {r : RefIx} {k : Rank} (ho : (s.ref r).cfg.overrideRank = some k) :
    s.effRank r = k := by
  rw [effRank_eq]
  unfold Reference.rankWith
  rw [ho]

/-- R55: a FIXED reference. -/
theorem effRank_fixed {s : State} {r : RefIx} (ho : (s.ref r).cfg.overrideRank = none)
    (hk : (s.ref r).cfg.kind = .fixed) : s.effRank r = (s.ref r).cfg.fixedRank := by
  rw [effRank_eq]
  unfold Reference.rankWith
  rw [ho, hk]

/-- R55: a DERIVED reference has the outgoing rank of its source shelf, or 15 with none. -/
theorem effRank_derived {s : State} {r : RefIx} (ho : (s.ref r).cfg.overrideRank = none)
    (hk : (s.ref r).cfg.kind = .derived) : s.effRank r = ((s.ref r).cfg.source.map s.outRank).getD 15 := by
  rw [effRank_eq]
  unfold Reference.rankWith
  rw [ho, hk]
  cases (s.ref r).cfg.source <;> rfl

/-- Settles O18: the effective rank by R55's conditions, the outgoing rank by `outRank_eq` and the shelf's state. -/
theorem effectiveAndOutgoingRanks : Obligations.EffectiveAndOutgoingRanks := by
  refine fun s => ⟨fun r => ⟨fun k => effRank_override, fun ho hk => effRank_announced hk ho, effRank_fixed,
    fun t ho hk hsrc => ?_, fun ho hk hsrc => ?_⟩, fun hc he i => ?_⟩
  · rw [effRank_derived ho hk, hsrc]; rfl
  · rw [effRank_derived ho hk, hsrc]; rfl
  · rw [outRank_eq hc he]
    unfold Shelf.rankWith
    cases (s.shelf i).state with
    | holdover g n => cases g <;> rfl
    | _ => rfl

end Sys2Proof.Machine
end

section
/-! One entry of a Quality Announcement: R49 to R51, with the in-translation of R43. -/

namespace Sys2Proof.Machine

/-! ### What an entry names -/

/-- An index is read from an octet exactly where the octet carries it. -/
theorem readIx_eq_some_iff {n : Nat} (hn : n ≤ 256) {b : Byte} {r : Fin n} :
    readIx n b = some r ↔ b = indexOctet r := by
  refine ⟨fun h => ?_, fun h => h ▸ readIx_indexOctet hn r⟩
  unfold readIx at h
  split at h
  · next hb =>
    obtain rfl := Option.some.inj h
    exact BitVec.eq_of_toNat_eq (toNat_ofNat_fin hn ⟨b.toNat, hb⟩).symm
  · cases h

/-- The dialect number of an entry: 1 or 2 (R49, test 1). -/
theorem QaEntry.dialect?_eq_some_iff {e : QaEntry} {d : Dialect} :
    e.dialect? = some d ↔ e.dialect = if d = .one then 1 else 2 := by
  unfold QaEntry.dialect?
  constructor
  · intro h
    split at h
    · next h1 => obtain rfl := Option.some.inj h; exact h1
    · split at h
      · next h2 => obtain rfl := Option.some.inj h; exact h2
      · cases h
  · intro h
    rw [h]
    cases d <;> rfl

/-- The entry names, in dialect `d`, the enabled ANNOUNCED reference `r` that `src` announces: R49, tests 1 to 4. -/
def QaEntry.Names (e : QaEntry) (s : State) (src : Byte) (r : RefIx) (d : Dialect) : Prop :=
  e.ref = indexOctet r ∧ e.dialect = (if d = .one then 1 else 2) ∧ (s.ref r).cfg.kind = .announced
    ∧ (s.ref r).rt.state ≠ .disabled ∧ (s.ref r).cfg.announcer = src ∧ src ≠ 0

/-! ### What is made of it -/

section
variable {s : State} {src : Byte} {e : QaEntry} {r : RefIx} {d : Dialect}

/-- An entry past the first four tests of R49. -/
theorem acceptEntry_names (h : e.Names s src r d) : s.acceptEntry src e =
    if e.active then (s.inTranslate d e.code).map fun k =>
      (r, { received := k, source := .announced, timer := some (secTicks s.globals.announceTimeout) })
    else some (r, { received := Rank.unusable, source := .withdrawn, timer := none }) := by
  obtain ⟨href, hdialect, hkind, hon, rfl, hsrc⟩ := h
  unfold State.acceptEntry
  rw [(readIx_eq_some_iff (by decide)).mpr href, QaEntry.dialect?_eq_some_iff.mpr hdialect]
  dsimp only
  rw [if_pos ⟨hkind, hon, hsrc, rfl⟩]
  cases s.inTranslate d e.code <;> rfl

/-- An entry that one of the first four tests of R49 refuses. -/
theorem acceptEntry_names_none (h : ∀ r d, ¬e.Names s src r d) : s.acceptEntry src e = none := by
  unfold State.acceptEntry
  split
  · next r d hr hd =>
    refine if_neg fun ⟨hkind, hon, hsrc, hannouncer⟩ => h r d ?_
    exact ⟨(readIx_eq_some_iff (by decide)).mp hr, QaEntry.dialect?_eq_some_iff.mp hd, hkind, hon, hannouncer,
      hannouncer ▸ hsrc⟩
  · rfl

theorem inTranslate_valid {c : Code} (h : (s.table d).inTable[c].valid = true) :
    s.inTranslate d c = some (s.table d).inTable[c].rank := if_pos h

theorem inTranslate_invalid {c : Code} (h : (s.table d).inTable[c].valid = false) : s.inTranslate d c = none :=
  if_neg (by rw [h]; exact Bool.false_ne_true)

theorem takeEntry_accepted {q : Quality} (h : s.acceptEntry src e = some (r, q)) :
    State.takeEntry src s e = s.setRef r { s.ref r with qt := q } := by
  unfold State.takeEntry
  rw [h]

theorem takeEntry_refused (h : s.acceptEntry src e = none) :
    State.takeEntry src s e = s.updCounters Counters.incEntryRef := by
  unfold State.takeEntry
  rw [h]

end

/-- Settles O19, by what `acceptEntry` makes of an entry that names a reference and of one that names none. -/
theorem qaEntryIsTakenOrRefused : Obligations.QaEntryIsTakenOrRefused := by
  intro s src e
  refine ⟨fun r d hn ha hv => takeEntry_accepted ?_, fun r d hn ha => takeEntry_accepted ?_,
    fun hrefused => takeEntry_refused ?_⟩
  · rw [acceptEntry_names hn, if_pos ha, inTranslate_valid hv]
    rfl
  · rw [acceptEntry_names hn, ha]
    rfl
  · by_cases hn : ∃ r d, e.Names s src r d
    · obtain ⟨r, d, hn⟩ := hn
      obtain ⟨ha, hv⟩ := hrefused r d hn
      rw [acceptEntry_names hn, if_pos ha, inTranslate_invalid hv]
      rfl
    · exact acceptEntry_names_none fun r d h => hn ⟨r, d, h⟩

end Sys2Proof.Machine
end

section
/-! The octets of WR-XLATE and its event: R45, R46, R162. -/

namespace Sys2Proof.Machine

/-! ### A run of octets read and built -/

/-- Octets that carry values are read as those values. -/
theorem readAll_map {α : Type} {f : Byte → Option α} {g : α → Byte} (h : ∀ x, f (g x) = some x) (l : List α) :
    readAll f (l.map g) = some l := by
  induction l with
  | nil => rfl
  | cons x l ih =>
    rw [List.map_cons, readAll, h x, ih]
    rfl

/-- A run with an octet that carries no value is not read. -/
theorem readAll_none {α : Type} {f : Byte → Option α} {b : Byte} (h : f b = none) : ∀ {l : List Byte}, b ∈ l →
    readAll f l = none
  | c :: l, hb => by
    rw [readAll]
    rcases List.mem_cons.mp hb with rfl | hb
    · rw [h]
      rfl
    · rw [readAll_none h hb]
      cases f c <;> rfl

theorem toHalf_toList {α : Type} (v : Vector α 16) : toHalf v.toList = some v := by
  unfold toHalf
  rw [dif_pos v.length_toList]
  simp [Vector.toList]

/-! ### A translation table read and built -/

theorem and_7F_toNat (b : Byte) : (b &&& 0x7F).toNat = b.toNat % 128 := by
  rw [BitVec.toNat_and]
  exact Nat.and_two_pow_sub_one_eq_mod b.toNat 7

theorem readInEntry_octet (e : InEntry) : readInEntry e.octet = some e := by
  obtain ⟨valid, rank⟩ := e
  have hoctet : (InEntry.octet ⟨valid, rank⟩).toNat = 128 * valid.toNat + rank.val := InEntry.octet_toNat _
  have hrank := rank.isLt
  have hix : (InEntry.octet ⟨valid, rank⟩ &&& 0x7F) = indexOctet rank := by
    apply BitVec.eq_of_toNat_eq
    rw [and_7F_toNat, hoctet, indexOctet, toNat_ofNat_fin (by decide)]
    omega
  have hmsb : (InEntry.octet ⟨valid, rank⟩).msb = valid := by
    rw [BitVec.msb_eq_decide, hoctet]
    cases valid with
    | true => simp
    | false => simpa using by omega
  rw [readInEntry, hix, readIx_indexOctet (by decide), hmsb]
  rfl

theorem readDialect_octet (d : Dialect) : readDialect d.octet = some d := by cases d <;> rfl

theorem readDialect_none {b : Byte} : b ≠ 1 ∧ b ≠ 2 → readDialect b = none
  | ⟨h1, h2⟩ => (if_neg h1).trans (if_neg h2)

/-- R45: a table is read back from the octets that report it. -/
theorem readTable_octets (x : XlateTable) : readTable
    (x.inTable.toList.map InEntry.octet ++ x.outTable.toList.map fun c => BitVec.ofNat 8 c.val) = some x := by
  have hlen : (x.inTable.toList.map InEntry.octet).length = 16 := by simp
  have hcode : ∀ c : Code, readIx 16 (BitVec.ofNat 8 c.val) = some c := readIx_indexOctet (by decide)
  unfold readTable
  rw [List.take_left' hlen, List.drop_left' hlen, readAll_map readInEntry_octet, readAll_map hcode]
  simp only [Option.bind_eq_bind, Option.bind_some, toHalf_toList]
  rfl

/-- R45: a rank or an out-code above 15 is refused, whatever the valid flag of its in-entry. -/
theorem readTable_none {ins outs : List Byte} (hins : ins.length = 16)
    (h : (∃ b ∈ ins, 15 < (b &&& 0x7F).toNat) ∨ ∃ b ∈ outs, 15 < b.toNat) : readTable (ins ++ outs) = none := by
  unfold readTable
  rw [List.take_left' hins, List.drop_left' hins]
  rcases h with ⟨b, hb, hbig⟩ | ⟨b, hb, hbig⟩
  · have hread : readInEntry b = none := by rw [readInEntry, readIx_none (by omega)]; rfl
    rw [readAll_none hread hb]
    rfl
  · rw [readAll_none (readIx_none (by omega)) hb]
    cases readAll readInEntry ins <;> rfl

@[simp] theorem tableReport_length (d : Dialect) (x : XlateTable) : (tableReport d x).length = 33 := by
  simp [tableReport]

/-! ### The request's own tests -/

@[simp] theorem ok_state (s : State) : (Answer.ok s).state = s := rfl

theorem run_wrXlate : Request.wrXlate.run = reqWrXlate := rfl

theorem reqWrXlate_tableReport (d : Dialect) (x : XlateTable) (s : State) :
    reqWrXlate (tableReport d x) s = .ok (s.setTable d x).compareReports := by
  unfold reqWrXlate tableReport
  dsimp only
  rw [if_pos (by simp), readDialect_octet, readTable_octets]

theorem reqWrXlate_refused {b : Byte} {l : List Byte} (hl : l.length = 32)
    (h : readDialect b = none ∨ readTable l = none) (s : State) : reqWrXlate (b :: l) s = .refuse .range s := by
  unfold reqWrXlate
  dsimp only
  rw [if_pos hl]
  rcases h with h | h
  · rw [h]
  · rw [h]
    cases readDialect b <;> rfl

/-! ### A table replaced -/

section
variable (s : State) (d : Dialect) (x : XlateTable)

@[simp] theorem setTable_table_self : (s.setTable d x).table d = x := by cases d <;> rfl

theorem setTable_table_of_ne {d' : Dialect} (h : d' ≠ d) : (s.setTable d x).table d' = s.table d' := by
  cases d with
  | one =>
    cases d' with
    | one => exact absurd rfl h
    | two => rfl
  | two =>
    cases d' with
    | one => rfl
    | two => exact absurd rfl h

theorem setTable_sameTables : SameTables s (s.setTable d x) := by cases d <;> exact ⟨rfl, rfl⟩

@[simp] theorem setTable_ring : (s.setTable d x).ring = s.ring := by cases d <;> rfl

@[simp] theorem setTable_drive : (s.setTable d x).drive = s.drive := by cases d <;> rfl

theorem setTable_pushInsert (e : InsertEntry) :
    (s.pushInsert e).setTable d x = (s.setTable d x).pushInsert e := by cases d <;> rfl

end

/-- Beside the outgoing code, a report reads the tables of records alone: R161. -/
theorem SameTables.report {s t : State} (h : SameTables s t) (i : ShelfIx) : t.report i =
    { s.report i with code := (t.table (s.shelf i).cfg.dialect).outTable[s.outRank i] } := by
  have hroot : t.root i = s.root i := h.rootWithin 24 i
  unfold State.report State.outCode
  simp only [h.shelf, h.outRank, h.squelch, hroot]

/-! ### What a comparison leaves of a shelf -/

/-- An offer changes the last-reported records alone. -/
theorem offerSq_shelf (s : State) (i j : ShelfIx) :
    (s.offerSq j).shelf i = { s.shelf i with lastReport := ((s.offerSq j).shelf i).lastReport } := by
  by_cases hij : i = j
  · subst hij
    unfold State.offerSq State.offerSqOf
    split
    · rfl
    · dsimp only
      split
      · rw [updShelf_shelf_self]; rfl
      · split
        · rw [updShelf_shelf_self]; rfl
        · rfl
  · rw [offerSq_shelf_of_ne s hij]

theorem compareReports_shelf (s : State) (i : ShelfIx) :
    s.compareReports.shelf i = { s.shelf i with lastReport := (s.compareReports.shelf i).lastReport } := by
  refine compareReports_induct (P := fun t => t.shelf i = { s.shelf i with lastReport := (t.shelf i).lastReport })
    (fun t j ht => ?_) s rfl
  rw [offerSq_shelf t i j, ht]

/-! ### The reply in its reserved entry -/

/-- The reply leaves every entry that is not reserved in its place. -/
theorem fillReserved_getElem?_of_ne (f : Frame) {e : InsertEntry} (he : e ≠ .reserved) :
    ∀ {q : List InsertEntry} {k : Nat}, q[k]? = some e → (fillReserved f q)[k]? = some e
  | a :: q, 0, h => by
    obtain rfl : a = e := by simpa using h
    cases a with
    | reserved => exact absurd rfl he
    | rep g => rfl
    | sq j g => rfl
    | sn g => rfl
  | a :: q, k + 1, h => by
    have hk : q[k]? = some e := by simpa using h
    have ih := fillReserved_getElem?_of_ne f he hk
    cases a with
    | reserved => exact hk
    | rep g => exact ih
    | sq j g => exact ih
    | sn g => exact ih

/-- An entry reserved at the tail, offers behind it, and the reply in its place: the queue only grows. -/
theorem QueueGrows.replied (f : Frame) {q q' : List InsertEntry} (hq : InsertEntry.reserved ∉ q)
    (h : QueueGrows (q ++ [.reserved]) q') : QueueGrows q (fillReserved f q') := by
  intro k e hk
  have hne : e ≠ .reserved := fun he => hq (he ▸ List.mem_of_getElem? hk)
  obtain ⟨e', hk', hplace⟩ := (QueueGrows.append q [.reserved]).trans h k e hk
  refine ⟨e', fillReserved_getElem?_of_ne f ?_ hk', hplace⟩
  rintro rfl
  rcases hplace with he | ⟨i, g, g', _, he⟩
  · exact hne he.symm
  · cases he

/-- A request whose execution keeps the state behind its reserved entry keeps it with the reply in place. -/
theorem placed_kept {s : State} {a : Answer} (hq : InsertEntry.reserved ∉ s.ring.insertQ)
    (h : Kept (s.pushInsert .reserved) a.state) (src : Byte) (payload : List Byte) :
    Kept s (a.placed src payload) where
  refs := h.refs
  dialect1 := h.dialect1
  dialect2 := h.dialect2
  globals := h.globals
  drive := h.drive
  refreshTimer := h.refreshTimer
  role := h.role
  resetn := h.resetn
  pending := h.pending
  ring := by
    obtain ⟨n, hn⟩ := h.ring
    exact ⟨n, congrArg (fun g : Ring => { g with insertQ := (a.placed src payload).ring.insertQ }) hn⟩
  queue := QueueGrows.replied _ hq h.queue
  cfg := h.cfg
  list := h.list
  command := h.command

/-- The reply in place, with the header in force before the request: R30, R33. -/
theorem placed_repliedWith {s u : State} {src tag : Byte} {args : List Byte} (q : Request) (h : s.readyFor src)
    (hu : u.ring = s.ring) {a : Answer} (hk : Kept (u.pushInsert .reserved) a.state) :
    RepliedWith s (a.placed src (q.code :: tag :: args)) (s.replyFrame src q.code tag a.status.octet a.results) := by
  have hqueue : QueueGrows (s.ring.insertQ ++ [.reserved]) a.state.ring.insertQ := hu ▸ hk.queue
  have hheader : ∀ p, (u.pushInsert .reserved).makeFrame src typeREP p = s.makeFrame src typeREP p := fun p => by
    simp [State.makeFrame, State.pushInsert, State.updRing, hu]
  refine (placed_replied h a _ hqueue).trans ?_
  rw [hk.makeFrame, hheader]
  rfl

theorem placed_sameReports (a : Answer) (src : Byte) (payload : List Byte) :
    SameReports a.state (a.placed src payload) :=
  ⟨rfl, fun d => by cases d <;> rfl, fun _ => rfl, fun _ => rfl⟩

/-! ### The request -/

section
variable (s : State) (d : Dialect) (x : XlateTable)

/-- The part after a taken WR-XLATE, before its reply is placed in the entry reserved for it. -/
def State.xlateWritten : State := ((s.setTable d x).pushInsert .reserved).compareReports

theorem xlateWritten_kept : Kept ((s.setTable d x).pushInsert .reserved) (s.xlateWritten d x) :=
  compareReports_kept _

/-- Before the comparison every record is as it was. -/
theorem setTable_reserved_sameTables : SameTables s ((s.setTable d x).pushInsert .reserved) := by
  cases d <;> exact ⟨rfl, rfl⟩

theorem xlateWritten_shelf (i : ShelfIx) : (s.xlateWritten d x).shelf i =
    { s.shelf i with lastReport := ((s.xlateWritten d x).shelf i).lastReport } := by
  rw [← (setTable_reserved_sameTables s d x).shelf i]
  exact compareReports_shelf _ i

/-- R46: the written table gives the outgoing code at once. -/
theorem xlateWritten_report (i : ShelfIx) : (s.xlateWritten d x).report i =
    { s.report i with code := ((s.xlateWritten d x).table (s.shelf i).cfg.dialect).outTable[s.outRank i] } := by
  have hs : SameReports ((s.setTable d x).pushInsert .reserved) (s.xlateWritten d x) := compareReports_sameReports _
  rw [hs.report, hs.tables]
  exact (setTable_reserved_sameTables s d x).report i

/-- R162: with room for 24 reports behind the reply the comparison drops no offer. -/
theorem xlateWritten_compared (hd : s.drive = .driving) (hroom : s.ring.insertQ.length + 25 ≤ 32) :
    Compared s (s.xlateWritten d x) := by
  have hrecords : SameRecords s ((s.setTable d x).pushInsert .reserved) := fun i => by
    rw [(setTable_reserved_sameTables s d x).shelf i]
  have hdrive : ((s.setTable d x).pushInsert .reserved).drive = .driving := (setTable_drive s d x).trans hd
  have hlen : ((s.setTable d x).pushInsert .reserved).ring.insertQ.length = s.ring.insertQ.length + 1 := by
    simp [State.pushInsert]
  exact hrecords.compared (compareReports_compared _ hdrive (.inr (by omega)))

variable {s}

/-- R45: what a ready part does with the octets that report a table. -/
theorem exec_wrXlate_tableReport {src : Byte} (tag : Byte) (h : s.readyFor src) (ha : s.admits src) :
    exec (.wrXlate src tag (tableReport d x)) s =
      .next ((Answer.ok (s.xlateWritten d x)).placed src (Request.wrXlate.code :: tag :: tableReport d x)) := by
  rw [exec_taken .wrXlate rfl h (.inr ha) (by simp), run_wrXlate, reqWrXlate_tableReport, setTable_pushInsert]
  rfl

end

/-- Settles O20: the taken write is a table replaced and a comparison, the refused one fails in reading its octets. -/
theorem wrXlateReplacesOneTable : Obligations.WrXlateReplacesOneTable := by
  intro s src tag h ha
  refine ⟨fun d x => ⟨_, exec_wrXlate_tableReport d x tag h ha, ?_⟩, fun b ins outs hins houts hbad => ?_⟩
  · have ⟨_, _, _, hreserved, _⟩ := h
    have hwritten : Kept ((s.setTable d x).pushInsert .reserved) (Answer.ok (s.xlateWritten d x)).state := by
      rw [ok_state]
      exact xlateWritten_kept s d x
    have hkept := placed_kept (by rwa [setTable_ring]) hwritten src
      (Request.wrXlate.code :: tag :: tableReport d x)
    have hrecords := placed_sameTables (.ok (s.xlateWritten d x)) src (Request.wrXlate.code :: tag :: tableReport d x)
    have hreports := placed_sameReports (.ok (s.xlateWritten d x)) src (Request.wrXlate.code :: tag :: tableReport d x)
    refine ⟨?_, fun d' hd' => ?_, hkept, fun i => ?_, fun i => ?_, fun hd hroom => ?_,
      placed_repliedWith .wrXlate h (setTable_ring s d x) hwritten⟩
    · rw [hkept.table, setTable_table_self]
    · rw [hkept.table, setTable_table_of_ne s d x hd']
    · rw [hrecords.shelf, ok_state]
      exact xlateWritten_shelf s d x i
    · rw [hreports.report, hreports.tables, ok_state]
      exact xlateWritten_report s d x i
    · refine placed_compared ?_ src _
      rw [ok_state]
      exact xlateWritten_compared s d x hd hroom
  · refine exec_refused .wrXlate rfl h (.inr ha) (by simp [hins, houts]) .range ?_
    rw [run_wrXlate]
    exact reqWrXlate_refused (by simp [hins, houts]) (hbad.imp readDialect_none (readTable_none hins)) _

end Sys2Proof.Machine
end

section
/-! The octets of a reference configuration: which octet each field is read from, which octets carry no value, and what
the magnitudes become: R60, R62. -/

namespace Sys2Proof.Machine

/-! ### Which octet carries which value -/

theorem readKind_eq_some_iff {b : Byte} {k : Kind} : readKind b = some k ↔ b = k.octet := by
  refine ⟨fun h => ?_, fun h => h ▸ by cases k <;> rfl⟩
  unfold readKind at h
  split_ifs at h with h0 h1 h2 <;> obtain rfl := Option.some.inj h
  · exact h0
  · exact h1
  · exact h2

theorem readGate_eq_some_iff {b : Byte} {g : Gate} : readGate b = some g ↔ b = g.octet := by
  refine ⟨fun h => ?_, fun h => h ▸ by cases g <;> rfl⟩
  unfold readGate at h
  split_ifs at h with h0 h1 h2 <;> obtain rfl := Option.some.inj h
  · exact h0
  · exact h1
  · exact h2

theorem readAnnouncer_eq_some_iff {b a : Byte} : readAnnouncer b = some a ↔ b = a ∧ a ≠ Byte.all := by
  unfold readAnnouncer
  split_ifs with h
  · refine iff_of_false (by simp) ?_
    rintro ⟨rfl, hne⟩
    exact hne h
  · rw [Option.some_inj, iff_self_and]
    rintro rfl
    exact h

/-- No index below 255 has the octet FFh. -/
theorem indexOctet_ne_all {n : Nat} (hn : n ≤ 255) (i : Fin n) : indexOctet i ≠ Byte.all := fun h => by
  have hi : (indexOctet i).toNat = i.val := toNat_ofNat_fin (by omega) i
  have hlt := i.isLt
  rw [h, show BitVec.toNat Byte.all = 255 from rfl] at hi
  omega

@[simp] theorem ixOctet_some {n : Nat} (i : Fin n) : ixOctet (some i) = indexOctet i := rfl

@[simp] theorem ixOctet_none {n : Nat} : ixOctet (none : Option (Fin n)) = Byte.all := rfl

theorem readOptIx_eq_some_iff {n : Nat} (hn : n ≤ 255) {b : Byte} {o : Option (Fin n)} :
    readOptIx n b = some o ↔ b = ixOctet o := by
  unfold readOptIx
  by_cases hb : b = Byte.all
  · rw [if_pos hb, hb]
    cases o with
    | none => simp
    | some i => simpa using (indexOctet_ne_all hn i).symm
  · rw [if_neg hb]
    cases o with
    | none => simpa using hb
    | some i => simpa using readIx_eq_some_iff (by omega)

theorem readOrigin_eq_some_iff {sh port : Byte} {o : Option OriginLine} : readOrigin sh port = some o ↔
    sh = ixOctet (o.map OriginLine.shelf) ∧ port = ixOctet (o.map OriginLine.port) := by
  unfold readOrigin
  by_cases hall : sh = Byte.all ∧ port = Byte.all
  · obtain ⟨rfl, rfl⟩ := hall
    cases o with
    | none => simp
    | some line => simpa using fun h => absurd h.symm (indexOctet_ne_all (by decide) line.shelf)
  · rw [if_neg hall]
    cases o with
    | none =>
      refine iff_of_false (fun h => ?_) (by simpa using hall)
      split at h <;> cases h
    | some line =>
      obtain ⟨i, p⟩ := line
      simp only [Option.map_some, ixOctet_some, ← readIx_eq_some_iff (n := 24) (by decide),
        ← readIx_eq_some_iff (n := 64) (by decide)]
      cases readIx 24 sh <;> cases readIx 64 port <;> simp

/-! ### Which octets carry a value -/

theorem readIx_isSome {n : Nat} {b : Byte} : (readIx n b).isSome = true ↔ b.toNat < n := by
  unfold readIx
  split_ifs with h <;> simpa using h

theorem readKind_isSome {b : Byte} : (readKind b).isSome = true ↔ b.toNat ≤ 2 := by
  unfold readKind
  split_ifs with h0 h1 h2
  · simp [h0]
  · simp [h1]
  · simp [h2]
  · simp only [Option.isSome_none, Bool.false_eq_true, false_iff]
    bv_omega

theorem readGate_isSome {b : Byte} : (readGate b).isSome = true ↔ b.toNat ≤ 2 := by
  unfold readGate
  split_ifs with h0 h1 h2
  · simp [h0]
  · simp [h1]
  · simp [h2]
  · simp only [Option.isSome_none, Bool.false_eq_true, false_iff]
    bv_omega

/-- The octet FFh, by its number. -/
theorem eq_all_iff {b : Byte} : b = Byte.all ↔ b.toNat = 255 := BitVec.toNat_inj.symm

theorem readOptIx_isSome {n : Nat} {b : Byte} :
    (readOptIx n b).isSome = true ↔ b.toNat < n ∨ b.toNat = 255 := by
  unfold readOptIx
  split_ifs with h
  · simp [eq_all_iff.mp h]
  · rw [Option.isSome_map, readIx_isSome, or_iff_left (mt eq_all_iff.mpr h)]

theorem readAnnouncer_isSome {b : Byte} : (readAnnouncer b).isSome = true ↔ b.toNat ≠ 255 := by
  rw [ne_eq, ← eq_all_iff]
  unfold readAnnouncer
  split_ifs with h <;> simpa using h

theorem readOrigin_isSome {sh port : Byte} : (readOrigin sh port).isSome = true ↔
    sh.toNat < 24 ∧ port.toNat < 64 ∨ sh.toNat = 255 ∧ port.toNat = 255 := by
  rw [← eq_all_iff, ← eq_all_iff, ← readIx_isSome, ← readIx_isSome]
  unfold readOrigin
  by_cases hall : sh = Byte.all ∧ port = Byte.all
  · simp [hall]
  · rw [if_neg hall, or_iff_left hall]
    cases readIx 24 sh <;> cases readIx 64 port <;> simp

/-! ### The whole configuration -/

/-- R62: the magnitudes that a write makes of the numbers `a`, `j`, `h`, `ho` and `rb`, and its mark of a clamping. -/
structure RefWrite.Clamps (w : RefWrite) (a j h ho rb : Nat) : Prop where
  accept : w.cfg.accept = clampNat 1 1000000 a
  reject : w.cfg.reject = clampNat 1 1000000 j
  hit : w.cfg.hit = clampNat 0 1000000 h
  holdOff : w.cfg.holdOff = clampNat 0 1000 ho
  restoreBase : w.cfg.restoreBase = clampNat 0 1800 rb
  clamped : w.clamped = (w.cfg.accept != a || w.cfg.reject != j || w.cfg.hit != h || w.cfg.holdOff != ho
    || w.cfg.restoreBase != rb)

section
variable {k rc g d a2 a1 a0 j2 j1 j0 h2 h1 h0 o1 o0 b1 b0 ov fx sr an os op : Byte}

/-- R60, R62: the 23 octets are read as `w` exactly where each carries its field of `w`. -/
theorem readRefConfig_eq_some_iff {w : RefWrite} :
    readRefConfig [k, rc, g, d, a2, a1, a0, j2, j1, j0, h2, h1, h0, o1, o0, b1, b0, ov, fx, sr, an, os, op] = some w ↔
      k = w.cfg.kind.octet ∧ rc = indexOctet w.cfg.rate ∧ g = w.cfg.gate.octet ∧ d = indexOctet w.cfg.depth
      ∧ ov = ixOctet w.cfg.overrideRank ∧ fx = indexOctet w.cfg.fixedRank ∧ sr = ixOctet w.cfg.source
      ∧ (an = w.cfg.announcer ∧ w.cfg.announcer ≠ Byte.all)
      ∧ (os = ixOctet (w.cfg.origin.map OriginLine.shelf) ∧ op = ixOctet (w.cfg.origin.map OriginLine.port))
      ∧ w.Clamps (fromOctets [a2, a1, a0]) (fromOctets [j2, j1, j0]) (fromOctets [h2, h1, h0])
          (fromOctets [o1, o0]) (fromOctets [b1, b0]) := by
  rw [← readKind_eq_some_iff, ← readIx_eq_some_iff (by decide), ← readGate_eq_some_iff,
    ← readIx_eq_some_iff (by decide), ← readOptIx_eq_some_iff (by decide), ← readIx_eq_some_iff (by decide),
    ← readOptIx_eq_some_iff (by decide), ← readAnnouncer_eq_some_iff, ← readOrigin_eq_some_iff]
  unfold readRefConfig
  simp only [Option.bind_eq_bind, Option.bind_eq_some_iff, Option.pure_def, Option.some.injEq]
  constructor
  · rintro ⟨kind, hk, rate, hrc, gate, hg, depth, hd, override, hov, fixed, hfx, source, hsr, announcer, han, origin,
      hor, rfl⟩
    exact ⟨hk, hrc, hg, hd, hov, hfx, hsr, han, hor, rfl, rfl, rfl, rfl, rfl, rfl⟩
  · obtain ⟨⟨_, _, _, _, _, _, _, _, _, _, _, _, _, _⟩, _⟩ := w
    rintro ⟨hk, hrc, hg, hd, hov, hfx, hsr, han, hor, rfl, rfl, rfl, rfl, rfl, hclamped⟩
    exact ⟨_, hk, _, hrc, _, hg, _, hd, _, hov, _, hfx, _, hsr, _, han, _, hor,
      congrArg (RefWrite.mk _) hclamped.symm⟩

/-- R62: the 23 octets are refused only for a field of which an octet carries no value. -/
theorem readRefConfig_isSome :
    (readRefConfig [k, rc, g, d, a2, a1, a0, j2, j1, j0, h2, h1, h0, o1, o0, b1, b0, ov, fx, sr, an, os, op]).isSome
        = true ↔
      (readKind k).isSome = true ∧ (readIx 8 rc).isSome = true ∧ (readGate g).isSome = true
      ∧ (readIx 8 d).isSome = true ∧ (readOptIx 16 ov).isSome = true ∧ (readIx 16 fx).isSome = true
      ∧ (readOptIx 24 sr).isSome = true ∧ (readAnnouncer an).isSome = true ∧ (readOrigin os op).isSome = true := by
  unfold readRefConfig
  simp only [Option.bind_eq_bind, Option.isSome_iff_exists, Option.bind_eq_some_iff, Option.pure_def,
    Option.some.injEq]
  constructor
  · rintro ⟨w, kind, hk, rate, hrc, gate, hg, depth, hd, override, hov, fixed, hfx, source, hsr, announcer, han, origin,
      hor, -⟩
    exact ⟨⟨_, hk⟩, ⟨_, hrc⟩, ⟨_, hg⟩, ⟨_, hd⟩, ⟨_, hov⟩, ⟨_, hfx⟩, ⟨_, hsr⟩, ⟨_, han⟩, ⟨_, hor⟩⟩
  · rintro ⟨⟨_, hk⟩, ⟨_, hrc⟩, ⟨_, hg⟩, ⟨_, hd⟩, ⟨_, hov⟩, ⟨_, hfx⟩, ⟨_, hsr⟩, ⟨_, han⟩, ⟨_, hor⟩⟩
    exact ⟨_, _, hk, _, hrc, _, hg, _, hd, _, hov, _, hfx, _, hsr, _, han, _, hor, rfl⟩

end

/-! ### The obligation -/

theorem clampNat_zero (hi v : Nat) : clampNat 0 hi v = min hi v := Nat.zero_max _

/-- R62: a write is marked clamped exactly where some magnitude was outside its range. -/
theorem RefWrite.Clamps.clamped_iff {w : RefWrite} {a j h ho rb : Nat} (hw : w.Clamps a j h ho rb) : w.clamped = true ↔
    a = 0 ∨ 1000000 < a ∨ j = 0 ∨ 1000000 < j ∨ 1000000 < h ∨ 1000 < ho ∨ 1800 < rb := by
  obtain ⟨ha, hj, hh, hho, hrb, hc⟩ := hw
  rw [hc, ha, hj, hh, hho, hrb]
  simp only [clampNat, Bool.or_eq_true, bne_iff_ne]
  omega

theorem fromOctets_two (a b : Byte) : fromOctets [a, b] = a.toNat * 256 + b.toNat := by simp [fromOctets]

theorem fromOctets_three (a b c : Byte) : fromOctets [a, b, c] = a.toNat * 65536 + b.toNat * 256 + c.toNat := by
  simp only [fromOctets, List.foldl]
  omega

/-- Settles O17: which octets are read, field by field, and the fields of what is read. -/
theorem refConfigurationOctets : Obligations.RefConfigurationOctets := by
  intro k rc g d a2 a1 a0 j2 j1 j0 h2 h1 h0 o1 o0 b1 b0 ov fx sr an os op l A J H hold base
  refine ⟨?_, fun w hw => ?_⟩
  · rw [readRefConfig_isSome, readKind_isSome, readIx_isSome, readGate_isSome, readIx_isSome, readOptIx_isSome,
      readIx_isSome, readOptIx_isSome, readAnnouncer_isSome, readOrigin_isSome]
    omega
  · obtain ⟨hk, hrc, hg, hd, hov, hfx, hsr, ⟨han, -⟩, ⟨hos, hop⟩, hclamps⟩ := readRefConfig_eq_some_iff.mp hw
    rw [fromOctets_three, fromOctets_three, fromOctets_three, fromOctets_two, fromOctets_two] at hclamps
    refine ⟨hk ▸ Kind.octet_toNat _, ?_, hg ▸ Gate.octet_toNat _, ?_, hclamps.accept, hclamps.reject,
      hclamps.hit.trans (clampNat_zero _ _), hclamps.holdOff.trans (clampNat_zero _ _),
      hclamps.restoreBase.trans (clampNat_zero _ _), hclamps.clamped_iff, ?_, ?_, ?_, han.symm, ?_, ?_⟩
    · exact hrc ▸ (toNat_ofNat_fin (by decide) _).symm
    · exact hd ▸ (toNat_ofNat_fin (by decide) _).symm
    · exact hov ▸ (ixOctet_toNat (by decide) _).symm
    · exact hfx ▸ (toNat_ofNat_fin (by decide) _).symm
    · exact hsr ▸ (ixOctet_toNat (by decide) _).symm
    · rw [hos, ixOctet_toNat (by decide), Option.map_map]
      rfl
    · rw [hop, ixOctet_toNat (by decide), Option.map_map]
      rfl

end Sys2Proof.Machine
end

section
/-! Every record is read back from the octets that report it: spec/10. -/

namespace Sys2Proof.Machine

/-! ### A reference configuration -/

/-- A magnitude in its range is not clamped: R171. -/
theorem clampNat_eq_self {lo hi v : Nat} (hlo : lo ≤ v) (hhi : v ≤ hi) : clampNat lo hi v = v := by
  rw [clampNat, min_eq_right hhi, max_eq_right hlo]

/-- A configuration in its ranges is written with nothing clamped. -/
theorem RefConfig.InRange.clamps {c : RefConfig} (h : c.InRange) :
    RefWrite.Clamps { cfg := c, clamped := false } (fromOctets (Machine.octets 3 c.accept))
      (fromOctets (Machine.octets 3 c.reject)) (fromOctets (Machine.octets 3 c.hit))
      (fromOctets (Machine.octets 2 c.holdOff)) (fromOctets (Machine.octets 2 c.restoreBase)) := by
  obtain ⟨ha, hlt, hj, hh, hho, hrb, -⟩ := h
  rw [fromOctets_octets_of_lt (by omega), fromOctets_octets_of_lt (by omega), fromOctets_octets_of_lt (by omega),
    fromOctets_octets_of_lt (by omega), fromOctets_octets_of_lt (by omega)]
  exact ⟨(clampNat_eq_self ha (hlt.le.trans hj)).symm, (clampNat_eq_self (ha.trans hlt.le) hj).symm,
    (clampNat_eq_self (Nat.zero_le _) hh).symm, (clampNat_eq_self (Nat.zero_le _) hho).symm,
    (clampNat_eq_self (Nat.zero_le _) hrb).symm, by simp⟩

theorem readRefConfig_octets {c : RefConfig} (h : c.InRange) :
    readRefConfig c.octets = some { cfg := c, clamped := false } := by
  have ⟨_, _, _, _, _, _, hann⟩ := h
  exact readRefConfig_eq_some_iff.mpr
    ⟨rfl, rfl, rfl, rfl, rfl, rfl, rfl, ⟨rfl, hann⟩, ⟨rfl, rfl⟩, h.clamps⟩

/-! ### A shelf configuration -/

theorem readMode_octet (m : Mode) : readMode m.octet = some m := by cases m <;> rfl

theorem readWindow_octet (w : Window) : readWindow w.octet = some w := by cases w <;> rfl

/-- An index is read back from its octet, written out. -/
theorem readIx_ofNat {n : Nat} (hn : n ≤ 256) (i : Fin n) : readIx n (BitVec.ofNat 8 i.val) = some i :=
  readIx_indexOctet hn i

/-- A word of two octets is read back. -/
theorem ofNat_fromOctets_word (w : BitVec 16) : BitVec.ofNat 16 (fromOctets (octets 2 w.toNat)) = w := by
  rw [fromOctets_octets_of_lt w.isLt, BitVec.ofNat_toNat, BitVec.setWidth_eq]

theorem readShelfConfig_octets (c : ShelfConfig) : readShelfConfig c.octets = some c := by
  have hA := ofNat_fromOctets_word c.phaseA
  have hB := ofNat_fromOctets_word c.phaseB
  simp only [octets, List.nil_append, List.cons_append] at hA hB
  simp only [ShelfConfig.octets, octets, List.nil_append, List.cons_append, readShelfConfig, readMode_octet,
    readWindow_octet, readDialect_octet, readIx_ofNat (n := 15) (by decide), Option.bind_eq_bind, Option.bind_some,
    hA, hB]
  rfl

/-! ### A candidate list -/

/-- The second octet of an entry is laid out as an in-entry is: a flag in bit 7 and a number in bits 6 to 0. -/
theorem Candidate.octets_eq (c : Candidate) :
    c.octets = [indexOctet c.ref, InEntry.octet { valid := c.lockout, rank := c.prio }] := rfl

/-- The flag and the number of an octet laid out as an in-entry is. -/
theorem InEntry.octet_parts (e : InEntry) : readIx 16 (e.octet &&& 0x7F) = some e.rank ∧ e.octet.msb = e.valid := by
  have h := readInEntry_octet e
  rw [readInEntry, Option.map_eq_some_iff] at h
  obtain ⟨k, hk, he⟩ := h
  exact ⟨hk.trans (congrArg (some ∘ InEntry.rank) he), congrArg InEntry.valid he⟩

/-- R90: an entry is read back unless its priority is 0. -/
theorem readCandidates_flatMap {l : List Candidate} (h : ∀ c ∈ l, c.prio ≠ 0) :
    readCandidates (l.flatMap Candidate.octets) = some l := by
  induction l with
  | nil => rfl
  | cons c l ih =>
    have hc : c.prio ≠ 0 := h c List.mem_cons_self
    have htail := ih fun d hd => h d (List.mem_cons_of_mem c hd)
    obtain ⟨hprio, hlock⟩ := InEntry.octet_parts { valid := c.lockout, rank := c.prio }
    have hread : readPrio (InEntry.octet { valid := c.lockout, rank := c.prio }) = some c.prio := by
      rw [readPrio, hprio]
      exact if_neg hc
    simp only [List.flatMap_cons, Candidate.octets_eq, List.cons_append, List.nil_append, readCandidates, hread, hlock,
      htail, readIx_indexOctet (n := 32) (by decide), Option.bind_eq_bind, Option.bind_some]
    rfl

/-! ### Latches -/

/-- The bits of a number built from a list of bits, the first one lowest. -/
theorem testBit_foldr (l : List Bool) (k : Nat) :
    (l.foldr (fun (b : Bool) v => 2 * v + b.toNat) 0).testBit k = l.getD k false := by
  induction l generalizing k with
  | nil => simp
  | cons b l ih =>
    rw [List.foldr_cons]
    cases k with
    | zero => cases b <;> simp [Nat.testBit_zero]
    | succ k =>
      have hhalf : ∀ v, (2 * v + b.toNat) / 2 = v := fun v => by have := b.toNat_le; omega
      rw [Nat.testBit_succ, hhalf, ih, List.getD_cons_succ]

/-- The bits that an octet names. -/
theorem bitsOctet_getLsbD (l : List Bool) {k : Nat} (hk : k < 8) : (bitsOctet l).getLsbD k = l.getD k false := by
  rw [bitsOctet, BitVec.getLsbD_ofNat, testBit_foldr]
  simp [hk]

/-- R79: the latch octet of a reference is read back. -/
theorem readRefLatches_octet (l : RefLatches) : readRefLatches l.octet = some l := by
  have hlt : l.octet.toNat < 32 := by
    rw [RefLatches.octet_toNat]
    have h1 := l.los.toNat_le
    have h2 := l.freq.toNat_le
    have h3 := l.hit.toNat_le
    have h4 := l.timeout.toNat_le
    have h5 := l.fail.toNat_le
    omega
  rw [readRefLatches, if_pos hlt]
  simp only [RefLatches.octet, bitsOctet_getLsbD, Nat.reduceLT]
  rfl

/-- R100: the latch octet of a shelf, without the companion bit, is read back. -/
theorem readShelfLatches_octet (l : ShelfLatches) : readShelfLatches (l.octet false) = some l := by
  have hlt : (l.octet false).toNat < 16 := by
    rw [ShelfLatches.octet_toNat, Bool.toNat_false]
    have h1 := l.holdover.toNat_le
    have h2 := l.hard.toNat_le
    have h3 := l.loop.toNat_le
    have h4 := l.abandon.toNat_le
    omega
  rw [readShelfLatches, if_pos hlt]
  simp only [ShelfLatches.octet, bitsOctet_getLsbD, Nat.reduceLT]
  rfl

/-! ### The obligation -/

/-- Settles O53, record by record. -/
theorem recordsAreReadBack : Obligations.RecordsAreReadBack :=
  ⟨fun _ => readRefConfig_octets, readShelfConfig_octets, fun _ => readCandidates_flatMap,
    fun d x => ⟨readDialect_octet d, readTable_octets x⟩,
    fun l k => ⟨readRefLatches_octet l, readShelfLatches_octet k⟩⟩

end Sys2Proof.Machine
end

section
/-! The state machine of a reference under its verdict events: the columns Verdict GOOD and Verdict FAIL of R64. -/

namespace Sys2Proof.Machine

section
variable {cfg : RefConfig} {x : RefDynamic}

/-! ### Verdict GOOD -/

/-- R64, R68, R69: GOOD in STARTING or HOLDOFF activates the reference. -/
theorem RefDynamic.verdictGood_activates (h : x.state = .starting ∨ x.state = .holdoff) :
    x.verdictGood cfg = x.activate := by
  unfold RefDynamic.verdictGood
  rcases h with h | h <;> rw [h]

/-- R71: GOOD in FAILED activates the reference where the restore wait is 0. -/
theorem RefDynamic.verdictGood_failed_at_once (h : x.state = .failed)
    (hw : restoreSeconds cfg.restoreBase x.flap = 0) : x.verdictGood cfg = x.activate := by
  unfold RefDynamic.verdictGood
  rw [h]
  exact if_pos hw

/-- R71: GOOD in FAILED starts the restore wait. -/
theorem RefDynamic.verdictGood_failed_waits (h : x.state = .failed)
    (hw : 0 < restoreSeconds cfg.restoreBase x.flap) : x.verdictGood cfg =
      { x with state := .restoring, restoreTimer := some (secTicks (restoreSeconds cfg.restoreBase x.flap)) } := by
  unfold RefDynamic.verdictGood
  rw [h]
  exact if_neg hw.ne'

/-- R64: GOOD changes nothing in DISABLED, ACTIVE or RESTORING. -/
theorem RefDynamic.verdictGood_quiet (h : x.state = .disabled ∨ x.state = .active ∨ x.state = .restoring) :
    x.verdictGood cfg = x := by
  unfold RefDynamic.verdictGood
  rcases h with h | h | h <;> rw [h]

/-! ### Verdict FAIL -/

/-- R69: FAIL in ACTIVE fails the reference where the hold-off is 0. -/
theorem RefDynamic.verdictFail_active_at_once (h : x.state = .active) (hh : cfg.holdOff = 0) :
    x.verdictFail cfg = x.enterFailed := by
  unfold RefDynamic.verdictFail
  rw [h]
  exact if_pos hh

/-- R69: FAIL in ACTIVE starts the hold-off. -/
theorem RefDynamic.verdictFail_active_holds (h : x.state = .active) (hh : 0 < cfg.holdOff) :
    x.verdictFail cfg = { x with state := .holdoff, holdOffTimer := some (msTicks (cfg.holdOff * 10)) } := by
  unfold RefDynamic.verdictFail
  rw [h]
  exact if_neg hh.ne'

/-- R72: FAIL in RESTORING fails the reference and raises the flap level. -/
theorem RefDynamic.verdictFail_restoring (h : x.state = .restoring) :
    x.verdictFail cfg = { x.enterFailed with flap := flapUp x.flap } := by
  unfold RefDynamic.verdictFail
  rw [h]

/-- R64: FAIL changes nothing in DISABLED, STARTING, HOLDOFF or FAILED. -/
theorem RefDynamic.verdictFail_quiet
    (h : x.state = .disabled ∨ x.state = .starting ∨ x.state = .holdoff ∨ x.state = .failed) :
    x.verdictFail cfg = x := by
  unfold RefDynamic.verdictFail
  rcases h with h | h | h | h <;> rw [h]

/-! ### The event -/

/-- R64: no verdict event changes a DISABLED reference. -/
theorem RefDynamic.verdictEvent_disabled (h : x.state = .disabled) (before after : Verdict) :
    x.verdictEvent cfg before after = x := by
  cases before <;> cases after
  · rfl
  · exact verdictFail_quiet (.inl h)
  · exact verdictGood_quiet (.inl h)
  · rfl

end

/-- Settles O11, by the state in which the event finds the reference. -/
theorem verdictEventsMoveTheState : Obligations.VerdictEventsMoveTheState := by
  intro cfg x active failed wait
  refine ⟨fun v => RefDynamic.verdictEvent_same cfg v x, fun h => ?starting, fun h => ?active, fun h => ?failed,
    fun h => ?restoring, RefDynamic.verdictEvent_disabled⟩
  case starting =>
    refine ⟨RefDynamic.verdictGood_activates h, RefDynamic.verdictFail_quiet (.inr ?_)⟩
    exact h.elim .inl (.inr ∘ .inl)
  case active =>
    exact ⟨RefDynamic.verdictGood_quiet (.inr (.inl h)), RefDynamic.verdictFail_active_at_once h,
      RefDynamic.verdictFail_active_holds h⟩
  case failed =>
    exact ⟨RefDynamic.verdictFail_quiet (.inr (.inr (.inr h))), RefDynamic.verdictGood_failed_at_once h,
      RefDynamic.verdictGood_failed_waits h⟩
  case restoring =>
    exact ⟨RefDynamic.verdictGood_quiet (.inr (.inr h)), RefDynamic.verdictFail_restoring h⟩

end Sys2Proof.Machine
end

section
/-! The requests that replace one reference record: what the event does once the request is taken, and REF-ON, REF-OFF
and CLR-WTR: R65, R66, R73, R74. -/

namespace Sys2Proof.Machine

/-! ### A request that the access check turns away -/

/-- A ready part answers a request that the access check turns away with DENIED, whatever its arguments: R170. -/
theorem exec_denied {c : Instr} {s : State} {src tag : Byte} {args : List Byte} (q : Request)
    (hc : requestSent c = some (src, q.code :: tag :: args)) (h : s.readyFor src) (hq : q.isRead = false)
    (ha : ¬s.admits src) (hl : args.length ≤ 86) :
    exec c s = .next (s.withReply (s.replyFrame src q.code tag 0x0B [])) := by
  have hdenied := execute_denied (s.pushInsert .reserved) src q tag args hq (denies_of_not_admits ha)
  rw [exec_request hc h.1, submit_refused h _ (by simp; omega) .denied hdenied]
  rfl

/-! ### A request that replaces a reference record -/

/-- The part after a taken request that makes of record `r` the record `x`, before its reply is placed in the entry
reserved for it. -/
def State.refWritten (s : State) (r : RefIx) (x : Reference) : State := (s.pushInsert .reserved).putRef r x

section
variable (s : State) (r : RefIx) (x : Reference)

theorem refWritten_ref : (s.refWritten r x).ref r = x := (putRef_ref _ r r x).trans (if_pos rfl)

theorem refWritten_kept : Kept ((s.setRef r x).pushInsert .reserved) (s.refWritten r x) :=
  putRef_kept (s.pushInsert .reserved) r x

/-- A mark is read from the records alone, which the reserved entry leaves. -/
theorem marked_pushInsert {s t : State} {q : RefIx} {e : InsertEntry} (h : Marked q (s.pushInsert e) t) : Marked q s t :=
  h

/-- R81: a change of state marks the shelves that name the reference. -/
theorem refWritten_marked_state (hx : x.rt.state ≠ (s.ref r).rt.state) : Marked r s (s.refWritten r x) :=
  marked_pushInsert (putRef_marked_state (s.pushInsert .reserved) r x hx)

/-- R58: a write that leaves the state alone marks the shelves that name a reference of changed rank. -/
theorem refWritten_marked_rank (hx : x.rt.state = (s.ref r).rt.state) {q : RefIx}
    (hq : (s.setRef r x).effRank q ≠ s.effRank q) : Marked q s (s.refWritten r x) := by
  refine marked_pushInsert (putRef_marked_rank (s.pushInsert .reserved) r q x hx ?_)
  rw [(pushInsert_sameTables s .reserved).effRank]
  exact ((pushInsert_sameTables (s.setRef r x) .reserved).effRank q).trans_ne hq

end

/-- What a ready part does with a request that replaces record `r`, answered with `st`. -/
theorem exec_refWritten {c : Instr} {s : State} {src tag : Byte} {args : List Byte} {r : RefIx} {x : Reference}
    {st : Status} (q : Request) (hc : requestSent c = some (src, q.code :: tag :: args)) (h : s.readyFor src)
    (ha : s.admits src) (hl : args.length ≤ 86)
    (hrun : q.run args (s.pushInsert .reserved) = { status := st, results := [], state := s.refWritten r x }) :
    ∃ t, exec c s = .next t ∧ t.ref r = x ∧ (∀ p, Marked p s (s.refWritten r x) → Marked p s t)
      ∧ Kept (s.setRef r x) t ∧ RepliedWith s t (s.replyFrame src q.code tag st.octet []) := by
  have ⟨_, _, _, hreserved, _⟩ := h
  have hkept := refWritten_kept s r x
  refine ⟨_, exec_taken q hc h (.inr ha) hl, ?_⟩
  rw [hrun]
  exact ⟨refWritten_ref s r x, fun _ hp => hp,
    placed_kept (s := s.setRef r x) hreserved hkept src _,
    placed_repliedWith (u := s.setRef r x) q h rfl hkept⟩

/-- A request that takes a reference from one state to another, answered OK: R81, R109. -/
theorem exec_refMoved {c : Instr} {s : State} {src tag : Byte} {args : List Byte} {r : RefIx} {x : Reference}
    (q : Request) (hc : requestSent c = some (src, q.code :: tag :: args)) (h : s.readyFor src) (ha : s.admits src)
    (hl : args.length ≤ 86) (hx : x.rt.state ≠ (s.ref r).rt.state)
    (hrun : q.run args (s.pushInsert .reserved) = .ok (s.refWritten r x)) :
    ∃ t, exec c s = .next t ∧ t.ref r = x ∧ Marked r s t ∧ Kept (s.setRef r (t.ref r)) t
      ∧ RepliedWith s t (s.replyFrame src q.code tag 0x00 []) := by
  obtain ⟨t, hexec, href, hmarks, hkept, hreply⟩ := exec_refWritten q hc h ha hl hrun
  exact ⟨t, hexec, href, hmarks r (refWritten_marked_state s r x hx), href.symm ▸ hkept, hreply⟩

/-! ### The requests' own tests -/

section
variable (s : State)

/-- R171: an index above 31. -/
theorem reqRefOn_range {b : Byte} (hb : 32 ≤ b.toNat) : Request.refOn.run [b] s = .refuse .range s := by
  dsimp only [Request.run, reqRefOn]
  rw [readIx_none hb]

theorem reqRefOff_range {b : Byte} (hb : 32 ≤ b.toNat) : Request.refOff.run [b] s = .refuse .range s := by
  dsimp only [Request.run, reqRefOff]
  rw [readIx_none hb]

theorem reqClrWtr_range {b : Byte} (hb : 32 ≤ b.toNat) : Request.clrWtr.run [b] s = .refuse .range s := by
  dsimp only [Request.run, reqClrWtr]
  rw [readIx_none hb]

variable (r : RefIx)

/-- R65, of a reference that `r` names. -/
theorem reqRefOn_index : Request.refOn.run [indexOctet r] s =
    if (s.ref r).rt.state = .disabled then .ok (s.putRef r ((s.ref r).turnedOn s.globals.announceTimeout))
    else .refuse .state s := by
  dsimp only [Request.run, reqRefOn]
  rw [readIx_indexOctet (by decide)]

/-- R66, of a reference that `r` names. -/
theorem reqRefOff_index : Request.refOff.run [indexOctet r] s =
    if (s.ref r).rt.state = .disabled then .refuse .state s else .ok (s.putRef r (s.ref r).turnedOff) := by
  dsimp only [Request.run, reqRefOff]
  rw [readIx_indexOctet (by decide)]

/-- R73, R74, of a reference that `r` names. -/
theorem reqClrWtr_index : Request.clrWtr.run [indexOctet r] s =
    if (s.ref r).rt.state = .restoring then .ok (s.putRef r { s.ref r with rt := (s.ref r).rt.activate })
    else .refuse .state s := by
  dsimp only [Request.run, reqClrWtr]
  rw [readIx_indexOctet (by decide)]

end

/-! ### The obligations -/

/-- Settles O14: REF-ON and REF-OFF refuse in one state of the reference and move it in the other. -/
theorem refOnAndRefOff : Obligations.RefOnAndRefOff := by
  intro s src tag h ha
  refine ⟨fun b hb => ⟨?_, ?_⟩, fun r => ⟨fun hon => ?_, fun hoff => ?_, fun hoff => ?_, fun hon => ?_⟩⟩
  · exact exec_refused .refOn rfl h (.inr ha) (by simp) .range (reqRefOn_range _ hb)
  · exact exec_refused .refOff rfl h (.inr ha) (by simp) .range (reqRefOff_range _ hb)
  · exact exec_refused .refOn rfl h (.inr ha) (by simp) .state ((reqRefOn_index _ r).trans (if_neg hon))
  · exact exec_refused .refOff rfl h (.inr ha) (by simp) .state ((reqRefOff_index _ r).trans (if_pos hoff))
  · exact exec_refMoved .refOn rfl h ha (by simp) (by simp [hoff]) ((reqRefOn_index _ r).trans (if_pos hoff))
  · exact exec_refMoved .refOff rfl h ha (by simp) (Ne.symm hon) ((reqRefOff_index _ r).trans (if_neg hon))

/-- Settles O15: CLR-WTR passes the access check, names a reference, and finds it in RESTORING, or is refused. -/
theorem clrWtrEndsTheRestoreWait : Obligations.ClrWtrEndsTheRestoreWait := by
  intro s src tag h
  refine ⟨fun hdenied args hl => ?_, fun ha b hb => ?_, fun ha r => ⟨fun hother => ?_, fun hwait => ?_⟩⟩
  · exact exec_denied .clrWtr rfl h rfl hdenied hl
  · exact exec_refused .clrWtr rfl h (.inr ha) (by simp) .range (reqClrWtr_range _ hb)
  · exact exec_refused .clrWtr rfl h (.inr ha) (by simp) .state ((reqClrWtr_index _ r).trans (if_neg hother))
  · refine exec_refMoved .clrWtr rfl h ha (by simp) ?_ ((reqClrWtr_index _ r).trans (if_pos hwait))
    simp [hwait]

end Sys2Proof.Machine
end

section
/-! WR-REF: the order of its tests, the write, and the ranks that a write changes: R55, R56, R58, R61, R62. -/

namespace Sys2Proof.Machine

/-! ### The request's own tests -/

/-- R62: the fields that an enabled reference keeps. -/
theorem RefConfig.fixedDiffers_iff (old new : RefConfig) : old.fixedDiffers new = true ↔
    new.kind ≠ old.kind ∨ new.rate ≠ old.rate ∨ new.gate ≠ old.gate ∨ new.source ≠ old.source
      ∨ new.announcer ≠ old.announcer ∨ new.origin ≠ old.origin := by
  simp only [RefConfig.fixedDiffers, Bool.or_eq_true, bne_iff_ne, or_assoc, ne_comm]

section
variable {l : List Byte} (hl : l.length = 23) (s : State)
include hl

/-- R62: an index above 31, or octets that are no configuration. -/
theorem reqWrRef_range {b : Byte} (h : readIx 32 b = none ∨ readRefConfig l = none) :
    Request.wrRef.run (b :: l) s = .refuse .range s := by
  dsimp only [Request.run, reqWrRef]
  rw [if_pos hl]
  rcases h with h | h
  · rw [h]
  · rw [h]
    cases readIx 32 b <;> rfl

/-- R62: the tests of a write whose octets are read as `w`, in their order. -/
theorem reqWrRef_read (r : RefIx) {w : RefWrite} (hw : readRefConfig l = some w) :
    Request.wrRef.run (indexOctet r :: l) s =
      if (s.ref r).rt.state ≠ .disabled ∧ (s.ref r).cfg.fixedDiffers w.cfg = true then .refuse .state s
      else if w.cfg.accept < w.cfg.reject then
        { status := if w.clamped then .clamped else .ok, results := []
          state := s.putRef r { s.ref r with cfg := w.cfg } }
      else .refuse .order s := by
  dsimp only [Request.run, reqWrRef]
  rw [if_pos hl, readIx_indexOctet (by decide), hw]
  simp only [Bool.and_eq_true, bne_iff_ne]

end

/-! ### The rank that a write gives -/

theorem setRef_effRank_override (s : State) (r : RefIx) {x : Reference} {k : Rank}
    (ho : x.cfg.overrideRank = some k) : (s.setRef r x).effRank r = k :=
  effRank_override (by rwa [setRef_ref_self])

theorem setRef_effRank_fixed (s : State) (r : RefIx) {x : Reference} (ho : x.cfg.overrideRank = none)
    (hk : x.cfg.kind = .fixed) : (s.setRef r x).effRank r = x.cfg.fixedRank := by
  rw [effRank_fixed (by rwa [setRef_ref_self]) (by rwa [setRef_ref_self]), setRef_ref_self]

/-! ### The obligation -/

/-- Settles O16: the tests of `reqWrRef_read` in their order, and the marks of a record written with its state kept. -/
theorem wrRefWritesTheConfiguration : Obligations.WrRefWritesTheConfiguration := by
  intro s src tag l h ha hl
  have hargs : ∀ b : Byte, (b :: l).length ≤ 86 := fun b => by simp [hl]
  refine ⟨fun b hb => ?index, fun r => ⟨fun hnone => ?octets, fun w hw => ?read⟩⟩
  case index => exact exec_refused .wrRef rfl h (.inr ha) (hargs b) .range (reqWrRef_range hl _ (.inl (readIx_none hb)))
  case octets => exact exec_refused .wrRef rfl h (.inr ha) (hargs _) .range (reqWrRef_range hl _ (.inr hnone))
  case read =>
    intro old changesFixed
    have htests := reqWrRef_read hl (s.pushInsert .reserved) r hw
    have hdiffers : old.fixedDiffers w.cfg = true ↔ changesFixed := RefConfig.fixedDiffers_iff old w.cfg
    have hpasses : (s.ref r).rt.state = .disabled ∨ ¬changesFixed →
        ¬((s.ref r).rt.state ≠ .disabled ∧ old.fixedDiffers w.cfg = true) := by
      rw [hdiffers, not_and_or, not_not]
      exact id
    refine ⟨fun hon hchange => ?state, fun hpass horder => ?order, fun hpass horder => ?taken⟩
    case state =>
      exact exec_refused .wrRef rfl h (.inr ha) (hargs _) .state (htests.trans (if_pos ⟨hon, hdiffers.mpr hchange⟩))
    case order =>
      exact exec_refused .wrRef rfl h (.inr ha) (hargs _) .order
        (htests.trans ((if_neg (hpasses hpass)).trans (if_neg horder.not_gt)))
    case taken =>
      obtain ⟨t, hexec, href, hmarks, hkept, hreply⟩ := exec_refWritten (c := .wrRef src tag (indexOctet r :: l))
        (x := { s.ref r with cfg := w.cfg }) .wrRef rfl h ha (hargs _)
        (htests.trans ((if_neg (hpasses hpass)).trans (if_pos horder)))
      have hrank : ∀ q, (s.setRef r { s.ref r with cfg := w.cfg }).effRank q ≠ s.effRank q → Marked q s t :=
        fun q hq => hmarks q (refWritten_marked_rank s r { s.ref r with cfg := w.cfg } rfl hq)
      refine ⟨t, hexec, href, ?_, fun k hk hne => hrank r ?_, fun hno hkind hne => hrank r ?_, ?_, ?_⟩
      · rwa [href]
      · rw [setRef_effRank_override s r hk]
        exact hne.symm
      · rw [setRef_effRank_fixed s r hno hkind]
        exact hne.symm
      · rwa [href]
      · rw [apply_ite Status.octet] at hreply
        exact hreply

end Sys2Proof.Machine
end

section
/-! What the shared operations of an event do to the shelf records, said once: `ShelfMove` lists the changes of one
record, and each operation is a `ShelvesEvent`, made of them at every shelf. -/

namespace Sys2Proof.Machine

/-! ### The changes of a shelf record within an event -/

/-- The ways in which the marks, grants, endings, losses and reports of an event change a shelf record. -/
inductive ShelfMove : Shelf → Shelf → Prop
  /-- R110 -/
  | marked (x : Shelf) : ShelfMove x x.mark
  /-- R161, R162 -/
  | reported (x : Shelf) (l : Option Report) : ShelfMove x { x with lastReport := l }
  /-- R133 -/
  | granted (x : Shelf) : ShelfMove x { x with state := x.state.granted }
  /-- R139 -/
  | abandoned {x : Shelf} {c : RefIx} (n : Nat) (hc : x.state.current = some c) :
      ShelfMove x { x.backOn c with sel := .settling n }
  /-- R136, R137, R141 -/
  | ended {x : Shelf} {u : RefIx} (n : Nat) (hard : Bool) (hu : x.state.target = some u) : ShelfMove x { x with
      state := .locked u, route := some u, curEdge := x.pendEdge, pendEdge := none, sel := .settling n
      latches := { x.latches with hard := x.latches.hard || hard } }
  /-- R115, R126 -/
  | muted {x : Shelf} {c : RefIx} (hc : x.state = .locked c) : ShelfMove x x.muted

/-- `y` comes from the shelf record `x` by changes of `ShelfMove`. -/
abbrev ShelfMoves (x y : Shelf) : Prop := Relation.ReflTransGen ShelfMove x y

/-- An event of the shelves: the references stay, and every shelf record changes by changes of `ShelfMove`. -/
structure ShelvesEvent (s t : State) : Prop where
  refs : t.refs = s.refs
  shelf : ∀ i, ShelfMoves (s.shelf i) (t.shelf i)

theorem ShelvesEvent.of_tables {s t : State} (h : SameTables s t) : ShelvesEvent s t :=
  ⟨h.refs, fun i => by rw [h.shelf i]⟩

theorem ShelvesEvent.refl (s : State) : ShelvesEvent s s := .of_tables ⟨rfl, rfl⟩

theorem ShelvesEvent.trans {s t u : State} (h : ShelvesEvent s t) (h' : ShelvesEvent t u) : ShelvesEvent s u :=
  ⟨h'.refs.trans h.refs, fun i => (h.shelf i).trans (h'.shelf i)⟩

/-- A property that every change keeps is kept at each shelf. -/
theorem ShelfMoves.keeps {P : Shelf → Prop} (hP : ∀ x y, ShelfMove x y → P x → P y) {x y : Shelf}
    (h : ShelfMoves x y) (hx : P x) : P y := by
  induction h with
  | refl => exact hx
  | tail _ hc ih => exact hP _ _ hc ih

/-! ### The operations -/

theorem updShelf_shelvesEvent {s : State} {i : ShelfIx} {f : Shelf → Shelf}
    (h : ShelfMoves (s.shelf i) (f (s.shelf i))) :
    ShelvesEvent s (s.updShelf i f) :=
  ⟨rfl, fun j => by
    rw [updShelf_shelf]
    split
    · rename_i hj
      rw [hj]
      exact h
    · exact .refl⟩

theorem markWhere_shelvesEvent (s : State) (p : Shelf → Bool) : ShelvesEvent s (s.markWhere p) :=
  ⟨markWhere_refs s p, fun i => by
    rw [markWhere_shelf]
    split
    · exact .single (.marked _)
    · exact .refl⟩

theorem markShelf_shelvesEvent (s : State) (i : ShelfIx) : ShelvesEvent s (s.markShelf i) :=
  updShelf_shelvesEvent (.single (.marked _))

theorem offerSn_shelvesEvent (s : State) (i : ShelfIx) (p n : Option RefIx) (c : Cause) (h : Bool) :
    ShelvesEvent s (s.offerSn i p n c h) :=
  ⟨offerSn_refs s i p n c h, fun j => by rw [offerSn_shelf]⟩

theorem offerSq_shelvesEvent (s : State) (i : ShelfIx) : ShelvesEvent s (s.offerSq i) :=
  ⟨offerSq_refs s i, fun j => by
    rw [offerSq_shelf]
    exact .single (.reported _ _)⟩

theorem compareReports_shelvesEvent (s : State) : ShelvesEvent s s.compareReports :=
  compareReports_induct (fun t i h => h.trans (offerSq_shelvesEvent t i)) s (ShelvesEvent.refl s)

theorem fullReport_shelvesEvent (s : State) : ShelvesEvent s s.fullReport :=
  fullReport_induct (fun t i h => h.trans (offerSq_shelvesEvent t i)) s (ShelvesEvent.refl s)

theorem endEvent_shelvesEvent (s0 s1 : State) : ShelvesEvent s1 (s0.endEvent s1) :=
  endEvent_induct (fun t i h => h.trans (offerSq_shelvesEvent t i)) s0 s1 (ShelvesEvent.refl s1)

theorem grant_shelvesEvent (s : State) (e : EngineIx) (i : ShelfIx) (rest : List ShelfIx) :
    ShelvesEvent s (s.grant e i rest) :=
  ⟨rfl, fun j => by
    rw [grant_shelf]
    split
    · rename_i hj
      rw [hj]
      exact .single (.granted _)
    · exact .refl⟩

theorem grantFree_shelvesEvent (s : State) : ShelvesEvent s s.grantFree :=
  grantWithin_induct (fun t e i rest h _ _ => h.trans (grant_shelvesEvent t e i rest)) 4 s (ShelvesEvent.refl s)

theorem releaseSwitch_shelvesEvent (s : State) (i : ShelfIx) : ShelvesEvent s (s.releaseSwitch i) := by
  unfold State.releaseSwitch
  split
  · exact .of_tables ⟨rfl, rfl⟩
  · have hfreed : ShelvesEvent s (s.freeEngineOf i) := .of_tables ⟨rfl, rfl⟩
    exact hfreed.trans (grantFree_shelvesEvent _)
  all_goals exact .refl s

/-- A shelf with no switch has none to abandon. -/
theorem abandon_none {s : State} {i : ShelfIx} (h : (s.shelf i).state.target = none) : s.abandon i = s := by
  unfold State.abandon
  rw [h]
  cases (s.shelf i).state.current <;> rfl

/-- A shelf with no switch has none to end. -/
theorem moveToTarget_none {s : State} {i : ShelfIx} (hard : Bool) (h : (s.shelf i).state.target = none) :
    s.moveToTarget hard i = s := by
  unfold State.moveToTarget
  rw [h]
  cases (s.shelf i).state.current <;> rfl

theorem abandon_shelvesEvent (s : State) (i : ShelfIx) : ShelvesEvent s (s.abandon i) := by
  cases ht : (s.shelf i).state.target with
  | none =>
    rw [abandon_none ht]
    exact .refl s
  | some r =>
    obtain ⟨_, c, hc⟩ := target_switching ht
    refine ⟨abandon_refs s i, fun j => ?_⟩
    by_cases hj : j = i
    · obtain ⟨n, h⟩ := abandon_shelf_self s i hc ht
      rw [hj, h]
      exact .single (.abandoned n hc)
    · unfold State.abandon
      simp only [hc, ht]
      rw [updShelf_shelf_of_ne _ hj]
      exact (releaseSwitch_shelvesEvent s i).shelf j

theorem moveToTarget_shelvesEvent (s : State) (hard : Bool) (i : ShelfIx) : ShelvesEvent s (s.moveToTarget hard i) := by
  cases ht : (s.shelf i).state.target with
  | none =>
    rw [moveToTarget_none hard ht]
    exact .refl s
  | some u =>
    obtain ⟨_, c, hc⟩ := target_switching ht
    refine ⟨moveToTarget_refs s hard i, fun j => ?_⟩
    by_cases hj : j = i
    · obtain ⟨v, h⟩ := moveToTarget_shelf_self s hard i hc ht
      obtain ⟨n, hn⟩ := moveToTarget_sel s hard i hc ht
      obtain rfl : v = .settling n := by rwa [h] at hn
      rw [hj, h]
      exact .single (.ended n hard ht)
    · unfold State.moveToTarget
      simp only [hc, ht]
      rw [updShelf_shelf_of_ne _ hj, offerSn_shelf, updShelf_shelf_of_ne _ hj]
      exact (releaseSwitch_shelvesEvent s i).shelf j

theorem enterHoldover_shelvesEvent {s : State} {i : ShelfIx} {c : RefIx} (hc : (s.shelf i).state = .locked c)
    (cause : Cause) : ShelvesEvent s (s.enterHoldover i c cause) := by
  refine ⟨(enterHoldover_kept s i c cause).refs, fun j => ?_⟩
  by_cases hj : j = i
  · rw [hj, enterHoldover_shelf_self]
    exact .single (.muted hc)
  · unfold State.enterHoldover
    rw [updShelf_shelf_of_ne _ hj, offerSn_shelf, updShelf_shelf_of_ne _ hj]

theorem loseCurrent_shelvesEvent (s : State) (i : ShelfIx) : ShelvesEvent s (s.loseCurrent i) := by
  unfold State.loseCurrent
  split
  · exact (enterHoldover_shelvesEvent ‹_› .lost).trans (markShelf_shelvesEvent _ i)
  · exact moveToTarget_shelvesEvent s true i
  · exact moveToTarget_shelvesEvent s true i
  all_goals exact .refl s

theorem follow_shelvesEvent (s0 s1 : State) : ShelvesEvent s1 (s0.follow s1) :=
  follow_induct (fun t p h => h.trans (markWhere_shelvesEvent t p))
    (fun t i h _ => h.trans (abandon_shelvesEvent t i)) s0 s1 (ShelvesEvent.refl s1)

theorem takePart_shelvesEvent (r : RefIx) (s : State) (i : ShelfIx) : ShelvesEvent s (State.takePart r s i) :=
  takePart_induct (fun t p h => h.trans (markWhere_shelvesEvent t p))
    (fun t j h _ => h.trans (abandon_shelvesEvent t j)) (fun t j _ h _ _ => h.trans (loseCurrent_shelvesEvent t j))
    r s i (ShelvesEvent.refl s)

theorem takeParts_shelvesEvent (r : RefIx) (l : List ShelfIx) (s : State) :
    ShelvesEvent s (l.foldl (State.takePart r) s) :=
  foldl_induct _ (fun b a h => h.trans (takePart_shelvesEvent r b a)) l s (ShelvesEvent.refl s)

/-- The event of a reference, once its record is replaced. -/
theorem putRef_shelvesEvent (s : State) (r : RefIx) (x : Reference) : ShelvesEvent (s.setRef r x) (s.putRef r x) :=
  putRef_induct (fun t p h => h.trans (markWhere_shelvesEvent t p)) (fun t i h _ => h.trans (abandon_shelvesEvent t i))
    (fun t i _ h _ _ => h.trans (loseCurrent_shelvesEvent t i)) (fun t i h => h.trans (offerSq_shelvesEvent t i)) s r x
    (ShelvesEvent.refl _)

theorem candTarget_shelvesEvent (s : State) (i : ShelfIx) : ShelvesEvent s (s.candTarget i) := by
  unfold State.candTarget
  split
  · split
    · exact .refl s
    · exact (abandon_shelvesEvent s i).trans (follow_shelvesEvent _ _)
  · exact .refl s

theorem candCurrent_shelvesEvent (s : State) (i : ShelfIx) : ShelvesEvent s (s.candCurrent i) := by
  unfold State.candCurrent
  split
  · split
    · exact .refl s
    · exact (loseCurrent_shelvesEvent s i).trans (follow_shelvesEvent _ _)
  · exact .refl s

end Sys2Proof.Machine
end

section
/-! What one step can do to the shelf records: `ShelfChange` lists the changes of one record, `ShelvesChange` those of
the tables, and `step_shelvesReach` says that every step is made of them. -/

namespace Sys2Proof.Machine

/-! ### The changes of a shelf record -/

/-- R129: the states of a reference that a shelf may be routed to. -/
def RefState.Carries (st : RefState) : Prop := st = .active ∨ st = .holdoff ∨ st = .restoring

/-- R107, R140: the states of a reference that a switch under the basis `b` may go to. -/
def RefState.Takes (st : RefState) (b : Option Basis) : Prop := st = .active ∨ (st = .restoring ∧ b = some .forced)

/-- The source shelf in use of every reference. -/
def State.sources (s : State) : RefIx → Option ShelfIx := fun r => (s.ref r).sourceShelf

/-- The state of every reference. -/
def State.refStates (s : State) : RefIx → RefState := fun r => (s.ref r).rt.state

/-- A shelf as R95 leaves it. -/
def Shelf.closed (x : Shelf) : Shelf :=
  { x with
    route := none, curEdge := none, pendEdge := none, sel := .clean, command := .none, latches := ShelfLatches.clear
    loopBit := false, state := .off }

/-- The ways in which a command changes a shelf record, its list apart, where the references have the source shelves
`src` and the states `st`. -/
inductive ShelfChange (src : RefIx → Option ShelfIx) (st : RefIx → RefState) : Shelf → Shelf → Prop
  | moved {x y : Shelf} (h : ShelfMove x y) : ShelfChange src st x y
  /-- R118 -/
  | deferred {x : Shelf} (h : x.switching = true) : ShelfChange src st x { x with sel := .deferred }
  /-- R118, R121, R122 -/
  | judged {x : Shelf} (clears blocked : Bool) (h : x.enabled = true) : ShelfChange src st x (x.judged clears blocked)
  /-- R124 -/
  | lockedOn {x : Shelf} {r : RefIx} {b : Option Basis} (hc : x.state.current = none) (ho : x.openTo r = true)
      (ht : (st r).Takes b) :
      ShelfChange src st x { x with curEdge := src r, route := some r, state := .locked r }
  /-- R125 -/
  | switchedTo {x : Shelf} {c r : RefIx} {b : Basis} (hc : x.state = .locked c) (hne : r ≠ c)
      (ho : x.openTo r = true) (ht : (st r).Takes (some b)) :
      ShelfChange src st x { x with pendEdge := src r, state := .waiting c r b }
  /-- R145 -/
  | phaseExpired (x : Shelf) (n : Nat) : ShelfChange src st x { x with state := x.state.phaseExpired n }
  /-- R86 -/
  | configured (x : Shelf) (cfg : ShelfConfig) : ShelfChange src st x { x with cfg := cfg }
  /-- R94 -/
  | enabled {x : Shelf} (h : x.state = .off) : ShelfChange src st x { x with state := .free, route := none }
  /-- R95 -/
  | closed (x : Shelf) : ShelfChange src st x x.closed
  /-- R97, R177 -/
  | commanded {x : Shelf} {c : Command} (hoff : x.state = .off → c = .none)
      (h : { x with command := c }.commandStands = true) : ShelfChange src st x { x with command := c }
  /-- R100, R101 -/
  | acknowledged (x : Shelf) (l : ShelfLatches) :
      ShelfChange src st x { x with latches := x.latches.acknowledge x.live l }
  /-- `d` MCLK ticks pass. -/
  | elapsed (x : Shelf) (d : Nat) : ShelfChange src st x (x.elapse d)

/-- What a command makes of the tables: the sources and the states of the references stay, and every shelf record
changes by changes of `ShelfChange`. -/
structure ShelvesCommand (s t : State) : Prop where
  sources : t.sources = s.sources
  refStates : t.refStates = s.refStates
  shelf : ∀ i, Relation.ReflTransGen (ShelfChange s.sources s.refStates) (s.shelf i) (t.shelf i)

theorem ShelvesCommand.trans {s t u : State} (h : ShelvesCommand s t) (h' : ShelvesCommand t u) :
    ShelvesCommand s u where
  sources := h'.sources.trans h.sources
  refStates := h'.refStates.trans h.refStates
  shelf i := (h.shelf i).trans (by rw [← h.sources, ← h.refStates]; exact h'.shelf i)

theorem sources_congr {s t : State} (h : t.refs = s.refs) : t.sources = s.sources := by
  funext r
  rw [State.sources, ref_congr h r, State.sources]

theorem refStates_congr {s t : State} (h : t.refs = s.refs) : t.refStates = s.refStates := by
  funext r
  rw [State.refStates, ref_congr h r, State.refStates]

theorem ShelvesEvent.command {s t : State} (h : ShelvesEvent s t) : ShelvesCommand s t :=
  ⟨sources_congr h.refs, refStates_congr h.refs, fun i => (h.shelf i).lift id fun _ _ => .moved⟩

theorem ShelvesCommand.refl (s : State) : ShelvesCommand s s := (ShelvesEvent.refl s).command

theorem ShelvesCommand.of_tables {s t : State} (h : SameTables s t) : ShelvesCommand s t :=
  (ShelvesEvent.of_tables h).command

/-- A command that keeps the shelf records, and of the references their sources and states. -/
theorem ShelvesCommand.of_refs {s t : State} (h : ∀ i, t.shelf i = s.shelf i)
    (hr : ∀ r, (t.ref r).sourceShelf = (s.ref r).sourceShelf ∧ (t.ref r).rt.state = (s.ref r).rt.state) :
    ShelvesCommand s t :=
  ⟨funext fun r => (hr r).1, funext fun r => (hr r).2, fun i => by rw [h i]⟩

/-- A command that changes one shelf record. -/
theorem updShelf_command {s : State} {i : ShelfIx} {f : Shelf → Shelf}
    (h : Relation.ReflTransGen (ShelfChange s.sources s.refStates) (s.shelf i) (f (s.shelf i))) :
    ShelvesCommand s (s.updShelf i f) :=
  ⟨rfl, rfl, fun j => by
    rw [updShelf_shelf]
    split
    · rename_i hj
      rw [hj]
      exact h
    · exact .refl⟩

/-! ### The changes of the tables -/

/-- R129: the reference may be in use by a shelf. -/
def Reference.Serves (x : Reference) : Prop := x.rt.state.Carries

/-- A reference that may be in use keeps its source shelf and does not start again: R61, R62, R64. -/
def Reference.StaysOn (x y : Reference) : Prop :=
  x.Serves → y.sourceShelf = x.sourceShelf ∧ y.rt.state ≠ .starting

/-- The ways in which a step changes the tables of records, with the guards under which each is made. -/
inductive ShelvesChange : State → State → Prop
  | command {s t : State} (h : ShelvesCommand s t) : ShelvesChange s t
  /-- R179 -/
  | reset (s : State) : ShelvesChange s (State.cold s.role s.grants s.pending)
  | refPut {s : State} {r : RefIx} {x : Reference} (h : (s.ref r).StaysOn x) : ShelvesChange s (s.putRef r x)
  /-- R91, R92 -/
  | listWritten (s : State) (i : ShelfIx) {l : List Candidate} (hlen : l.length ≤ 8)
      (hnodup : (l.map Candidate.ref).Nodup) (hprio : ∀ c ∈ l, c.prio ≠ 0) : ShelvesChange s (s.writeList i l)
  /-- R93 -/
  | lockoutChanged (s : State) (i : ShelfIx) (r : RefIx) (on : Bool) : ShelvesChange s (s.changeLockout i r on)

/-- `t` comes from `s` by changes of `ShelvesChange`. -/
abbrev ShelvesReach (s t : State) : Prop := Relation.ReflTransGen ShelvesChange s t

/-- A property that every change keeps is kept along `ShelvesReach`. -/
theorem ShelvesReach.keeps {P : State → Prop} (hP : ∀ s t, ShelvesChange s t → P s → P t) {s t : State}
    (h : ShelvesReach s t) (hs : P s) : P t := by
  induction h with
  | refl => exact hs
  | tail _ hc ih => exact hP _ _ hc ih

theorem ShelvesCommand.reach {s t : State} (h : ShelvesCommand s t) : ShelvesReach s t := .single (.command h)

theorem ShelvesEvent.reach {s t : State} (h : ShelvesEvent s t) : ShelvesReach s t := h.command.reach

theorem ShelvesReach.of_tables {s t : State} (h : SameTables s t) : ShelvesReach s t :=
  (ShelvesCommand.of_tables h).reach

/-! ### A decision -/

section
variable {s : State} {permit : RefIx → Bool} {i : ShelfIx} {r : RefIx}

/-- R104: what a shelf takes up automatically is open to it, and ACTIVE unless it is current. -/
theorem eligibleUnder_takes (h : s.eligibleUnder permit i r = true) : (s.shelf i).openTo r = true
    ∧ ((s.shelf i).state.current ≠ some r → ∀ b, (s.refStates r).Takes b) := by
  unfold State.eligibleUnder eligibleState at h
  simp only [Bool.and_eq_true, Bool.or_eq_true, beq_iff_eq] at h
  obtain ⟨⟨⟨hopen, hstate⟩, -⟩, -⟩ := h
  refine ⟨hopen, fun hne _ => .inl ?_⟩
  rcases hstate with hactive | ⟨-, hcur⟩
  · exact hactive
  · exact absurd hcur hne

/-- R105: what a shelf takes up under FORCED is open to it, and ACTIVE or RESTORING unless it is current. -/
theorem forcedUnder_takes (h : s.forcedUnder permit i r = true) : (s.shelf i).openTo r = true
    ∧ ((s.shelf i).state.current ≠ some r → (s.refStates r).Takes (some .forced)) := by
  unfold State.forcedUnder forcedState eligibleState at h
  simp only [Bool.and_eq_true, Bool.or_eq_true, beq_iff_eq] at h
  obtain ⟨⟨hopen, hstate⟩, -⟩ := h
  refine ⟨hopen, fun hne => ?_⟩
  rcases hstate with (hactive | ⟨-, hcur⟩) | hrestoring
  · exact .inl hactive
  · exact absurd hcur hne
  · exact .inr ⟨hrestoring, rfl⟩

/-- The best of some candidates is one of them. -/
theorem best_mem : ∀ {l : List Candidate} {c : Candidate}, s.best l = some c → c ∈ l
  | d :: l, c, h => by
    unfold State.best at h
    split at h
    · obtain rfl := Option.some.inj h
      exact List.mem_cons_self
    · rename_i e he
      split at h
      · obtain rfl := Option.some.inj h
        exact List.mem_cons_of_mem _ (best_mem he)
      · obtain rfl := Option.some.inj h
        exact List.mem_cons_self

/-- R120: the target of automatic selection is automatically eligible. -/
theorem autoTarget_eligible (h : s.autoTarget permit i = some r) : s.eligibleUnder permit i r = true := by
  unfold State.autoTarget at h
  split at h
  · cases h
  · rename_i b hb
    have hbest : s.eligibleUnder permit i b.ref = true := (List.mem_filter.mp (best_mem hb)).2
    split at h
    · split at h
      · rename_i c _ hc
        obtain rfl := Option.some.inj h
        rw [Bool.and_eq_true, List.any_eq_true] at hc
        obtain ⟨⟨d, hd, hdc⟩, -⟩ := hc
        rw [← beq_iff_eq.mp hdc]
        exact (List.mem_filter.mp hd).2
      · obtain rfl := Option.some.inj h
        exact hbest
    · obtain rfl := Option.some.inj h
      exact hbest
    · obtain rfl := Option.some.inj h
      exact hbest

/-- R119: the target of a decision is open to the shelf, and takes a switch under the basis of the command held. -/
theorem chooseTarget_takes (h : s.chooseTarget permit i = some r) : (s.shelf i).openTo r = true
    ∧ ((s.shelf i).state.current ≠ some r → (s.refStates r).Takes (some (s.shelf i).command.basis)) := by
  have hauto : s.eligibleUnder permit i r = true → (s.shelf i).openTo r = true
      ∧ ((s.shelf i).state.current ≠ some r → (s.refStates r).Takes (some (s.shelf i).command.basis)) :=
    fun he => ⟨(eligibleUnder_takes he).1, fun hne => (eligibleUnder_takes he).2 hne _⟩
  unfold State.chooseTarget at h
  split at h
  · cases h
  · rename_i q hq
    split at h
    · obtain rfl := Option.some.inj h
      rw [hq]
      exact forcedUnder_takes ‹_›
    · cases h
  · split at h
    · obtain rfl := Option.some.inj h
      exact hauto ‹_›
    · exact hauto (autoTarget_eligible h)
  · exact hauto (autoTarget_eligible h)

end

/-- A command cleared by a decision leaves the basis as it was: R121. -/
theorem judged_basis (s : State) (i : ShelfIx) (blocked : Bool) :
    ((s.shelf i).judged (s.clearsManual i) blocked).command.basis = (s.shelf i).command.basis := by
  unfold Shelf.judged State.clearsManual
  cases (s.shelf i).command with
  | manual r =>
    dsimp only
    split <;> rfl
  | none => rfl
  | forced r => rfl
  | hold => rfl

/-- R123: the outcome of a decision for a target that is open to the shelf and takes its switch. -/
theorem outcome_command {s : State} {i : ShelfIx} {cmd : Command} {target : Option RefIx}
    (h : ∀ r, target = some r → (s.shelf i).openTo r = true
      ∧ ((s.shelf i).state.current ≠ some r → (s.refStates r).Takes (some cmd.basis))) :
    ShelvesCommand s (s.outcome i cmd target) := by
  have hlock : ∀ r, target = some r → (s.shelf i).state.current = none → ShelvesCommand s (s.directLock i r) := by
    intro r hr hcur
    obtain ⟨hopen, htakes⟩ := h r hr
    have hset : ShelvesCommand s (s.updShelf i fun x =>
        { x with curEdge := (s.ref r).sourceShelf, route := some r, state := .locked r }) :=
      updShelf_command (.single (.lockedOn hcur hopen (htakes (by rw [hcur]; exact fun hc => by cases hc))))
    exact hset.trans (offerSn_shelvesEvent _ i _ _ _ _).command
  unfold State.outcome
  split
  · exact (enterHoldover_shelvesEvent ‹_› _).command
  · rename_i c r hc
    split
    · exact .refl s
    · rename_i hne
      obtain ⟨hopen, htakes⟩ := h r rfl
      have hcur : (s.shelf i).state.current ≠ some r := by
        rw [hc]
        exact fun he => hne (Option.some.inj he).symm
      have hset : ShelvesCommand s (s.updShelf i fun x =>
          { x with pendEdge := (s.ref r).sourceShelf, state := .waiting c r cmd.basis }) :=
        updShelf_command (.single (.switchedTo hc hne hopen (htakes hcur)))
      have hqueued : ShelvesCommand s { (s.updShelf i fun x =>
          { x with pendEdge := (s.ref r).sourceShelf, state := .waiting c r cmd.basis }) with
          alignQ := s.alignQ ++ [i] } := hset.trans (.of_tables ⟨rfl, rfl⟩)
      exact hqueued.trans (grantFree_shelvesEvent _).command
  · rename_i hfree
    exact hlock _ rfl (by rw [hfree]; rfl)
  · rename_i hhold
    exact hlock _ rfl (by rw [hhold]; rfl)
  all_goals exact .refl s

theorem decideShelf_command {s : State} {i : ShelfIx} (hon : (s.shelf i).enabled = true) :
    ShelvesCommand s (s.decideShelf i) := by
  have hjudged : ShelvesCommand s (s.updShelf i fun x => x.judged (s.clearsManual i) (s.loopBlocked i)) :=
    updShelf_command (.single (.judged _ _ hon))
  have hdecided : ∀ s0, ShelvesCommand s (State.follow s0
      ((s.updShelf i fun x => x.judged (s.clearsManual i) (s.loopBlocked i)).outcome i
        ((s.updShelf i fun x => x.judged (s.clearsManual i) (s.loopBlocked i)).shelf i).command
        (s.chooseTarget (s.permits i) i))) := fun s0 => by
    refine (hjudged.trans (outcome_command fun r hr => ?_)).trans (follow_shelvesEvent s0 _).command
    rw [updShelf_shelf_self, judged_basis]
    exact chooseTarget_takes hr
  unfold State.decideShelf
  dsimp only
  split
  · exact (hdecided _).trans (markShelf_shelvesEvent _ i).command
  · exact hdecided _

/-! ### The commands of the shelves -/

theorem settleExpired_command (s : State) (i : ShelfIx) : ShelvesCommand s (s.settleExpired i) := by
  unfold State.settleExpired
  split
  · split
    · exact updShelf_command (.single (.deferred ‹_›))
    · split
      · exact decideShelf_command ‹_›
      · exact .refl s
  all_goals exact .refl s

theorem engineEnds_shelvesEvent (s : State) (hard : Bool) (e : EngineIx) (g : Nat) :
    ShelvesEvent s (s.engineEnds hard e g) := by
  unfold State.engineEnds
  split
  · exact .refl s
  · split
    · exact ((moveToTarget_shelvesEvent s hard _).trans (follow_shelvesEvent _ _)).trans (endEvent_shelvesEvent _ _)
    · exact .refl s

theorem limitExpired_shelvesEvent (s : State) (e : EngineIx) (g : Nat) : ShelvesEvent s (s.limitExpired e g) := by
  unfold State.limitExpired
  split
  · exact engineEnds_shelvesEvent s true e g
  · exact .refl s

theorem setRefreshTimer_tables (s : State) (x : Timer) : SameTables s { s with refreshTimer := x } := ⟨rfl, rfl⟩

theorem refreshExpired_shelvesEvent (s : State) : ShelvesEvent s s.refreshExpired := by
  unfold State.refreshExpired
  split
  · exact (fullReport_shelvesEvent s).trans (.of_tables (setRefreshTimer_tables _ _))
  · exact .refl s

theorem enterFloating_tables (s : State) : SameTables s s.enterFloating := by
  unfold State.enterFloating
  split <;> exact ⟨rfl, rfl⟩

theorem elapse_command (s : State) (d : Nat) : ShelvesCommand s (s.elapse d) where
  sources := funext fun r => by rw [State.sources, elapse_ref]; rfl
  refStates := funext fun r => by rw [State.refStates, elapse_ref]; rfl
  shelf i := by
    rw [elapse_shelf]
    exact .single (.elapsed _ d)

theorem writeShelf_command (s : State) (i : ShelfIx) (cfg : ShelfConfig) : ShelvesCommand s (s.writeShelf i cfg) := by
  have hw : ShelvesCommand s (s.updShelf i fun x => { x with cfg := cfg }) :=
    updShelf_command (.single (.configured _ cfg))
  unfold State.writeShelf
  refine ShelvesCommand.trans ?_ (compareReports_shelvesEvent _).command
  refine ShelvesCommand.trans ?_ (follow_shelvesEvent _ _).command
  split
  · exact hw.trans (markShelf_shelvesEvent _ i).command
  · exact hw

theorem enableShelf_command {s : State} {i : ShelfIx} (h : (s.shelf i).state = .off) :
    ShelvesCommand s (s.enableShelf i) := by
  have hset : ShelvesCommand s (s.updShelf i fun x => { x with state := .free, route := none }.mark) :=
    updShelf_command (Relation.ReflTransGen.tail (.single (.enabled h)) (.moved (.marked _)))
  exact (hset.trans (follow_shelvesEvent _ _).command).trans (endEvent_shelvesEvent _ _).command

theorem closeShelf_command (s : State) (i : ShelfIx) : ShelvesCommand s (s.closeShelf i) := by
  unfold State.closeShelf
  refine ShelvesCommand.trans (ShelvesCommand.trans ?_ (releaseSwitch_shelvesEvent _ i).command)
    (updShelf_command (.single (.closed _)))
  split
  · exact (offerSn_shelvesEvent s i _ _ _ _).command
  · exact .refl s

theorem disableShelf_command (s : State) (i : ShelfIx) : ShelvesCommand s (s.disableShelf i) :=
  (((closeShelf_command s i).trans (follow_shelvesEvent _ _).command).trans (offerSq_shelvesEvent _ i).command).trans
    (endEvent_shelvesEvent _ _).command

theorem setCommand_command {s : State} {i : ShelfIx} {c : Command} (hon : (s.shelf i).enabled = true)
    (h : { s.shelf i with command := c }.commandStands = true) : ShelvesCommand s (s.setCommand i c) := by
  have hoff : (s.shelf i).state = .off → c = .none := fun ho => by simp [Shelf.enabled, ho, ShelfState.cls] at hon
  exact updShelf_command (.tail (.single (.commanded hoff h)) (.moved (.marked _)))

theorem ackShelf_command (s : State) (i : ShelfIx) (l : ShelfLatches) : ShelvesCommand s (s.ackShelf i l) :=
  updShelf_command (.single (.acknowledged _ l))

theorem ackRef_command (s : State) (r : RefIx) (l : RefLatches) : ShelvesCommand s (s.ackRef r l) :=
  .of_refs (fun i => setRef_shelf s r _ i) fun q => by
    unfold State.ackRef
    rw [setRef_ref]
    split
    · rename_i hq
      rw [hq]
      exact ⟨rfl, rfl⟩
    · exact ⟨rfl, rfl⟩

theorem warmRestart_command (s : State) : ShelvesCommand s s.warmRestart := by
  have hrefs : ShelvesCommand s ((s.updRing Ring.restarted).mapRefs Reference.restarted) :=
    .of_refs (fun i => by rw [mapRefs_shelf]; rfl) fun r => by rw [mapRefs_ref]; exact ⟨rfl, rfl⟩
  have hshelves : ∀ u : State, ShelvesCommand u (u.mapShelves fun _ x => x.restarted) := fun u =>
    ⟨sources_congr (mapShelves_refs _ _), refStates_congr (mapShelves_refs _ _), fun i => by
      rw [mapShelves_shelf]
      exact .tail (.tail (.single (.acknowledged _ ShelfLatches.all)) (.commanded (c := .none) (fun _ => rfl) rfl))
        (.moved (.marked _))⟩
  exact (hrefs.trans (hshelves _)).trans (fullReport_shelvesEvent _).command

end Sys2Proof.Machine
end

section
/-! Which changes of a reference in use the events make, and every step as changes of `ShelvesChange`. -/

namespace Sys2Proof.Machine

/-! ### A reference in use -/

/-- A change that leaves the configuration alone and does not start a reference. -/
theorem Reference.staysOn_of_state {x y : Reference} (hcfg : y.cfg = x.cfg)
    (hstart : y.rt.state = .starting → x.rt.state = .starting) : x.StaysOn y := by
  intro hx
  refine ⟨by unfold Reference.sourceShelf; rw [hcfg], fun hy => ?_⟩
  have hs := hstart hy
  rcases hx with h | h | h <;> rw [hs] at h <;> cases h

theorem verdictEvent_starting {cfg : RefConfig} {before after : Verdict} {x : RefDynamic}
    (h : (x.verdictEvent cfg before after).state = .starting) : x.state = .starting := by
  unfold RefDynamic.verdictEvent at h
  split at h
  · unfold RefDynamic.verdictGood at h
    split at h
    · assumption
    · cases h
    · split at h
      · cases h
      · cases h
    all_goals exact h
  · unfold RefDynamic.verdictFail at h
    split at h
    · split at h
      · cases h
      · cases h
    · cases h
    all_goals exact h
  · exact h
  · exact h

theorem measured_staysOn (x : Reference) (m : Monitor) (los hit : Bool) : x.StaysOn (x.measured m los hit) :=
  Reference.staysOn_of_state rfl fun h => by
    rw [Reference.measured_rt] at h
    have hstate := verdictEvent_starting h
    exact hstate

theorem clockIn_staysOn (x : Reference) (cycles ticks : Nat) : x.StaysOn (x.clockIn cycles ticks) := by
  unfold Reference.clockIn
  split
  · exact Reference.staysOn_of_state rfl id
  · dsimp only
    split
    · exact Reference.staysOn_of_state rfl id
    · exact measured_staysOn x _ _ _

theorem watchExpired_staysOn (x : Reference) : x.StaysOn x.watchExpired := by
  unfold Reference.watchExpired
  split
  · exact measured_staysOn x _ _ _
  · exact Reference.staysOn_of_state rfl id

theorem holdOffExpired_staysOn (x : Reference) : x.StaysOn x.holdOffExpired := by
  unfold Reference.holdOffExpired
  split
  · exact Reference.staysOn_of_state rfl fun h => by cases h
  · exact Reference.staysOn_of_state rfl id

theorem restoreExpired_staysOn (x : Reference) : x.StaysOn x.restoreExpired := by
  unfold Reference.restoreExpired
  split
  · exact Reference.staysOn_of_state rfl fun h => by cases h
  · exact Reference.staysOn_of_state rfl id

theorem announceExpired_staysOn (x : Reference) : x.StaysOn x.announceExpired := by
  unfold Reference.announceExpired
  split <;> exact Reference.staysOn_of_state rfl id

theorem turnedOn_staysOn {x : Reference} (timeout : Nat) (hoff : x.rt.state = .disabled) :
    x.StaysOn (x.turnedOn timeout) := by
  intro hx
  rcases hx with h | h | h <;> rw [hoff] at h <;> cases h

theorem turnedOff_staysOn (x : Reference) : x.StaysOn x.turnedOff :=
  Reference.staysOn_of_state rfl fun h => by cases h

theorem activate_staysOn (x : Reference) : x.StaysOn { x with rt := x.rt.activate } :=
  Reference.staysOn_of_state rfl fun h => by cases h

/-- R62: WR-REF changes neither the kind nor the source shelf of an enabled reference. -/
theorem configured_staysOn {x : Reference} {cfg : RefConfig}
    (h : x.rt.state ≠ .disabled → x.cfg.fixedDiffers cfg = false) : x.StaysOn { x with cfg := cfg } := by
  intro hx
  have hon : x.rt.state ≠ .disabled := by rcases hx with h | h | h <;> rw [h] <;> exact fun hd => by cases hd
  have hstart : x.rt.state ≠ .starting := by rcases hx with h | h | h <;> rw [h] <;> exact fun hd => by cases hd
  have hfixed := h hon
  unfold RefConfig.fixedDiffers at hfixed
  simp only [Bool.or_eq_false_iff, bne_eq_false_iff_eq] at hfixed
  obtain ⟨⟨⟨⟨⟨hkind, -⟩, -⟩, hsource⟩, -⟩, -⟩ := hfixed
  refine ⟨?_, hstart⟩
  unfold Reference.sourceShelf
  rw [← hkind, ← hsource]

theorem putRef_reach {s : State} {r : RefIx} {x : Reference} (h : (s.ref r).StaysOn x) :
    ShelvesReach s (s.putRef r x) := .single (.refPut h)

theorem decayExpired_command (s : State) (r : RefIx) : ShelvesCommand s (s.setRef r (s.ref r).decayExpired) :=
  .of_refs (fun i => setRef_shelf s r _ i) fun q => by
    rw [setRef_ref]
    split
    · rename_i hq
      rw [hq]
      unfold Reference.decayExpired
      split <;> exact ⟨rfl, rfl⟩
    · exact ⟨rfl, rfl⟩

/-! ### Requests -/

section
variable (args : List Byte) (s : State)

theorem reqWrRef_shelves : ShelvesReach s (reqWrRef args s).state := by
  unfold reqWrRef
  split
  · exact .refl
  · split
    · split
      · split
        · exact .refl
        · rename_i hfixed
          split
          · exact putRef_reach (configured_staysOn fun hon => by simpa [hon] using hfixed)
          · exact .refl
      · exact .refl
    · exact .refl

theorem reqRefOn_shelves : ShelvesReach s (reqRefOn args s).state := by
  unfold reqRefOn
  split
  · split
    · exact .refl
    · split
      · exact putRef_reach (turnedOn_staysOn _ ‹_›)
      · exact .refl
  · exact .refl

theorem reqRefOff_shelves : ShelvesReach s (reqRefOff args s).state := by
  unfold reqRefOff
  split
  · split
    · exact .refl
    · split
      · exact .refl
      · exact putRef_reach (turnedOff_staysOn _)
  · exact .refl

theorem reqClrWtr_shelves : ShelvesReach s (reqClrWtr args s).state := by
  unfold reqClrWtr
  split
  · split
    · exact .refl
    · split
      · exact putRef_reach (activate_staysOn _)
      · exact .refl
  · exact .refl

theorem reqWrShelf_shelves : ShelvesReach s (reqWrShelf args s).state := by
  unfold reqWrShelf
  split
  · exact .refl
  · split
    · split
      · rw [ok_state]
        exact (writeShelf_command s _ _).reach
      · exact .refl
    · exact .refl

/-- R91, test 4. -/
theorem namesTwice_eq_false_iff {l : List Candidate} : namesTwice l = false ↔ (l.map Candidate.ref).Nodup := by
  induction l with
  | nil => simp [namesTwice]
  | cons c l ih =>
    rw [namesTwice, Bool.or_eq_false_iff, ih, List.map_cons, List.nodup_cons]
    simp [List.any_eq_false]

/-- R90, R91: what WR-CAND reads is an entry for every two octets, each of a priority from 1. -/
theorem readCandidates_legal : ∀ {b : List Byte} {l : List Candidate}, readCandidates b = some l →
    2 * l.length = b.length ∧ ∀ c ∈ l, c.prio ≠ 0
  | [], l, h => by
    obtain rfl := Option.some.inj h
    exact ⟨rfl, fun c hc => by cases hc⟩
  | [_], l, h => by cases h
  | r :: p :: rest, l, h => by
    rw [readCandidates] at h
    simp only [Option.bind_eq_bind, Option.bind_eq_some_iff, Option.pure_def, Option.some.injEq] at h
    obtain ⟨ref, -, prio, hprio, tail, htail, rfl⟩ := h
    obtain ⟨hlen, hall⟩ := readCandidates_legal htail
    have hne : prio ≠ 0 := by
      unfold readPrio at hprio
      split at hprio
      · cases hprio
      · split at hprio
        · cases hprio
        · obtain rfl := Option.some.inj hprio
          assumption
    refine ⟨by simp only [List.length_cons]; omega, fun c hc => ?_⟩
    rcases List.mem_cons.mp hc with rfl | hc
    · exact hne
    · exact hall c hc

theorem reqWrCand_shelves : ShelvesReach s (reqWrCand args s).state := by
  unfold reqWrCand
  split
  · split
    · rename_i hlen
      split
      · rename_i i l _ hcount hl
        obtain ⟨htwice, hprio⟩ := readCandidates_legal hl
        have hshort : l.length ≤ 8 := by
          have := of_decide_eq_true hcount
          omega
        cases hdup : namesTwice l with
        | true => exact .refl
        | false => exact .single (.listWritten s i hshort (namesTwice_eq_false_iff.mp hdup) hprio)
      · exact .refl
    · exact .refl
  · exact .refl

theorem reqWrXlate_shelves : ShelvesReach s (reqWrXlate args s).state := by
  unfold reqWrXlate
  split
  · exact .refl
  · split
    · split
      · rw [ok_state]
        exact (ShelvesReach.of_tables (setTable_sameTables s _ _)).trans (compareReports_shelvesEvent _).reach
      · exact .refl
    · exact .refl

theorem reqShelfOn_shelves : ShelvesReach s (reqShelfOn args s).state := by
  unfold reqShelfOn
  split
  · split
    · exact .refl
    · rename_i i _
      split
      · exact .refl
      · rename_i hoff
        refine (enableShelf_command ?_).reach
        unfold Shelf.enabled at hoff
        cases hs : (s.shelf i).state <;> simp [hs, ShelfState.cls] at hoff
        rfl
  · exact .refl

theorem reqShelfOff_shelves : ShelvesReach s (reqShelfOff args s).state := by
  unfold reqShelfOff
  split
  · split
    · exact .refl
    · split
      · exact (disableShelf_command s _).reach
      · exact .refl
  · exact .refl

variable {s} in
/-- R96, R97: the tests that a command passes. -/
theorem commandTests_none {i : ShelfIx} {c : Command} (h : s.commandTests i c = none) :
    (s.shelf i).enabled = true ∧ { s.shelf i with command := c }.commandStands = true := by
  unfold State.commandTests at h
  split at h
  · cases h
  · rename_i hon
    refine ⟨by simpa using hon, ?_⟩
    split at h
    · cases h
    · cases c with
      | none => rfl
      | hold => rfl
      | forced r =>
        dsimp only at h
        split at h
        · cases h
        · split at h
          · cases h
          · rename_i hopen
            have ho : (s.shelf i).openTo r = true := by simpa using hopen
            exact ho
      | manual r =>
        dsimp only at h
        split at h
        · cases h
        · split at h
          · cases h
          · rename_i hopen
            have ho : (s.shelf i).openTo r = true := by simpa using hopen
            exact ho

theorem reqCmd_shelves : ShelvesReach s (reqCmd args s).state := by
  unfold reqCmd
  split
  · split
    · split
      · exact (setCommand_command ‹_› rfl).reach
      · exact .refl
    · split
      · exact .refl
      · rename_i htests
        obtain ⟨hon, hstands⟩ := commandTests_none htests
        exact (setCommand_command hon hstands).reach
    · exact .refl
  · exact .refl

theorem reqLock_shelves : ShelvesReach s (reqLock args s).state := by
  unfold reqLock
  split
  · split
    · split
      · exact .refl
      · split
        · exact .refl
        · exact .single (.lockoutChanged s _ _ _)
    · exact .refl
  · exact .refl

theorem reqAck_shelves : ShelvesReach s (reqAck args s).state := by
  unfold reqAck
  split
  · split
    · split
      · exact (ackRef_command s _ _).reach
      · exact .refl
    · split
      · split
        · exact (ackShelf_command s _ _).reach
        · exact .refl
      · exact .refl
  · exact .refl

theorem reqRestart_shelves : ShelvesReach s (reqRestart args s).state := by
  unfold reqRestart
  split
  · rw [ok_state]
    exact (warmRestart_command s).reach
  · exact .refl

theorem reqTakeRole_shelves : ShelvesReach s (reqTakeRole args s).state := by
  unfold reqTakeRole
  split
  · split
    · split
      · exact .refl
      · rw [ok_state]
        have hdriving : ShelvesReach s { s with drive := .driving } := .of_tables ⟨rfl, rfl⟩
        exact hdriving.trans (fullReport_shelvesEvent _).reach
    · exact .refl
  · exact .refl

theorem reqYieldRole_shelves : ShelvesReach s (reqYieldRole args s).state := by
  unfold reqYieldRole
  split
  · exact .of_tables (enterFloating_tables s)
  · exact .refl

theorem run_shelves (q : Request) : ShelvesReach s (q.run args s).state := by
  cases q with
  | rdRef => dsimp only [Request.run]; unfold reqRdRef; (repeat' split) <;> exact .refl
  | rdShelf => dsimp only [Request.run]; unfold reqRdShelf; (repeat' split) <;> exact .refl
  | rdXlate => dsimp only [Request.run]; unfold reqRdXlate; (repeat' split) <;> exact .refl
  | rdGlobal => dsimp only [Request.run]; unfold reqRdGlobal; split <;> exact .refl
  | rdCount => dsimp only [Request.run]; unfold reqRdCount; split <;> exact .refl
  | wrRef => exact reqWrRef_shelves args s
  | wrShelf => exact reqWrShelf_shelves args s
  | wrCand => exact reqWrCand_shelves args s
  | wrXlate => exact reqWrXlate_shelves args s
  | wrGlobal => dsimp only [Request.run]; unfold reqWrGlobal; (repeat' split) <;> exact .of_tables ⟨rfl, rfl⟩
  | refOn => exact reqRefOn_shelves args s
  | refOff => exact reqRefOff_shelves args s
  | shelfOn => exact reqShelfOn_shelves args s
  | shelfOff => exact reqShelfOff_shelves args s
  | cmd => exact reqCmd_shelves args s
  | lock => exact reqLock_shelves args s
  | clrWtr => exact reqClrWtr_shelves args s
  | ack => exact reqAck_shelves args s
  | clrCount => dsimp only [Request.run]; unfold reqClrCount; split <;> exact .of_tables ⟨rfl, rfl⟩
  | restart => exact reqRestart_shelves args s
  | takeRole => exact reqTakeRole_shelves args s
  | yieldRole => exact reqYieldRole_shelves args s

end

theorem execute_shelves (s : State) (src : Byte) (payload : List Byte) :
    ShelvesReach s (s.execute src payload).state := by
  unfold State.execute
  split
  · split
    · exact .refl
    · split
      · exact .refl
      · exact run_shelves _ s _
  · exact .refl

/-! ### The Frame Handler -/

theorem takeEntry_command (src : Byte) (s : State) (e : QaEntry) : ShelvesCommand s (State.takeEntry src s e) := by
  unfold State.takeEntry
  split
  · rename_i r q _
    refine .of_refs (fun i => setRef_shelf s r _ i) fun p => ?_
    rw [setRef_ref]
    split
    · rename_i hp
      rw [hp]
      exact ⟨rfl, rfl⟩
    · exact ⟨rfl, rfl⟩
  · exact .of_tables ⟨rfl, rfl⟩

theorem handOff_command (s : State) (f : Frame) : ShelvesCommand s (s.handOff f) := by
  unfold State.handOff State.announce
  split
  · have htaken := foldl_induct (P := ShelvesCommand s) _ (fun b e h => h.trans (takeEntry_command f.src b e))
      (readQaEntries f.payload) s (.refl s)
    exact (htaken.trans (follow_shelvesEvent _ _).command).trans (endEvent_shelvesEvent _ _).command
  · exact .of_tables ⟨rfl, rfl⟩

theorem takeRequest_shelves (s : State) (f : Frame) : ShelvesReach s (s.takeRequest f) := by
  have hreserved : ShelvesReach s (s.dropHead.pushInsert .reserved) := .of_tables ⟨rfl, rfl⟩
  exact (hreserved.trans (execute_shelves _ f.src f.payload)).trans (ShelvesReach.of_tables ⟨rfl, rfl⟩)

theorem takeHead_shelves (s : State) : ShelvesReach s s.takeHead := by
  unfold State.takeHead
  split
  · exact .refl
  · rename_i f _ _
    split
    · exact .of_tables ⟨rfl, rfl⟩
    · split
      · split
        · split
          · exact takeRequest_shelves s _
          · exact .refl
        · exact .of_tables ⟨rfl, rfl⟩
      · have hdropped : ShelvesReach s s.dropHead := .of_tables ⟨rfl, rfl⟩
        have hrelayed := hdropped.trans (ShelvesReach.of_tables (relay_sameTables s.dropHead f))
        unfold State.passFrame
        dsimp only
        split
        · exact hrelayed.trans (handOff_command _ f).reach
        · exact hrelayed

theorem offerRx_tables (s : State) (f : Frame) : SameTables s (s.offerRx f) := by
  unfold State.offerRx
  split <;> exact ⟨rfl, rfl⟩

theorem frameArrives_tables (s : State) : SameTables s s.frameArrives := by
  unfold State.frameArrives
  split
  · rename_i l n e _
    cases testFrame l n e with
    | badFormat => exact ⟨rfl, rfl⟩
    | badCheck => exact ⟨rfl, rfl⟩
    | passed f =>
      obtain ⟨hrefs, hshelves⟩ := offerRx_tables (s.updRing fun g => { g with receiver := .ready }) f
      exact ⟨hrefs, hshelves⟩
  · exact ⟨rfl, rfl⟩
  · exact ⟨rfl, rfl⟩

theorem submit_shelves (s : State) (src : Byte) (payload : List Byte) : ShelvesReach s (s.submit src payload) := by
  have hoffered : ShelvesReach s (s.offerRx (s.requestFrame src payload)) := .of_tables (offerRx_tables s _)
  unfold State.submit
  split
  · split
    · exact hoffered.trans (takeHead_shelves _)
    · exact hoffered
  · exact .of_tables ⟨rfl, rfl⟩

/-! ### Every step -/

/-- A command that RESETn low holds off. -/
theorem running_shelvesReach {s t : State} {f : State → State} (h : s.running f = .next t)
    (hf : ShelvesReach s (f s)) : ShelvesReach s t := by
  unfold State.running at h
  obtain rfl := Host.Outcome.next.inj h
  split
  · exact hf
  · exact .refl

theorem exec_shelvesReach {c : Instr} {s t : State} (h : exec c s = .next t) : ShelvesReach s t := by
  cases c with
  | frameArrival => exact running_shelvesReach (f := State.frameArrives) h (.of_tables (frameArrives_tables s))
  | frameTake => exact running_shelvesReach (f := State.takeHead) h (takeHead_shelves s)
  | transmissionStart =>
    exact running_shelvesReach (f := fun s => s.updRing Ring.startSending) h (.of_tables ⟨rfl, rfl⟩)
  | transmissionEnd =>
    exact running_shelvesReach (f := fun s => s.updRing Ring.endSending) h (.of_tables ⟨rfl, rfl⟩)
  | receiverReady levels =>
    exact running_shelvesReach
      (f := fun s => s.updRing fun g => { g with receiver := levels.foldl Receiver.bit g.receiver })
      h (.of_tables ⟨rfl, rfl⟩)
  | octetTaken octet stop =>
    exact running_shelvesReach (f := fun s => s.updRing fun g => { g with receiver := g.receiver.octet octet stop })
      h (.of_tables ⟨rfl, rfl⟩)
  | comparisonPulse r cycles ticks =>
    exact running_shelvesReach (f := fun s => s.putRef r ((s.ref r).clockIn cycles ticks)) h
      (putRef_reach (clockIn_staysOn _ cycles ticks))
  | activityWatchExpiry r =>
    exact running_shelvesReach (f := fun s => s.putRef r (s.ref r).watchExpired) h
      (putRef_reach (watchExpired_staysOn _))
  | holdOffExpiry r =>
    exact running_shelvesReach (f := fun s => s.putRef r (s.ref r).holdOffExpired) h
      (putRef_reach (holdOffExpired_staysOn _))
  | restoreWaitExpiry r =>
    exact running_shelvesReach (f := fun s => s.putRef r (s.ref r).restoreExpired) h
      (putRef_reach (restoreExpired_staysOn _))
  | decayExpiry r =>
    exact running_shelvesReach (f := fun s => s.setRef r (s.ref r).decayExpired) h (decayExpired_command s r).reach
  | announcementTimerExpiry r =>
    exact running_shelvesReach (f := fun s => s.putRef r (s.ref r).announceExpired) h
      (putRef_reach (announceExpired_staysOn _))
  | settleTimerExpiry i =>
    exact running_shelvesReach (f := fun s => s.endEvent (s.settleExpired i)) h
      ((settleExpired_command s i).trans (endEvent_shelvesEvent _ _).command).reach
  | engineDone e g =>
    exact running_shelvesReach (f := fun s => s.engineEnds false e g) h (engineEnds_shelvesEvent s false e g).reach
  | alignmentLimitExpiry e g =>
    exact running_shelvesReach (f := fun s => s.limitExpired e g) h (limitExpired_shelvesEvent s e g).reach
  | holdoverPhaseExpiry i =>
    have hphase : ShelvesCommand s (s.updShelf i fun x =>
        { x with state := x.state.phaseExpired x.cfg.phaseB.toNat }) := updShelf_command (.single (.phaseExpired _ _))
    exact running_shelvesReach (f := fun s => s.endEvent (s.follow (s.updShelf i fun x =>
      { x with state := x.state.phaseExpired x.cfg.phaseB.toNat }))) h
        ((hphase.trans (follow_shelvesEvent _ _).command).trans (endEvent_shelvesEvent _ _).command).reach
  | refreshExpiry => exact running_shelvesReach (f := State.refreshExpired) h (refreshExpired_shelvesEvent s).reach
  | roleFallingEdge =>
    obtain rfl := Host.Outcome.next.inj h
    have hpin : ShelvesReach s { s with role := false } := .of_tables ⟨rfl, rfl⟩
    exact hpin.trans (ShelvesReach.of_tables (enterFloating_tables _))
  | roleRisingEdge =>
    obtain rfl := Host.Outcome.next.inj h
    exact .of_tables ⟨rfl, rfl⟩
  | resetAssert =>
    obtain rfl := Host.Outcome.next.inj h
    exact .single (.reset s)
  | resetRelease straps =>
    obtain rfl := Host.Outcome.next.inj h
    split <;> exact .of_tables ⟨rfl, rfl⟩
  | _ => exact running_shelvesReach (f := fun s => s.submit _ _) h (submit_shelves s _ _)

/-- Every step changes the tables of records by changes of `ShelvesChange` alone. -/
theorem step_shelvesReach {s t : State} (h : step s = .next t) : ShelvesReach s t := by
  unfold step at h
  split at h
  · obtain rfl := Host.Outcome.next.inj h
    unfold State.idleTick
    split
    · exact (elapse_command s 1).reach
    · exact .refl
  · rename_i c rest _
    have hpopped : ShelvesReach s { s with pending := rest } := .of_tables ⟨rfl, rfl⟩
    exact hpopped.trans (exec_shelvesReach h)

end Sys2Proof.Machine
end

section
/-! A shelf record that is legal stays legal under every change of `ShelvesChange`: R88, R90, R96, R103. -/

namespace Sys2Proof.Machine

theorem cls_eq_off {x : ShelfState} : x.cls = .off ↔ x = .off := by cases x <;> simp [ShelfState.cls]

theorem enabled_iff {x : Shelf} : x.enabled = true ↔ x.state ≠ .off := by
  rw [Shelf.enabled, bne_iff_ne, ne_eq, cls_eq_off]

theorem switching_iff {x : Shelf} :
    x.switching = true ↔ ∃ c t b, x.state = .waiting c t b ∨ x.state = .aligning c t b := by
  unfold Shelf.switching
  cases x.state <;> simp [ShelfState.cls]

/-- A shelf with no current reference, or with no target, is not switching. -/
theorem not_switching_of_current_none {x : Shelf} (h : x.state.current = none) : x.switching ≠ true := by
  intro hs
  obtain ⟨c, t, b, hst | hst⟩ := switching_iff.mp hs <;> rw [hst] at h <;> cases h

/-- What the record of an OFF shelf holds: R88. -/
def Shelf.Rests (x : Shelf) : Prop :=
  x.sel = .clean ∧ x.command = .none ∧ x.latches = ShelfLatches.clear ∧ x.loopBit = false

/-- What a legal record says of the list and the command: R90, R96. -/
def Shelf.ListOk (x : Shelf) : Prop :=
  x.list.length ≤ 8 ∧ (x.list.map Candidate.ref).Nodup ∧ (∀ c ∈ x.list, c.prio ≠ 0) ∧ x.commandStands = true

theorem recordOk_iff {x : Shelf} :
    x.RecordOk ↔ x.ListOk ∧ (x.state = .off → x.Rests) ∧ (x.sel = .deferred → x.switching = true) := by
  unfold Shelf.RecordOk Shelf.ListOk Shelf.Rests
  tauto

/-- The list and the command decide whether they are legal. -/
theorem Shelf.ListOk.congr {x y : Shelf} (h : x.ListOk) (hl : y.list = x.list) (hc : y.command = x.command) :
    y.ListOk := by
  unfold Shelf.ListOk Shelf.commandStands Shelf.openTo at h ⊢
  rwa [hl, hc]

/-- A record with no command held has a legal list if its list was legal. -/
theorem Shelf.ListOk.cleared {x : Shelf} (h : x.ListOk) : Shelf.ListOk { x with command := .none } := by
  obtain ⟨hlen, hnodup, hprio, -⟩ := h
  exact ⟨hlen, hnodup, hprio, rfl⟩

/-- A change that keeps list and command, and leads to an enabled shelf that is not DEFERRED. -/
theorem Shelf.RecordOk.settled {x y : Shelf} (h : x.RecordOk) (hl : y.list = x.list) (hc : y.command = x.command)
    (hon : y.state ≠ .off) (hsel : y.sel ≠ .deferred) : y.RecordOk :=
  recordOk_iff.mpr ⟨(recordOk_iff.mp h).1.congr hl hc, fun ho => absurd ho hon, fun hd => absurd hd hsel⟩

/-- A change that keeps everything a legal record speaks of but the state, which stays on, off and in flight. -/
theorem Shelf.RecordOk.congr {x y : Shelf} (h : x.RecordOk) (hl : y.list = x.list) (hc : y.command = x.command)
    (hs : y.state.cls = x.state.cls) (hsel : y.sel = x.sel) (hlat : y.latches = x.latches)
    (hbit : y.loopBit = x.loopBit) : y.RecordOk := by
  obtain ⟨hlist, hoff, hdef⟩ := recordOk_iff.mp h
  refine recordOk_iff.mpr ⟨hlist.congr hl hc, fun ho => ?_, fun hd => ?_⟩
  · have hox : x.state = .off := cls_eq_off.mp (hs ▸ cls_eq_off.mpr ho)
    unfold Shelf.Rests
    rw [hsel, hc, hlat, hbit]
    exact hoff hox
  · unfold Shelf.switching
    rw [hs]
    exact hdef (hsel ▸ hd)

/-- A record that rests, legal, is not DEFERRED and enabled where its state says so. -/
theorem Shelf.RecordOk.not_deferred {x : Shelf} (h : x.RecordOk) (hs : x.switching ≠ true) : x.sel ≠ .deferred :=
  fun hd => hs ((recordOk_iff.mp h).2.2 hd)

/-! ### One shelf record -/

theorem mark_off {x : Shelf} (h : x.state = .off) : x.mark = x := by
  unfold Shelf.mark
  rw [if_neg]
  rw [enabled_iff]
  exact not_not.mpr h

/-- A mark leaves DEFERRED, or makes it, only a shelf that is switching. -/
theorem mark_deferred {x : Shelf} (h : x.sel = .deferred → x.switching = true) (hm : x.mark.sel = .deferred) :
    x.switching = true := by
  unfold Shelf.mark at hm
  split at hm
  · split at hm
    · cases hm
    · exact h hm
    · split at hm
      · assumption
      · cases hm
  · exact h hm

theorem Shelf.RecordOk.mark {x : Shelf} (h : x.RecordOk) : x.mark.RecordOk := by
  by_cases hoff : x.state = .off
  · rwa [mark_off hoff]
  · obtain ⟨hlist, -, hdef⟩ := recordOk_iff.mp h
    refine recordOk_iff.mpr ⟨hlist.congr (mark_list x) (mark_command x), fun ho => ?_, fun hd => ?_⟩
    · rw [mark_state] at ho
      exact absurd ho hoff
    · unfold Shelf.switching
      rw [mark_state]
      exact mark_deferred hdef hd

/-- Every change within an event keeps a legal record legal. -/
theorem ShelfMove.recordOk {x y : Shelf} (h : ShelfMove x y) (hx : x.RecordOk) : y.RecordOk := by
  cases h with
  | marked => exact hx.mark
  | reported l => exact hx.congr rfl rfl rfl rfl rfl rfl
  | granted => exact hx.congr rfl rfl (granted_switching _) rfl rfl rfl
  | abandoned n hc => exact hx.settled rfl rfl (fun h => by cases h) fun h => by cases h
  | ended n hard hu => exact hx.settled rfl rfl (fun h => by cases h) fun h => by cases h
  | muted hc =>
    have hcls : x.muted.state.cls = .holdover := holdoverEntry_cls x.cfg
    refine hx.settled rfl rfl (fun hoff => ?_) (hx.not_deferred fun hs => ?_)
    · rw [hoff] at hcls
      cases hcls
    · simp [Shelf.switching, hc, ShelfState.cls] at hs

theorem phaseExpired_cls (n : Nat) (x : ShelfState) : (x.phaseExpired n).cls = x.cls := by
  unfold ShelfState.phaseExpired
  split
  · split
    · split <;> rfl
    · rfl
  · split <;> rfl
  all_goals rfl

theorem elapse_cls (d : Nat) (x : ShelfState) : (x.elapse d).cls = x.cls := by cases x <;> rfl

theorem acknowledge_clear (live named : ShelfLatches) : ShelfLatches.clear.acknowledge live named = .clear := rfl

theorem Shelf.RecordOk.elapse {x : Shelf} (h : x.RecordOk) (d : Nat) : (x.elapse d).RecordOk := by
  cases hsel : x.sel with
  | settling n =>
    by_cases hoff : x.state = .off
    · obtain ⟨hclean, -⟩ := (recordOk_iff.mp h).2.1 hoff
      rw [hsel] at hclean
      cases hclean
    · refine h.settled rfl rfl (fun ho => hoff (cls_eq_off.mp (elapse_cls d x.state ▸ cls_eq_off.mpr ho))) ?_
      · show x.sel.elapse d ≠ .deferred
        rw [hsel]
        exact fun hd => by cases hd
  | clean => exact h.congr rfl rfl (elapse_cls d _) (by simp [Shelf.elapse, hsel, Selection.elapse]) rfl rfl
  | deferred => exact h.congr rfl rfl (elapse_cls d _) (by simp [Shelf.elapse, hsel, Selection.elapse]) rfl rfl

/-- Every change of a command keeps a legal record legal. -/
theorem ShelfChange.recordOk {src : RefIx → Option ShelfIx} {st : RefIx → RefState} {x y : Shelf}
    (h : ShelfChange src st x y) (hx : x.RecordOk) : y.RecordOk := by
  obtain ⟨hlist, hoff, hdef⟩ := recordOk_iff.mp hx
  cases h with
  | moved h => exact h.recordOk hx
  | deferred hs =>
    refine recordOk_iff.mpr ⟨hlist.congr rfl rfl, fun ho => ?_, fun _ => hs⟩
    obtain ⟨c, t, b, hst | hst⟩ := switching_iff.mp hs <;> rw [hst] at ho <;> cases ho
  | judged clears blocked hon =>
    refine recordOk_iff.mpr ⟨?_, fun ho => absurd ho (enabled_iff.mp hon), fun hd => by cases hd⟩
    cases clears with
    | false => exact hlist.congr rfl rfl
    | true => exact hlist.cleared.congr rfl rfl
  | lockedOn hc ho ht =>
    exact hx.settled rfl rfl (fun h => by cases h) (hx.not_deferred (not_switching_of_current_none hc))
  | switchedTo hc hne ho ht =>
    refine hx.settled rfl rfl (fun h => by cases h) (hx.not_deferred fun hs => ?_)
    simp [Shelf.switching, hc, ShelfState.cls] at hs
  | phaseExpired n => exact hx.congr rfl rfl (phaseExpired_cls n _) rfl rfl rfl
  | configured cfg => exact hx.congr rfl rfl rfl rfl rfl rfl
  | enabled ho =>
    refine hx.settled rfl rfl (fun h => by cases h) ?_
    rw [(hoff ho).1]
    exact fun h => by cases h
  | closed => exact recordOk_iff.mpr ⟨hlist.cleared.congr rfl rfl, fun _ => ⟨rfl, rfl, rfl, rfl⟩, fun hd => by cases hd⟩
  | commanded hnone hstands =>
    obtain ⟨hlen, hnodup, hprio, -⟩ := hlist
    refine recordOk_iff.mpr ⟨⟨hlen, hnodup, hprio, hstands⟩, fun ho => ?_, hdef⟩
    obtain ⟨hsel, -, hlat, hbit⟩ := hoff ho
    exact ⟨hsel, hnone ho, hlat, hbit⟩
  | acknowledged l =>
    refine recordOk_iff.mpr ⟨hlist.congr rfl rfl, fun ho => ?_, hdef⟩
    obtain ⟨hsel, hcmd, hlat, hbit⟩ := hoff ho
    refine ⟨hsel, hcmd, ?_, hbit⟩
    show x.latches.acknowledge x.live l = .clear
    rw [hlat, acknowledge_clear]
  | elapsed d => exact hx.elapse d

/-! ### The tables -/

/-- Every shelf record is legal. -/
def State.RecordsOk (s : State) : Prop := ∀ i, (s.shelf i).RecordOk

theorem ShelvesCommand.recordsOk {s t : State} (h : ShelvesCommand s t) (hs : s.RecordsOk) : t.RecordsOk := by
  intro i
  have hr := h.shelf i
  generalize t.shelf i = y at hr
  induction hr with
  | refl => exact hs i
  | tail _ hc ih => exact hc.recordOk ih

theorem ShelvesEvent.recordsOk {s t : State} (h : ShelvesEvent s t) (hs : s.RecordsOk) : t.RecordsOk :=
  h.command.recordsOk hs

/-- A change of one shelf record into a legal one. -/
theorem State.RecordsOk.updShelf {s : State} (hs : s.RecordsOk) {i : ShelfIx} {f : Shelf → Shelf}
    (h : (f (s.shelf i)).RecordOk) : (s.updShelf i f).RecordsOk := by
  intro j
  rw [updShelf_shelf]
  split
  · exact h
  · exact hs j

/-- A shelf record with a new list, from which the command falls unless it stands in it: step 1 of R92. -/
def Shelf.listed (l : List Candidate) (x : Shelf) : Shelf :=
  if { x with list := l }.commandStands then { x with list := l } else { x with list := l, command := .none }

theorem writeList_eq (s : State) (i : ShelfIx) (l : List Candidate) : s.writeList i l =
    s.endEvent ((((s.updShelf i (Shelf.listed l)).candTarget i).candCurrent i).markShelf i) := rfl

/-- What a new list leaves of the record: all but the command, which stays or falls. -/
theorem Shelf.listed_eq (l : List Candidate) (x : Shelf) :
    x.listed l = { x with list := l, command := (x.listed l).command } := by
  unfold Shelf.listed
  split <;> rfl

theorem Shelf.RecordOk.listed {x : Shelf} (h : x.RecordOk) {l : List Candidate} (hlen : l.length ≤ 8)
    (hnodup : (l.map Candidate.ref).Nodup) (hprio : ∀ c ∈ l, c.prio ≠ 0) : (x.listed l).RecordOk := by
  obtain ⟨-, hoff, hdef⟩ := recordOk_iff.mp h
  unfold Shelf.listed
  split
  · exact recordOk_iff.mpr ⟨⟨hlen, hnodup, hprio, ‹_›⟩, hoff, hdef⟩
  · refine recordOk_iff.mpr ⟨⟨hlen, hnodup, hprio, rfl⟩, fun ho => ?_, hdef⟩
    obtain ⟨hsel, -, hlat, hbit⟩ := hoff ho
    exact ⟨hsel, rfl, hlat, hbit⟩

theorem writeList_recordsOk {s : State} (hs : s.RecordsOk) (i : ShelfIx) {l : List Candidate} (hlen : l.length ≤ 8)
    (hnodup : (l.map Candidate.ref).Nodup) (hprio : ∀ c ∈ l, c.prio ≠ 0) : (s.writeList i l).RecordsOk := by
  rw [writeList_eq]
  have hevent := (((candTarget_shelvesEvent (s.updShelf i (Shelf.listed l)) i).trans
    (candCurrent_shelvesEvent _ i)).trans (markShelf_shelvesEvent _ i)).trans (endEvent_shelvesEvent s _)
  exact hevent.recordsOk (hs.updShelf ((hs i).listed hlen hnodup hprio))

/-- A shelf record with the lockout of `r` set or cleared, and a command for it cleared when setting: R93. -/
def Shelf.relocked (r : RefIx) (on : Bool) (x : Shelf) : Shelf :=
  { x with list := setLockout r on x.list, command := if on && x.command.names r then .none else x.command }

/-- The abandonment that a change of a lockout sets off: R93. -/
def State.lockTarget (s : State) (i : ShelfIx) (r : RefIx) (on : Bool) : State :=
  if on && (s.shelf i).state.target == some r then s.follow (s.abandon i) else s

theorem changeLockout_eq (s : State) (i : ShelfIx) (r : RefIx) (on : Bool) : s.changeLockout i r on =
    s.endEvent (((s.updShelf i (Shelf.relocked r on)).lockTarget i r on).markShelf i) := rfl

theorem lockTarget_shelvesEvent (s : State) (i : ShelfIx) (r : RefIx) (on : Bool) :
    ShelvesEvent s (s.lockTarget i r on) := by
  unfold State.lockTarget
  split
  · exact (abandon_shelvesEvent s i).trans (follow_shelvesEvent _ _)
  · exact .refl s

theorem setLockout_refs (r : RefIx) (on : Bool) (l : List Candidate) :
    (setLockout r on l).map Candidate.ref = l.map Candidate.ref := by
  unfold setLockout
  rw [List.map_map]
  refine List.map_congr_left fun c _ => ?_
  dsimp only [Function.comp]
  split <;> rfl

theorem setLockout_prio {r : RefIx} {on : Bool} {l : List Candidate} (h : ∀ c ∈ l, c.prio ≠ 0) :
    ∀ c ∈ setLockout r on l, c.prio ≠ 0 := by
  intro c hc
  obtain ⟨d, hd, rfl⟩ := List.mem_map.mp hc
  split <;> exact h d hd

/-- A reference that a shelf was open to stays open to it, unless its own lockout is set. -/
theorem openTo_relocked {x : Shelf} {r q : RefIx} {on : Bool} (h : x.openTo q = true) (hq : on = true → q ≠ r) :
    (x.relocked r on).openTo q = true := by
  unfold Shelf.openTo at h ⊢
  rw [List.any_eq_true] at h ⊢
  obtain ⟨c, hc, hopen⟩ := h
  refine ⟨_, List.mem_map_of_mem hc, ?_⟩
  split
  · rename_i hcr
    cases on with
    | false =>
      simp only [Bool.and_eq_true] at hopen
      simpa using hopen.1
    | true =>
      simp only [Bool.and_eq_true, beq_iff_eq] at hopen hcr
      exact absurd (hopen.1.symm.trans hcr) (hq rfl)
  · exact hopen

theorem Command.names_iff {c : Command} {r : RefIx} : c.names r = true ↔ c = .manual r ∨ c = .forced r := by
  cases c <;> simp [Command.names]

theorem commandStands_iff {x : Shelf} :
    x.commandStands = true ↔ ∀ r, x.command = .manual r ∨ x.command = .forced r → x.openTo r = true := by
  unfold Shelf.commandStands
  cases x.command <;> simp

theorem Shelf.RecordOk.relocked {x : Shelf} (h : x.RecordOk) (r : RefIx) (on : Bool) :
    (x.relocked r on).RecordOk := by
  obtain ⟨⟨hlen, hnodup, hprio, hstands⟩, hoff, hdef⟩ := recordOk_iff.mp h
  refine recordOk_iff.mpr ⟨⟨?_, ?_, setLockout_prio hprio, commandStands_iff.mpr fun q hq => ?_⟩, fun ho => ?_, hdef⟩
  · exact (List.length_map _).trans_le hlen
  · exact (setLockout_refs r on x.list).symm ▸ hnodup
  · have hq' : (if on && x.command.names r then Command.none else x.command) = .manual q
        ∨ (if on && x.command.names r then Command.none else x.command) = .forced q := hq
    split at hq'
    · rcases hq' with h | h <;> cases h
    · rename_i hkeeps
      refine openTo_relocked (commandStands_iff.mp hstands q hq') fun hon hqr => hkeeps ?_
      rw [hon, Bool.true_and, Command.names_iff, ← hqr]
      exact hq'
  · obtain ⟨hsel, hcmd, hlat, hbit⟩ := hoff ho
    refine ⟨hsel, ?_, hlat, hbit⟩
    show (if on && x.command.names r then Command.none else x.command) = .none
    rw [hcmd]
    exact ite_self _

theorem changeLockout_recordsOk {s : State} (hs : s.RecordsOk) (i : ShelfIx) (r : RefIx) (on : Bool) :
    (s.changeLockout i r on).RecordsOk := by
  rw [changeLockout_eq]
  have hevent := ((lockTarget_shelvesEvent (s.updShelf i (Shelf.relocked r on)) i r on).trans
    (markShelf_shelvesEvent _ i)).trans (endEvent_shelvesEvent s _)
  exact hevent.recordsOk (hs.updShelf ((hs i).relocked r on))

theorem cold_shelf (role : Bool) (n : Nat) (p : List Instr) (i : ShelfIx) :
    (State.cold role n p).shelf i = Shelf.cold := by
  simp [State.shelf, State.cold]

theorem Shelf.cold_recordOk : Shelf.cold.RecordOk :=
  recordOk_iff.mpr ⟨⟨Nat.zero_le 8, List.nodup_nil, List.forall_mem_nil _, rfl⟩, fun _ => ⟨rfl, rfl, rfl, rfl⟩,
    fun hd => by cases hd⟩

/-- Every change of the tables keeps legal records legal. -/
theorem ShelvesChange.recordsOk {s t : State} (h : ShelvesChange s t) (hs : s.RecordsOk) : t.RecordsOk := by
  cases h with
  | command h => exact h.recordsOk hs
  | reset =>
    intro i
    rw [cold_shelf]
    exact Shelf.cold_recordOk
  | refPut _ => exact (putRef_shelvesEvent _ _ _).recordsOk hs
  | listWritten i hlen hnodup hprio => exact writeList_recordsOk hs i hlen hnodup hprio
  | lockoutChanged i r on => exact changeLockout_recordsOk hs i r on

/-- Settles O59: a step is made of the changes of `ShelvesChange`, and each keeps legal records legal. -/
theorem shelfRecordsStayLegal : Obligations.ShelfRecordsStayLegal := by
  intro s t hstep hs
  exact (step_shelvesReach hstep).keeps (fun _ _ h => h.recordsOk) hs

end Sys2Proof.Machine
end

section
/-! The routes, the edges and the references in use: R88, R129, R152. `Shelf.Wired` and `Shelf.Uses` are kept by every
change within an event whatever it says of the references, so that a reference whose state changes is followed apart. -/

namespace Sys2Proof.Machine

/-! ### Routes, edges and references of one shelf record -/

/-- R88, R152: the route is the current reference, a target differs from it, and the edge slots are their sources. -/
structure Shelf.Wired (src : RefIx → Option ShelfIx) (x : Shelf) : Prop where
  route : x.route = x.state.current
  apart : ∀ t, x.state.target = some t → x.state.current ≠ some t
  curEdge : x.curEdge = x.state.current.bind src
  pendEdge : x.pendEdge = x.state.target.bind src

/-- The current reference has `P`, and the target has `Q` under the basis of the switch. -/
structure Shelf.Uses (P : RefIx → Prop) (Q : RefIx → Option Basis → Prop) (x : Shelf) : Prop where
  current : ∀ c, x.state.current = some c → P c
  target : ∀ t, x.state.target = some t → Q t x.state.basis

theorem Shelf.Uses.imp {P P' : RefIx → Prop} {Q Q' : RefIx → Option Basis → Prop} {x : Shelf} (h : x.Uses P Q)
    (hP : ∀ c, P c → P' c) (hQ : ∀ t b, Q t b → Q' t b) : x.Uses P' Q' :=
  ⟨fun c hc => hP c (h.current c hc), fun t ht => hQ t _ (h.target t ht)⟩

theorem Shelf.Uses.and {P P' : RefIx → Prop} {Q Q' : RefIx → Option Basis → Prop} {x : Shelf} (h : x.Uses P Q)
    (h' : x.Uses P' Q') : x.Uses (fun c => P c ∧ P' c) fun t b => Q t b ∧ Q' t b :=
  ⟨fun c hc => ⟨h.current c hc, h'.current c hc⟩, fun t ht => ⟨h.target t ht, h'.target t ht⟩⟩

/-- The state decides which references are in use. -/
theorem Shelf.Uses.congr {P : RefIx → Prop} {Q : RefIx → Option Basis → Prop} {x y : Shelf} (h : x.Uses P Q)
    (hc : y.state.current = x.state.current) (ht : y.state.target = x.state.target)
    (hb : y.state.basis = x.state.basis) : y.Uses P Q :=
  ⟨fun c h' => h.current c (hc ▸ h'), fun t h' => hb ▸ h.target t (ht ▸ h')⟩

theorem Shelf.Uses.of_locked {P : RefIx → Prop} {Q : RefIx → Option Basis → Prop} {x : Shelf} {c : RefIx}
    (hx : x.state = .locked c) (h : P c) : x.Uses P Q :=
  ⟨fun _ hd => Option.some.inj ((congrArg ShelfState.current hx).symm.trans hd) ▸ h,
    fun _ ht => nomatch (congrArg ShelfState.target hx).symm.trans ht⟩

/-- A shelf with neither a current reference nor a target. -/
theorem Shelf.Uses.of_none {P : RefIx → Prop} {Q : RefIx → Option Basis → Prop} {x : Shelf}
    (hc : x.state.current = none) (ht : x.state.target = none) : x.Uses P Q :=
  ⟨fun _ h => (nomatch hc.symm.trans h), fun _ h => (nomatch ht.symm.trans h)⟩

theorem Shelf.Wired.congr {src : RefIx → Option ShelfIx} {x y : Shelf} (h : x.Wired src)
    (hc : y.state.current = x.state.current) (ht : y.state.target = x.state.target) (hr : y.route = x.route)
    (he : y.curEdge = x.curEdge) (hp : y.pendEdge = x.pendEdge) : y.Wired src where
  route := by rw [hr, hc, h.route]
  apart := by rw [hc, ht]; exact h.apart
  curEdge := by rw [he, hc, h.curEdge]
  pendEdge := by rw [hp, ht, h.pendEdge]

/-- The edges read the sources of the references in use alone. -/
theorem Shelf.Wired.congr_sources {src src' : RefIx → Option ShelfIx} {x : Shelf} (h : x.Wired src)
    (hu : x.Uses (fun c => src' c = src c) fun t _ => src' t = src t) : x.Wired src' where
  route := h.route
  apart := h.apart
  curEdge := h.curEdge.trans (Option.bind_congr fun c hc => (hu.current c hc).symm)
  pendEdge := h.pendEdge.trans (Option.bind_congr fun t ht => (hu.target t ht).symm)

/-- A shelf with neither a current reference nor a target, muted and without edges. -/
theorem Shelf.Wired.of_none {src : RefIx → Option ShelfIx} {x : Shelf} (hc : x.state.current = none)
    (ht : x.state.target = none) (hr : x.route = none) (he : x.curEdge = none) (hp : x.pendEdge = none) :
    x.Wired src :=
  ⟨hr.trans hc.symm, fun _ h => (nomatch ht.symm.trans h), by rw [he, hc]; rfl, by rw [hp, ht]; rfl⟩

theorem holdoverEntry_current (c : ShelfConfig) : c.holdoverEntry.current = none := by
  unfold ShelfConfig.holdoverEntry
  split
  · rfl
  · split <;> rfl

theorem holdoverEntry_target (c : ShelfConfig) : c.holdoverEntry.target = none := by
  unfold ShelfConfig.holdoverEntry
  split
  · rfl
  · split <;> rfl

theorem target_none_of_current_none {x : ShelfState} (h : x.current = none) : x.target = none := by
  cases x <;> simp_all [ShelfState.current, ShelfState.target]

/-! ### Changes within an event -/

theorem ShelfMove.list {x y : Shelf} (h : ShelfMove x y) : y.list = x.list := by
  cases h with
  | marked => exact mark_list x
  | reported l => rfl
  | granted => rfl
  | abandoned n hc => rfl
  | ended n hard hu => rfl
  | muted hc => rfl

theorem ShelfMoves.list {x y : Shelf} (h : ShelfMoves x y) : y.list = x.list :=
  h.keeps (P := fun z => z.list = x.list) (fun _ _ hm hz => hm.list.trans hz) rfl

/-- R152: every change within an event keeps route and edges with the references in use. -/
theorem ShelfMove.wired {src : RefIx → Option ShelfIx} {x y : Shelf} (h : ShelfMove x y) (hx : x.Wired src) :
    y.Wired src := by
  cases h with
  | marked =>
    exact hx.congr (by rw [mark_state]) (by rw [mark_state]) (mark_route x) (mark_curEdge x) (mark_pendEdge x)
  | reported l => exact hx.congr rfl rfl rfl rfl rfl
  | granted => exact hx.congr (granted_current _) (granted_target _) rfl rfl rfl
  | abandoned n hc =>
    exact ⟨hx.route.trans hc, nofun, hx.curEdge.trans (by rw [hc]; rfl), rfl⟩
  | ended n hard hu => exact ⟨rfl, nofun, hx.pendEdge.trans (by rw [hu]; rfl), rfl⟩
  | muted hc =>
    exact .of_none (holdoverEntry_current _) (holdoverEntry_target _) rfl rfl (hx.pendEdge.trans (by rw [hc]; rfl))

/-- Every change within an event uses references that were in use, a target as a target or as the current one. -/
theorem ShelfMove.uses {P : RefIx → Prop} {Q : RefIx → Option Basis → Prop} (hPQ : ∀ t b, Q t b → P t) {x y : Shelf}
    (h : ShelfMove x y) (hx : x.Uses P Q) : y.Uses P Q := by
  cases h with
  | marked => exact hx.congr (by rw [mark_state]) (by rw [mark_state]) (by rw [mark_state])
  | reported l => exact hx.congr rfl rfl rfl
  | granted => exact hx.congr (granted_current _) (granted_target _) (granted_basis _)
  | abandoned n hc => exact .of_locked rfl (hx.current _ hc)
  | ended n hard hu => exact .of_locked rfl (hPQ _ _ (hx.target _ hu))
  | muted hc => exact .of_none (holdoverEntry_current _) (holdoverEntry_target _)

/-- Every reference in use has `P`. -/
abbrev Shelf.UsesAll (P : RefIx → Prop) (x : Shelf) : Prop := x.Uses P fun t _ => P t

theorem ShelfMoves.usesAlike {P : RefIx → Prop} {x y : Shelf} (h : ShelfMoves x y) (hx : x.UsesAll P) : y.UsesAll P :=
  h.keeps (fun _ _ => ShelfMove.uses (P := P) (Q := fun t _ => P t) fun _ _ => id) hx

theorem ShelfMoves.wired {src : RefIx → Option ShelfIx} {x y : Shelf} (h : ShelfMoves x y) (hx : x.Wired src) :
    y.Wired src := h.keeps (fun _ _ => ShelfMove.wired) hx

theorem ShelfMoves.uses {P : RefIx → Prop} {Q : RefIx → Option Basis → Prop} (hPQ : ∀ t b, Q t b → P t) {x y : Shelf}
    (h : ShelfMoves x y) (hx : x.Uses P Q) : y.Uses P Q := h.keeps (fun _ _ => ShelfMove.uses hPQ) hx

/-! ### The invariant -/

theorem RefState.Takes.carries {st : RefState} {b : Option Basis} (h : st.Takes b) : st.Carries :=
  h.imp id fun h => .inr h.1

theorem names_of_openTo {x : Shelf} {r : RefIx} (h : x.openTo r = true) : x.names r = true := by
  unfold Shelf.openTo at h
  unfold Shelf.names
  rw [List.any_eq_true] at h ⊢
  obtain ⟨c, hc, hopen⟩ := h
  exact ⟨c, hc, (Bool.and_eq_true _ _ ▸ hopen).1⟩

theorem names_congr {x y : Shelf} (h : y.list = x.list) (r : RefIx) : y.names r = x.names r := by
  unfold Shelf.names
  rw [h]

theorem openTo_congr {x y : Shelf} (h : y.list = x.list) (r : RefIx) : y.openTo r = x.openTo r := by
  unfold Shelf.openTo
  rw [h]

/-- R91, R93: the current reference is in the list of `x`, and the target is in it and not locked out. -/
abbrev Shelf.UsesListOf (x y : Shelf) : Prop := y.Uses (fun c => x.names c = true) fun t _ => x.openTo t = true

/-- R129: the references in use have states that serve. -/
abbrev Shelf.UsesStates (st : RefIx → RefState) (x : Shelf) : Prop :=
  x.Uses (fun c => (st c).Carries) fun t b => (st t).Takes b

/-- What R88, R129 and R152 say of one shelf record. -/
structure Shelf.InUse (src : RefIx → Option ShelfIx) (st : RefIx → RefState) (x : Shelf) : Prop where
  wired : x.Wired src
  listed : x.UsesListOf x
  states : x.UsesStates st

/-- What R88, R129 and R152 say of the tables. -/
def State.InUse (s : State) : Prop := ∀ i, (s.shelf i).InUse s.sources s.refStates

theorem inUse_iff {s : State} : s.InUse ↔ s.RoutesOk ∧ s.EdgesOk ∧ s.UsedRefsOk := by
  constructor
  · intro h
    exact ⟨fun i => ⟨(h i).wired.route, (h i).wired.apart⟩, fun i => ⟨(h i).wired.curEdge, (h i).wired.pendEdge⟩,
      fun i => ⟨fun c hc => ⟨(h i).listed.current c hc, (h i).states.current c hc⟩,
        fun t ht => ⟨(h i).listed.target t ht, (h i).states.target t ht⟩⟩⟩
  · rintro ⟨hroutes, hedges, hused⟩ i
    exact ⟨⟨(hroutes i).1, (hroutes i).2, (hedges i).1, (hedges i).2⟩,
      ⟨fun c hc => ((hused i).1 c hc).1, fun t ht => ((hused i).2 t ht).1⟩,
      ⟨fun c hc => ((hused i).1 c hc).2, fun t ht => ((hused i).2 t ht).2⟩⟩

/-- The list decides which references are in it and which are locked out. -/
theorem Shelf.Uses.congr_list {x x' y : Shelf} (h : x.UsesListOf y) (hl : x'.list = x.list) : x'.UsesListOf y :=
  h.imp (fun c hc => (names_congr hl c).trans hc) fun t _ ht => (openTo_congr hl t).trans ht

/-- Changes within an event keep the references in use in a list that is none of their concern. -/
theorem ShelfMoves.usesListOf {x y z : Shelf} (h : ShelfMoves x y) (hx : z.UsesListOf x) : z.UsesListOf y :=
  h.uses (P := fun c => z.names c = true) (Q := fun t _ => z.openTo t = true) (fun _ _ => names_of_openTo) hx

theorem ShelfMoves.usesStates {st : RefIx → RefState} {x y : Shelf} (h : ShelfMoves x y) (hx : x.UsesStates st) :
    y.UsesStates st :=
  h.uses (P := fun c => (st c).Carries) (Q := fun t b => (st t).Takes b) (fun _ _ => RefState.Takes.carries) hx

theorem ShelfMoves.inUse {src : RefIx → Option ShelfIx} {st : RefIx → RefState} {x y : Shelf} (h : ShelfMoves x y)
    (hx : x.InUse src st) : y.InUse src st :=
  ⟨h.wired hx.wired, (h.usesListOf hx.listed).congr_list h.list, h.usesStates hx.states⟩

/-! ### Commands -/

/-- A change that leaves list, route, edges and references in use alone. -/
theorem Shelf.InUse.congr {src : RefIx → Option ShelfIx} {st : RefIx → RefState} {x y : Shelf} (h : x.InUse src st)
    (hl : y.list = x.list) (hc : y.state.current = x.state.current) (ht : y.state.target = x.state.target)
    (hb : y.state.basis = x.state.basis) (hr : y.route = x.route) (he : y.curEdge = x.curEdge)
    (hp : y.pendEdge = x.pendEdge) : y.InUse src st :=
  ⟨h.wired.congr hc ht hr he hp, (h.listed.congr hc ht hb).congr_list hl, h.states.congr hc ht hb⟩

theorem phaseExpired_uses (n : Nat) (x : ShelfState) : (x.phaseExpired n).current = x.current
    ∧ (x.phaseExpired n).target = x.target ∧ (x.phaseExpired n).basis = x.basis := by
  unfold ShelfState.phaseExpired
  split
  · split
    · split <;> exact ⟨rfl, rfl, rfl⟩
    · exact ⟨rfl, rfl, rfl⟩
  · split <;> exact ⟨rfl, rfl, rfl⟩
  all_goals exact ⟨rfl, rfl, rfl⟩

theorem elapse_uses (d : Nat) (x : ShelfState) :
    (x.elapse d).current = x.current ∧ (x.elapse d).target = x.target ∧ (x.elapse d).basis = x.basis := by
  cases x <;> exact ⟨rfl, rfl, rfl⟩

/-- Every change of a command keeps routes, edges and references in use. -/
theorem ShelfChange.inUse {src : RefIx → Option ShelfIx} {st : RefIx → RefState} {x y : Shelf}
    (h : ShelfChange src st x y) (hx : x.InUse src st) : y.InUse src st := by
  cases h with
  | moved h => exact ShelfMoves.inUse (.single h) hx
  | deferred hs => exact hx.congr rfl rfl rfl rfl rfl rfl rfl
  | judged clears blocked hon => exact hx.congr rfl rfl rfl rfl rfl rfl rfl
  | lockedOn hc ho ht =>
    have hpend : x.pendEdge = none := by rw [hx.wired.pendEdge, target_none_of_current_none hc]; rfl
    exact ⟨⟨rfl, nofun, rfl, hpend⟩, .of_locked rfl (names_of_openTo ho),
      .of_locked rfl ht.carries⟩
  | @switchedTo c r b hc hne ho ht =>
    have hcur : x.state.current = some c := by rw [hc]; rfl
    have happart : ∀ t, some r = some t → some c ≠ some t := fun t h h' =>
      hne (Option.some.inj (h.trans h'.symm))
    refine ⟨⟨hx.wired.route.trans hcur, happart, hx.wired.curEdge.trans (by rw [hcur]; rfl), rfl⟩, ⟨?_, ?_⟩,
      ⟨?_, ?_⟩⟩
    · exact fun d hd => hx.listed.current d (hcur.trans hd)
    · exact fun t hrt => Option.some.inj hrt ▸ ho
    · exact fun d hd => hx.states.current d (hcur.trans hd)
    · exact fun t hrt => Option.some.inj hrt ▸ ht
  | phaseExpired n =>
    obtain ⟨hc, ht, hb⟩ := phaseExpired_uses n x.state
    exact hx.congr rfl hc ht hb rfl rfl rfl
  | configured cfg => exact hx.congr rfl rfl rfl rfl rfl rfl rfl
  | enabled ho =>
    exact hx.congr rfl (by rw [ho]; rfl) (by rw [ho]; rfl) (by rw [ho]; rfl)
      (hx.wired.route.trans (by rw [ho]; rfl)).symm rfl rfl
  | closed => exact ⟨.of_none rfl rfl rfl rfl rfl, .of_none rfl rfl, .of_none rfl rfl⟩
  | commanded hnone hstands => exact hx.congr rfl rfl rfl rfl rfl rfl rfl
  | acknowledged l => exact hx.congr rfl rfl rfl rfl rfl rfl rfl
  | elapsed d =>
    obtain ⟨hc, ht, hb⟩ := elapse_uses d x.state
    exact hx.congr rfl hc ht hb rfl rfl rfl

theorem ShelvesCommand.inUse {s t : State} (h : ShelvesCommand s t) (hs : s.InUse) : t.InUse := by
  intro i
  rw [h.sources, h.refStates]
  have hr := h.shelf i
  generalize t.shelf i = y at hr
  induction hr with
  | refl => exact hs i
  | tail _ hc ih => exact hc.inUse ih

/-! ### The loss and the abandonment of a shelf's own references -/

/-- R115, R141: the target is what a loss leaves as the current reference. -/
theorem loseCurrent_uses {s : State} {i : ShelfIx} {c : RefIx} (hc : (s.shelf i).state.current = some c) :
    ((s.loseCurrent i).shelf i).state.current = (s.shelf i).state.target
      ∧ ((s.loseCurrent i).shelf i).state.target = none := by
  have hcut : ∀ u, (s.shelf i).state.target = some u → s.loseCurrent i = s.moveToTarget true i →
      ((s.loseCurrent i).shelf i).state.current = (s.shelf i).state.target
        ∧ ((s.loseCurrent i).shelf i).state.target = none := by
    intro u hu hl
    obtain ⟨v, hv⟩ := moveToTarget_shelf_self s true i hc hu
    rw [hl, hv, hu]
    exact ⟨rfl, rfl⟩
  cases hs : (s.shelf i).state with
  | locked d =>
    obtain ⟨n, hn⟩ := loseCurrent_shelf_locked s i hs
    rw [hn]
    exact ⟨holdoverEntry_current _, holdoverEntry_target _⟩
  | waiting d u b =>
    rw [← hs]
    exact hcut u (by rw [hs]; rfl) (by unfold State.loseCurrent; rw [hs])
  | aligning d u b =>
    rw [← hs]
    exact hcut u (by rw [hs]; rfl) (by unfold State.loseCurrent; rw [hs])
  | off => rw [hs] at hc; cases hc
  | free => rw [hs] at hc; cases hc
  | holdover g t => rw [hs] at hc; cases hc

/-- After the loss, and what it sets off, the target alone may be in use. -/
theorem follow_loseCurrent_uses {P : RefIx → Prop} {Q : RefIx → Option Basis → Prop} (hPQ : ∀ t b, Q t b → P t)
    {s : State} {i : ShelfIx} {c : RefIx} (hc : (s.shelf i).state.current = some c)
    (ht : ∀ t, (s.shelf i).state.target = some t → P t) : ((s.follow (s.loseCurrent i)).shelf i).Uses P Q := by
  obtain ⟨hcur, htar⟩ := loseCurrent_uses hc
  refine ((follow_shelvesEvent s _).shelf i).uses hPQ ⟨fun d hd => ht d (hcur ▸ hd), fun t h => ?_⟩
  rw [htar] at h
  cases h

/-- After the abandonment, and what it sets off, the current reference alone may be in use. -/
theorem follow_abandon_uses {P : RefIx → Prop} {Q : RefIx → Option Basis → Prop} (hPQ : ∀ t b, Q t b → P t)
    {s : State} {i : ShelfIx} {t : RefIx} (ht : (s.shelf i).state.target = some t)
    (hc : ∀ c, (s.shelf i).state.current = some c → P c) : ((s.follow (s.abandon i)).shelf i).Uses P Q := by
  obtain ⟨_, c, hcur⟩ := target_switching ht
  obtain ⟨n, hn⟩ := abandon_shelf_self s i hcur ht
  refine ((follow_shelvesEvent s _).shelf i).uses hPQ ?_
  rw [hn]
  exact .of_locked rfl (hc c hcur)

/-! ### The event of a reference -/

theorem basis_of_target {x : ShelfState} {t : RefIx} (h : x.target = some t) : ∃ b, x.basis = some b := by
  cases x with
  | waiting c u b => exact ⟨b, rfl⟩
  | aligning c u b => exact ⟨b, rfl⟩
  | off => cases h
  | free => cases h
  | locked c => cases h
  | holdover g u => cases h

/-- R107: the target of a switch that passes the target test takes it. -/
theorem targetOk_takes {s : State} {i : ShelfIx} {t : RefIx} (h : s.targetOk i = true)
    (ht : (s.shelf i).state.target = some t) (hne : (s.shelf i).state.current ≠ some t) :
    (s.refStates t).Takes (s.shelf i).state.basis := by
  unfold State.targetOk at h
  rw [ht] at h
  obtain ⟨b, hb⟩ := basis_of_target ht
  rw [hb] at h
  rw [hb]
  cases b with
  | automatic => exact (eligibleUnder_takes h).2 hne _
  | forced => exact (forcedUnder_takes h).2 hne

/-- A shelf that uses reference `r` uses it in the state `st`. -/
abbrev Shelf.Suits (r : RefIx) (st : RefState) (x : Shelf) : Prop :=
  x.Uses (fun c => c = r → st.Carries) fun t b => t = r → st.Takes b

theorem ShelfMoves.suits {r : RefIx} {st : RefState} {x y : Shelf} (h : ShelfMoves x y) (hx : x.Suits r st) :
    y.Suits r st :=
  h.uses (P := fun c => c = r → st.Carries) (Q := fun t b => t = r → st.Takes b) (fun _ _ ht hr => (ht hr).carries) hx

/-- R81, R114, R140: after its part in a state change of `r`, a shelf uses `r` in its new state or not at all. -/
theorem takePart_suits {r : RefIx} {s : State} {i : ShelfIx} {src : RefIx → Option ShelfIx}
    (hw : (s.shelf i).Wired src) (hstart : (s.shelf i).state.current = some r → s.refStates r ≠ .starting) :
    ((State.takePart r s i).shelf i).Suits r (s.refStates r) := by
  have hPQ : ∀ t b, (t = r → (s.refStates r).Takes b) → t = r → (s.refStates r).Carries :=
    fun _ _ ht hr => (ht hr).carries
  unfold State.takePart
  split
  · rename_i hlost
    refine follow_loseCurrent_uses hPQ hlost.1 fun t ht htr => ?_
    exact absurd (htr ▸ hlost.1) (hw.apart t ht)
  · rename_i hkept
    split
    · rename_i hfails
      refine follow_abandon_uses hPQ hfails.1 fun c hc hcr => ?_
      exact absurd (hcr ▸ hc) (hw.apart r hfails.1)
    · rename_i hstands
      refine ⟨fun c hc hcr => ?_, fun t ht htr => ?_⟩
      · subst hcr
        have hserves : ¬((s.ref c).rt.state = .failed ∨ (s.ref c).rt.state = .disabled) := fun h => hkept ⟨hc, h⟩
        have hon := hstart hc
        unfold State.refStates at hon ⊢
        unfold RefState.Carries
        cases hst : (s.ref c).rt.state <;> simp_all
      · subst htr
        refine targetOk_takes (Bool.not_eq_false _ ▸ fun h => hstands ⟨ht, h⟩) ht (hw.apart t ht)

/-- The parts of all the shelves of a run. -/
theorem takeParts_suits {r : RefIx} {i : ShelfIx} {src : RefIx → Option ShelfIx} : ∀ {l : List ShelfIx} {s : State},
    i ∈ l → (s.shelf i).Wired src →
    (s.shelf i).UsesAll (fun c => c = r → s.refStates r ≠ .starting) →
    ((l.foldl (State.takePart r) s).shelf i).Suits r (s.refStates r)
  | j :: l, s, hi, hw, hstart => by
    have hpart := takePart_shelvesEvent r s j
    have hstates : (State.takePart r s j).refStates = s.refStates := refStates_congr hpart.refs
    rw [List.foldl_cons]
    rcases List.mem_cons.mp hi with rfl | hi
    · exact ((takeParts_shelvesEvent r l _).shelf i).suits
        (takePart_suits hw fun hc => hstart.current r hc rfl)
    · rw [← hstates]
      refine takeParts_suits hi ((hpart.shelf i).wired hw) ?_
      rw [hstates]
      exact (hpart.shelf i).usesAlike hstart

theorem deliverState_suits {s0 s1 : State} {r : RefIx} {i : ShelfIx} {src : RefIx → Option ShelfIx}
    (hw : (s1.shelf i).Wired src)
    (hstart : (s1.shelf i).UsesAll fun c => c = r → s1.refStates r ≠ .starting) :
    ((s0.deliverState s1 r).shelf i).Suits r (s1.refStates r) := by
  have hmark : ShelvesEvent s1 (s1.markNaming r) := markWhere_shelvesEvent s1 _
  have hstates : (s1.markNaming r).refStates = s1.refStates := refStates_congr hmark.refs
  refine ((follow_shelvesEvent s0 _).shelf i).suits ?_
  rw [← hstates]
  refine takeParts_suits (List.mem_finRange i) ((hmark.shelf i).wired hw) ?_
  rw [hstates]
  exact (hmark.shelf i).usesAlike hstart

theorem setRef_refStates (s : State) (r q : RefIx) (x : Reference) :
    (s.setRef r x).refStates q = if q = r then x.rt.state else s.refStates q := by
  unfold State.refStates
  rw [setRef_ref]
  split <;> rfl

/-- R81, R114, R140, R152: a reference in use that changes its state is lost, abandoned or kept by every shelf. -/
theorem putRef_inUse {s : State} (hs : s.InUse) {r : RefIx} {x : Reference} (h : (s.ref r).StaysOn x) :
    (s.putRef r x).InUse := by
  intro i
  have hevent := putRef_shelvesEvent s r x
  have hmoves : ShelfMoves (s.shelf i) ((s.putRef r x).shelf i) := hevent.shelf i
  obtain ⟨hwired, hlisted, hstates⟩ := hs i
  have huse : ∀ c, (s.refStates c).Carries →
      (s.setRef r x).sources c = s.sources c ∧ (c = r → x.rt.state ≠ .starting) := by
    intro c hc
    unfold State.sources
    rw [setRef_ref]
    split
    · rename_i hcr
      subst hcr
      exact ⟨(h hc).1, fun _ => (h hc).2⟩
    · rename_i hcr
      exact ⟨rfl, fun he => absurd he hcr⟩
  have hwired' : (s.shelf i).Wired (s.setRef r x).sources :=
    hwired.congr_sources (hstates.imp (fun c hc => (huse c hc).1) fun t _ ht => (huse t ht.carries).1)
  have hold : ((s.putRef r x).shelf i).UsesStates s.refStates :=
    hmoves.usesStates hstates
  have hnew : ((s.putRef r x).shelf i).Suits r x.rt.state := by
    by_cases hsame : x.rt.state = (s.ref r).rt.state
    · rw [hsame]
      exact hold.imp (fun c hc hcr => hcr ▸ hc) fun t b ht htr => htr ▸ ht
    · have hr : (s.setRef r x).refStates r = x.rt.state := by rw [setRef_refStates, if_pos rfl]
      have hdelivered : ((s.deliverState (s.setRef r x) r).shelf i).Suits r ((s.setRef r x).refStates r) := by
        refine deliverState_suits (i := i) hwired' ?_
        rw [hr]
        exact hstates.imp (fun c hc => (huse c hc).2) fun t _ ht => (huse t ht.carries).2
      unfold State.putRef
      dsimp only
      rw [if_neg hsame, ← hr]
      exact ((endEvent_shelvesEvent s _).shelf i).suits hdelivered
  rw [sources_congr hevent.refs, refStates_congr hevent.refs]
  refine ⟨hmoves.wired hwired', (hmoves.usesListOf hlisted).congr_list hmoves.list, ?_⟩
  refine (hold.and hnew).imp (fun c hc => ?_) fun t b ht => ?_
  · rw [setRef_refStates]
    split
    · exact hc.2 ‹_›
    · exact hc.1
  · rw [setRef_refStates]
    split
    · exact ht.2 ‹_›
    · exact ht.1

/-! ### A list written, a lockout changed -/

/-- A shelf record changed, its list and command apart, by what an event does to it, and its list by what it ends on. -/
theorem inUse_of_listed {s s1 t : State} (hs : s.InUse) {i : ShelfIx} {f : Shelf → Shelf}
    (hf : ∃ l c, f (s.shelf i) = { s.shelf i with list := l, command := c }) (hs1 : s1 = s.updShelf i f)
    (h : ShelvesEvent s1 t) (hl : (s1.shelf i).UsesListOf (t.shelf i)) : t.InUse := by
  subst hs1
  intro j
  have hmoves := h.shelf j
  rw [sources_congr h.refs, refStates_congr h.refs]
  by_cases hj : j = i
  · subst hj
    obtain ⟨l, c, hfx⟩ := hf
    rw [updShelf_shelf_self, hfx] at hmoves hl
    have hwired : Shelf.Wired s.sources { s.shelf j with list := l, command := c } :=
      (hs j).wired.congr rfl rfl rfl rfl rfl
    have hstates : Shelf.UsesStates s.refStates { s.shelf j with list := l, command := c } :=
      (hs j).states.congr rfl rfl rfl
    exact ⟨hmoves.wired hwired, hl.congr_list hmoves.list, hmoves.usesStates hstates⟩
  · rw [updShelf_shelf_of_ne s hj] at hmoves
    exact hmoves.inUse (hs j)

/-- R92, step 2: a target that stands is open. -/
theorem candTarget_uses (s : State) (i : ShelfIx) :
    ((s.candTarget i).shelf i).Uses (fun _ => True) fun t _ => (s.shelf i).openTo t = true := by
  unfold State.candTarget
  split
  · rename_i t ht
    split
    · rename_i hopen
      exact ⟨fun _ _ => trivial, fun u hu => Option.some.inj (ht.symm.trans hu) ▸ hopen⟩
    · exact follow_abandon_uses (fun _ _ _ => trivial) ht fun _ _ => trivial
  · rename_i ht
    exact ⟨fun _ _ => trivial, fun u hu => by rw [ht] at hu; cases hu⟩

/-- R92, step 3: a current reference that stands is in the list. -/
theorem candCurrent_uses {s : State} {i : ShelfIx}
    (h : (s.shelf i).Uses (fun _ => True) fun t _ => (s.shelf i).openTo t = true) :
    (s.shelf i).UsesListOf ((s.candCurrent i).shelf i) := by
  unfold State.candCurrent
  split
  · rename_i c hc
    split
    · rename_i hnamed
      exact ⟨fun d hd => Option.some.inj (hc.symm.trans hd) ▸ hnamed, h.target⟩
    · exact follow_loseCurrent_uses (P := fun c => (s.shelf i).names c = true)
        (Q := fun t _ => (s.shelf i).openTo t = true) (fun _ _ => names_of_openTo) hc fun t ht => names_of_openTo (h.target t ht)
  · rename_i hc
    exact .of_none hc (target_none_of_current_none hc)

theorem writeList_inUse {s : State} (hs : s.InUse) (i : ShelfIx) (l : List Candidate) : (s.writeList i l).InUse := by
  rw [writeList_eq]
  have htarget := candTarget_shelvesEvent (s.updShelf i (Shelf.listed l)) i
  have hcurrent := candCurrent_shelvesEvent ((s.updShelf i (Shelf.listed l)).candTarget i) i
  have hend := (markShelf_shelvesEvent (((s.updShelf i (Shelf.listed l)).candTarget i).candCurrent i) i).trans
    (endEvent_shelvesEvent s _)
  refine inUse_of_listed hs ⟨l, _, Shelf.listed_eq l _⟩ rfl ((htarget.trans hcurrent).trans hend) ?_
  refine (hend.shelf i).usesListOf (Shelf.Uses.congr_list (candCurrent_uses ?_) (htarget.shelf i).list.symm)
  exact (candTarget_uses _ i).imp (fun _ => id) fun t _ ht => (openTo_congr (htarget.shelf i).list t).trans ht

theorem names_relocked (x : Shelf) (r q : RefIx) (on : Bool) : (x.relocked r on).names q = x.names q := by
  have hmem : ∀ l : List Candidate, (l.any fun c => c.ref == q) = (l.map Candidate.ref).any (· == q) := fun l => by
    rw [List.any_map]
    rfl
  unfold Shelf.names Shelf.relocked
  rw [hmem, hmem, setLockout_refs]

/-- R93: a target whose own lockout is set is given up. -/
theorem lockTarget_uses {s : State} {i : ShelfIx} {r : RefIx} {on : Bool} {x : Shelf}
    (h : (s.shelf i).Uses (fun c => x.names c = true) fun t _ => (on = true → t ≠ r) → x.openTo t = true) :
    x.UsesListOf ((s.lockTarget i r on).shelf i) := by
  unfold State.lockTarget
  split
  · rename_i hset
    simp only [Bool.and_eq_true, beq_iff_eq] at hset
    exact follow_abandon_uses (P := fun c => x.names c = true) (Q := fun t _ => x.openTo t = true)
      (fun _ _ => names_of_openTo) hset.2 h.current
  · rename_i hkept
    refine ⟨h.current, fun t ht => h.target t ht fun hon htr => hkept ?_⟩
    rw [hon, ht, htr]
    simp

theorem changeLockout_inUse {s : State} (hs : s.InUse) (i : ShelfIx) (r : RefIx) (on : Bool) :
    (s.changeLockout i r on).InUse := by
  rw [changeLockout_eq]
  have hend := (markShelf_shelvesEvent ((s.updShelf i (Shelf.relocked r on)).lockTarget i r on) i).trans
    (endEvent_shelvesEvent s _)
  refine inUse_of_listed hs ⟨_, _, rfl⟩ rfl ((lockTarget_shelvesEvent _ i r on).trans hend) ?_
  refine (hend.shelf i).usesListOf (lockTarget_uses ?_)
  rw [updShelf_shelf_self]
  refine ⟨fun c hc => ?_, fun t ht hne => ?_⟩
  · rw [names_relocked]
    exact (hs i).listed.current c hc
  · exact openTo_relocked ((hs i).listed.target t ht) hne

/-! ### Every step -/

theorem cold_inUse (role : Bool) (n : Nat) (p : List Instr) : (State.cold role n p).InUse := by
  intro i
  rw [cold_shelf]
  exact ⟨.of_none rfl rfl rfl rfl rfl, .of_none rfl rfl, .of_none rfl rfl⟩

/-- Every change of the tables keeps routes, edges and references in use. -/
theorem ShelvesChange.inUse {s t : State} (h : ShelvesChange s t) (hs : s.InUse) : t.InUse := by
  cases h with
  | command h => exact h.inUse hs
  | reset => exact cold_inUse _ _ _
  | refPut h => exact putRef_inUse hs h
  | listWritten i hlen hnodup hprio => exact writeList_inUse hs i _
  | lockoutChanged i r on => exact changeLockout_inUse hs i r on

/-- Settles O58: a step is made of the changes of `ShelvesChange`, and each keeps the three invariants together. -/
theorem routesFollowUsableReferences : Obligations.RoutesFollowUsableReferences := by
  intro s t hstep hroutes hedges hused
  exact inUse_iff.mp ((step_shelvesReach hstep).keeps (fun _ _ h => h.inUse)
    (inUse_iff.mpr ⟨hroutes, hedges, hused⟩))

end Sys2Proof.Machine
end

section
/-! What a ready part does with a request of the shelves that passes its tests, said once for all of them, and CMD: R96,
R97, R169. -/

namespace Sys2Proof.Machine

/-! ### A request taken -/

section
variable {c : Instr} {s : State} {src tag : Byte} {args : List Byte}

/-- A request that leaves the port alone is answered with OK and does nothing else to it. -/
theorem exec_written {u : State} (q : Request) (hc : requestSent c = some (src, q.code :: tag :: args))
    (h : s.readyFor src) (ha : s.admits src) (hl : args.length ≤ 86) (hu : u.ring = s.ring)
    (hrun : q.run args (s.pushInsert .reserved) = .ok (u.pushInsert .reserved)) :
    exec c s = .next (u.withReply (s.replyFrame src q.code tag 0x00 [])) := by
  have ⟨_, _, _, hreserved, _⟩ := h
  rw [exec_taken q hc h (.inr ha) hl, hrun]
  unfold Answer.placed State.withReply State.replyFrame
  simp only [ok_state, State.pushInsert, State.updRing, State.makeFrame, hu]
  rw [fillReserved_append _ _ _ hreserved]
  rfl

/-- What the reply leaves of the state `u` behind it: the records, the engines, and every entry but the reserved one. -/
structure Replied (u t : State) : Prop where
  tables : SameTables u t
  drive : t.drive = u.drive
  engines : t.engines = u.engines
  alignQ : t.alignQ = u.alignQ
  entry : ∀ {k : Nat} {e : InsertEntry}, e ≠ .reserved → u.ring.insertQ[k]? = some e → t.ring.insertQ[k]? = some e

/-- What a ready part does with a request that it answers with OK, which keeps `v` but for its reply. -/
theorem exec_done {u v : State} (q : Request) (hc : requestSent c = some (src, q.code :: tag :: args))
    (h : s.readyFor src) (ha : s.admits src) (hl : args.length ≤ 86)
    (hrun : q.run args (s.pushInsert .reserved) = .ok u) (hv : v.ring = s.ring)
    (hkept : Kept (v.pushInsert .reserved) u) :
    ∃ t, exec c s = .next t ∧ Replied u t ∧ Kept v t ∧ RepliedWith s t (s.replyFrame src q.code tag 0x00 [])
      ∧ ∀ w, Compared w u → Compared w t := by
  have ⟨_, _, _, hreserved, _⟩ := h
  refine ⟨_, exec_taken q hc h (.inr ha) hl, ?_⟩
  rw [hrun]
  exact ⟨⟨placed_sameTables (.ok u) _ _, rfl, rfl, rfl, fun he hk => fillReserved_getElem?_of_ne _ he hk⟩,
    placed_kept (by rwa [hv]) hkept _ _, placed_repliedWith q h hv hkept, fun _ hcmp => placed_compared hcmp _ _⟩

end

/-! ### The tests of CMD -/

theorem names_iff {x : Shelf} {r : RefIx} : x.names r = true ↔ ∃ c ∈ x.list, c.ref = r := by
  unfold Shelf.names
  rw [List.any_eq_true]
  simp only [beq_iff_eq]

theorem openTo_iff {x : Shelf} {r : RefIx} : x.openTo r = true ↔ ∃ c ∈ x.list, c.ref = r ∧ c.lockout = false := by
  unfold Shelf.openTo
  rw [List.any_eq_true]
  simp only [Bool.and_eq_true, beq_iff_eq, Bool.not_eq_true']

theorem enabled_eq_false_iff {x : Shelf} : x.enabled = false ↔ x.state = .off := by
  rw [← Bool.not_eq_true, enabled_iff, not_not]

section
variable {s : State} {i : ShelfIx} {r : RefIx}

/-- R97, test 3. -/
theorem commandTests_off (ho : (s.shelf i).state = .off) (c : Command) : s.commandTests i c = some .state := by
  unfold State.commandTests
  rw [enabled_eq_false_iff.mpr ho]
  rfl

/-- R97, test 4. -/
theorem commandTests_lower (ho : (s.shelf i).state ≠ .off) {c : Command} (hl : c.level < (s.shelf i).command.level) :
    s.commandTests i c = some .lower := by
  unfold State.commandTests
  rw [enabled_iff.mpr ho, if_pos hl]
  rfl

/-- R97: HOLD lies below no command. -/
theorem commandTests_hold (ho : (s.shelf i).state ≠ .off) : s.commandTests i .hold = none := by
  have hl : ¬Command.hold.level < (s.shelf i).command.level := by
    cases (s.shelf i).command <;> simp [Command.level]
  unfold State.commandTests
  rw [enabled_iff.mpr ho, if_neg hl]
  rfl

/-- R97, tests 5 and 6, for a command that names a reference. -/
theorem commandTests_manual (ho : (s.shelf i).state ≠ .off) (hl : (s.shelf i).command.level ≤ 1) :
    s.commandTests i (.manual r) =
      if (s.shelf i).names r = false then some .notcand
      else if (s.shelf i).openTo r = false then some .locked
      else if s.eligible i r = false then some .state
      else none := by
  have hl' : ¬(Command.manual r).level < (s.shelf i).command.level := Nat.not_lt.mpr hl
  unfold State.commandTests
  rw [enabled_iff.mpr ho, if_neg hl']
  simp only [Bool.not_eq_true', Bool.not_true, Bool.false_eq_true, if_false]

theorem commandTests_forced (ho : (s.shelf i).state ≠ .off) (hl : (s.shelf i).command.level ≤ 2) :
    s.commandTests i (.forced r) =
      if (s.shelf i).names r = false then some .notcand
      else if (s.shelf i).openTo r = false then some .locked
      else none := by
  have hl' : ¬(Command.forced r).level < (s.shelf i).command.level := Nat.not_lt.mpr hl
  unfold State.commandTests
  rw [enabled_iff.mpr ho, if_neg hl']
  simp only [Bool.not_eq_true', Bool.not_true, Bool.false_eq_true, if_false]

/-- R104: what is eligible is in the list, unlocked. -/
theorem openTo_of_eligible (h : s.eligible i r = true) : (s.shelf i).openTo r = true := (eligibleUnder_takes h).1

end

/-! ### The request CMD -/

section
variable {c : Instr} {s : State} {src tag kind ref : Byte} {i : ShelfIx}

/-- R97: a CMD whose octets name no shelf or no command. -/
theorem exec_cmd_range {b : Byte} (hc : requestSent c = some (src, [0x30, tag, b, kind, ref])) (h : s.readyFor src)
    (ha : s.admits src) (hread : readIx 24 b = none ∨ readCommand kind ref = none) :
    exec c s = .next (s.withReply (s.replyFrame src 0x30 tag 0x03 [])) := by
  refine exec_refused .cmd hc h (.inr ha) (by simp) .range ?_
  dsimp only [Request.run, reqCmd]
  rcases hread with hb | hk
  · rw [hb]
  · rw [hk]
    cases readIx 24 b <;> rfl

/-- R97: what a CMD that is not CLEAR does, by its tests. -/
theorem exec_cmd_refused {m : Command} {st : Status}
    (hc : requestSent c = some (src, [0x30, tag, indexOctet i, kind, ref])) (h : s.readyFor src) (ha : s.admits src)
    (hread : readCommand kind ref = some m) (hm : m ≠ .none) (ht : s.commandTests i m = some st) :
    exec c s = .next (s.withReply (s.replyFrame src 0x30 tag st.octet [])) := by
  refine exec_refused .cmd hc h (.inr ha) (by simp) st ?_
  dsimp only [Request.run, reqCmd]
  rw [readIx_indexOctet (by decide), hread]
  cases m with
  | none => exact absurd rfl hm
  | manual r => simp only [(pushInsert_sameTables s _).commandTests, ht]
  | forced r => simp only [(pushInsert_sameTables s _).commandTests, ht]
  | hold => simp only [(pushInsert_sameTables s _).commandTests, ht]

/-- R97: a CMD taken replaces the command and marks the shelf. -/
theorem exec_cmd_taken {m : Command} (hc : requestSent c = some (src, [0x30, tag, indexOctet i, kind, ref]))
    (h : s.readyFor src) (ha : s.admits src) (hread : readCommand kind ref = some m) (ho : (s.shelf i).state ≠ .off)
    (ht : m ≠ .none → s.commandTests i m = none) :
    exec c s = .next ((s.setShelf i { s.shelf i with command := m }.mark).withReply
      (s.replyFrame src 0x30 tag 0x00 [])) := by
  refine exec_written (u := s.setCommand i m) .cmd hc h ha (by simp) rfl ?_
  have hon : ((s.pushInsert .reserved).shelf i).enabled = true := enabled_iff.mpr ho
  dsimp only [Request.run, reqCmd]
  rw [readIx_indexOctet (by decide), hread]
  cases m with
  | none => exact if_pos hon
  | manual r => simp only [(pushInsert_sameTables s _).commandTests, ht (by nofun)]; rfl
  | forced r => simp only [(pushInsert_sameTables s _).commandTests, ht (by nofun)]; rfl
  | hold => simp only [(pushInsert_sameTables s _).commandTests, ht (by nofun)]; rfl

/-- R97: CLEAR of an OFF shelf. -/
theorem exec_clear_off (hc : requestSent c = some (src, [0x30, tag, indexOctet i, 0, ref])) (h : s.readyFor src)
    (ha : s.admits src) (ho : (s.shelf i).state = .off) :
    exec c s = .next (s.withReply (s.replyFrame src 0x30 tag 0x04 [])) := by
  refine exec_refused .cmd hc h (.inr ha) (by simp) .state ?_
  have hoff : ((s.pushInsert .reserved).shelf i).enabled = false := enabled_eq_false_iff.mpr ho
  dsimp only [Request.run, reqCmd]
  rw [readIx_indexOctet (by decide)]
  exact if_neg (Bool.eq_false_iff.mp hoff)

end

theorem readCommand_none (ref : Byte) : readCommand 0 ref = some .none := rfl

theorem readCommand_hold (ref : Byte) : readCommand 3 ref = some .hold := rfl

theorem readCommand_manual (r : RefIx) : readCommand 1 (indexOctet r) = some (.manual r) :=
  congrArg (Option.map Command.manual) (readIx_indexOctet (by decide) r)

theorem readCommand_forced (r : RefIx) : readCommand 2 (indexOctet r) = some (.forced r) :=
  congrArg (Option.map Command.forced) (readIx_indexOctet (by decide) r)

theorem readCommand_manual_range {ref : Byte} (h : 32 ≤ ref.toNat) : readCommand 1 ref = none :=
  congrArg (Option.map Command.manual) (readIx_none h)

theorem readCommand_forced_range {ref : Byte} (h : 32 ≤ ref.toNat) : readCommand 2 ref = none :=
  congrArg (Option.map Command.forced) (readIx_none h)

/-- Settles O49: one equation of `State.commandTests` for each refusal, and the taken command. -/
theorem commandsAreTestedAndTaken : Obligations.CommandsAreTestedAndTaken := by
  intro s src tag ref h ha Replies
  refine ⟨fun b hb => ?_, ?_⟩
  · have hrange := readIx_none hb
    exact ⟨exec_cmd_range rfl h ha (.inl hrange), exec_cmd_range rfl h ha (.inl hrange),
      exec_cmd_range rfl h ha (.inl hrange), exec_cmd_range rfl h ha (.inl hrange)⟩
  intro i x held Taken
  have hheld : held = x.command.level := by
    show _ = Command.level x.command
    cases hx : x.command <;> simp only [held, hx] <;> rfl
  rw [hheld]
  refine ⟨fun hr => ?range, fun ho => ?off, fun ho => ?on, fun r => ?_⟩
  case range =>
    exact ⟨exec_cmd_range rfl h ha (.inr (readCommand_manual_range hr)),
      exec_cmd_range rfl h ha (.inr (readCommand_forced_range hr))⟩
  case off =>
    exact ⟨exec_clear_off rfl h ha ho,
      exec_cmd_refused rfl h ha (readCommand_hold ref) (by nofun) (commandTests_off ho _)⟩
  case on =>
    exact ⟨exec_cmd_taken rfl h ha (readCommand_none ref) ho fun hne => absurd rfl hne,
      exec_cmd_taken rfl h ha (readCommand_hold ref) ho fun _ => commandTests_hold ho⟩
  intro manual forced named unlocked
  have hnamed : named ↔ x.names r = true := names_iff.symm
  have hunlocked : unlocked ↔ x.openTo r = true := openTo_iff.symm
  have hman : ∀ {st}, s.commandTests i (.manual r) = some st →
      exec manual s = .next (s.withReply (s.replyFrame src 0x30 tag st.octet [])) :=
    fun ht => exec_cmd_refused rfl h ha (readCommand_manual r) (by nofun) ht
  have hfor : ∀ {st}, s.commandTests i (.forced r) = some st →
      exec forced s = .next (s.withReply (s.replyFrame src 0x30 tag st.octet [])) :=
    fun ht => exec_cmd_refused rfl h ha (readCommand_forced r) (by nofun) ht
  rw [hnamed, hunlocked, Bool.not_eq_true, Bool.not_eq_true]
  refine ⟨fun ho => ⟨hman (commandTests_off ho _), hfor (commandTests_off ho _)⟩, ?_, ?_, ?_, ?_, ?_, ?_, ?_, ?_, ?_⟩
  · exact fun ho hl => hman (commandTests_lower ho hl)
  · exact fun ho hl hn => hman ((commandTests_manual ho hl).trans (if_pos hn))
  · intro ho hl hn hu
    exact hman ((commandTests_manual ho hl).trans (by rw [if_neg (by simpa using hn), if_pos hu]))
  · intro ho hl hu he
    have hn := names_of_openTo hu
    exact hman ((commandTests_manual ho hl).trans
      (by rw [if_neg (by simpa using hn), if_neg (by simpa using hu), if_pos he]))
  · intro ho hl he
    have hu := openTo_of_eligible he
    have hn := names_of_openTo hu
    refine exec_cmd_taken rfl h ha (readCommand_manual r) ho fun _ => (commandTests_manual ho hl).trans ?_
    rw [if_neg (by simpa using hn), if_neg (by simpa using hu), if_neg (by simpa using he)]
  · exact fun ho hl => hfor (commandTests_lower ho hl)
  · exact fun ho hl hn => hfor ((commandTests_forced ho hl).trans (if_pos hn))
  · intro ho hl hn hu
    exact hfor ((commandTests_forced ho hl).trans (by rw [if_neg (by simpa using hn), if_pos hu]))
  · intro ho hl hu
    have hn := names_of_openTo hu
    refine exec_cmd_taken rfl h ha (readCommand_forced r) ho fun _ => (commandTests_forced ho hl).trans ?_
    rw [if_neg (by simpa using hn), if_neg (by simpa using hu)]

end Sys2Proof.Machine
end

section
/-! LOCK: what the change of a lockout leaves of its shelf, and the request's refusals: R93, R139. -/

namespace Sys2Proof.Machine

/-! ### The request's own tests -/

section
variable {s : State} {i : ShelfIx} {r : RefIx}

/-- The octet of LOCK that sets or clears. -/
def lockOctet (on : Bool) : Byte := if on then 1 else 0

theorem reqLock_range {a b v : Byte} (hbad : 23 < a.toNat ∨ 31 < b.toNat ∨ 1 < v.toNat) :
    Request.lock.run [a, b, v] s = .refuse .range s := by
  dsimp only [Request.run, reqLock]
  rcases hbad with ha | hb | hv
  · rw [readIx_none ha]
  · rw [readIx_none hb]
    cases readIx 24 a <;> rfl
  · rw [readIx_none hv]
    cases readIx 24 a <;> cases readIx 32 b <;> rfl

theorem reqLock_index (on : Bool) : Request.lock.run [indexOctet i, indexOctet r, lockOctet on] s =
    if (s.shelf i).names r = false then .refuse .notcand s
    else if (s.shelf i).openTo r = !on then .ok s
    else .ok (s.changeLockout i r on) := by
  dsimp only [Request.run, reqLock]
  rw [readIx_indexOctet (by decide), readIx_indexOctet (by decide)]
  have hv : readIx 2 (lockOctet on) = some (if on then 1 else 0) := by cases on <;> rfl
  rw [hv]
  cases on <;> simp

end

/-! ### What the change leaves of the shelf -/

section
variable (s : State) (i : ShelfIx) (r : RefIx) (on : Bool)

theorem lockTarget_kept : Kept s (s.lockTarget i r on) := by
  unfold State.lockTarget
  split
  · exact (abandon_kept s i).trans (follow_kept _ _)
  · exact Kept.refl s

/-- R93: a lockout cleared, or set on another reference than the target, leaves the switch alone. -/
theorem lockTarget_none {s : State} {i : ShelfIx} {r : RefIx} {on : Bool}
    (h : on = false ∨ (s.shelf i).state.target ≠ some r) : s.lockTarget i r on = s := by
  unfold State.lockTarget
  refine if_neg fun hc => ?_
  simp only [Bool.and_eq_true, beq_iff_eq] at hc
  rcases h with h | h
  · rw [hc.1] at h
    cases h
  · exact h hc.2

/-- The marks and the comparison at the end of the change. -/
theorem markShelf_endEvent_sameBut (s0 s1 : State) : SameBut i s1 (s0.endEvent (s1.markShelf i)) :=
  (markShelf_sameBut i i s1).trans (endEvent_sameBut i s0 _)

/-- An enabled shelf is dirty after them. -/
theorem markShelf_endEvent_dirty {i : ShelfIx} (s0 : State) {s1 : State} (h : (s1.shelf i).enabled = true) :
    DirtyAt i (s0.endEvent (s1.markShelf i)) := by
  refine endEvent_dirty i s0 _ ?_
  unfold DirtyAt
  rw [markShelf_shelf_self]
  exact mark_enabled_dirty h

/-- A switch abandoned, and what that sets off. -/
theorem abandon_follow_became {s : State} {i : ShelfIx} {c t : RefIx} (hc : (s.shelf i).state.current = some c)
    (ht : (s.shelf i).state.target = some t) : Became i (Shelf.backOn c) s (s.follow (s.abandon i)) := by
  obtain ⟨n, hn⟩ := abandon_shelf_self s i hc ht
  have hcalm := follow_calm i s (s.abandon i) (by rw [hn]; rfl)
  exact Became.calm (t := s.abandon i) ⟨n, _, hn⟩ hcalm.1 hcalm.2

/-- A shelf that an event has settled stays so under the marks and the comparison at its end. -/
theorem Became.ended {i : ShelfIx} {f : Shelf → Shelf} {s t : State} (h : Became i f s t) (s0 : State) :
    Became i f s (s0.endEvent (t.markShelf i)) :=
  h.calm (markShelf_endEvent_sameBut i s0 t) ((markShelf_keepsTimer i i t).trans (endEvent_keepsTimer i s0 _))

theorem changeLockout_kept : Kept (s.updShelf i (Shelf.relocked r on)) (s.changeLockout i r on) := by
  rw [changeLockout_eq]
  exact ((lockTarget_kept _ i r on).trans (markShelf_kept _ i)).trans (endEvent_kept s _)

variable {s i r on}

/-- R93: where no switch is given up, list, command, marks and report are all that changes. -/
theorem changeLockout_sameBut (h : on = false ∨ (s.shelf i).state.target ≠ some r) :
    SameBut i (s.updShelf i (Shelf.relocked r on)) (s.changeLockout i r on) := by
  rw [changeLockout_eq, lockTarget_none (by rwa [updShelf_shelf_self])]
  exact markShelf_endEvent_sameBut i s _

/-- R93, R139: the lockout of a target set. -/
theorem changeLockout_became {c : RefIx} (hc : (s.shelf i).state.current = some c)
    (ht : (s.shelf i).state.target = some r) :
    Became i (Shelf.backOn c) (s.updShelf i (Shelf.relocked r true)) (s.changeLockout i r true) := by
  have hset : (true && ((s.updShelf i (Shelf.relocked r true)).shelf i).state.target == some r) = true := by
    rw [updShelf_shelf_self]
    exact beq_iff_eq.mpr ht
  rw [changeLockout_eq, State.lockTarget, if_pos hset]
  refine Became.ended (abandon_follow_became ?_ (t := r) ?_) s
  · rw [updShelf_shelf_self]
    exact hc
  · rw [updShelf_shelf_self]
    exact ht

theorem changeLockout_route : ((s.changeLockout i r on).shelf i).route = (s.shelf i).route := by
  by_cases h : on = false ∨ (s.shelf i).state.target ≠ some r
  · rw [(changeLockout_sameBut h).route, updShelf_shelf_self]
    rfl
  · simp only [not_or, Bool.not_eq_false, not_not] at h
    obtain ⟨rfl, ht⟩ := h
    obtain ⟨_, c, hc⟩ := target_switching ht
    obtain ⟨n, l, hb⟩ := changeLockout_became hc ht
    rw [hb, updShelf_shelf_self]
    rfl

theorem changeLockout_dirty (ho : (s.shelf i).state ≠ .off) : DirtyAt i (s.changeLockout i r on) := by
  by_cases h : on = false ∨ (s.shelf i).state.target ≠ some r
  · rw [changeLockout_eq, lockTarget_none (by rwa [updShelf_shelf_self])]
    refine markShelf_endEvent_dirty s (enabled_iff.mpr ?_)
    rw [updShelf_shelf_self]
    exact ho
  · simp only [not_or, Bool.not_eq_false, not_not] at h
    obtain ⟨rfl, ht⟩ := h
    obtain ⟨_, c, hc⟩ := target_switching ht
    obtain ⟨n, l, hb⟩ := changeLockout_became hc ht
    unfold DirtyAt
    rw [hb]
    nofun

end

/-- Settles O50: the lockout of a target that is set abandons its switch, and every other change leaves the switch. -/
theorem lockSetsOrClearsALockout : Obligations.LockSetsOrClearsALockout := by
  intro s src tag h ha Replies
  refine ⟨fun a b v hbad => ?_, ?_⟩
  · exact exec_refused .lock rfl h (.inr ha) (by simp) .range (reqLock_range hbad)
  intro i r on x args named isOff written
  have hnamed : named ↔ x.names r = true := names_iff.symm
  have hoff : isOff ↔ x.openTo r = true := openTo_iff.symm
  have hwritten : written = x.relocked r on := by
    have hcmd : (on = true ∧ (x.command = .manual r ∨ x.command = .forced r)) ↔ (on && x.command.names r) = true := by
      rw [Bool.and_eq_true, Command.names_iff]
    simp only [written, hcmd, Shelf.relocked, setLockout, beq_iff_eq]
  have hrun : Request.lock.run args (s.pushInsert .reserved) =
      if x.names r = false then .refuse .notcand (s.pushInsert .reserved)
      else if x.openTo r = !on then .ok (s.pushInsert .reserved)
      else .ok ((s.pushInsert .reserved).changeLockout i r on) := reqLock_index on
  have hl : args.length ≤ 86 := Nat.le_of_ble_eq_true rfl
  rw [hnamed, hoff, hwritten]
  refine ⟨fun hn => ?notCandidate, fun hn hsame => ?asItWas, fun hn hdiffers => ?changed⟩
  case notCandidate =>
    exact exec_refused .lock rfl h (.inr ha) hl .notcand (hrun.trans (if_pos (Bool.eq_false_iff.mpr hn)))
  case asItWas =>
    have hopen : x.openTo r = !on := by cases on <;> simp_all
    refine exec_answered .lock rfl h (.inr ha) hl .ok [] (hrun.trans ?_)
    rw [if_neg (by simpa using hn)]
    exact if_pos hopen
  case changed =>
    have hopen : x.openTo r ≠ !on := by cases on <;> simp_all
    have hdone : Request.lock.run args (s.pushInsert .reserved) =
        .ok ((s.pushInsert .reserved).changeLockout i r on) := by
      rw [hrun, if_neg (by simpa using hn)]
      exact if_neg hopen
    obtain ⟨t, hexec, hreply, hkept, hrep, -⟩ := exec_done (c := .lock src tag args)
      (v := s.setShelf i (x.relocked r on)) .lock rfl h ha hl hdone rfl
      (changeLockout_kept (s.pushInsert .reserved) i r on)
    refine ⟨t, hexec, hkept, hrep, ?_⟩
    rw [hreply.tables.shelf]
    refine ⟨changeLockout_route, fun ho => changeLockout_dirty ho, fun hstays => ?_, fun c hon ht hc => ?_⟩
    · have hs := changeLockout_sameBut (s := s.pushInsert .reserved) hstays
      rw [hs.state, hs.latches, updShelf_shelf_self]
      exact ⟨rfl, rfl⟩
    · subst hon
      obtain ⟨n, l, hb⟩ := changeLockout_became (s := s.pushInsert .reserved) hc ht
      rw [hb, updShelf_shelf_self]
      exact ⟨rfl, rfl⟩

end Sys2Proof.Machine
end

section
/-! WR-CAND: the tests of R91, and the effects of R92 by what the new list leaves of the current reference and of the
target: R115, R139, R141. -/

namespace Sys2Proof.Machine

/-! ### The request's own tests -/

/-- R90, R91: an entry without a reference or without a priority. -/
theorem readCandidates_none {es : List (Byte × Byte)}
    (h : ∃ e ∈ es, 31 < e.1.toNat ∨ (e.2 &&& 0x7F).toNat = 0 ∨ 15 < (e.2 &&& 0x7F).toNat) :
    readCandidates (es.flatMap fun e => [e.1, e.2]) = none := by
  induction es with
  | nil =>
    obtain ⟨e, he, -⟩ := h
    cases he
  | cons e es ih =>
    obtain ⟨d, hd, hbad⟩ := h
    simp only [List.flatMap_cons, List.cons_append, List.nil_append, readCandidates, Option.bind_eq_bind]
    rcases List.mem_cons.mp hd with rfl | hd
    · rcases hbad with href | hprio
      · rw [readIx_none href]
        rfl
      · have hp : readPrio d.2 = none := by
          unfold readPrio
          rcases hprio with h0 | h15
          · have hread : readIx 16 (d.2 &&& 0x7F) = some 0 := by
              unfold readIx
              rw [dif_pos (by omega)]
              simp only [h0]
              rfl
            rw [hread]
            rfl
          · rw [readIx_none h15]
        rw [hp]
        cases readIx 32 d.1 <;> rfl
    · rw [ih ⟨d, hd, hbad⟩]
      cases readIx 32 e.1 with
      | none => rfl
      | some r => cases readPrio e.2 <;> rfl

theorem pairs_length (es : List (Byte × Byte)) : (es.flatMap fun e => [e.1, e.2]).length = 2 * es.length := by
  induction es with
  | nil => rfl
  | cons e es ih =>
    rw [List.flatMap_cons, List.length_append, ih, List.length_cons]
    simp only [List.length_cons, List.length_nil]
    omega

theorem candidateOctets_length (l : List Candidate) : (l.flatMap Candidate.octets).length = 2 * l.length := by
  induction l with
  | nil => rfl
  | cons c l ih =>
    rw [List.flatMap_cons, List.length_append, ih, Candidate.octets_eq, List.length_cons]
    simp only [List.length_cons, List.length_nil]
    omega

theorem reqWrCand_range {s : State} {a n : Byte} {rest : List Byte} (hlen : rest.length = 2 * n.toNat)
    (hbad : 23 < a.toNat ∨ 8 < n.toNat ∨ readCandidates rest = none) :
    Request.wrCand.run (a :: n :: rest) s = .refuse .range s := by
  dsimp only [Request.run, reqWrCand]
  rw [if_pos hlen]
  rcases hbad with ha | hn | hread
  · rw [readIx_none ha]
  · rw [decide_eq_false (Nat.not_le.mpr hn)]
    cases readIx 24 a <;> rfl
  · rw [hread]
    cases readIx 24 a with
    | none => rfl
    | some i => cases decide (n.toNat ≤ 8) <;> rfl

/-- R91: the octets of a list. -/
theorem reqWrCand_octets {s : State} {i : ShelfIx} {l : List Candidate} (hlen : l.length ≤ 8)
    (hprio : ∀ c ∈ l, c.prio ≠ 0) :
    Request.wrCand.run (indexOctet i :: BitVec.ofNat 8 l.length :: l.flatMap Candidate.octets) s =
      if namesTwice l then .refuse .dup s else .ok (s.writeList i l) := by
  have hcount : (BitVec.ofNat 8 l.length).toNat = l.length := by
    rw [BitVec.toNat_ofNat]
    omega
  dsimp only [Request.run, reqWrCand]
  rw [hcount, if_pos (candidateOctets_length l), readIx_indexOctet (by decide), decide_eq_true hlen,
    readCandidates_flatMap hprio]

/-! ### The command -/

/-- R92, step 1: the command falls that names no entry that the new list holds unlocked. -/
theorem listed_command {x : Shelf} {l : List Candidate} :
    ((∃ r, (x.command = .manual r ∨ x.command = .forced r) ∧ ¬∃ c ∈ l, c.ref = r ∧ c.lockout = false) →
      (x.listed l).command = .none)
    ∧ (¬(∃ r, (x.command = .manual r ∨ x.command = .forced r) ∧ ¬∃ c ∈ l, c.ref = r ∧ c.lockout = false) →
      (x.listed l).command = x.command) := by
  have hstands : Shelf.commandStands { x with list := l } = true ↔
      ∀ r, x.command = .manual r ∨ x.command = .forced r → ∃ c ∈ l, c.ref = r ∧ c.lockout = false := by
    rw [commandStands_iff]
    exact forall_congr' fun r => imp_congr_right fun _ => openTo_iff
  unfold Shelf.listed
  constructor
  · rintro ⟨r, hr, hno⟩
    rw [if_neg fun h => hno (hstands.mp h r hr)]
  · intro hno
    rw [if_pos (hstands.mpr fun r hr => not_not.mp fun hr' => hno ⟨r, hr, hr'⟩)]

/-! ### Steps 2 and 3 of R92, case by case -/

section
variable {s : State} {i : ShelfIx} {c t : RefIx}

theorem candTarget_stands (h : ∀ t, (s.shelf i).state.target = some t → (s.shelf i).openTo t = true) :
    s.candTarget i = s := by
  unfold State.candTarget
  split
  · exact if_pos (h _ ‹_›)
  · rfl

theorem candTarget_falls (ht : (s.shelf i).state.target = some t) (ho : (s.shelf i).openTo t ≠ true) :
    s.candTarget i = s.follow (s.abandon i) := by
  unfold State.candTarget
  rw [ht]
  exact if_neg ho

theorem candCurrent_stands (h : ∀ c, (s.shelf i).state.current = some c → (s.shelf i).names c = true) :
    s.candCurrent i = s := by
  unfold State.candCurrent
  split
  · exact if_pos (h _ ‹_›)
  · rfl

theorem candCurrent_falls (hc : (s.shelf i).state.current = some c) (hn : (s.shelf i).names c ≠ true) :
    s.candCurrent i = s.follow (s.loseCurrent i) := by
  unfold State.candCurrent
  rw [hc]
  exact if_neg hn

theorem candTarget_kept : Kept s (s.candTarget i) := by
  unfold State.candTarget
  split
  · split
    · exact Kept.refl s
    · exact (abandon_kept s i).trans (follow_kept _ _)
  · exact Kept.refl s

theorem candCurrent_kept : Kept s (s.candCurrent i) := by
  unfold State.candCurrent
  split
  · split
    · exact Kept.refl s
    · exact (loseCurrent_kept s i).trans (follow_kept _ _)
  · exact Kept.refl s

theorem candTarget_ring : (s.candTarget i).ring = s.ring := by
  unfold State.candTarget
  split
  · split
    · rfl
    · exact (follow_ring _ _).trans (abandon_ring s i)
  · rfl

theorem candTarget_drive : (s.candTarget i).drive = s.drive := candTarget_kept.drive

/-- R115: the loss of the reference that a shelf is LOCKED on, and what that sets off. -/
theorem loseCurrent_follow_muted (hs : (s.shelf i).state = .locked c) :
    Became i Shelf.muted s (s.follow (s.loseCurrent i)) := by
  obtain ⟨n, hn⟩ := loseCurrent_shelf_locked s i hs
  have hlost : Became i Shelf.muted s (s.loseCurrent i) := ⟨n, _, hn⟩
  have hcalm := follow_calm i s (s.loseCurrent i) (by rw [hn]; simp [Shelf.switching, holdoverEntry_cls])
  exact hlost.calm hcalm.1 hcalm.2

theorem flight_of_target {x : ShelfState} (hc : x.current = some c) (ht : x.target = some t) :
    ∃ b, x = .waiting c t b ∨ x = .aligning c t b := by
  cases x <;> simp_all [ShelfState.current, ShelfState.target]

theorem locked_of_current {x : ShelfState} (hc : x.current = some c) (ht : x.target = none) : x = .locked c := by
  cases x <;> simp_all [ShelfState.current, ShelfState.target]

/-- R141: the loss of the current reference of a switch, and what that sets off. -/
theorem loseCurrent_follow_cut (hc : (s.shelf i).state.current = some c) (ht : (s.shelf i).state.target = some t) :
    Became i (Shelf.cutTo t) s (s.follow (s.loseCurrent i)) := by
  have hl : s.loseCurrent i = s.moveToTarget true i := by
    unfold State.loseCurrent
    obtain ⟨b, h | h⟩ := flight_of_target hc ht <;> rw [h]
  obtain ⟨v, hv⟩ := moveToTarget_shelf_self s true i hc ht
  obtain ⟨n, hn⟩ := moveToTarget_sel s true i hc ht
  have hcut : Became i (Shelf.cutTo t) s (s.loseCurrent i) := by
    refine ⟨n, (s.shelf i).lastReport, ?_⟩
    rw [hv] at hn
    obtain rfl : v = .settling n := hn
    rw [hl, hv, Bool.or_true]
    rfl
  have hcalm := follow_calm i s (s.loseCurrent i) (by rw [hl, hv]; rfl)
  exact hcut.calm hcalm.1 hcalm.2

end

/-! ### The Selection Notice behind the reply -/

/-- R34, R149: a notice offered behind the entry of the reply stands there at the end of the request. -/
theorem noticed_behind_reply {s w w' u t : State} {i : ShelfIx} {p n : Option RefIx} {cause : Cause} {hard : Bool}
    (hring : w.ring = (s.pushInsert .reserved).ring) (hdrive : w.drive = s.drive)
    (hoffer : w'.ring = (w.offerSn i p n cause hard).ring) (hgrows : QueueGrows w'.ring.insertQ u.ring.insertQ)
    (ht : Replied u t) : Noticed s t 1 (s.noticeFrame i p n cause.octet (if hard then 1 else 0)) := by
  intro hd hroom
  have hlen : w.ring.insertQ.length = s.ring.insertQ.length + 1 := by
    rw [hring]
    simp [State.pushInsert]
  have hq : w'.ring.insertQ[s.ring.insertQ.length + 1]? =
      some (.sn (w.makeFrame Byte.all typeSN (snPayload i p n cause hard))) := by
    rw [hoffer, offerSn_insertQ w i p n cause hard (hdrive.trans hd) (by omega), ← hlen]
    exact List.getElem?_concat_length
  have hframe : w.makeFrame Byte.all typeSN (snPayload i p n cause hard) =
      s.noticeFrame i p n cause.octet (if hard then 1 else 0) := by
    unfold State.makeFrame
    rw [hring]
    rfl
  rw [← hframe]
  exact ht.entry (by nofun) (hgrows.sn hq)

/-! ### The list written -/

section
variable {s : State} {i : ShelfIx} {l : List Candidate} {c r : RefIx}

/-- The state in which step 1 of R92 leaves the part. -/
def State.listWritten (s : State) (i : ShelfIx) (l : List Candidate) : State := s.updShelf i (Shelf.listed l)

theorem listWritten_shelf : (s.listWritten i l).shelf i =
    { s.shelf i with list := l, command := ((s.shelf i).listed l).command } := by
  rw [State.listWritten, updShelf_shelf_self]
  exact Shelf.listed_eq l _

theorem listWritten_state : ((s.listWritten i l).shelf i).state = (s.shelf i).state := by rw [listWritten_shelf]

theorem listWritten_opens : ((s.listWritten i l).shelf i).openTo r = true ↔ ∃ c ∈ l, c.ref = r ∧ c.lockout = false := by
  rw [openTo_iff, listWritten_shelf]

theorem listWritten_names : ((s.listWritten i l).shelf i).names r = true ↔ ∃ c ∈ l, c.ref = r := by
  rw [names_iff, listWritten_shelf]

theorem writeList_of_listWritten : s.writeList i l =
    s.endEvent ((((s.listWritten i l).candTarget i).candCurrent i).markShelf i) := writeList_eq s i l

theorem writeList_kept : Kept (s.listWritten i l) (s.writeList i l) := by
  rw [writeList_of_listWritten]
  exact ((candTarget_kept.trans candCurrent_kept).trans (markShelf_kept _ i)).trans (endEvent_kept s _)

/-- An enabled shelf stays enabled through every change within an event. -/
theorem ShelfMoves.enabled {x y : Shelf} (h : ShelfMoves x y) (hx : x.enabled = true) : y.enabled = true := by
  refine h.keeps (P := fun z => z.enabled = true) (fun z w hm hz => ?_) hx
  cases hm with
  | marked =>
    unfold Shelf.enabled
    rw [mark_state]
    exact hz
  | reported l => exact hz
  | granted =>
    unfold Shelf.enabled
    rw [granted_switching]
    exact hz
  | abandoned n hc => rfl
  | ended n hard hu => rfl
  | muted hc =>
    unfold Shelf.enabled
    rw [show z.muted.state = z.cfg.holdoverEntry from rfl, holdoverEntry_cls]
    rfl

/-- R92: the mark at the end. -/
theorem writeList_dirty (ho : (s.shelf i).state ≠ .off) : DirtyAt i (s.writeList i l) := by
  rw [writeList_of_listWritten]
  refine markShelf_endEvent_dirty s ?_
  refine (((candTarget_shelvesEvent _ i).trans (candCurrent_shelvesEvent _ i)).shelf i).enabled ?_
  exact enabled_iff.mpr ((listWritten_state (l := l)).symm ▸ ho)

/-- Current reference and target, if any, stand in the new list. -/
theorem writeList_stands (hc : ∀ c, (s.shelf i).state.current = some c → ∃ d ∈ l, d.ref = c)
    (ht : ∀ r, (s.shelf i).state.target = some r → ∃ d ∈ l, d.ref = r ∧ d.lockout = false) :
    SameBut i (s.listWritten i l) (s.writeList i l) := by
  rw [writeList_of_listWritten, candTarget_stands fun r hr => listWritten_opens.mpr (ht r (listWritten_state ▸ hr)),
    candCurrent_stands fun c hr => listWritten_names.mpr (hc c (listWritten_state ▸ hr))]
  exact markShelf_endEvent_sameBut i s _

/-- R92, step 2: the target does not stand. -/
theorem candTarget_backOn (hc : (s.shelf i).state.current = some c) (hr : (s.shelf i).state.target = some r)
    (ho : ¬∃ d ∈ l, d.ref = r ∧ d.lockout = false) :
    Became i (Shelf.backOn c) (s.listWritten i l) ((s.listWritten i l).candTarget i) := by
  rw [candTarget_falls (listWritten_state.symm ▸ hr) (mt listWritten_opens.mp ho)]
  exact abandon_follow_became (listWritten_state.symm ▸ hc) (listWritten_state.symm ▸ hr)

/-- R92: the target does not stand, the current reference does. -/
theorem writeList_backOn (hc : (s.shelf i).state.current = some c) (hr : (s.shelf i).state.target = some r)
    (ho : ¬∃ d ∈ l, d.ref = r ∧ d.lockout = false) (hn : ∃ d ∈ l, d.ref = c) :
    Became i (Shelf.backOn c) (s.listWritten i l) (s.writeList i l) := by
  have hback := candTarget_backOn hc hr ho
  have hnamed : (((s.listWritten i l).candTarget i).shelf i).names c = true :=
    (names_congr (candTarget_kept.list i) c).trans (listWritten_names.mpr hn)
  have hstands : ((s.listWritten i l).candTarget i).candCurrent i = (s.listWritten i l).candTarget i := by
    refine candCurrent_stands fun d hd => ?_
    rw [backOn_locked hback] at hd
    exact Option.some.inj hd ▸ hnamed
  rw [writeList_of_listWritten, hstands]
  exact hback.ended s

/-- R92, step 3, once step 2 has left a current reference that the list does not hold. -/
theorem writeList_lost {f : Shelf → Shelf} (hc : (((s.listWritten i l).candTarget i).shelf i).state.current = some c)
    (hn : ¬∃ d ∈ l, d.ref = c)
    (h : Became i f (s.listWritten i l)
      (((s.listWritten i l).candTarget i).follow (((s.listWritten i l).candTarget i).loseCurrent i))) :
    Became i f (s.listWritten i l) (s.writeList i l)
    ∧ QueueGrows (((s.listWritten i l).candTarget i).loseCurrent i).ring.insertQ (s.writeList i l).ring.insertQ := by
  have hnot : (((s.listWritten i l).candTarget i).shelf i).names c ≠ true := by
    rw [names_congr (candTarget_kept.list i) c]
    exact mt listWritten_names.mp hn
  rw [← candCurrent_falls hc hnot] at h
  have hring := congrArg State.ring (candCurrent_falls hc hnot)
  rw [follow_ring] at hring
  rw [writeList_of_listWritten, ← hring]
  exact ⟨h.ended s, ((markShelf_kept _ i).trans (endEvent_kept s _)).queue⟩

end

/-! ### The losses of a current reference, with their Selection Notices -/

section
variable {s p t : State} {i : ShelfIx} {l : List Candidate} {c r : RefIx} (hp : p = s.pushInsert .reserved)

include hp

/-- The notices of R92 are offered behind the reply's entry. -/
theorem writeList_noticed {w : State} {new : Option RefIx} {cause : Cause} {hard : Bool} (hring : w.ring = p.ring)
    (hdrive : w.drive = p.drive) (hoffer : (w.loseCurrent i).ring = (w.offerSn i (some c) new cause hard).ring)
    (hgrows : QueueGrows (w.loseCurrent i).ring.insertQ (p.writeList i l).ring.insertQ)
    (ht : Replied (p.writeList i l) t) :
    Noticed s t 1 (s.noticeFrame i (some c) new cause.octet (if hard then 1 else 0)) := by
  subst hp
  exact noticed_behind_reply hring hdrive hoffer hgrows ht

/-- R92, R141: a target that stands takes over, with CHOSEN and HARD behind the reply. -/
theorem writeList_cut (hc : (p.shelf i).state.current = some c) (hr : (p.shelf i).state.target = some r)
    (ho : ∃ d ∈ l, d.ref = r ∧ d.lockout = false) (hn : ¬∃ d ∈ l, d.ref = c) (ht : Replied (p.writeList i l) t) :
    Became i (Shelf.cutTo r) (p.listWritten i l) (p.writeList i l)
    ∧ Noticed s t 1 (s.noticeFrame i (some c) (some r) 1 1) := by
  have hcur : ((p.listWritten i l).shelf i).state.current = some c := listWritten_state.symm ▸ hc
  have htar : ((p.listWritten i l).shelf i).state.target = some r := listWritten_state.symm ▸ hr
  have hstands : (p.listWritten i l).candTarget i = p.listWritten i l := by
    refine candTarget_stands fun q hq => listWritten_opens.mpr ?_
    exact Option.some.inj (htar.symm.trans hq) ▸ ho
  obtain ⟨b, hflight⟩ := flight_of_target hcur htar
  obtain ⟨hbecame, hgrows⟩ := writeList_lost (s := p) (by rw [hstands]; exact hcur) hn
    (by rw [hstands]; exact loseCurrent_follow_cut hcur htar)
  rw [hstands] at hgrows
  have hoffer := loseCurrent_switching_ring _ i hflight
  exact ⟨hbecame, writeList_noticed (w := p.listWritten i l) hp rfl rfl hoffer hgrows ht⟩

/-- R92, R115: the shelf is LOCKED once step 2 is done, and enters HOLDOVER, with LOST behind the reply. -/
theorem writeList_muted {f : Shelf → Shelf} (hn : ¬∃ d ∈ l, d.ref = c)
    (hlocked : (((p.listWritten i l).candTarget i).shelf i).state = .locked c)
    (h : Became i f (p.listWritten i l)
      (((p.listWritten i l).candTarget i).follow (((p.listWritten i l).candTarget i).loseCurrent i)))
    (ht : Replied (p.writeList i l) t) :
    Became i f (p.listWritten i l) (p.writeList i l) ∧ Noticed s t 1 (s.noticeFrame i (some c) none 2 0) := by
  obtain ⟨hbecame, hgrows⟩ := writeList_lost (c := c) (by rw [hlocked]; rfl) hn h
  have hring : ((p.listWritten i l).candTarget i).ring = p.ring := candTarget_ring
  have hoffer := loseCurrent_locked_ring _ i hlocked
  exact ⟨hbecame, writeList_noticed hp hring candTarget_drive hoffer hgrows ht⟩

theorem writeList_muted_locked (hc : (p.shelf i).state.current = some c) (hr : (p.shelf i).state.target = none)
    (hn : ¬∃ d ∈ l, d.ref = c) (ht : Replied (p.writeList i l) t) :
    Became i Shelf.muted (p.listWritten i l) (p.writeList i l)
    ∧ Noticed s t 1 (s.noticeFrame i (some c) none 2 0) := by
  have hstate : ((p.listWritten i l).shelf i).state = .locked c :=
    listWritten_state.trans (locked_of_current hc hr)
  have hstands : (p.listWritten i l).candTarget i = p.listWritten i l := by
    refine candTarget_stands fun q hq => ?_
    rw [hstate] at hq
    cases hq
  refine writeList_muted hp hn (by rw [hstands]; exact hstate) ?_ ht
  rw [hstands]
  exact loseCurrent_follow_muted hstate

theorem writeList_muted_switching (hc : (p.shelf i).state.current = some c) (hr : (p.shelf i).state.target = some r)
    (ho : ¬∃ d ∈ l, d.ref = r ∧ d.lockout = false) (hn : ¬∃ d ∈ l, d.ref = c) (ht : Replied (p.writeList i l) t) :
    Became i (Shelf.muted ∘ Shelf.backOn c) (p.listWritten i l) (p.writeList i l)
    ∧ Noticed s t 1 (s.noticeFrame i (some c) none 2 0) := by
  have hback := candTarget_backOn hc hr ho
  refine writeList_muted hp hn (backOn_locked hback) ?_ ht
  obtain ⟨n, k, hm⟩ := loseCurrent_follow_muted (backOn_locked hback)
  obtain ⟨n', k', hb⟩ := hback
  exact ⟨n, k, by rw [hm, hb]; rfl⟩

end

/-- Settles O51: steps 2 and 3 of R92 are split by which of current reference and target the new list lets stand. -/
theorem wrCandReplacesTheList : Obligations.WrCandReplacesTheList := by
  intro s src tag h ha Replies
  refine ⟨fun a n es hlen hn hbad => ?_, ?_⟩
  · refine exec_refused .wrCand rfl h (.inr ha) ?_ .range (reqWrCand_range (by rw [pairs_length, hn]) ?_)
    · rw [List.length_cons, List.length_cons, pairs_length]
      omega
    · exact hbad.imp id (Or.imp (fun h8 => hn.symm ▸ h8) readCandidates_none)
  intro i l hlen hprio x args lists opens falls
  have hrun : Request.wrCand.run args (s.pushInsert .reserved) =
      if namesTwice l then .refuse .dup (s.pushInsert .reserved)
      else .ok ((s.pushInsert .reserved).writeList i l) := reqWrCand_octets hlen hprio
  have hl : args.length ≤ 86 := by
    simp only [args, List.length_cons, candidateOctets_length]
    omega
  refine ⟨fun hdup => ?_, fun hnodup => ?_⟩
  · refine exec_refused .wrCand rfl h (.inr ha) hl .dup (hrun.trans (if_pos ?_))
    exact not_imp_comm.mp (fun hf => namesTwice_eq_false_iff.mp (Bool.eq_false_iff.mpr hf)) hdup
  rw [namesTwice_eq_false_iff.mpr hnodup] at hrun
  obtain ⟨t, hexec, hreply, hkept, hrep, -⟩ := exec_done (c := .wrCand src tag args) (v := s.listWritten i l) .wrCand
    rfl h ha hl hrun rfl (writeList_kept (s := s.pushInsert .reserved))
  have hcmd : (t.shelf i).command = (x.listed l).command := by rw [hkept.command, listWritten_shelf]
  refine ⟨t, hexec, ?_, ?_, ?_, ?_, hrep, ?_⟩
  · rw [hkept.list, listWritten_shelf]
  · rw [hcmd]
    exact listed_command.1
  · rw [hcmd]
    exact listed_command.2
  · rw [hcmd, ← Shelf.listed_eq]
    exact hkept
  unfold Abandoned
  rw [hreply.tables.shelf]
  refine ⟨fun ho => writeList_dirty (s := s.pushInsert .reserved) ho, fun hstays => ?stands,
    fun c r hc hr ho hn => ?back, fun c r hc hr ho hn => ?cut, fun c hc ho hn => ?muted⟩
  case stands =>
    have hsame : SameBut i ((s.pushInsert .reserved).listWritten i l) ((s.pushInsert .reserved).writeList i l) := by
      rcases hstays with hnone | ⟨c, hc, ho, hn⟩
      · refine writeList_stands (fun c hc => ?_) fun r hr => ?_
        · cases hnone.symm.trans hc
        · cases (target_none_of_current_none hnone).symm.trans hr
      · exact writeList_stands (fun d hd => Option.some.inj (hc.symm.trans hd) ▸ hn) ho
    rw [hsame.state, hsame.route, hsame.curEdge, hsame.pendEdge, hsame.latches, listWritten_shelf]
    exact ⟨rfl, rfl, rfl, rfl, rfl⟩
  case back =>
    obtain ⟨n, k, hb⟩ := writeList_backOn (s := s.pushInsert .reserved) hc hr ho hn
    rw [hb, listWritten_shelf]
    exact ⟨rfl, rfl, rfl, rfl, rfl, n, rfl⟩
  case cut =>
    obtain ⟨⟨n, k, hb⟩, hnotice⟩ := writeList_cut rfl hc hr ho hn hreply
    rw [hb, listWritten_shelf]
    exact ⟨rfl, rfl, rfl, rfl, rfl, hnotice⟩
  case muted =>
    cases hr : x.state.target with
    | none =>
      obtain ⟨⟨n, k, hb⟩, hnotice⟩ := writeList_muted_locked rfl hc hr hn hreply
      rw [hb, listWritten_shelf]
      refine ⟨rfl, rfl, rfl, rfl, ?_, hnotice⟩
      rw [Option.isSome_none, Bool.or_false]
      rfl
    | some r =>
      obtain ⟨⟨n, k, hb⟩, hnotice⟩ := writeList_muted_switching rfl hc hr (ho r hr) hn hreply
      rw [hb, listWritten_shelf]
      refine ⟨rfl, rfl, rfl, rfl, ?_, hnotice⟩
      rw [Option.isSome_some, Bool.or_true]
      rfl

end Sys2Proof.Machine
end

section
/-! WR-SHELF: its refusals, and why a write of the configuration leaves the switch of its own shelf alone: R86, R143,
R157, R162. -/

namespace Sys2Proof.Machine

/-! ### The request's own tests -/

theorem readMode_none {b : Byte} (h : 1 < b.toNat) : readMode b = none := by
  have h0 : b ≠ 0 := by rintro rfl; simp at h
  have h1 : b ≠ 1 := by rintro rfl; simp at h
  exact (if_neg h0).trans (if_neg h1)

theorem readWindow_none {b : Byte} (h : 2 < b.toNat) : readWindow b = none := by
  have h0 : b ≠ 0 := by rintro rfl; simp at h
  have h1 : b ≠ 1 := by rintro rfl; simp at h
  have h2 : b ≠ 2 := by rintro rfl; simp at h
  exact (if_neg h0).trans ((if_neg h1).trans (if_neg h2))

theorem readIx_lt {n : Nat} {b : Byte} {i : Fin n} (h : readIx n b = some i) : b.toNat < n :=
  readIx_isSome.mp (h ▸ rfl)

/-- R86: an octet out of its values. -/
theorem readShelfConfig_none {m fl w d hr dr fr a1 a0 b1 b0 : Byte}
    (h : 1 < m.toNat ∨ 14 < fl.toNat ∨ 2 < w.toNat ∨ (d.toNat ≠ 1 ∧ d.toNat ≠ 2) ∨ 14 < hr.toNat ∨ 14 < dr.toNat
      ∨ 14 < fr.toNat) : readShelfConfig [m, fl, w, d, hr, dr, fr, a1, a0, b1, b0] = none := by
  rw [Option.eq_none_iff_forall_ne_some]
  intro cfg hread
  simp only [readShelfConfig, Option.bind_eq_bind, Option.bind_eq_some_iff] at hread
  obtain ⟨_, hm, _, hfl, _, hw, _, hd, _, hhr, _, hdr, _, hfr, -⟩ := hread
  have hfl := readIx_lt hfl
  have hhr := readIx_lt hhr
  have hdr := readIx_lt hdr
  have hfr := readIx_lt hfr
  rcases h with h | h | h | h | h | h | h
  · cases (readMode_none h).symm.trans hm
  · omega
  · cases (readWindow_none h).symm.trans hw
  · have hne : d ≠ 1 ∧ d ≠ 2 := ⟨fun he => h.1 (he ▸ rfl), fun he => h.2 (he ▸ rfl)⟩
    cases (readDialect_none hne).symm.trans hd
  · omega
  · omega
  · omega

theorem reqWrShelf_range {s : State} {a : Byte} {l : List Byte} (hl : l.length = 11)
    (hbad : 23 < a.toNat ∨ readShelfConfig l = none) : Request.wrShelf.run (a :: l) s = .refuse .range s := by
  dsimp only [Request.run, reqWrShelf]
  rw [if_pos hl]
  rcases hbad with ha | hread
  · rw [readIx_none ha]
  · rw [hread]
    cases readIx 24 a <;> rfl

theorem shelfOctets_length (c : ShelfConfig) : c.octets.length = 11 := by
  simp [ShelfConfig.octets, octets]

theorem reqWrShelf_octets {s : State} {i : ShelfIx} {cfg : ShelfConfig} :
    Request.wrShelf.run (indexOctet i :: cfg.octets) s = .ok (s.writeShelf i cfg) := by
  dsimp only [Request.run, reqWrShelf]
  rw [if_pos (shelfOctets_length cfg), readIx_indexOctet (by decide), readShelfConfig_octets]

/-! ### Ranks that do not read what is written -/

/-- Ranks agree where the references do and every shelf gives the same rank: R157. -/
theorem outRankFuel_of_rankWith {s t : State} (hr : t.refs = s.refs)
    (hx : ∀ j eff, (t.shelf j).rankWith eff = (s.shelf j).rankWith eff) :
    ∀ (n : Nat) (j : ShelfIx), t.outRankFuel n j = s.outRankFuel n j
  | 0, _ => rfl
  | n + 1, j => by
    have hout : t.outRankFuel n = s.outRankFuel n := funext (outRankFuel_of_rankWith hr hx n)
    unfold State.outRankFuel
    rw [hx, hout]
    simp only [ref_congr hr]

theorem effRank_of_rankWith {s t : State} (hr : t.refs = s.refs)
    (hx : ∀ j eff, (t.shelf j).rankWith eff = (s.shelf j).rankWith eff) (r : RefIx) : t.effRank r = s.effRank r := by
  have hout : t.outRank = s.outRank := funext (outRankFuel_of_rankWith hr hx 24)
  rw [effRank_eq, effRank_eq, hout, ref_congr hr]

/-- An action that changes no effective rank and no edge sets nothing off. -/
theorem follow_of_effRank {s t : State} (h : ∀ r, t.effRank r = s.effRank r) (he : edgesDiffer s t = false) :
    s.follow t = t := by
  have hdiffers : ∀ r, rankDiffers s t r = false := fun r => by simp [rankDiffers, h r]
  unfold State.follow State.settle
  simp only [he, Bool.false_eq_true, if_false]
  rw [markWhere_none t _ fun x => by simp [namesChanged, hdiffers]]
  refine foldl_const _ _ (fun j => ?_) _
  simp only [hdiffers]
  cases (t.shelf j).state.target <;> simp

/-- R143, R157: the outgoing rank of a SWITCHING shelf does not read its configuration. -/
theorem rankWith_of_switching {x y : Shelf} (hs : y.state = x.state) (hx : x.switching = true) (eff : RefIx → Rank) :
    y.rankWith eff = x.rankWith eff := by
  obtain ⟨c, t, b, h | h⟩ := switching_iff.mp hx <;> simp only [Shelf.rankWith, hs, h]

/-! ### The write -/

section
variable {s : State} {i : ShelfIx} {cfg : ShelfConfig}

/-- The part once the configuration is written and, where mode or floor differ, the shelf is marked: R86. -/
def State.configured (s : State) (i : ShelfIx) (cfg : ShelfConfig) : State :=
  if (s.shelf i).cfg.mode != cfg.mode || (s.shelf i).cfg.floor != cfg.floor then
    (s.updShelf i fun x => { x with cfg := cfg }).markShelf i
  else s.updShelf i fun x => { x with cfg := cfg }

theorem writeShelf_eq : s.writeShelf i cfg = (s.follow (s.configured i cfg)).compareReports := rfl

theorem configured_kept : Kept (s.updShelf i fun x => { x with cfg := cfg }) (s.configured i cfg) := by
  unfold State.configured
  split
  · exact markShelf_kept _ i
  · exact Kept.refl _

theorem configured_sameBut : SameBut i (s.updShelf i fun x => { x with cfg := cfg }) (s.configured i cfg) := by
  unfold State.configured
  split
  · exact markShelf_sameBut i i _
  · exact SameBut.refl i _

theorem configured_shelf_of_ne {j : ShelfIx} (h : j ≠ i) : (s.configured i cfg).shelf j = s.shelf j := by
  unfold State.configured
  split
  · rw [markShelf_shelf, if_neg h, updShelf_shelf_of_ne s h]
  · rw [updShelf_shelf_of_ne s h]

theorem configured_state : ((s.configured i cfg).shelf i).state = (s.shelf i).state := by
  rw [configured_sameBut.state, updShelf_shelf_self]

theorem configured_records : SameRecords s (s.configured i cfg) := by
  have hw : SameRecords s (s.updShelf i fun x => { x with cfg := cfg }) := updShelf_records s i _ fun _ => rfl
  unfold State.configured
  split
  · exact hw.trans (markShelf_records _ i)
  · exact hw

theorem configured_ring : (s.configured i cfg).ring = s.ring := by
  unfold State.configured
  split <;> rfl

/-- R86: a change of mode or floor. -/
theorem configured_dirty (ho : (s.shelf i).state ≠ .off)
    (h : (s.shelf i).cfg.mode ≠ cfg.mode ∨ (s.shelf i).cfg.floor ≠ cfg.floor) : DirtyAt i (s.configured i cfg) := by
  have hdiffers : ((s.shelf i).cfg.mode != cfg.mode || (s.shelf i).cfg.floor != cfg.floor) = true := by simpa using h
  unfold State.configured
  rw [if_pos hdiffers]
  unfold DirtyAt
  rw [markShelf_shelf_self]
  refine mark_enabled_dirty (enabled_iff.mpr ?_)
  rw [updShelf_shelf_self]
  exact ho

/-- R143: the write to a SWITCHING shelf changes no rank and no edge. -/
theorem configured_quiet (h : (s.shelf i).switching = true) : s.follow (s.configured i cfg) = s.configured i cfg := by
  refine follow_of_effRank (effRank_of_rankWith configured_kept.refs fun j eff => ?_)
    (edgesDiffer_false.mpr fun j => ?_)
  · by_cases hj : j = i
    · subst hj
      exact rankWith_of_switching configured_state h eff
    · rw [configured_shelf_of_ne hj]
  · by_cases hj : j = i
    · subst hj
      rw [configured_sameBut.curEdge, configured_sameBut.pendEdge, updShelf_shelf_self]
      exact ⟨rfl, rfl⟩
    · rw [configured_shelf_of_ne hj]
      exact ⟨rfl, rfl⟩

/-- R86, R143: in every state, the write leaves its own shelf's switch alone. -/
theorem writeShelf_sameBut : SameBut i (s.updShelf i fun x => { x with cfg := cfg }) (s.writeShelf i cfg) := by
  have hfollow : SameBut i (s.configured i cfg) (s.follow (s.configured i cfg)) := by
    cases h : (s.shelf i).switching with
    | true => exact .of_eq (by rw [configured_quiet h])
    | false =>
      refine follow_sameBut i s _ ?_
      rw [← h]
      exact congrArg (fun x => ShelfState.cls x == .switching) configured_state
  rw [writeShelf_eq]
  exact (configured_sameBut.trans hfollow).trans (compareReports_sameBut i _)

theorem writeShelf_kept : Kept (s.updShelf i fun x => { x with cfg := cfg }) (s.writeShelf i cfg) := by
  rw [writeShelf_eq]
  exact (configured_kept.trans (follow_kept s _)).trans (compareReports_kept _)

theorem writeShelf_dirty (ho : (s.shelf i).state ≠ .off)
    (h : (s.shelf i).cfg.mode ≠ cfg.mode ∨ (s.shelf i).cfg.floor ≠ cfg.floor) : DirtyAt i (s.writeShelf i cfg) := by
  rw [writeShelf_eq]
  exact compareReports_induct (fun t j => offerSq_dirty i j t) _ (follow_dirty i s _ (configured_dirty ho h))

/-- R162: with room for 24 reports the comparison drops no offer. -/
theorem writeShelf_compared (hd : s.drive = .driving) (hroom : s.ring.insertQ.length + 24 ≤ 32) :
    Compared s (s.writeShelf i cfg) := by
  have hkept := (configured_kept (cfg := cfg) (i := i) (s := s)).trans (follow_kept s _)
  have hrecords : SameRecords s (s.follow (s.configured i cfg)) := configured_records.trans (follow_records s _)
  rw [writeShelf_eq]
  refine hrecords.compared (compareReports_compared _ (hkept.drive.trans hd) (.inr ?_))
  rwa [follow_ring, configured_ring]

end

/-- Settles O52: the write changes no rank while its shelf is SWITCHING, and reaches it through marks otherwise. -/
theorem wrShelfWritesTheConfiguration : Obligations.WrShelfWritesTheConfiguration := by
  intro s src tag h ha
  refine ⟨fun a m fl w d hr dr fr a1 a0 b1 b0 hbad => ?_, ?_⟩
  · exact exec_refused .wrShelf rfl h (.inr ha) (by simp) .range
      (reqWrShelf_range rfl (hbad.imp id readShelfConfig_none))
  intro i cfg x
  have hl : (indexOctet i :: cfg.octets).length ≤ 86 := by
    rw [List.length_cons, shelfOctets_length]
    omega
  obtain ⟨t, hexec, hreply, hkept, hrep, hcompared⟩ := exec_done (c := .wrShelf src tag (indexOctet i :: cfg.octets))
    (v := s.setShelf i { x with cfg := cfg }) .wrShelf rfl h ha hl reqWrShelf_octets rfl
    (writeShelf_kept (s := s.pushInsert .reserved))
  have hsame : SameBut i (s.setShelf i { x with cfg := cfg }) ((s.pushInsert .reserved).writeShelf i cfg) :=
    writeShelf_sameBut (s := s.pushInsert .reserved)
  refine ⟨t, hexec, hkept, hrep, ?_⟩
  rw [hreply.tables.shelf, hsame.state, hsame.route, hsame.curEdge, hsame.pendEdge, hsame.latches, setShelf_shelf_self]
  refine ⟨fun ho hdiffers => writeShelf_dirty (s := s.pushInsert .reserved) ho hdiffers, rfl, rfl, rfl, rfl, rfl,
    fun hd hroom => ?_⟩
  refine hcompared s (writeShelf_compared (s := s.pushInsert .reserved) hd ?_)
  simpa [State.pushInsert] using hroom

end Sys2Proof.Machine
end

section
/-! The end of an OFF shelf's part in the engines, the queues and the reports: R95, R131 to R133, R163. -/

namespace Sys2Proof.Machine

/-! ### An engine freed -/

theorem isAligning_iff {x : ShelfState} : x.isAligning = true ↔ ∃ c r b, x = .aligning c r b := by
  cases x <;> simp [ShelfState.isAligning]

theorem isWaiting_iff {x : ShelfState} : x.isWaiting = true ↔ ∃ c r b, x = .waiting c r b := by
  cases x <;> simp [ShelfState.isWaiting]

section
variable {s : State} {i : ShelfIx} {e : EngineIx} {h : Hold}

/-- R131: no other engine is held by the shelf. -/
theorem freeEngineOf_engines (hok : s.EnginesOk) (he : s.engines[e] = some h) (hi : h.shelf = i) :
    (s.freeEngineOf i).engines = s.engines.set e none := by
  obtain ⟨-, -, -, -, huniq, -⟩ := hok
  refine Vector.ext fun k hk => ?_
  unfold State.freeEngineOf
  simp only [Vector.getElem_ofFn, Fin.getElem_fin, Vector.getElem_set]
  split
  · rename_i h' hk'
    have hne : h'.shelf = i ↔ e.val = k := by
      constructor
      · intro hi'
        rw [huniq e ⟨k, hk⟩ h h' he hk' (.inl (hi.trans hi'.symm))]
      · rintro rfl
        rw [← hi, Option.some.inj (hk'.symm.trans he)]
    by_cases hek : e.val = k
    · rw [if_pos hek, if_pos (hne.mpr hek)]
    · rw [if_neg hek, if_neg (mt hne.mp hek), hk']
  · rename_i hk'
    rw [hk', ite_self]

/-- Every ALIGNING shelf gives up its engine, which passes to the head of the Alignment Queue: R131 to R133. -/
theorem releaseSwitch_passes (hok : s.EnginesOk) (he : s.engines[e] = some h) (hi : h.shelf = i) :
    EnginePasses e s (s.releaseSwitch i) := by
  have hengines := freeEngineOf_engines hok he hi
  obtain ⟨-, hwaiting, hheld, -, -, hfull⟩ := hok
  have hrelease : s.releaseSwitch i = (s.freeEngineOf i).grantFree := by
    obtain ⟨c, r, b, hst⟩ := isAligning_iff.mp (hi ▸ (hheld e h he).1)
    unfold State.releaseSwitch
    rw [hst]
  rw [hrelease]
  refine ⟨fun hq => ?_, fun j rest hq => ?_⟩
  · have hnone : (s.freeEngineOf i).grantFree = s.freeEngineOf i := by
      unfold State.grantFree State.grantWithin
      rw [freeEngineOf_alignQ, hq]
    rw [hnone, hengines, freeEngineOf_alignQ, freeEngineOf_grants, hq]
    exact ⟨rfl, rfl, rfl⟩
  · have hgrant : (s.freeEngineOf i).grantFree = (s.freeEngineOf i).grant e j rest := by
      refine grantFree_one ((freeEngineOf_alignQ s i).trans hq) ?_ fun e' hne => ?_
      · rw [hengines, Fin.getElem_fin, Vector.getElem_set_self]
      · rw [hengines, Fin.getElem_fin, Vector.getElem_set_ne _ _ fun hv => hne (Fin.ext hv.symm)]
        exact hfull (hq ▸ List.cons_ne_nil j rest) e'
    obtain ⟨c, r, b, hst⟩ := isWaiting_iff.mp ((hwaiting j).mp (hq ▸ List.mem_cons_self))
    rw [hgrant, grant_engines, grant_alignQ, grant_grants, grant_shelf, if_pos rfl, hengines, freeEngineOf_grants,
      freeEngineOf_globals, freeEngineOf_shelf, Vector.set_set]
    exact ⟨rfl, rfl, rfl, c, r, b, hst, by rw [hst]; rfl⟩

end

/-! ### A shelf that neither waits for an engine nor holds one -/

/-- Shelf `i` neither stands in the Alignment Queue nor holds an engine. -/
def Unserved (i : ShelfIx) (s : State) : Prop :=
  i ∉ s.alignQ ∧ ∀ (e : EngineIx) (h : Hold), s.engines[e] = some h → h.shelf ≠ i

section
variable {i : ShelfIx} {s t : State}

theorem Unserved.congr (h : Unserved i s) (hq : t.alignQ = s.alignQ) (he : t.engines = s.engines) : Unserved i t := by
  unfold Unserved
  rw [hq, he]
  exact h

/-- A grant serves the head of the queue. -/
theorem Unserved.grant {e : EngineIx} {j : ShelfIx} {rest : List ShelfIx} (h : Unserved i s)
    (hq : s.alignQ = j :: rest) : Unserved i (s.grant e j rest) := by
  obtain ⟨hqueue, hheld⟩ := h
  rw [hq, List.mem_cons, not_or] at hqueue
  refine ⟨hqueue.2, fun k w hk => ?_⟩
  rw [grant_engines, Fin.getElem_fin, Vector.getElem_set] at hk
  split at hk
  · rw [← Option.some.inj hk]
    exact Ne.symm hqueue.1
  · exact hheld k w hk

theorem Unserved.grantFree (h : Unserved i s) : Unserved i s.grantFree :=
  grantWithin_induct (P := Unserved i) (fun _ _ _ _ h hq _ => h.grant hq) 4 s h

/-- An engine freed is held by nobody, the others as before. -/
theorem freeEngineOf_held {j : ShelfIx} {e : EngineIx} {h : Hold} (he : (s.freeEngineOf j).engines[e] = some h) :
    s.engines[e] = some h ∧ h.shelf ≠ j := by
  unfold State.freeEngineOf at he
  simp only [Fin.getElem_fin, Vector.getElem_ofFn] at he
  split at he
  · rename_i w hw
    split at he
    · cases he
    · rename_i hne
      obtain rfl := Option.some.inj he
      exact ⟨hw, hne⟩
  · cases he

theorem Unserved.releaseSwitch (h : Unserved i s) (j : ShelfIx) : Unserved i (s.releaseSwitch j) := by
  unfold State.releaseSwitch
  split
  · exact ⟨fun hm => h.1 (List.mem_of_mem_filter hm), h.2⟩
  · refine Unserved.grantFree ⟨?_, fun e w he => h.2 e w (freeEngineOf_held he).1⟩
    rw [freeEngineOf_alignQ]
    exact h.1
  all_goals exact h

theorem Unserved.abandon (h : Unserved i s) (j : ShelfIx) : Unserved i (s.abandon j) := by
  unfold State.abandon
  split
  · exact (h.releaseSwitch j).congr rfl rfl
  · exact h

theorem Unserved.follow (h : Unserved i s) (s0 : State) : Unserved i (s0.follow s) :=
  follow_induct (P := Unserved i) (fun t p h => h.congr (markWhere_alignQ t p) (markWhere_engines t p))
    (fun _ j h _ => h.abandon j) s0 s h

theorem offerSq_engines (s : State) (j : ShelfIx) :
    (s.offerSq j).alignQ = s.alignQ ∧ (s.offerSq j).engines = s.engines := by
  unfold State.offerSq State.offerSqOf
  split
  · exact ⟨rfl, rfl⟩
  · dsimp only
    split
    · exact ⟨rfl, rfl⟩
    · split <;> exact ⟨rfl, rfl⟩

theorem Unserved.offerSq (h : Unserved i s) (j : ShelfIx) : Unserved i (s.offerSq j) :=
  h.congr (offerSq_engines s j).1 (offerSq_engines s j).2

theorem Unserved.endEvent (h : Unserved i s) (s0 : State) : Unserved i (s0.endEvent s) :=
  endEvent_induct (P := Unserved i) (fun _ j h => h.offerSq j) s0 s h

/-- R95, R131: with the queue and the engines in order, the release of a switch leaves its shelf unserved. -/
theorem releaseSwitch_unserved (hok : s.EnginesOk) : Unserved i (s.releaseSwitch i) := by
  obtain ⟨-, hwaiting, hheld, -, -, -⟩ := hok
  have hidle : ∀ x, (s.shelf i).state = x → x.isWaiting = false → x.isAligning = false → Unserved i s := by
    rintro _ rfl hw ha
    refine ⟨fun hm => ?_, fun e w he hi => ?_⟩
    · rw [(hwaiting i).mp hm] at hw
      cases hw
    · have haligning := (hheld e w he).1
      rw [hi, ha] at haligning
      cases haligning
  unfold State.releaseSwitch
  split
  · rename_i hst
    refine ⟨fun hm => ?_, fun e w he hi => ?_⟩
    · have := (List.mem_filter.mp hm).2
      simp at this
    · have haligning := (hheld e w he).1
      rw [hi, hst] at haligning
      cases haligning
  · rename_i hst
    refine Unserved.grantFree ⟨fun hm => ?_, fun e w he => (freeEngineOf_held he).2⟩
    rw [freeEngineOf_alignQ, hwaiting, hst] at hm
    cases hm
  all_goals exact hidle _ ‹_› rfl rfl

end

/-! ### An OFF shelf within an event -/

section
variable {i : ShelfIx} {s : State}

/-- R109: what an action sets off leaves an OFF shelf alone. -/
theorem follow_shelf_off (s0 : State) (h : (s.shelf i).state = .off) : (s0.follow s).shelf i = s.shelf i := by
  refine follow_induct (P := fun t => t.shelf i = s.shelf i) (fun t p ht => ?_) (fun t j ht _ => ?_) s0 s rfl
  · rw [markWhere_shelf, ht, mark_off h, ite_self]
  · rw [abandon_shelf t i j (by rw [ht, Shelf.switching, h]; rfl), ht]

/-- R162: the comparison passes over an OFF shelf, and over the SQ of it that waits. -/
theorem compareReports_off (h : (s.shelf i).state = .off) : s.compareReports.shelf i = s.shelf i
    ∧ ∀ f, .sq i f ∈ s.ring.insertQ → .sq i f ∈ s.compareReports.ring.insertQ := by
  rw [compareReports_eq]
  refine foldl_induct (P := fun t => t.shelf i = s.shelf i
    ∧ ∀ f, .sq i f ∈ s.ring.insertQ → .sq i f ∈ t.ring.insertQ) _ (fun t j ht => ?_) _ s ⟨rfl, fun _ hf => hf⟩
  obtain ⟨hshelf, hqueue⟩ := ht
  unfold offerWhere
  split
  · rename_i hp
    have hij : i ≠ j := by
      rintro rfl
      dsimp only at hp
      rw [hshelf, enabled_eq_false_iff.mpr h] at hp
      cases hp
    exact ⟨(offerSq_shelf_of_ne t hij).trans hshelf, fun f hf => offerSq_mem_of_ne t hij (hqueue f hf)⟩
  · exact ⟨hshelf, hqueue⟩

theorem endEvent_off (s0 : State) (h : (s.shelf i).state = .off) : (s0.endEvent s).shelf i = s.shelf i
    ∧ ∀ f, .sq i f ∈ s.ring.insertQ → .sq i f ∈ (s0.endEvent s).ring.insertQ := by
  unfold State.endEvent
  split
  · exact compareReports_off h
  · exact ⟨rfl, fun _ hf => hf⟩

/-- R157, R159 to R161: the report of an OFF shelf. -/
theorem report_off (h : (s.shelf i).state = .off) : s.report i =
    { code := (s.table (s.shelf i).cfg.dialect).outTable[15], rank := 15, cls := .off, squelch := none
      root := none } := by
  have hrank : s.outRank i = 15 := by
    unfold State.outRank State.outRankFuel Shelf.rankWith
    rw [h]
  have hroot : s.root i = none := by
    unfold State.root State.rootWithin
    rw [h]
    rfl
  have hsquelch : s.squelch i = none := by
    unfold State.squelch
    rw [hroot]
  unfold State.report State.outCode
  simp only [hrank, hroot, hsquelch, h]
  rfl

end

end Sys2Proof.Machine
end

section
/-! SHELF-ON and SHELF-OFF: R94, R95, R133, R149, R163. -/

namespace Sys2Proof.Machine

/-! ### The requests' own tests -/

section
variable {s : State} {i : ShelfIx} {b : Byte}

theorem reqShelfOn_range (hb : 24 ≤ b.toNat) : Request.shelfOn.run [b] s = .refuse .range s := by
  dsimp only [Request.run, reqShelfOn]
  rw [readIx_none hb]

theorem reqShelfOff_range (hb : 24 ≤ b.toNat) : Request.shelfOff.run [b] s = .refuse .range s := by
  dsimp only [Request.run, reqShelfOff]
  rw [readIx_none hb]

theorem reqShelfOn_index : Request.shelfOn.run [indexOctet i] s =
    if (s.shelf i).enabled then .refuse .state s else .ok (s.enableShelf i) := by
  dsimp only [Request.run, reqShelfOn]
  rw [readIx_indexOctet (by decide)]

theorem reqShelfOff_index : Request.shelfOff.run [indexOctet i] s =
    if (s.shelf i).enabled then .ok (s.disableShelf i) else .refuse .state s := by
  dsimp only [Request.run, reqShelfOff]
  rw [readIx_indexOctet (by decide)]

end

/-! ### SHELF-ON -/

section
variable {s : State} {i : ShelfIx}

/-- A shelf as R94 enables it, before its mark. -/
def Shelf.freed (x : Shelf) : Shelf := { x with state := .free, route := none }

theorem enableShelf_eq : s.enableShelf i = s.endEvent (s.follow (s.updShelf i fun x => x.freed.mark)) := rfl

theorem enableShelf_kept : Kept s (s.enableShelf i) := by
  rw [enableShelf_eq]
  have hfreed := updShelf_kept s i (fun x => x.freed.mark) (fun _ => mark_cfg _) (fun _ => mark_list _)
    fun _ => mark_command _
  exact (hfreed.trans (follow_kept _ _)).trans (endEvent_kept _ _)

/-- R94: the shelf enabled changes through its mark and its report alone, and its settle timer runs on. -/
theorem enableShelf_calm : SameBut i (s.updShelf i fun x => x.freed.mark) (s.enableShelf i)
    ∧ KeepsTimer i (s.updShelf i fun x => x.freed.mark) (s.enableShelf i) := by
  obtain ⟨hsame, htimer⟩ := follow_calm i s (s.updShelf i fun x => x.freed.mark)
    (by rw [updShelf_shelf_self, Shelf.switching, mark_state]; rfl)
  rw [enableShelf_eq]
  exact ⟨hsame.trans (endEvent_sameBut i s _), htimer.trans (endEvent_keepsTimer i s _)⟩

theorem enableShelf_sel (h : (s.shelf i).sel = .clean) :
    ((s.enableShelf i).shelf i).sel = .settling (msTicks (s.shelf i).cfg.window.ms) := by
  refine enableShelf_calm.2 _ ?_
  have hclean : (s.shelf i).freed.sel = .clean := h
  rw [updShelf_shelf_self, Shelf.mark, hclean]
  rfl

end

/-! ### SHELF-OFF -/

section
variable {s : State} {i : ShelfIx}

/-- The Selection Notice of a shelf that is turned off: step 1 of R95. -/
def State.closeNotice (s : State) (i : ShelfIx) : State :=
  match (s.shelf i).state.current with
  | some c => s.offerSn i (some c) none .off false
  | none => s

theorem closeShelf_eq : s.closeShelf i = ((s.closeNotice i).releaseSwitch i).updShelf i Shelf.closed := rfl

/-- A notice changes the port alone. -/
theorem offerSn_updRing (s : State) (i : ShelfIx) (p n : Option RefIx) (c : Cause) (h : Bool) :
    ∃ f, s.offerSn i p n c h = s.updRing f := by
  unfold State.offerSn
  split
  · exact ⟨id, rfl⟩
  · split
    · exact ⟨_, rfl⟩
    · exact ⟨fun g => { g with counters := { g.counters with noticeLost := bump g.counters.noticeLost } }, rfl⟩

theorem closeNotice_updRing (s : State) (i : ShelfIx) : ∃ f, s.closeNotice i = s.updRing f := by
  unfold State.closeNotice
  split
  · exact offerSn_updRing s i _ _ _ _
  · exact ⟨id, rfl⟩

theorem closeNotice_kept : Kept s (s.closeNotice i) := by
  unfold State.closeNotice
  split
  · exact offerSn_kept s i _ _ _ _
  · exact Kept.refl s

/-- R95, R133: the engine of a shelf that is turned off. -/
theorem closeShelf_passes (hok : s.EnginesOk) {e : EngineIx} {h : Hold} (he : s.engines[e] = some h)
    (hi : h.shelf = i) : EnginePasses e s (s.closeShelf i) := by
  obtain ⟨f, hf⟩ := closeNotice_updRing s i
  have ⟨_, _, hheld, _, _, _⟩ := hok
  have haligning := (hheld e h he).1
  rw [closeShelf_eq, hf]
  obtain ⟨hfree, hnext⟩ := releaseSwitch_passes (s := s.updRing f) hok he hi
  refine ⟨hfree, fun j rest hq => ?_⟩
  obtain ⟨hengines, halign, hgrants, c, r, b, hwait, hgranted⟩ := hnext j rest hq
  have hji : j ≠ i := by
    rintro rfl
    rw [hi] at haligning
    rw [show (s.shelf j).state = .waiting c r b from hwait] at haligning
    cases haligning
  exact ⟨hengines, halign, hgrants, c, r, b, hwait, (updShelf_shelf_of_ne _ hji _).trans hgranted⟩

/-- R95: what is left of the shelf. -/
theorem closeShelf_shelf : (s.closeShelf i).shelf i = (s.shelf i).closed := by
  obtain ⟨f, hf⟩ := closeNotice_updRing s i
  obtain ⟨st, hst⟩ := releaseSwitch_shelf_state (s.updRing f) i i
  rw [closeShelf_eq, updShelf_shelf_self, hf, hst]
  rfl

theorem closeShelf_unserved (hok : s.EnginesOk) : Unserved i (s.closeShelf i) := by
  obtain ⟨f, hf⟩ := closeNotice_updRing s i
  rw [closeShelf_eq, hf]
  exact (releaseSwitch_unserved (s := s.updRing f) hok).congr rfl rfl

theorem closeShelf_ring : (s.closeShelf i).ring = (s.closeNotice i).ring := by
  rw [closeShelf_eq, updShelf_ring, releaseSwitch_ring]

/-- One shelf record changed on both sides of what an event keeps. -/
theorem Kept.updShelf {t : State} (h : Kept s t) {f g : Shelf → Shelf}
    (hc : (g (t.shelf i)).cfg = (f (s.shelf i)).cfg) (hl : (g (t.shelf i)).list = (f (s.shelf i)).list)
    (hm : (g (t.shelf i)).command = (f (s.shelf i)).command) : Kept (s.updShelf i f) (t.updShelf i g) where
  refs := h.refs
  dialect1 := h.dialect1
  dialect2 := h.dialect2
  globals := h.globals
  drive := h.drive
  refreshTimer := h.refreshTimer
  role := h.role
  resetn := h.resetn
  pending := h.pending
  ring := h.ring
  queue := h.queue
  cfg j := by
    rw [updShelf_shelf, updShelf_shelf]
    split
    · exact hc
    · exact h.cfg j
  list j := by
    rw [updShelf_shelf, updShelf_shelf]
    split
    · exact hl
    · exact h.list j
  command j := by
    rw [updShelf_shelf, updShelf_shelf]
    split
    · exact hm
    · exact h.command j

theorem closeShelf_kept : Kept (s.updShelf i fun x => { x with command := .none }) (s.closeShelf i) := by
  have hreleased : Kept s ((s.closeNotice i).releaseSwitch i) := closeNotice_kept.trans (releaseSwitch_kept _ i)
  rw [closeShelf_eq]
  exact hreleased.updShelf (hreleased.cfg i) (hreleased.list i) rfl

/-- The part before the final SQ of a shelf that is turned off. -/
def State.closedDown (s : State) (i : ShelfIx) : State := s.follow (s.closeShelf i)

theorem disableShelf_eq : s.disableShelf i = s.endEvent ((s.closedDown i).offerSq i) := rfl

theorem closedDown_kept : Kept (s.updShelf i fun x => { x with command := .none }) (s.closedDown i) :=
  closeShelf_kept.trans (follow_kept _ _)

theorem closedDown_shelf : (s.closedDown i).shelf i = (s.shelf i).closed := by
  rw [State.closedDown, follow_shelf_off s (by rw [closeShelf_shelf]; rfl), closeShelf_shelf]

theorem closedDown_ring : (s.closedDown i).ring = (s.closeNotice i).ring := by
  rw [State.closedDown, follow_ring, closeShelf_ring]

theorem disableShelf_kept : Kept (s.updShelf i fun x => { x with command := .none }) (s.disableShelf i) := by
  rw [disableShelf_eq]
  exact (closedDown_kept.trans (offerSq_kept _ i)).trans (endEvent_kept s _)

/-- The final SQ leaves the shelf OFF. -/
theorem offerSq_closedDown_state : (((s.closedDown i).offerSq i).shelf i).state = .off := by
  rw [offerSq_shelf, closedDown_shelf]
  rfl

/-- R95: nothing but the last-reported record is left open. -/
theorem disableShelf_shelf : (s.disableShelf i).shelf i =
    { (s.shelf i).closed with lastReport := ((s.disableShelf i).shelf i).lastReport } := by
  rw [disableShelf_eq, (endEvent_off s offerSq_closedDown_state).1, offerSq_shelf, closedDown_shelf]

theorem disableShelf_unserved (hok : s.EnginesOk) : Unserved i (s.disableShelf i) := by
  rw [disableShelf_eq]
  exact (((closeShelf_unserved hok).follow s).offerSq i).endEvent s

/-- The report content of a shelf that is turned off. -/
def State.finalReport (s : State) (i : ShelfIx) : Report :=
  { code := (s.table (s.shelf i).cfg.dialect).outTable[15], rank := 15, cls := .off, squelch := none, root := none }

theorem closedDown_report : (s.closedDown i).report i = s.finalReport i := by
  have htable : ∀ d, (s.closedDown i).table d = s.table d := fun d => closedDown_kept.table d
  rw [report_off (by rw [closedDown_shelf]; rfl), htable, closedDown_shelf]
  rfl

theorem offerSn_length_le (s : State) (i : ShelfIx) (p n : Option RefIx) (c : Cause) (h : Bool) :
    (s.offerSn i p n c h).ring.insertQ.length ≤ s.ring.insertQ.length + 1 := by
  unfold State.offerSn
  split
  · exact Nat.le_succ _
  · split
    · simp [State.pushInsert]
    · simp [State.loseNotice, State.updCounters]

theorem closeNotice_length_le : (s.closeNotice i).ring.insertQ.length ≤ s.ring.insertQ.length + 1 := by
  unfold State.closeNotice
  split
  · exact offerSn_length_le s i _ _ _ _
  · exact Nat.le_succ _

/-- R163: the final SQ is offered whatever the last-reported record holds, and the comparison leaves it. -/
theorem disableShelf_told (hd : s.drive = .driving) (hroom : s.ring.insertQ.length + 2 ≤ 32) :
    ((s.disableShelf i).shelf i).lastReport = some (s.finalReport i)
    ∧ .sq i (s.makeFrame 0xFF 0x22 (sqPayload i (s.shelf i).cfg.dialect (s.finalReport i)))
      ∈ (s.disableShelf i).ring.insertQ := by
  have hlen : (s.closedDown i).ring.insertQ.length < 32 := by
    have := closeNotice_length_le (s := s) (i := i)
    rw [closedDown_ring]
    omega
  obtain ⟨hrecord, hqueued⟩ := offerSq_told (i := i) (closedDown_kept.drive.trans hd) (.inr hlen)
  have hframe : ∀ p, (s.closedDown i).makeFrame 0xFF 0x22 p = s.makeFrame 0xFF 0x22 p := fun p =>
    closedDown_kept.makeFrame _ _ p
  rw [closedDown_report] at hrecord hqueued
  rw [hframe, closedDown_shelf] at hqueued
  obtain ⟨hshelf, hkeeps⟩ := endEvent_off s (offerSq_closedDown_state (s := s) (i := i))
  rw [disableShelf_eq, hshelf]
  exact ⟨hrecord, hkeeps _ hqueued⟩

/-- R149: the notice of a shelf with a current reference stands behind the reply. -/
theorem disableShelf_noticed {t : State} {c : RefIx} (hc : (s.shelf i).state.current = some c)
    (ht : Replied ((s.pushInsert .reserved).disableShelf i) t) :
    Noticed s t 1 (s.noticeFrame i (some c) none 5 0) := by
  have hnotice : (s.pushInsert .reserved).closeNotice i =
      (s.pushInsert .reserved).offerSn i (some c) none .off false := by
    unfold State.closeNotice
    rw [show ((s.pushInsert .reserved).shelf i).state.current = some c from hc]
  have hoffer : ((s.pushInsert .reserved).closedDown i).ring = _ := closedDown_ring.trans (congrArg State.ring hnotice)
  have hgrows := ((offerSq_kept ((s.pushInsert .reserved).closedDown i) i).trans
    (endEvent_kept (s.pushInsert .reserved) _)).queue
  exact noticed_behind_reply (w := s.pushInsert .reserved) rfl rfl hoffer hgrows ht

end

/-- An entry that is not reserved is in the Insert Queue behind the reply as well. -/
theorem Replied.mem {u t : State} (h : Replied u t) {e : InsertEntry} (he : e ≠ .reserved) (hm : e ∈ u.ring.insertQ) :
    e ∈ t.ring.insertQ := by
  obtain ⟨k, hk⟩ := List.mem_iff_getElem?.mp hm
  exact List.mem_of_getElem? (h.entry he hk)

/-- SHELF-ON of an OFF shelf. -/
theorem exec_shelfOn {s : State} {src tag : Byte} (h : s.readyFor src) (ha : s.admits src) {i : ShelfIx}
    (ho : (s.shelf i).state = .off) : ∃ t, exec (.shelfOn src tag [indexOctet i]) s = .next t
      ∧ Replied ((s.pushInsert .reserved).enableShelf i) t ∧ Kept s t
      ∧ RepliedWith s t (s.replyFrame src 0x22 tag 0x00 []) := by
  have hoff : ((s.pushInsert .reserved).shelf i).enabled = false := enabled_eq_false_iff.mpr ho
  obtain ⟨t, hexec, hreply, hkept, hrep, -⟩ := exec_done (c := .shelfOn src tag [indexOctet i]) .shelfOn rfl h ha
    (by simp) (reqShelfOn_index.trans (if_neg (Bool.eq_false_iff.mp hoff))) rfl
    (enableShelf_kept (s := s.pushInsert .reserved))
  exact ⟨t, hexec, hreply, hkept, hrep⟩

/-- SHELF-OFF of an enabled shelf. -/
theorem exec_shelfOff {s : State} {src tag : Byte} (h : s.readyFor src) (ha : s.admits src) {i : ShelfIx}
    (ho : (s.shelf i).state ≠ .off) : ∃ t, exec (.shelfOff src tag [indexOctet i]) s = .next t
      ∧ Replied ((s.pushInsert .reserved).disableShelf i) t
      ∧ Kept (s.setShelf i { s.shelf i with command := .none }) t
      ∧ RepliedWith s t (s.replyFrame src 0x23 tag 0x00 []) := by
  have hon : ((s.pushInsert .reserved).shelf i).enabled = true := enabled_iff.mpr ho
  obtain ⟨t, hexec, hreply, hkept, hrep, -⟩ := exec_done (c := .shelfOff src tag [indexOctet i])
    (v := s.setShelf i { s.shelf i with command := .none }) .shelfOff rfl h ha (by simp)
    (reqShelfOff_index.trans (if_pos hon)) rfl (disableShelf_kept (s := s.pushInsert .reserved))
  exact ⟨t, hexec, hreply, hkept, hrep⟩

/-- Settles O48: an enabled shelf is calm after its mark, and an OFF shelf keeps its record and its final SQ through the
rest of the event. -/
theorem shelfOnAndShelfOff : Obligations.ShelfOnAndShelfOff := by
  intro s src tag h ha
  refine ⟨fun b hb => ⟨?_, ?_⟩, ?_⟩
  · exact exec_refused .shelfOn rfl h (.inr ha) (by simp) .range (reqShelfOn_range hb)
  · exact exec_refused .shelfOff rfl h (.inr ha) (by simp) .range (reqShelfOff_range hb)
  intro i x final
  refine ⟨fun hok e hold he hi => closeShelf_passes hok he hi, fun ho => ?onRefused, fun ho => ?offRefused,
    fun ho => ?on, fun ho => ?off⟩
  case onRefused =>
    exact exec_refused .shelfOn rfl h (.inr ha) (by simp) .state (reqShelfOn_index.trans (if_pos (enabled_iff.mpr ho)))
  case offRefused =>
    exact exec_refused .shelfOff rfl h (.inr ha) (by simp) .state
      (reqShelfOff_index.trans (if_neg (Bool.eq_false_iff.mp (enabled_eq_false_iff.mpr ho))))
  case on =>
    obtain ⟨t, hexec, hreply, hkept, hrep⟩ := exec_shelfOn (tag := tag) h ha ho
    obtain ⟨hsame, -⟩ := enableShelf_calm (s := s.pushInsert .reserved) (i := i)
    refine ⟨t, hexec, ?_⟩
    rw [hreply.tables.shelf, hsame.state, hsame.route, hsame.latches, updShelf_shelf_self, mark_state, mark_route,
      mark_latches]
    exact ⟨rfl, rfl, fun hclean => enableShelf_sel (s := s.pushInsert .reserved) hclean, rfl, hkept, hrep⟩
  case off =>
    obtain ⟨t, hexec, hreply, hkept, hrep⟩ := exec_shelfOff (tag := tag) h ha ho
    refine ⟨t, hexec, ?_, fun hok => ?_, fun c hc => disableShelf_noticed hc hreply, fun hd hroom => ?_, hkept, hrep⟩
    · rw [hreply.tables.shelf]
      exact disableShelf_shelf
    · exact (disableShelf_unserved (s := s.pushInsert .reserved) hok).congr hreply.alignQ hreply.engines
    · have hlen : (s.pushInsert .reserved).ring.insertQ.length + 2 ≤ 32 := by simpa [State.pushInsert] using hroom
      obtain ⟨hrecord, hqueued⟩ := disableShelf_told (s := s.pushInsert .reserved) (i := i) hd hlen
      rw [hreply.tables.shelf]
      exact ⟨hrecord, hreply.mem (by nofun) hqueued⟩

end Sys2Proof.Machine
end

section
/-! The tests of a candidate, and the target of a decision: R104 to R108, R119 to R122. -/

namespace Sys2Proof.Machine

/-! ### Automatic eligibility and forced usability -/

section
variable {s : State} {permit : RefIx → Bool} {i : ShelfIx} {r : RefIx}

theorem eligibleState_iff {st : RefState} {current : Bool} :
    eligibleState st current = true ↔ st = .active ∨ (st = .holdoff ∧ current = true) := by
  simp only [eligibleState, Bool.or_eq_true, Bool.and_eq_true, beq_iff_eq]

theorem forcedState_iff {st : RefState} {current : Bool} : forcedState st current = true ↔
    st = .active ∨ st = .restoring ∨ (st = .holdoff ∧ current = true) := by
  rw [forcedState, Bool.or_eq_true, eligibleState_iff, beq_iff_eq, or_assoc, or_comm (b := st = .restoring)]

theorem eligibleUnder_iff : s.eligibleUnder permit i r = true ↔
    (∃ c ∈ (s.shelf i).list, c.ref = r ∧ c.lockout = false)
    ∧ ((s.ref r).rt.state = .active ∨ ((s.ref r).rt.state = .holdoff ∧ (s.shelf i).state.current = some r))
    ∧ (s.effRank r).val ≤ (s.shelf i).cfg.floor.val ∧ permit r = true := by
  rw [State.eligibleUnder, Bool.and_eq_true, Bool.and_eq_true, Bool.and_eq_true, openTo_iff, eligibleState_iff,
    beq_iff_eq, decide_eq_true_iff, and_assoc, and_assoc]
  rfl

theorem forcedUnder_iff : s.forcedUnder permit i r = true ↔
    (∃ c ∈ (s.shelf i).list, c.ref = r ∧ c.lockout = false)
    ∧ ((s.ref r).rt.state = .active ∨ (s.ref r).rt.state = .restoring
      ∨ ((s.ref r).rt.state = .holdoff ∧ (s.shelf i).state.current = some r))
    ∧ permit r = true := by
  rw [State.forcedUnder, Bool.and_eq_true, Bool.and_eq_true, openTo_iff, forcedState_iff, beq_iff_eq, and_assoc]

theorem targetOk_automatic (ht : (s.shelf i).state.target = some r)
    (hb : (s.shelf i).state.basis = some .automatic) : s.targetOk i = s.eligible i r := by
  unfold State.targetOk
  rw [ht, hb]

theorem targetOk_forced (ht : (s.shelf i).state.target = some r) (hb : (s.shelf i).state.basis = some .forced) :
    s.targetOk i = s.forcedUsable i r := by
  unfold State.targetOk
  rw [ht, hb]

/-! ### The target under each command -/

theorem chooseTarget_none (hc : (s.shelf i).command = .none) : s.chooseTarget permit i = s.autoTarget permit i := by
  rw [State.chooseTarget, hc]

theorem chooseTarget_hold (hc : (s.shelf i).command = .hold) : s.chooseTarget permit i = none := by
  rw [State.chooseTarget, hc]

theorem chooseTarget_forced (hc : (s.shelf i).command = .forced r) :
    s.chooseTarget permit i = if s.forcedUnder permit i r = true then some r else none := by
  rw [State.chooseTarget, hc]

theorem chooseTarget_manual (hc : (s.shelf i).command = .manual r) :
    s.chooseTarget permit i = if s.eligibleUnder permit i r = true then some r else s.autoTarget permit i := by
  rw [State.chooseTarget, hc]

/-- R121: under no command or MANUAL a decision takes up an eligible reference alone. -/
theorem chooseTarget_eligible (hc : (s.shelf i).command = .none ∨ ∃ q, (s.shelf i).command = .manual q)
    (h : s.chooseTarget permit i = some r) : s.eligibleUnder permit i r = true := by
  obtain hnone | ⟨q, hmanual⟩ := hc
  · rw [chooseTarget_none hnone] at h
    exact autoTarget_eligible h
  · rw [chooseTarget_manual hmanual] at h
    split at h
    · obtain rfl := Option.some.inj h
      assumption
    · exact autoTarget_eligible h

/-- R97, test 6: CMD MANUAL is refused for a reference that is not eligible. -/
theorem commandTests_manual_ineligible (h : s.eligible i r = false) : s.commandTests i (.manual r) ≠ none := by
  by_cases ho : (s.shelf i).state = .off
  · rw [commandTests_off ho]
    nofun
  by_cases hl : (Command.manual r).level < (s.shelf i).command.level
  · rw [commandTests_lower ho hl]
    nofun
  · rw [commandTests_manual ho (Nat.le_of_not_lt hl), if_pos h]
    split
    · nofun
    · split <;> nofun

/-- R97: CMD FORCED is tested without the record of any reference. -/
theorem commandTests_forced_setRef (q : RefIx) (x : Reference) :
    (s.setRef q x).commandTests i (.forced r) = s.commandTests i (.forced r) := by
  unfold State.commandTests
  rw [setRef_shelf]

/-- R122: the judgement of a decision. -/
theorem loopBlocked_iff : s.loopBlocked i = true ↔ ∃ u, s.chooseTarget (fun _ => true) i = some u
    ∧ s.chooseTarget (s.permits i) i ≠ some u ∧ s.permits i u = false := by
  unfold State.loopBlocked
  cases s.chooseTarget (fun _ => true) i with
  | none => simp
  | some u => simp

/-! ### The obligations of the two tests -/

/-- Settles O22: the four tests of R104, one by one. -/
theorem automaticEligibility : Obligations.AutomaticEligibility := by
  intro s i r
  refine ⟨eligibleUnder_iff, fun hrank => ?_, fun hhold hcur => ?_, chooseTarget_eligible,
    commandTests_manual_ineligible, targetOk_automatic⟩
  · refine Bool.eq_false_iff.mpr fun h => ?_
    obtain ⟨-, -, hfloor, -⟩ := eligibleUnder_iff.mp h
    rw [hrank] at hfloor
    exact absurd (s.shelf i).cfg.floor.isLt (Nat.not_lt.mpr hfloor)
  · refine Bool.eq_false_iff.mpr fun h => ?_
    obtain ⟨-, hactive | ⟨-, hcurrent⟩, -⟩ := eligibleUnder_iff.mp h
    · rw [hhold] at hactive
      cases hactive
    · exact hcur hcurrent

/-- Settles O23: the three tests of R105, and both tests for each state of the reference. -/
theorem forcedUsability : Obligations.ForcedUsability := by
  intro s i r
  refine ⟨forcedUnder_iff, fun hlisted hpermit => ?_, fun hlisted hpermit hfloor => ?_, chooseTarget_forced,
    targetOk_forced, commandTests_forced_setRef⟩
  · rw [Bool.eq_iff_iff, State.forcedUsable, forcedUnder_iff]
    cases (s.ref r).rt.state <;> simp [hlisted, hpermit]
  · rw [Bool.eq_iff_iff, State.eligible, eligibleUnder_iff]
    cases (s.ref r).rt.state <;> simp [hlisted, hpermit, hfloor]

end

/-! ### The best candidate -/

section
variable {s : State} {permit : RefIx → Bool} {i : ShelfIx}

/-- R108: `c` ranks no worse than `d`, by effective rank, then priority, then reference index. -/
def State.NotWorse (s : State) (c d : Candidate) : Prop :=
  s.effRank c.ref < s.effRank d.ref
    ∨ (s.effRank c.ref = s.effRank d.ref ∧ (c.prio < d.prio ∨ (c.prio = d.prio ∧ c.ref ≤ d.ref)))

theorem keyBetter_iff (a b : Nat × Nat × Nat) : keyBetter a b = true ↔
    a.1 < b.1 ∨ (a.1 = b.1 ∧ (a.2.1 < b.2.1 ∨ (a.2.1 = b.2.1 ∧ a.2.2 < b.2.2))) := by
  simp only [keyBetter, Bool.or_eq_true, Bool.and_eq_true, decide_eq_true_eq, beq_iff_eq]

/-- A key is better unless the other candidate ranks no worse. -/
theorem keyBetter_eq_false_iff (c d : Candidate) : keyBetter (s.key d) (s.key c) = false ↔ s.NotWorse c d := by
  rw [Bool.eq_false_iff, ne_eq, keyBetter_iff]
  simp only [State.key, State.NotWorse, Fin.lt_def, Fin.le_def, Fin.ext_iff]
  omega

theorem State.NotWorse.trans {c d e : Candidate} (h : s.NotWorse c d) (h' : s.NotWorse d e) : s.NotWorse c e := by
  simp only [State.NotWorse, Fin.lt_def, Fin.le_def, Fin.ext_iff] at *
  omega

theorem State.NotWorse.total (c d : Candidate) : s.NotWorse c d ∨ s.NotWorse d c := by
  simp only [State.NotWorse, Fin.lt_def, Fin.le_def, Fin.ext_iff]
  omega

/-- Two candidates that rank no worse than each other name one reference. -/
theorem State.NotWorse.antisymm {c d : Candidate} (h : s.NotWorse c d) (h' : s.NotWorse d c) : c.ref = d.ref := by
  simp only [State.NotWorse, Fin.lt_def, Fin.le_def, Fin.ext_iff] at *
  omega

theorem best_eq_none : ∀ {l : List Candidate}, s.best l = none → l = []
  | [], _ => rfl
  | c :: l, h => by
    unfold State.best at h
    split at h
    · cases h
    · split at h <;> cases h

/-- The best of some candidates ranks no worse than any of them. -/
theorem best_notWorse : ∀ {l : List Candidate} {b : Candidate}, s.best l = some b → ∀ d ∈ l, s.NotWorse b d
  | c :: l, b, h, d, hd => by
    have hself : s.NotWorse c c := (State.NotWorse.total c c).elim id id
    unfold State.best at h
    split at h
    · rename_i hnone
      obtain rfl := Option.some.inj h
      obtain rfl : d = c := by simpa [best_eq_none hnone] using hd
      exact hself
    · rename_i e he
      have htail := best_notWorse he
      split at h
      · rename_i hkey
        obtain rfl := Option.some.inj h
        obtain rfl | hd := List.mem_cons.mp hd
        · refine (State.NotWorse.total e d).resolve_right fun hw => ?_
          rw [(keyBetter_eq_false_iff d e).mpr hw] at hkey
          cases hkey
        · exact htail d hd
      · rename_i hkey
        obtain rfl := Option.some.inj h
        obtain rfl | hd := List.mem_cons.mp hd
        · exact hself
        · exact ((keyBetter_eq_false_iff c e).mp (Bool.eq_false_iff.mpr hkey)).trans (htail d hd)

/-! ### Automatic selection -/

theorem mem_eligibleSet {c : Candidate} :
    c ∈ s.eligibleSet permit i ↔ c ∈ (s.shelf i).list ∧ s.eligibleUnder permit i c.ref = true := List.mem_filter

/-- R120: a current reference that automatic selection keeps against the best candidate `b`. -/
def State.KeepsCurrent (s : State) (permit : RefIx → Bool) (i : ShelfIx) (b : Candidate) (c : RefIx) : Prop :=
  (s.shelf i).cfg.mode = .nonRevertive ∧ (s.shelf i).state.current = some c
    ∧ (∃ d ∈ s.eligibleSet permit i, d.ref = c) ∧ s.effRank c ≤ s.effRank b.ref

theorem autoTarget_none (h : s.eligibleSet permit i = []) : s.autoTarget permit i = none := by
  unfold State.autoTarget
  rw [h]
  rfl

theorem autoTarget_keeps {b : Candidate} {c : RefIx} (hb : s.best (s.eligibleSet permit i) = some b)
    (hc : s.KeepsCurrent permit i b c) : s.autoTarget permit i = some c := by
  obtain ⟨hmode, hcur, ⟨d, hd, hdc⟩, hle⟩ := hc
  unfold State.autoTarget
  rw [hb]
  dsimp only
  rw [hmode, hcur]
  dsimp only
  refine if_pos (Bool.and_eq_true_iff.mpr ⟨List.any_eq_true.mpr ⟨d, hd, by simpa using hdc⟩, decide_eq_true hle⟩)

theorem autoTarget_best {b : Candidate} (hb : s.best (s.eligibleSet permit i) = some b)
    (hc : ∀ c, ¬s.KeepsCurrent permit i b c) : s.autoTarget permit i = some b.ref := by
  unfold State.autoTarget
  rw [hb]
  dsimp only
  split
  · rename_i c hmode hcur
    refine if_neg fun hkeep => ?_
    obtain ⟨hlisted, hle⟩ := Bool.and_eq_true_iff.mp hkeep
    obtain ⟨d, hd, hdc⟩ := List.any_eq_true.mp hlisted
    exact hc c ⟨hmode, hcur, ⟨d, hd, beq_iff_eq.mp hdc⟩, of_decide_eq_true hle⟩
  · rfl
  · rfl

/-- The best eligible candidate is found, whichever entry names it. -/
theorem best_eligible_ref {b : Candidate} (hb : b ∈ s.eligibleSet permit i)
    (hbest : ∀ d ∈ s.eligibleSet permit i, s.NotWorse b d) :
    ∃ b', s.best (s.eligibleSet permit i) = some b' ∧ b'.ref = b.ref := by
  cases hfound : s.best (s.eligibleSet permit i) with
  | none =>
    rw [best_eq_none hfound] at hb
    cases hb
  | some b' => exact ⟨b', rfl, (best_notWorse hfound b hb).antisymm (hbest b' (best_mem hfound))⟩

/-- Settles O25: the fold over the eligible candidates finds the best by the ranking key, and the match on the command
is the table of R119. -/
theorem targetOfADecision : Obligations.TargetOfADecision := by
  intro s permit i ok notWorse
  have hok : ∀ c, ok c ↔ c ∈ s.eligibleSet permit i := fun c => mem_eligibleSet.symm
  refine ⟨fun hnone => autoTarget_none (List.eq_nil_iff_forall_not_mem.mpr fun c hc => hnone c ((hok c).mpr hc)), ?_,
    chooseTarget_none, chooseTarget_hold, fun r => chooseTarget_forced, fun r => chooseTarget_manual, loopBlocked_iff⟩
  intro b hb hbest keeps
  obtain ⟨b', hfound, href⟩ := best_eligible_ref ((hok b).mp hb) fun d hd => hbest d ((hok d).mpr hd)
  have hkeeps : ∀ c, keeps c ↔ s.KeepsCurrent permit i b' c := fun c => by
    rw [State.KeepsCurrent, href]
    simp only [keeps, hok]
  refine ⟨fun c hc => autoTarget_keeps hfound ((hkeeps c).mp hc), fun hc => ?_⟩
  rw [← href]
  exact autoTarget_best hfound fun c hkeep => hc c ((hkeeps c).mpr hkeep)

end

end Sys2Proof.Machine
end

section
/-! SETTLE_TIMER_EXPIRY: what is judged, what the outcome of a decision makes of its shelf, and what stands at the end of
the event: R118, R121 to R126, R132 to R134. -/

namespace Sys2Proof.Machine

/-! ### Changes that no rank and no edge shows -/

/-- What a rank reads is the same in `s` and `t`, and so is every edge: such a change sets nothing off. -/
structure Silent (s t : State) : Prop where
  ranks : SameRanks s t
  edges : edgesDiffer s t = false

theorem Silent.trans {s t u : State} (h : Silent s t) (h' : Silent t u) : Silent s u := by
  refine ⟨h.ranks.trans h'.ranks, Bool.eq_false_iff.mpr fun hd => ?_⟩
  rcases edgesDiffer_split (t := t) hd with hst | htu
  · rw [h.edges] at hst
    cases hst
  · rw [h'.edges] at htu
    cases htu

theorem Silent.of_tables {s t : State} (h : SameTables s t) : Silent s t :=
  ⟨h.sameRanks, edgesDiffer_of_shelf h.shelf⟩

/-- Marks and reports are silent. -/
theorem Silent.of_sameBut {s t : State} (hr : t.refs = s.refs) (h : ∀ i, SameBut i s t) : Silent s t where
  ranks := ⟨fun r => by rw [ref_congr hr r], fun r => by rw [ref_congr hr r], fun i => (h i).cfg, fun i => (h i).state⟩
  edges := edgesDiffer_false.mpr fun i => ⟨(h i).curEdge.symm, (h i).pendEdge.symm⟩

/-- A change of one shelf record's other fields is silent. -/
theorem updShelf_silent {s : State} {i : ShelfIx} {f : Shelf → Shelf} (hcfg : (f (s.shelf i)).cfg = (s.shelf i).cfg)
    (hstate : (f (s.shelf i)).state = (s.shelf i).state) (hcur : (f (s.shelf i)).curEdge = (s.shelf i).curEdge)
    (hpend : (f (s.shelf i)).pendEdge = (s.shelf i).pendEdge) : Silent s (s.updShelf i f) := by
  have hfields : ∀ j, ((s.updShelf i f).shelf j).cfg = (s.shelf j).cfg
      ∧ ((s.updShelf i f).shelf j).state = (s.shelf j).state
      ∧ (s.shelf j).curEdge = ((s.updShelf i f).shelf j).curEdge
      ∧ (s.shelf j).pendEdge = ((s.updShelf i f).shelf j).pendEdge := fun j => by
    rw [updShelf_shelf]
    split
    · rename_i hj
      rw [hj]
      exact ⟨hcfg, hstate, hcur.symm, hpend.symm⟩
    · exact ⟨rfl, rfl, rfl, rfl⟩
  exact ⟨⟨fun _ => rfl, fun _ => rfl, fun j => (hfields j).1, fun j => (hfields j).2.1⟩,
    edgesDiffer_false.mpr fun j => (hfields j).2.2⟩

theorem markShelf_silent (s : State) (i : ShelfIx) : Silent s (s.markShelf i) :=
  .of_sameBut rfl fun j => markShelf_sameBut j i s

/-! ### The expiry -/

section
variable {s : State} {i : ShelfIx}

theorem settleExpired_not_due (h : (s.shelf i).sel ≠ .settling 0) : s.settleExpired i = s := by
  unfold State.settleExpired
  split
  · exact absurd ‹_› h
  all_goals rfl

theorem settleExpired_switching (h : (s.shelf i).sel = .settling 0) (hs : (s.shelf i).state.cls = .switching) :
    s.settleExpired i = s.updShelf i fun x => { x with sel := .deferred } := by
  unfold State.settleExpired
  rw [h]
  exact if_pos (beq_iff_eq.mpr hs)

theorem settleExpired_decides (h : (s.shelf i).sel = .settling 0) (ho : (s.shelf i).state ≠ .off)
    (hs : (s.shelf i).state.cls ≠ .switching) : s.settleExpired i = s.decideShelf i := by
  unfold State.settleExpired
  rw [h]
  dsimp only
  rw [if_neg fun hsw : (s.shelf i).switching = true => hs (beq_iff_eq.mp hsw), if_pos (enabled_iff.mpr ho)]

theorem clearsManual_iff :
    s.clearsManual i = true ↔ ∃ r, (s.shelf i).command = .manual r ∧ s.eligible i r = false := by
  unfold State.clearsManual
  cases (s.shelf i).command <;> simp

/-! ### What is judged -/

/-- The state in which a decision of shelf `i` has judged R118, R121 and R122, before its outcome. -/
def State.judgedAt (s : State) (i : ShelfIx) : State :=
  s.updShelf i fun x => x.judged (s.clearsManual i) (s.loopBlocked i)

theorem judgedAt_shelf : (s.judgedAt i).shelf i = (s.shelf i).judged (s.clearsManual i) (s.loopBlocked i) :=
  updShelf_shelf_self s i _

theorem judgedAt_state : ((s.judgedAt i).shelf i).state = (s.shelf i).state := by rw [judgedAt_shelf]; rfl

theorem judgedAt_shelf_of_ne {j : ShelfIx} (h : j ≠ i) : (s.judgedAt i).shelf j = s.shelf j :=
  updShelf_shelf_of_ne s h _

/-- What is judged changes no rank and no edge. -/
theorem judgedAt_silent : Silent s (s.judgedAt i) := updShelf_silent rfl rfl rfl rfl

/-- The outcome of shelf `i`'s decision, before what it sets off: R123. -/
def State.outcomeAt (s : State) (i : ShelfIx) : State :=
  (s.judgedAt i).outcome i ((s.judgedAt i).shelf i).command (s.chooseTarget (s.permits i) i)

theorem decideShelf_eq : s.decideShelf i =
    if s.clearsManual i then ((s.judgedAt i).follow (s.outcomeAt i)).markShelf i
    else (s.judgedAt i).follow (s.outcomeAt i) := rfl

theorem exec_decides (h : s.resetn = true) (hd : (s.shelf i).sel = .settling 0) (ho : (s.shelf i).state ≠ .off)
    (hs : (s.shelf i).state.cls ≠ .switching) :
    exec (.settleTimerExpiry i) s = .next (s.endEvent (s.decideShelf i)) := by
  rw [exec_settleTimerExpiry h, settleExpired_decides hd ho hs]

/-- From the outcome on, the event is the marks and reports of `Kept`. -/
theorem decideShelf_kept : Kept (s.outcomeAt i) (s.endEvent (s.decideShelf i)) := by
  refine Kept.trans ?_ (endEvent_kept _ _)
  rw [decideShelf_eq]
  split
  · exact (follow_kept _ _).trans (markShelf_kept _ i)
  · exact follow_kept _ _

theorem decideShelf_shelvesEvent : ShelvesEvent (s.outcomeAt i) (s.endEvent (s.decideShelf i)) := by
  refine ShelvesEvent.trans ?_ (endEvent_shelvesEvent _ _)
  rw [decideShelf_eq]
  split
  · exact (follow_shelvesEvent _ _).trans (markShelf_shelvesEvent _ i)
  · exact follow_shelvesEvent _ _

/-- A decision that leaves its shelf LOCKED or muted is over for the shelf but for its mark and its report. -/
theorem decideShelf_sameBut (h : ((s.outcomeAt i).shelf i).switching = false) :
    SameBut i (s.outcomeAt i) (s.endEvent (s.decideShelf i)) := by
  refine SameBut.trans ?_ (endEvent_sameBut i _ _)
  rw [decideShelf_eq]
  split
  · exact (follow_sameBut i _ _ h).trans (markShelf_sameBut i i _)
  · exact follow_sameBut i _ _ h

/-- A decision whose outcome is nothing leaves what it judged, and the mark of a cleared MANUAL command. -/
theorem endEvent_decideShelf_quiet (h : s.outcomeAt i = s.judgedAt i) : s.endEvent (s.decideShelf i) =
    if s.clearsManual i then (s.judgedAt i).markShelf i else s.judgedAt i := by
  have hjudged : Silent s (s.judgedAt i) := judgedAt_silent
  rw [decideShelf_eq, h, follow_quiet (SameRanks.refl _) (edgesDiffer_self _)]
  split
  · exact endEvent_quiet (hjudged.trans (markShelf_silent _ i)).ranks
  · exact endEvent_quiet hjudged.ranks

end

/-! ### A switch start -/

section
variable {s : State} {i : ShelfIx} {e : EngineIx}

theorem freeEngine_none (h : ∀ e : EngineIx, s.engines[e] ≠ none) : s.freeEngine = none := by
  unfold State.freeEngine
  rw [List.find?_eq_none]
  intro e _ he
  exact h e (Option.isNone_iff_eq_none.mp he)

theorem freeEngine_lowest (he : s.engines[e] = none) (hl : ∀ e' : EngineIx, e' < e → s.engines[e'] ≠ none) :
    s.freeEngine = some e := by
  unfold State.freeEngine
  rw [List.find?_eq_some_iff_getElem]
  refine ⟨by rw [he]; rfl, e.val, by simp [engineIxs], by simp [engineIxs], fun k hk => ?_⟩
  have hheld := hl ⟨k, by omega⟩ hk
  simpa [engineIxs] using Option.ne_none_iff_isSome.mp hheld

theorem grantWithin_empty (h : s.alignQ = []) : ∀ n : Nat, s.grantWithin n = s
  | 0 => rfl
  | n + 1 => by rw [State.grantWithin, h]

theorem grantFree_busy (h : s.freeEngine = none) : s.grantFree = s := by
  unfold State.grantFree State.grantWithin
  rw [h]
  cases s.alignQ <;> rfl

/-- The only shelf that waits is granted the lowest free engine: R133. -/
theorem grantFree_alone (hq : s.alignQ = [i]) (he : s.freeEngine = some e) : s.grantFree = s.grant e i [] := by
  unfold State.grantFree State.grantWithin
  rw [hq, he]
  exact grantWithin_empty rfl 3

/-- The part once shelf `i` has entered the Alignment Queue, before any grant: steps 1 to 3 of R125. -/
def State.queued (s : State) (i : ShelfIx) (c t : RefIx) (b : Basis) : State :=
  { (s.updShelf i fun x => { x with pendEdge := (s.ref t).sourceShelf, state := .waiting c t b }) with
    alignQ := s.alignQ ++ [i] }

variable {c t : RefIx} {b : Basis}

theorem startSwitch_eq : s.startSwitch i c t b = (s.queued i c t b).grantFree := rfl

theorem queued_shelf_self : (s.queued i c t b).shelf i =
    { s.shelf i with pendEdge := (s.ref t).sourceShelf, state := .waiting c t b } :=
  updShelf_shelf_self s i fun x => { x with pendEdge := (s.ref t).sourceShelf, state := .waiting c t b }

theorem queued_shelf_of_ne {j : ShelfIx} (h : j ≠ i) : (s.queued i c t b).shelf j = s.shelf j :=
  updShelf_shelf_of_ne s h fun x => { x with pendEdge := (s.ref t).sourceShelf, state := .waiting c t b }

/-- R125: a switch start, for the shelf itself. -/
theorem startSwitch_shelf_self : ∃ st, (st = .waiting c t b ∨ st = .aligning c t b)
    ∧ (s.startSwitch i c t b).shelf i = { s.shelf i with pendEdge := (s.ref t).sourceShelf, state := st } := by
  obtain ⟨st, hst⟩ := grantWithin_shelf_state i 4 (s.queued i c t b)
  obtain ⟨st', v, l, hre, hst'⟩ := grantWithin_regranted i 4 (s.queued i c t b)
  obtain rfl : st = st' := congrArg Shelf.state (hst.symm.trans hre)
  rw [queued_shelf_self] at hst hst'
  exact ⟨st, hst', hst⟩

/-- R132: with every engine held, the shelf waits. -/
theorem startSwitch_waits (h : ∀ e : EngineIx, s.engines[e] ≠ none) :
    s.startSwitch i c t b = s.queued i c t b :=
  grantFree_busy (s := s.queued i c t b) (freeEngine_none h)

/-- R133: with nobody waiting, the shelf is granted the lowest free engine. -/
theorem startSwitch_granted (hq : s.alignQ = []) (he : s.freeEngine = some e) :
    s.startSwitch i c t b = (s.queued i c t b).grant e i [] :=
  grantFree_alone (s := s.queued i c t b) (by simp [State.queued, hq]) he

/-- A switch start with nobody waiting leaves every other shelf alone. -/
theorem startSwitch_shelf_of_ne {j : ShelfIx} (hj : j ≠ i) (hq : s.alignQ = []) :
    (s.startSwitch i c t b).shelf j = s.shelf j := by
  cases he : s.freeEngine with
  | none =>
    have hbusy : s.startSwitch i c t b = s.queued i c t b := grantFree_busy (s := s.queued i c t b) he
    rw [hbusy, queued_shelf_of_ne hj]
  | some e => rw [startSwitch_granted hq he, grant_shelf, if_neg hj, queued_shelf_of_ne hj]

end

/-! ### The outcome at its shelf -/

section
variable {s : State} {i : ShelfIx} {cmd : Command}

theorem sourceShelf_eq (x : Reference) :
    x.sourceShelf = if x.cfg.kind = .derived then x.cfg.source else none := by
  unfold Reference.sourceShelf
  cases x.cfg.kind <;> rfl

theorem holdoverEntry_ne_off (cfg : ShelfConfig) : cfg.holdoverEntry ≠ .off := fun hoff => by
  have hcls := holdoverEntry_cls cfg
  rw [hoff] at hcls
  cases hcls

/-- R123: the outcome of a decision leaves its shelf enabled, and the companion bit as it was judged. -/
theorem outcome_shelf_self (target : Option RefIx) (ho : (s.shelf i).state ≠ .off) :
    ((s.outcome i cmd target).shelf i).state ≠ .off
    ∧ ((s.outcome i cmd target).shelf i).loopBit = (s.shelf i).loopBit := by
  have hlock : ∀ r, ((s.directLock i r).shelf i).state ≠ .off
      ∧ ((s.directLock i r).shelf i).loopBit = (s.shelf i).loopBit := fun r => by
    rw [directLock_shelf_self]
    exact ⟨nofun, rfl⟩
  unfold State.outcome
  split
  · rw [enterHoldover_shelf_self]
    exact ⟨holdoverEntry_ne_off _, rfl⟩
  · split
    · exact ⟨ho, rfl⟩
    · rename_i c r _ _
      obtain ⟨st, hst, hshelf⟩ := startSwitch_shelf_self (s := s) (i := i) (c := c) (t := r) (b := cmd.basis)
      rw [hshelf]
      exact ⟨by rcases hst with rfl | rfl <;> nofun, rfl⟩
  · exact hlock _
  · exact hlock _
  all_goals exact ⟨ho, rfl⟩

theorem ShelfMove.loopBit {x y : Shelf} (h : ShelfMove x y) : y.loopBit = x.loopBit := by
  cases h with
  | marked => exact mark_loopBit x
  | reported => rfl
  | granted => rfl
  | abandoned => rfl
  | ended => rfl
  | muted => rfl

theorem ShelfMoves.loopBit {x y : Shelf} (h : ShelfMoves x y) : y.loopBit = x.loopBit :=
  h.keeps (P := fun z => z.loopBit = x.loopBit) (fun _ _ hmove hx => hmove.loopBit.trans hx) rfl

/-- R122: the companion bit at the end of the event is the one judged. -/
theorem decideShelf_loopBit (ho : (s.shelf i).state ≠ .off) :
    ((s.endEvent (s.decideShelf i)).shelf i).loopBit = s.loopBlocked i := by
  have hout : ((s.outcomeAt i).shelf i).loopBit = ((s.judgedAt i).shelf i).loopBit :=
    (outcome_shelf_self _ (by rw [judgedAt_state]; exact ho)).2
  rw [(decideShelf_shelvesEvent.shelf i).loopBit, hout, judgedAt_shelf]
  rfl

/-- R121: a decision that clears a MANUAL command leaves its shelf marked. -/
theorem decideShelf_dirty (ho : (s.shelf i).state ≠ .off) (hc : s.clearsManual i = true) :
    DirtyAt i (s.endEvent (s.decideShelf i)) := by
  have hout : ((s.outcomeAt i).shelf i).enabled = true :=
    enabled_iff.mpr (outcome_shelf_self _ (by rw [judgedAt_state]; exact ho)).1
  refine endEvent_dirty i _ _ ?_
  rw [decideShelf_eq, if_pos hc, DirtyAt, markShelf_shelf_self]
  exact mark_enabled_dirty (((follow_shelvesEvent _ _).shelf i).enabled hout)

theorem outcome_same {c : RefIx} (h : (s.shelf i).state = .locked c) : s.outcome i cmd (some c) = s := by
  unfold State.outcome
  rw [h]
  exact if_pos rfl

theorem outcome_stays_muted (h : ∀ c, (s.shelf i).state ≠ .locked c) : s.outcome i cmd none = s := by
  unfold State.outcome
  cases hstate : (s.shelf i).state with
  | locked c => exact absurd hstate (h c)
  | off => rfl
  | free => rfl
  | waiting => rfl
  | aligning => rfl
  | holdover => rfl

end

/-! ### The Selection Notice of a decision -/

section
variable {s : State} {i : ShelfIx}

/-- R34, R149: a notice offered in `w`, with the header in force in `s`, stands behind what `w` holds. -/
theorem offerSn_noticed {s w : State} {q : List InsertEntry} {i : ShelfIx} {p n : Option RefIx} {cause : Cause}
    {hard : Bool} (hframe : ∀ l, w.makeFrame Byte.all typeSN l = s.makeFrame Byte.all typeSN l)
    (hd : w.drive = .driving) (hroom : w.ring.insertQ.length < 32)
    (hgrows : QueueGrows (w.offerSn i p n cause hard).ring.insertQ q) :
    q[w.ring.insertQ.length]? = some (.sn (s.noticeFrame i p n cause.octet (if hard then 1 else 0))) := by
  refine hgrows.sn ?_
  rw [offerSn_insertQ w i p n cause hard hd hroom, hframe]
  exact List.getElem?_concat_length

theorem directLock_ring (s : State) (i : ShelfIx) (r : RefIx) :
    (s.directLock i r).ring = (s.offerSn i none (some r) .chosen false).ring := by
  unfold State.directLock
  refine offerSn_ring_congr ?_ ?_ i _ _ _ _ <;> rfl

theorem enterHoldover_ring (s : State) (i : ShelfIx) (c : RefIx) (cause : Cause) :
    (s.enterHoldover i c cause).ring = (s.offerSn i (some c) none cause false).ring := by
  unfold State.enterHoldover
  rw [updShelf_ring]
  refine offerSn_ring_congr ?_ ?_ i _ _ _ _ <;> rfl

/-- The notice that the outcome of a decision offers is the first frame of the event. -/
theorem decideShelf_noticed {p n : Option RefIx} {cause : Cause} {hard : Bool}
    (h : (s.outcomeAt i).ring = ((s.judgedAt i).offerSn i p n cause hard).ring) :
    Noticed s (s.endEvent (s.decideShelf i)) 0 (s.noticeFrame i p n cause.octet (if hard then 1 else 0)) := by
  intro hd hroom
  have hgrows := (decideShelf_kept (s := s) (i := i)).queue
  rw [h] at hgrows
  exact offerSn_noticed (w := s.judgedAt i) (fun _ => rfl) hd hroom hgrows

/-! ### The obligations -/

theorem setShelf_updShelf (s : State) (i : ShelfIx) (x : Shelf) (f : Shelf → Shelf) :
    (s.setShelf i x).updShelf i f = s.setShelf i (f x) := by
  unfold State.updShelf
  rw [setShelf_shelf_self]
  unfold State.setShelf
  rw [Vector.set_set]

/-- Settles O26: an expiry that is due defers a SWITCHING shelf and decides for any other enabled one. -/
theorem settleExpiryDecides : Obligations.SettleExpiryDecides := by
  intro s i h x clears judged
  refine ⟨fun hd => ?_, fun hd hs => ?_, clearsManual_iff, fun hd ho hs => ⟨?_, fun hquiet => ?_⟩⟩
  · rw [exec_settleTimerExpiry h, settleExpired_not_due hd, endEvent_quiet (SameRanks.refl s)]
  · rw [exec_settleTimerExpiry h, settleExpired_switching hd hs]
    exact congrArg Host.Outcome.next (endEvent_quiet (updShelf_silent rfl rfl rfl rfl).ranks)
  · refine ⟨_, exec_decides h hd ho hs, Kept.trans (outcome_kept _ i _ _) decideShelf_kept, decideShelf_loopBit ho,
      fun hc => ?_⟩
    have hdirty : DirtyAt i (s.endEvent (s.decideShelf i)) := decideShelf_dirty ho hc
    unfold DirtyAt at hdirty
    cases hsel : ((s.endEvent (s.decideShelf i)).shelf i).sel with
    | clean => exact absurd hsel hdirty
    | settling n => exact ⟨n, .inl rfl⟩
    | deferred => exact ⟨0, .inr rfl⟩
  · have hout : s.outcomeAt i = s.judgedAt i := by
      unfold State.outcomeAt
      obtain ⟨c, hc, ht⟩ | ⟨hc, ht⟩ := hquiet
      · rw [ht]
        exact outcome_same (judgedAt_state.trans hc)
      · rw [ht]
        exact outcome_stays_muted fun c => by rw [judgedAt_state]; exact hc c
    rw [exec_decides h hd ho hs, endEvent_decideShelf_quiet hout]
    split
    · exact congrArg Host.Outcome.next (setShelf_updShelf s i judged Shelf.mark)
    · rfl

/-- R124: what a decision with the target `r` makes of a muted shelf. -/
theorem outcomeAt_locks {r : RefIx}
    (hs : (s.shelf i).state = .free ∨ ∃ g timer, (s.shelf i).state = .holdover g timer)
    (ht : s.chooseTarget (s.permits i) i = some r) : s.outcomeAt i = (s.judgedAt i).directLock i r := by
  unfold State.outcomeAt State.outcome
  rw [judgedAt_state, ht]
  obtain hfree | ⟨g, timer, hhold⟩ := hs
  · rw [hfree]
  · rw [hhold]

/-- Settles O27: the direct lock leaves the shelf LOCKED, and a LOCKED shelf is calm through the rest of the event. -/
theorem decisionLocksAMutedShelf : Obligations.DecisionLocksAMutedShelf := by
  intro s i r h hd hs ht
  have hout := outcomeAt_locks hs ht
  have hshelf := (congrArg (State.shelf · i) hout).trans (directLock_shelf_self _ i r)
  have hsame : SameBut i (s.outcomeAt i) (s.endEvent (s.decideShelf i)) :=
    decideShelf_sameBut (by rw [hshelf]; rfl)
  refine ⟨_, exec_decides h hd ?_ ?_, ?_⟩
  · rcases hs with hs | ⟨g, timer, hs⟩ <;> rw [hs] <;> nofun
  · rcases hs with hs | ⟨g, timer, hs⟩ <;> rw [hs] <;> nofun
  rw [hsame.state, hsame.route, hsame.curEdge, hsame.pendEdge, hsame.latches, hshelf, judgedAt_shelf]
  refine ⟨rfl, rfl, sourceShelf_eq _, rfl, rfl, ?_⟩
  exact decideShelf_noticed (hard := false) (by rw [hout, directLock_ring])

/-- R126: what a decision without a target makes of a LOCKED shelf. -/
theorem outcomeAt_mutes {c : RefIx} (hs : (s.shelf i).state = .locked c)
    (ht : s.chooseTarget (s.permits i) i = none) :
    s.outcomeAt i = (s.judgedAt i).enterHoldover i c ((s.judgedAt i).shelf i).command.cause := by
  unfold State.outcomeAt State.outcome
  rw [judgedAt_state, ht, hs]

/-- R126, step 3: the cause of the notice, which a cleared MANUAL command leaves as it was. -/
theorem judgedAt_cause : ((s.judgedAt i).shelf i).command.cause.octet =
    if (s.shelf i).command = .hold then 3 else 4 := by
  rw [judgedAt_shelf]
  unfold Shelf.judged State.clearsManual
  cases hcmd : (s.shelf i).command with
  | manual r =>
    dsimp only
    split <;> rfl
  | none => rfl
  | forced r => rfl
  | hold => rfl

/-- Settles O28: the entry into HOLDOVER mutes the shelf, and a muted shelf is calm through the rest of the event. -/
theorem decisionEntersHoldover : Obligations.DecisionEntersHoldover := by
  intro s i c h hd hs ht
  have hout := outcomeAt_mutes hs ht
  have hshelf := (congrArg (State.shelf · i) hout).trans (enterHoldover_shelf_self _ i c _)
  have hsame : SameBut i (s.outcomeAt i) (s.endEvent (s.decideShelf i)) :=
    decideShelf_sameBut (by rw [hshelf, Shelf.switching, holdoverEntry_cls]; rfl)
  refine ⟨_, exec_decides h hd (by rw [hs]; nofun) (by rw [hs]; nofun), ?_⟩
  rw [hsame.state, hsame.route, hsame.curEdge, hsame.pendEdge, hsame.latches, hshelf, judgedAt_shelf]
  refine ⟨rfl, rfl, rfl, rfl, rfl, ?_⟩
  rw [← judgedAt_cause]
  exact decideShelf_noticed (hard := false) (by rw [hout, enterHoldover_ring])

/-- R125: what a decision with another target makes of a LOCKED shelf. -/
theorem outcomeAt_switches {c r : RefIx} (hs : (s.shelf i).state = .locked c)
    (ht : s.chooseTarget (s.permits i) i = some r) (hr : r ≠ c) :
    s.outcomeAt i = (s.judgedAt i).startSwitch i c r ((s.judgedAt i).shelf i).command.basis := by
  unfold State.outcomeAt State.outcome
  rw [judgedAt_state, ht, hs]
  exact if_neg hr

theorem Command.basis_of_forced {cmd : Command} (h : ∃ q, cmd = .forced q) : cmd.basis = .forced := by
  obtain ⟨q, rfl⟩ := h
  rfl

theorem Command.basis_of_not_forced {cmd : Command} (h : ¬∃ q, cmd = .forced q) : cmd.basis = .automatic := by
  cases cmd with
  | forced q => exact absurd ⟨q, rfl⟩ h
  | none => rfl
  | manual q => rfl
  | hold => rfl

/-- Settles O29: the event is the judgement, the switch start and what it sets off; the switch start waits behind four
held engines, and takes the lowest free engine where nobody waits. -/
theorem decisionStartsASwitch : Obligations.DecisionStartsASwitch := by
  intro s i c r h hd hs ht hr command basis u v w
  have hu : u = s.judgedAt i := rfl
  have hbasis : ((s.judgedAt i).shelf i).command.basis = basis := by
    rw [judgedAt_shelf]
    by_cases hforced : ∃ q, command = .forced q
    · exact (Command.basis_of_forced hforced).trans (if_pos hforced).symm
    · exact (Command.basis_of_not_forced hforced).trans (if_neg hforced).symm
  have hout : s.outcomeAt i = v := by
    rw [outcomeAt_switches hs ht hr, hbasis]
    rfl
  have hpend : (u.ref r).sourceShelf = if (s.ref r).cfg.kind = .derived then (s.ref r).cfg.source else none :=
    sourceShelf_eq _
  refine ⟨?_, startSwitch_kept u i c r basis, fun j hj hq => ?_, fun hheld => ?_, fun e hq he hl => ?_⟩
  · rw [exec_decides h hd (by rw [hs]; nofun) (by rw [hs]; nofun), decideShelf_eq, hout]
    rfl
  · rw [startSwitch_shelf_of_ne (s := u) hj hq, hu, judgedAt_shelf_of_ne hj]
  · have hv : v = u.queued i c r basis := startSwitch_waits (s := u) hheld
    rw [hv, queued_shelf_self, hpend]
    exact ⟨rfl, rfl, rfl⟩
  · have hv : v = (u.queued i c r basis).grant e i [] :=
      startSwitch_granted (s := u) hq (freeEngine_lowest (s := u) he hl)
    rw [hv, grant_shelf, if_pos rfl, queued_shelf_self, hpend]
    exact ⟨rfl, rfl, rfl, rfl⟩

end

end Sys2Proof.Machine
end

section
/-! What a mark does to a shelf, and the marks of every command: R57, R58, R81, R109, R110, R156. -/

namespace Sys2Proof.Machine

/-! ### What is heard around a silent change -/

theorem Heard.before {i : ShelfIx} {s s1 t : State} (hs : Silent s s1) (h : Heard i s1 t) : Heard i s t where
  rank q he hn hq := h.rank q he hn (by rw [hs.ranks.effRank]; exact hq)
  edge hd he hn := by
    rcases edgesDiffer_split (t := s1) hd with hd | hd
    · rw [hs.edges] at hd
      cases hd
    · exact h.edge hd he hn
  tested r hr hb hq := h.tested r hr hb (by rw [hs.ranks.effRank]; exact hq)

theorem Silent.heard {s t : State} (h : Silent s t) (i : ShelfIx) : Heard i s t := .quiet h.ranks.effRank h.edges

/-- A switch that stands after a change of an event stood before it. -/
theorem ShelfMove.target {x y : Shelf} (h : ShelfMove x y) {r : RefIx} (hr : y.state.target = some r) :
    x.state.target = some r ∧ y.state.basis = x.state.basis := by
  cases h with
  | marked => exact ⟨by rwa [mark_state] at hr, by rw [mark_state]⟩
  | reported => exact ⟨hr, rfl⟩
  | granted => exact ⟨(granted_target x.state).symm.trans hr, granted_basis x.state⟩
  | abandoned => cases hr
  | ended => cases hr
  | muted =>
    have hnone : x.cfg.holdoverEntry.target = some r := hr
    rw [holdoverEntry_target] at hnone
    cases hnone

theorem ShelfMove.dirty {x y : Shelf} (h : ShelfMove x y) (hx : x.sel ≠ .clean) : y.sel ≠ .clean := by
  cases h with
  | marked => exact mark_dirty hx
  | reported => exact hx
  | granted => exact hx
  | abandoned => nofun
  | ended => nofun
  | muted => exact hx

theorem enabled_of_current {x : Shelf} {c : RefIx} (h : x.state.current = some c) : x.enabled = true :=
  enabled_iff.mpr fun hoff => by rw [hoff] at h; cases h

theorem ShelfMove.enabled {x y : Shelf} (h : ShelfMove x y) : y.enabled = x.enabled := by
  cases h with
  | marked => rw [Shelf.enabled, mark_state]; rfl
  | reported => rfl
  | granted => rw [Shelf.enabled, granted_switching]; rfl
  | abandoned _ hc => exact (enabled_of_current hc).symm
  | ended _ _ hu =>
    obtain ⟨-, c, hc⟩ := target_switching hu
    exact (enabled_of_current hc).symm
  | muted hc =>
    have hcls : x.muted.state.cls = .holdover := holdoverEntry_cls x.cfg
    rw [Shelf.enabled, Shelf.enabled, hcls, hc]
    rfl

theorem ShelfMove.cfg {x y : Shelf} (h : ShelfMove x y) : y.cfg = x.cfg := by
  cases h with
  | marked => exact mark_cfg x
  | reported => rfl
  | granted => rfl
  | abandoned => rfl
  | ended => rfl
  | muted => rfl

/-- A shelf record as the later operations of an event leave it: what `Steady` says of one shelf. -/
structure Shelf.HoldsOn (x y : Shelf) : Prop where
  cfg : y.cfg = x.cfg
  list : y.list = x.list
  enabled : y.enabled = x.enabled
  dirty : x.sel ≠ .clean → y.sel ≠ .clean
  flight : ∀ r, y.state.target = some r → x.state.target = some r ∧ y.state.basis = x.state.basis

theorem Shelf.HoldsOn.refl (x : Shelf) : x.HoldsOn x := ⟨rfl, rfl, rfl, id, fun _ h => ⟨h, rfl⟩⟩

theorem Shelf.HoldsOn.trans {x y z : Shelf} (h : x.HoldsOn y) (h' : y.HoldsOn z) : x.HoldsOn z where
  cfg := h'.cfg.trans h.cfg
  list := h'.list.trans h.list
  enabled := h'.enabled.trans h.enabled
  dirty hx := h'.dirty (h.dirty hx)
  flight r hr := by
    obtain ⟨hy, hbasis⟩ := h'.flight r hr
    obtain ⟨hx, hbasis'⟩ := h.flight r hy
    exact ⟨hx, hbasis.trans hbasis'⟩

theorem ShelfMove.holdsOn {x y : Shelf} (h : ShelfMove x y) : x.HoldsOn y :=
  ⟨h.cfg, h.list, h.enabled, h.dirty, fun _ => h.target⟩

/-- An event of the shelves keeps what a shelf has heard. -/
theorem ShelvesEvent.steady {s t : State} (h : ShelvesEvent s t) (i : ShelfIx) : Steady i s t := by
  have hmoves : (s.shelf i).HoldsOn (t.shelf i) :=
    (h.shelf i).keeps (P := (s.shelf i).HoldsOn) (fun _ _ hm hx => hx.trans hm.holdsOn) (.refl _)
  exact ⟨fun r => by rw [ref_congr h.refs r], hmoves.cfg, hmoves.list, hmoves.enabled, hmoves.dirty, hmoves.flight⟩

theorem Heard.after {i : ShelfIx} {s t u : State} (h : Heard i s t) (he : ShelvesEvent t u) (hs : Silent t u) :
    Heard i s u := h.same hs.ranks hs.edges (he.steady i)

theorem offerSq_silent (s : State) (i : ShelfIx) : Silent s (s.offerSq i) :=
  .of_sameBut (offerSq_refs s i) fun j => offerSq_sameBut j i s

theorem compareReports_silent (s : State) : Silent s s.compareReports :=
  .of_sameBut (compareReports_refs s) fun j => compareReports_sameBut j s

theorem fullReport_silent (s : State) : Silent s s.fullReport :=
  .of_sameBut (fullReport_refs s) fun j => fullReport_sameBut j s

/-! ### What is marked -/

/-- What every shelf has heard is marked, with what a changed state of a reference marks. -/
theorem Marks.of_heard {s t : State}
    (hstate : ∀ q, (t.ref q).rt.state ≠ (s.ref q).rt.state → MarkedWhere (· = q) s t)
    (h : ∀ i, Heard i s t) : Marks s t := by
  refine ⟨fun q hq => ?_, fun hedge i hs ht hnames => ?_⟩
  · rcases hq with hq | hq
    · exact hstate q hq
    · exact fun i _ ht hnames => (h i).rank q (enabled_iff.mpr ht) (names_iff.mpr hnames) hq
  · refine (h i).edge ?_ (enabled_iff.mpr ht) ?_
    · by_contra hsame
      obtain ⟨j, hj⟩ := hedge
      obtain ⟨hcur, hpend⟩ := edgesDiffer_false.mp (Bool.eq_false_iff.mpr hsame) j
      exact hj.elim (· hcur.symm) (· hpend.symm)
    · obtain ⟨c, hc, hkind⟩ := hnames
      exact List.any_eq_true.mpr ⟨c, hc, beq_iff_eq.mpr hkind⟩

/-- A command that changes no state of a reference. -/
theorem Marks.of_refStates {s t : State} (hr : t.refStates = s.refStates) (h : ∀ i, Heard i s t) : Marks s t :=
  .of_heard (fun q hq => absurd (congrFun hr q) hq) h

theorem Silent.marks {s t : State} (h : Silent s t) (hr : t.refStates = s.refStates) : Marks s t :=
  .of_refStates hr h.heard

theorem SameTables.marks {s t : State} (h : SameTables s t) : Marks s t :=
  (Silent.of_tables h).marks (refStates_congr h.refs)

theorem Marks.refl (s : State) : Marks s s := SameTables.marks ⟨rfl, rfl⟩

/-- Marks read the tables of records alone. -/
theorem Marks.congr {s s' t t' : State} (hs : SameTables s s') (ht : SameTables t t') (h : Marks s t) :
    Marks s' t' := by
  unfold Marks MarkedWhere at h ⊢
  simp only [hs.ref, hs.shelf, hs.effRank, ht.ref, ht.shelf, ht.effRank]
  exact h

theorem putRef_marked (s : State) (r : RefIx) (x : Reference) : Marks s (s.putRef r x) := by
  refine .of_heard (fun q hq i hs _ hnames => ?_) fun i => putRef_heard i s r x
  have hlist : ((s.putRef r x).shelf i).list = (s.shelf i).list := (putRef_kept s r x).list i
  rw [putRef_ref] at hq
  split at hq
  · rename_i hqr
    rw [hqr] at hq hnames
    rw [hlist] at hnames
    exact putRef_marks_state s r x i hq (enabled_iff.mpr hs) (names_iff.mpr hnames)
  · exact absurd rfl hq

/-! ### The operations -/

/-- An event that ends with what its action sets off. -/
theorem follow_endEvent_marks {s u : State} (hr : u.refs = s.refs) : Marks s (s.endEvent (s.follow u)) :=
  .of_refStates (refStates_congr (by rw [endEvent_refs, follow_refs, hr])) fun i => (follow_heard i s u).endEvent s

theorem decideShelf_marks (s : State) (i : ShelfIx) : Marks s (s.endEvent (s.decideShelf i)) := by
  refine .of_refStates (refStates_congr (by rw [endEvent_refs, decideShelf_refs])) fun j => Heard.endEvent ?_ s
  refine .before (judgedAt_silent (i := i)) ?_
  rw [decideShelf_eq]
  split
  · exact (follow_heard j _ _).after (markShelf_shelvesEvent _ i) (markShelf_silent _ i)
  · exact follow_heard j _ _

theorem settleExpired_marks (s : State) (i : ShelfIx) : Marks s (s.endEvent (s.settleExpired i)) := by
  have hself : Marks s (s.endEvent s) := by
    rw [endEvent_quiet (SameRanks.refl s)]
    exact .refl s
  unfold State.settleExpired
  split
  · split
    · rw [endEvent_quiet (updShelf_silent rfl rfl rfl rfl).ranks]
      exact (updShelf_silent rfl rfl rfl rfl).marks rfl
    · split
      · exact decideShelf_marks s i
      · exact hself
  all_goals exact hself

theorem engineEnds_marks (s : State) (hard : Bool) (e : EngineIx) (g : Nat) : Marks s (s.engineEnds hard e g) := by
  unfold State.engineEnds
  split
  · exact .refl s
  · split
    · exact follow_endEvent_marks (moveToTarget_refs s hard _)
    · exact .refl s

theorem limitExpired_marks (s : State) (e : EngineIx) (g : Nat) : Marks s (s.limitExpired e g) := by
  unfold State.limitExpired
  split
  · exact engineEnds_marks s true e g
  · exact .refl s

theorem refreshExpired_marks (s : State) : Marks s s.refreshExpired := by
  unfold State.refreshExpired
  split
  · exact Marks.congr ⟨rfl, rfl⟩ (setRefreshTimer_tables _ _)
      ((fullReport_silent s).marks (refStates_congr (fullReport_refs s)))
  · exact .refl s

theorem writeShelf_marks (s : State) (i : ShelfIx) (cfg : ShelfConfig) : Marks s (s.writeShelf i cfg) := by
  refine .of_refStates (refStates_congr (writeShelf_refs s i cfg)) fun j => ?_
  rw [writeShelf_eq]
  exact (follow_heard j s _).after (compareReports_shelvesEvent _) (compareReports_silent _)

theorem candTarget_heard (i j : ShelfIx) (s : State) : Heard i s (s.candTarget j) := by
  unfold State.candTarget
  split
  · split
    · exact .refl i s
    · exact follow_heard i s _
  · exact .refl i s

theorem candCurrent_heard (i j : ShelfIx) (s : State) : Heard i s (s.candCurrent j) := by
  unfold State.candCurrent
  split
  · split
    · exact .refl i s
    · exact follow_heard i s _
  · exact .refl i s

theorem lockTarget_heard (i j : ShelfIx) (s : State) (r : RefIx) (on : Bool) : Heard i s (s.lockTarget j r on) := by
  unfold State.lockTarget
  split
  · exact follow_heard i s _
  · exact .refl i s

/-- R92: a new list is read by the marks of what its step 2 and step 3 set off. -/
theorem writeList_marks (s : State) (i : ShelfIx) (l : List Candidate) : Marks s (s.writeList i l) := by
  have hlisted : Silent s (s.listWritten i l) := by
    refine updShelf_silent ?_ ?_ ?_ ?_ <;> rw [Shelf.listed_eq]
  refine .of_refStates (refStates_congr (writeList_refs s i l)) fun j => ?_
  rw [writeList_of_listWritten]
  have hsteps : Heard j (s.listWritten i l) (((s.listWritten i l).candTarget i).candCurrent i) :=
    (candTarget_heard j i _).trans (candCurrent_heard j i _) ((candCurrent_shelvesEvent _ i).steady j)
  exact (Heard.before hlisted (hsteps.after (markShelf_shelvesEvent _ i) (markShelf_silent _ i))).endEvent s

theorem changeLockout_marks (s : State) (i : ShelfIx) (r : RefIx) (on : Bool) : Marks s (s.changeLockout i r on) := by
  have hlocked : Silent s (s.updShelf i (Shelf.relocked r on)) := updShelf_silent rfl rfl rfl rfl
  refine .of_refStates (refStates_congr (changeLockout_refs s i r on)) fun j => ?_
  rw [changeLockout_eq]
  exact (Heard.before hlocked
    ((lockTarget_heard j i _ r on).after (markShelf_shelvesEvent _ i) (markShelf_silent _ i))).endEvent s

theorem disableShelf_marks (s : State) (i : ShelfIx) : Marks s (s.disableShelf i) := by
  refine .of_refStates (refStates_congr (disableShelf_refs s i)) fun j => ?_
  exact ((follow_heard j s (s.closeShelf i)).after (offerSq_shelvesEvent _ i) (offerSq_silent _ i)).endEvent s

theorem setCommand_marks (s : State) (i : ShelfIx) (c : Command) : Marks s (s.setCommand i c) :=
  (updShelf_silent (f := fun x => { x with command := c }.mark) (mark_cfg _) (mark_state _) (mark_curEdge _)
    (mark_pendEdge _)).marks rfl

theorem ackRef_marks (s : State) (r : RefIx) (l : RefLatches) : Marks s (s.ackRef r l) := by
  refine Silent.marks ⟨setRef_sameRanks s r _ rfl rfl, edgesDiffer_of_shelf fun i => setRef_shelf s r _ i⟩ ?_
  exact (ackRef_command s r l).refStates

theorem decayExpired_marks (s : State) (r : RefIx) : Marks s (s.setRef r (s.ref r).decayExpired) := by
  have hcfg : (s.ref r).decayExpired.cfg = (s.ref r).cfg ∧
      (s.ref r).decayExpired.qt.received = (s.ref r).qt.received := by
    unfold Reference.decayExpired
    split <;> exact ⟨rfl, rfl⟩
  refine Silent.marks ⟨setRef_sameRanks s r _ hcfg.1 hcfg.2, edgesDiffer_of_shelf fun i => setRef_shelf s r _ i⟩ ?_
  exact (decayExpired_command s r).refStates

/-- R177: a warm restart clears commands and latches, which no rank and no edge reads. -/
theorem warmRestart_marks (s : State) : Marks s s.warmRestart := by
  refine Silent.marks (Silent.trans ?_ (fullReport_silent _)) (warmRestart_command s).refStates
  have hshelf : ∀ i, ((((s.updRing Ring.restarted).mapRefs Reference.restarted).mapShelves fun _ x =>
      x.restarted).shelf i) = (s.shelf i).restarted := fun i => by
    rw [mapShelves_shelf, mapRefs_shelf]
    rfl
  refine ⟨⟨fun r => ?_, fun r => ?_, fun i => ?_, fun i => ?_⟩, edgesDiffer_false.mpr fun i => ⟨?_, ?_⟩⟩
  · rw [mapShelves_ref, mapRefs_ref]
    rfl
  · rw [mapShelves_ref, mapRefs_ref]
    rfl
  · rw [hshelf]
    exact mark_cfg _
  · rw [hshelf]
    exact mark_state _
  · rw [hshelf]
    exact (mark_curEdge { s.shelf i with
      command := .none, latches := (s.shelf i).latches.acknowledge (s.shelf i).live ShelfLatches.all }).symm
  · rw [hshelf]
    exact (mark_pendEdge { s.shelf i with
      command := .none, latches := (s.shelf i).latches.acknowledge (s.shelf i).live ShelfLatches.all }).symm

theorem handOff_marks (s : State) (f : Frame) : Marks s (s.handOff f) := by
  refine .of_refStates (handOff_command s f).refStates fun i => ?_
  unfold State.handOff
  split
  · exact (follow_heard i s _).endEvent s
  · have hcounted : SameTables s (s.updCounters Counters.incFormat) := ⟨rfl, rfl⟩
    exact (Silent.of_tables hcounted).heard i

/-! ### Requests -/

theorem reqWrRef_marks (args : List Byte) (s : State) : Marks s (reqWrRef args s).state := by
  unfold reqWrRef
  split
  · exact .refl s
  · split
    · split
      · split
        · exact .refl s
        · split
          · exact putRef_marked s _ _
          · exact .refl s
      · exact .refl s
    · exact .refl s

theorem reqRefOn_marks (args : List Byte) (s : State) : Marks s (reqRefOn args s).state := by
  unfold reqRefOn
  split
  · split
    · exact .refl s
    · split
      · exact putRef_marked s _ _
      · exact .refl s
  · exact .refl s

theorem reqRefOff_marks (args : List Byte) (s : State) : Marks s (reqRefOff args s).state := by
  unfold reqRefOff
  split
  · split
    · exact .refl s
    · split
      · exact .refl s
      · exact putRef_marked s _ _
  · exact .refl s

theorem reqClrWtr_marks (args : List Byte) (s : State) : Marks s (reqClrWtr args s).state := by
  unfold reqClrWtr
  split
  · split
    · exact .refl s
    · split
      · exact putRef_marked s _ _
      · exact .refl s
  · exact .refl s

theorem reqWrShelf_marks (args : List Byte) (s : State) : Marks s (reqWrShelf args s).state := by
  unfold reqWrShelf
  split
  · exact .refl s
  · split
    · split
      · rw [ok_state]
        exact writeShelf_marks s _ _
      · exact .refl s
    · exact .refl s

theorem reqWrCand_marks (args : List Byte) (s : State) : Marks s (reqWrCand args s).state := by
  unfold reqWrCand
  split
  · split
    · split
      · split
        · exact .refl s
        · rw [ok_state]
          exact writeList_marks s _ _
      · exact .refl s
    · exact .refl s
  · exact .refl s

theorem reqWrXlate_marks (args : List Byte) (s : State) : Marks s (reqWrXlate args s).state := by
  unfold reqWrXlate
  split
  · exact .refl s
  · split
    · split
      · rename_i d x _ _
        have hset : SameTables s (s.setTable d x) := setTable_sameTables s d x
        rw [ok_state]
        refine Silent.marks ((Silent.of_tables hset).trans (compareReports_silent _)) (refStates_congr ?_)
        exact (compareReports_refs _).trans hset.refs
      · exact .refl s
    · exact .refl s

theorem reqShelfOn_marks (args : List Byte) (s : State) : Marks s (reqShelfOn args s).state := by
  unfold reqShelfOn
  split
  · split
    · exact .refl s
    · split
      · exact .refl s
      · rw [ok_state]
        exact follow_endEvent_marks rfl
  · exact .refl s

theorem reqShelfOff_marks (args : List Byte) (s : State) : Marks s (reqShelfOff args s).state := by
  unfold reqShelfOff
  split
  · split
    · exact .refl s
    · split
      · rw [ok_state]
        exact disableShelf_marks s _
      · exact .refl s
  · exact .refl s

theorem reqCmd_marks (args : List Byte) (s : State) : Marks s (reqCmd args s).state := by
  unfold reqCmd
  split
  · split
    · split
      · rw [ok_state]
        exact setCommand_marks s _ _
      · exact .refl s
    · split
      · exact .refl s
      · rw [ok_state]
        exact setCommand_marks s _ _
    · exact .refl s
  · exact .refl s

theorem reqLock_marks (args : List Byte) (s : State) : Marks s (reqLock args s).state := by
  unfold reqLock
  split
  · split
    · split
      · exact .refl s
      · split
        · exact .refl s
        · rw [ok_state]
          exact changeLockout_marks s _ _ _
    · exact .refl s
  · exact .refl s

theorem reqAck_marks (args : List Byte) (s : State) : Marks s (reqAck args s).state := by
  unfold reqAck
  split
  · split
    · split
      · exact ackRef_marks s _ _
      · exact .refl s
    · split
      · split
        · exact (updShelf_silent rfl rfl rfl rfl).marks rfl
        · exact .refl s
      · exact .refl s
  · exact .refl s

theorem reqTakeRole_marks (args : List Byte) (s : State) : Marks s (reqTakeRole args s).state := by
  unfold reqTakeRole
  split
  · split
    · split
      · exact .refl s
      · have hdriving : SameTables { s with drive := .driving } s := ⟨rfl, rfl⟩
        rw [ok_state]
        exact Marks.congr hdriving ⟨rfl, rfl⟩ ((fullReport_silent _).marks (refStates_congr (fullReport_refs _)))
    · exact .refl s
  · exact .refl s

/-- Every request marks by what it changed. -/
theorem run_marks (q : Request) (args : List Byte) (s : State) : Marks s (q.run args s).state := by
  cases q with
  | rdRef => dsimp only [Request.run]; unfold reqRdRef; (repeat' split) <;> exact .refl s
  | rdShelf => dsimp only [Request.run]; unfold reqRdShelf; (repeat' split) <;> exact .refl s
  | rdXlate => dsimp only [Request.run]; unfold reqRdXlate; (repeat' split) <;> exact .refl s
  | rdGlobal => dsimp only [Request.run]; unfold reqRdGlobal; split <;> exact .refl s
  | rdCount => dsimp only [Request.run]; unfold reqRdCount; split <;> exact .refl s
  | wrRef => exact reqWrRef_marks args s
  | wrShelf => exact reqWrShelf_marks args s
  | wrCand => exact reqWrCand_marks args s
  | wrXlate => exact reqWrXlate_marks args s
  | wrGlobal => dsimp only [Request.run]; unfold reqWrGlobal; (repeat' split) <;> exact SameTables.marks ⟨rfl, rfl⟩
  | refOn => exact reqRefOn_marks args s
  | refOff => exact reqRefOff_marks args s
  | shelfOn => exact reqShelfOn_marks args s
  | shelfOff => exact reqShelfOff_marks args s
  | cmd => exact reqCmd_marks args s
  | lock => exact reqLock_marks args s
  | clrWtr => exact reqClrWtr_marks args s
  | ack => exact reqAck_marks args s
  | clrCount => dsimp only [Request.run]; unfold reqClrCount; split <;> exact SameTables.marks ⟨rfl, rfl⟩
  | restart =>
    dsimp only [Request.run]
    unfold reqRestart
    split
    · rw [ok_state]
      exact warmRestart_marks s
    · exact .refl s
  | takeRole => exact reqTakeRole_marks args s
  | yieldRole =>
    dsimp only [Request.run]
    unfold reqYieldRole
    split
    · exact (enterFloating_tables s).marks
    · exact .refl s

theorem execute_marks (s : State) (src : Byte) (payload : List Byte) : Marks s (s.execute src payload).state := by
  unfold State.execute
  split
  · split
    · exact .refl s
    · split
      · exact .refl s
      · exact run_marks _ _ s
  · exact .refl s

/-! ### The Frame Handler and every command -/

theorem takeHead_marks (s : State) : Marks s s.takeHead := by
  unfold State.takeHead
  split
  · exact .refl s
  · rename_i f _ _
    split
    · exact SameTables.marks ⟨rfl, rfl⟩
    · split
      · split
        · split
          · exact Marks.congr (s := s.dropHead.pushInsert .reserved) ⟨rfl, rfl⟩ ⟨rfl, rfl⟩
              (execute_marks _ f.src f.payload)
          · exact .refl s
        · exact SameTables.marks ⟨rfl, rfl⟩
      · have hrelayed : SameTables (s.dropHead.relay f) s := by
          obtain ⟨hrefs, hshelves⟩ := relay_sameTables s.dropHead f
          exact ⟨hrefs.symm, hshelves.symm⟩
        unfold State.passFrame
        dsimp only
        split
        · exact Marks.congr hrelayed ⟨rfl, rfl⟩ (handOff_marks _ f)
        · exact Marks.congr hrelayed ⟨rfl, rfl⟩ (.refl _)

theorem submit_marks (s : State) (src : Byte) (payload : List Byte) : Marks s (s.submit src payload) := by
  have hoffered := offerRx_tables s (s.requestFrame src payload)
  unfold State.submit
  split
  · split
    · exact Marks.congr ⟨hoffered.refs.symm, hoffered.shelves.symm⟩ ⟨rfl, rfl⟩ (takeHead_marks _)
    · exact hoffered.marks
  · exact SameTables.marks ⟨rfl, rfl⟩

/-- A command that RESETn low holds off. -/
theorem running_marks {s t : State} {f : State → State} (h : s.running f = .next t) (hf : Marks s (f s)) :
    Marks s t := by
  unfold State.running at h
  obtain rfl := Host.Outcome.next.inj h
  split
  · exact hf
  · exact .refl s

/-- R179: after a reset no shelf is enabled. -/
theorem cold_marks (s : State) (role : Bool) (n : Nat) (p : List Instr) : Marks s (State.cold role n p) := by
  have hoff : ∀ i, ((State.cold role n p).shelf i).state = .off := fun i => by rw [cold_shelf]; rfl
  exact ⟨fun _ _ i _ ht => absurd (hoff i) ht, fun _ i _ ht => absurd (hoff i) ht⟩

theorem exec_marks {c : Instr} {s t : State} (h : exec c s = .next t) : Marks s t := by
  have hring : ∀ f : Ring → Ring, Marks s (s.updRing f) := fun _ => SameTables.marks ⟨rfl, rfl⟩
  cases c with
  | frameArrival => exact running_marks (f := State.frameArrives) h (frameArrives_tables s).marks
  | frameTake => exact running_marks (f := State.takeHead) h (takeHead_marks s)
  | transmissionStart => exact running_marks (f := fun s => s.updRing Ring.startSending) h (hring _)
  | transmissionEnd => exact running_marks (f := fun s => s.updRing Ring.endSending) h (hring _)
  | receiverReady levels =>
    exact running_marks (f := fun s => s.updRing fun g => { g with receiver := levels.foldl Receiver.bit g.receiver })
      h (hring _)
  | octetTaken octet stop =>
    exact running_marks (f := fun s => s.updRing fun g => { g with receiver := g.receiver.octet octet stop })
      h (hring _)
  | comparisonPulse r cycles ticks =>
    exact running_marks (f := fun s => s.putRef r ((s.ref r).clockIn cycles ticks)) h (putRef_marked s r _)
  | activityWatchExpiry r =>
    exact running_marks (f := fun s => s.putRef r (s.ref r).watchExpired) h (putRef_marked s r _)
  | holdOffExpiry r => exact running_marks (f := fun s => s.putRef r (s.ref r).holdOffExpired) h (putRef_marked s r _)
  | restoreWaitExpiry r =>
    exact running_marks (f := fun s => s.putRef r (s.ref r).restoreExpired) h (putRef_marked s r _)
  | announcementTimerExpiry r =>
    exact running_marks (f := fun s => s.putRef r (s.ref r).announceExpired) h (putRef_marked s r _)
  | decayExpiry r =>
    exact running_marks (f := fun s => s.setRef r (s.ref r).decayExpired) h (decayExpired_marks s r)
  | settleTimerExpiry i =>
    exact running_marks (f := fun s => s.endEvent (s.settleExpired i)) h (settleExpired_marks s i)
  | engineDone e g => exact running_marks (f := fun s => s.engineEnds false e g) h (engineEnds_marks s false e g)
  | alignmentLimitExpiry e g => exact running_marks (f := fun s => s.limitExpired e g) h (limitExpired_marks s e g)
  | holdoverPhaseExpiry i =>
    exact running_marks (f := fun s => s.endEvent (s.follow (s.updShelf i fun x =>
      { x with state := x.state.phaseExpired x.cfg.phaseB.toNat }))) h (follow_endEvent_marks rfl)
  | refreshExpiry => exact running_marks (f := State.refreshExpired) h (refreshExpired_marks s)
  | roleFallingEdge =>
    obtain rfl := Host.Outcome.next.inj h
    have hpin : SameTables { s with role := false } s := ⟨rfl, rfl⟩
    exact Marks.congr hpin ⟨rfl, rfl⟩ (enterFloating_tables _).marks
  | roleRisingEdge =>
    obtain rfl := Host.Outcome.next.inj h
    exact SameTables.marks ⟨rfl, rfl⟩
  | resetAssert =>
    obtain rfl := Host.Outcome.next.inj h
    exact cold_marks s _ _ _
  | resetRelease straps =>
    obtain rfl := Host.Outcome.next.inj h
    split <;> exact SameTables.marks ⟨rfl, rfl⟩
  | _ => exact running_marks (f := fun s => s.submit _ _) h (submit_marks s _ _)

/-! ### The obligation -/

theorem mark_clean {x : Shelf} (ho : x.state ≠ .off) (hs : x.sel = .clean) :
    x.mark.sel = .settling (msTicks x.cfg.window.ms) := by
  unfold Shelf.mark
  rw [if_pos (enabled_iff.mpr ho), hs]

theorem mark_of_deferred {x : Shelf} (ho : x.state ≠ .off) (hs : x.sel = .deferred) : x.mark.sel =
    if x.state.cls = .switching then .deferred else .settling (msTicks x.cfg.window.ms) := by
  unfold Shelf.mark Shelf.switching
  rw [if_pos (enabled_iff.mpr ho), hs]
  simp only [beq_iff_eq]
  split
  · exact hs
  · rfl

/-- Settles O21: every command is silent, or one event whose end every shelf has heard; the conditions of R110 are the
cases of the mark. -/
theorem markStartsTheSettleTimer : Obligations.MarkStartsTheSettleTimer := by
  refine ⟨fun s c t h => exec_marks h, ?_⟩
  intro x window
  have hwindow : msTicks x.cfg.window.ms = window * 250000 := by
    simp only [window]
    cases x.cfg.window <;> rfl
  rw [← hwindow]
  exact ⟨mark_eq x, mark_off, mark_clean, fun n _ => mark_keepsTimer, mark_of_deferred⟩

end Sys2Proof.Machine
end

section
/-! The immediate loss of a reference: what becomes of every shelf that is LOCKED on it, SWITCHING from it or SWITCHING
to it, and the places of the Selection Notices: R114, R115, R139 to R141. -/

namespace Sys2Proof.Machine

/-! ### The current references in one event -/

section
variable {t : State} {i j : ShelfIx} {r : RefIx}

theorem abandon_current (t : State) (i j : ShelfIx) :
    ((t.abandon j).shelf i).state.current = (t.shelf i).state.current := by
  by_cases hij : i = j
  · subst hij
    cases ht : (t.shelf i).state.target with
    | none => rw [abandon_none ht]
    | some u =>
      obtain ⟨_, c, hc⟩ := target_switching ht
      obtain ⟨n, hn⟩ := abandon_shelf_self t i hc ht
      rw [hn, hc]
      rfl
  · exact (abandon_regranted t hij).current

/-- What an action sets off ends no shelf's hold on its current reference. -/
theorem follow_current (s t : State) (i : ShelfIx) :
    ((s.follow t).shelf i).state.current = (t.shelf i).state.current :=
  follow_induct (P := fun w => (w.shelf i).state.current = (t.shelf i).state.current)
    (fun w p h => by rw [(markWhere_sameBut i w p).state, h]) (fun w j h _ => (abandon_current w i j).trans h) s t rfl

/-- The part of another shelf in the state change. -/
theorem takePart_current_of_ne (hij : i ≠ j) :
    ((State.takePart r t j).shelf i).state.current = (t.shelf i).state.current := by
  unfold State.takePart
  split
  · rw [follow_current, (loseCurrent_regranted t hij).current]
  · split
    · rw [follow_current, abandon_current]
    · rfl

theorem foldl_takePart_current : ∀ (l : List ShelfIx) (t : State), i ∉ l →
    ((l.foldl (State.takePart r) t).shelf i).state.current = (t.shelf i).state.current
  | [], _, _ => rfl
  | _ :: l, _, hi => (foldl_takePart_current l _ (List.not_mem_of_not_mem_cons hi)).trans
      (takePart_current_of_ne (List.ne_of_not_mem_cons hi))

theorem takePart_idle (hc : (t.shelf j).state.current ≠ some r) (ht : (t.shelf j).state.target ≠ some r) :
    State.takePart r t j = t := by
  unfold State.takePart
  rw [if_neg fun h => hc h.1, if_neg fun h => ht h.1]

/-- Shelves that neither hold the reference nor switch to it take no part. -/
theorem foldl_takePart_idle : ∀ l : List ShelfIx,
    (∀ j ∈ l, (t.shelf j).state.current ≠ some r ∧ (t.shelf j).state.target ≠ some r) →
    l.foldl (State.takePart r) t = t
  | [], _ => rfl
  | j :: l, h => by
    obtain ⟨hc, ht⟩ := h j List.mem_cons_self
    rw [List.foldl_cons, takePart_idle hc ht]
    exact foldl_takePart_idle l fun k hk => h k (List.mem_cons_of_mem j hk)

end

/-! ### The notices of one event -/

section
variable {t : State} {j : ShelfIx} {r : RefIx}

/-- A shelf that loses its reference offers one notice. -/
theorem loseCurrent_ring (hc : (t.shelf j).state.current = some r) :
    ∃ n cause hard, (t.loseCurrent j).ring = (t.offerSn j (some r) n cause hard).ring := by
  cases ht : (t.shelf j).state.target with
  | none => exact ⟨_, _, _, loseCurrent_locked_ring t j (locked_of_current hc ht)⟩
  | some u =>
    obtain ⟨b, hflight⟩ := flight_of_target hc ht
    exact ⟨_, _, _, loseCurrent_switching_ring t j hflight⟩

theorem takePart_ring_of_current (hr : (t.ref r).rt.state = .failed ∨ (t.ref r).rt.state = .disabled)
    (hc : (t.shelf j).state.current = some r) : (State.takePart r t j).ring = (t.loseCurrent j).ring := by
  unfold State.takePart
  rw [if_pos ⟨hc, hr⟩, follow_ring]

/-- Only a shelf that holds the reference offers a notice. -/
theorem takePart_ring_of_not_current (hc : (t.shelf j).state.current ≠ some r) :
    (State.takePart r t j).ring = t.ring := by
  unfold State.takePart
  rw [if_neg fun h => hc h.1]
  split
  · rw [follow_ring, abandon_ring]
  · rfl

/-- Shelf `j` of `t` holds the reference `r`. -/
def State.uses (t : State) (r : RefIx) (j : ShelfIx) : Bool := (t.shelf j).state.current == some r

theorem takePart_uses_of_ne {i : ShelfIx} (hij : i ≠ j) : (State.takePart r t j).uses r i = t.uses r i := by
  unfold State.uses
  rw [takePart_current_of_ne hij]

/-- With room a shelf's part adds a notice where the shelf holds the reference. -/
theorem takePart_length (hr : (t.ref r).rt.state = .failed ∨ (t.ref r).rt.state = .disabled)
    (hd : t.drive = .driving) (hroom : t.uses r j = true → t.ring.insertQ.length < 32) :
    (State.takePart r t j).ring.insertQ.length = t.ring.insertQ.length + if t.uses r j then 1 else 0 := by
  by_cases hc : (t.shelf j).state.current = some r
  · have hu : t.uses r j = true := beq_iff_eq.mpr hc
    obtain ⟨n, cause, hard, hring⟩ := loseCurrent_ring hc
    rw [takePart_ring_of_current hr hc, hring, offerSn_insertQ t j _ _ _ _ hd (hroom hu), if_pos hu]
    exact List.length_append
  · have hu : ¬t.uses r j = true := fun h => hc (beq_iff_eq.mp h)
    rw [takePart_ring_of_not_current hc, if_neg hu, Nat.add_zero]

/-- With room the parts of the shelves in `l` add a notice for each that holds the reference. -/
theorem foldl_takePart_length : ∀ (l : List ShelfIx) (t : State), l.Nodup →
    ((t.ref r).rt.state = .failed ∨ (t.ref r).rt.state = .disabled) → t.drive = .driving →
    t.ring.insertQ.length + l.countP (t.uses r) ≤ 32 →
    (l.foldl (State.takePart r) t).ring.insertQ.length = t.ring.insertQ.length + l.countP (t.uses r)
  | [], _, _, _, _, _ => rfl
  | j :: l, t, hn, hr, hd, hroom => by
    obtain ⟨hj, hl⟩ := List.nodup_cons.mp hn
    rw [List.countP_cons] at hroom ⊢
    have hlen := takePart_length (j := j) hr hd (fun hu => by rw [if_pos hu] at hroom; omega)
    have huses : l.countP ((State.takePart r t j).uses r) = l.countP (t.uses r) :=
      List.countP_congr fun i hi => by rw [takePart_uses_of_ne (fun h : i = j => hj (h ▸ hi))]
    have hk := takePart_kept r t j
    rw [List.foldl_cons, foldl_takePart_length l _ hl (by rwa [hk.ref]) (hk.drive.trans hd) (by rw [huses]; omega),
      huses, hlen]
    omega

end

/-! ### The turn of one shelf -/

/-- The shelves whose part precedes that of shelf `i`. -/
def earlierShelves (i : ShelfIx) : List ShelfIx := shelfIxs.filter fun j => j < i

/-- The shelves whose part follows that of shelf `i`. -/
def laterShelves (i : ShelfIx) : List ShelfIx := shelfIxs.filter fun j => i < j

theorem shelfIxs_split : ∀ i : ShelfIx, shelfIxs = earlierShelves i ++ i :: laterShelves i := by decide

theorem mem_earlierShelves {i j : ShelfIx} : j ∈ earlierShelves i ↔ j < i := by
  simp [earlierShelves, shelfIxs, List.mem_filter]

theorem not_mem_earlierShelves (i : ShelfIx) : i ∉ earlierShelves i := fun h =>
  lt_irrefl i (mem_earlierShelves.mp h)

theorem not_mem_laterShelves (i : ShelfIx) : i ∉ laterShelves i := by simp [laterShelves]

theorem earlierShelves_nodup (i : ShelfIx) : (earlierShelves i).Nodup := (List.nodup_finRange 24).filter _

/-- The event that makes of record `r` the record `x`, up to the part of shelf `i`. -/
def State.atTurn (s : State) (r : RefIx) (x : Reference) (i : ShelfIx) : State :=
  (earlierShelves i).foldl (State.takePart r) ((s.setRef r x).markNaming r)

/-- How many shelves before shelf `i` hold the reference `r`. -/
def State.usersBefore (s : State) (r : RefIx) (i : ShelfIx) : Nat := (earlierShelves i).countP (s.uses r)

section
variable {s : State} {r : RefIx} {x : Reference} {i : ShelfIx}

/-- The event is the turns of the earlier shelves, shelf `i`'s own, those of the later ones, and the event's end. -/
theorem putRef_eq_turn (hx : x.rt.state ≠ (s.ref r).rt.state) : s.putRef r x =
    s.endEvent (s.follow ((laterShelves i).foldl (State.takePart r) (State.takePart r (s.atTurn r x i) i))) := by
  unfold State.putRef State.deliverState State.atTurn
  rw [shelfIxs_split i]
  dsimp only
  rw [if_neg hx, List.foldl_append, List.foldl_cons]

theorem foldl_takePart_kept (r : RefIx) (l : List ShelfIx) (t : State) : Kept t (l.foldl (State.takePart r) t) :=
  foldl_induct _ (fun b a h => h.trans (takePart_kept r b a)) l t (Kept.refl t)

theorem markNaming_sameBut (i : ShelfIx) : SameBut i s ((s.setRef r x).markNaming r) :=
  (SameBut.of_eq (setRef_shelf s r x i)).trans (markWhere_sameBut i _ _)

theorem atTurn_kept : Kept (s.setRef r x) (s.atTurn r x i) :=
  (markWhere_kept _ _).trans (foldl_takePart_kept r _ _)

theorem atTurn_ref : (s.atTurn r x i).ref r = x := by
  rw [atTurn_kept.ref, setRef_ref, if_pos rfl]

theorem turn_kept (hx : x.rt.state ≠ (s.ref r).rt.state) :
    Kept (State.takePart r (s.atTurn r x i) i) (s.putRef r x) := by
  rw [putRef_eq_turn (i := i) hx]
  exact (foldl_takePart_kept r _ _).trans ((follow_kept _ _).trans (endEvent_kept _ _))

theorem atTurn_current : ((s.atTurn r x i).shelf i).state.current = (s.shelf i).state.current :=
  (foldl_takePart_current _ _ (not_mem_earlierShelves i)).trans (by rw [(markNaming_sameBut i).state])

theorem atTurn_sameBut (h : (s.shelf i).switching = false) : SameBut i s (s.atTurn r x i) :=
  (markNaming_sameBut i).trans
    (foldl_takePart_calm r i _ _ (not_mem_earlierShelves i) (by rw [(markNaming_sameBut i).switching, h])).1

theorem inFlight_of_sameBut {t : State} {c u : RefIx} {b : Basis} (h : SameBut i s t)
    (hs : (s.shelf i).state = .waiting c u b ∨ (s.shelf i).state = .aligning c u b) : InFlight i c u b s t := by
  obtain ⟨v, l, hv⟩ := h
  exact ⟨_, v, l, hv, hs⟩

theorem atTurn_flight {c u : RefIx} {b : Basis}
    (h : (s.shelf i).state = .waiting c u b ∨ (s.shelf i).state = .aligning c u b) :
    FlightOrBack i c u b s (s.atTurn r x i) :=
  FlightOrBack.foldl r _ _ (not_mem_earlierShelves i) (.inl (inFlight_of_sameBut (markNaming_sameBut i) h))

/-- Where no earlier shelf takes a part, the switch is still in flight at the shelf's turn. -/
theorem atTurn_inFlight {c u : RefIx} {b : Basis}
    (h : (s.shelf i).state = .waiting c u b ∨ (s.shelf i).state = .aligning c u b)
    (halone : ∀ j, j < i → (s.shelf j).state.current ≠ some r ∧ (s.shelf j).state.target ≠ some r) :
    InFlight i c u b s (s.atTurn r x i) := by
  have hidle : s.atTurn r x i = (s.setRef r x).markNaming r :=
    foldl_takePart_idle _ fun j hj => by
      rw [(markNaming_sameBut j).state]
      exact halone j (mem_earlierShelves.mp hj)
  rw [hidle]
  exact inFlight_of_sameBut (markNaming_sameBut i) h

/-- What a shelf's own part makes of it, not SWITCHING, stands at the event's end. -/
theorem Became.putRef {f : Shelf → Shelf} (h : Became i f s (State.takePart r (s.atTurn r x i) i))
    (hx : x.rt.state ≠ (s.ref r).rt.state) (hf : ∀ y : Shelf, (f y).switching = false) :
    Became i f s (s.putRef r x) := by
  have hlater := h.foldl hf r _ (not_mem_laterShelves i)
  have hcalm := follow_calm i s ((laterShelves i).foldl (State.takePart r) (State.takePart r (s.atTurn r x i) i)) (by
    obtain ⟨n, l, hl⟩ := hlater
    rw [hl]
    exact hf _)
  rw [putRef_eq_turn (i := i) hx]
  exact (hlater.calm hcalm.1 hcalm.2).calm (endEvent_sameBut i _ _) (endEvent_keepsTimer i _ _)

/-! ### The place of a notice -/

theorem atTurn_length (hr : x.rt.state = .failed ∨ x.rt.state = .disabled) (hd : s.drive = .driving)
    (hroom : s.ring.insertQ.length + s.usersBefore r i ≤ 32) :
    (s.atTurn r x i).ring.insertQ.length = s.ring.insertQ.length + s.usersBefore r i := by
  have hk : Kept (s.setRef r x) ((s.setRef r x).markNaming r) := markWhere_kept _ _
  have hring : ((s.setRef r x).markNaming r).ring = s.ring := markWhere_ring _ _
  have huses : (earlierShelves i).countP (((s.setRef r x).markNaming r).uses r) = s.usersBefore r i :=
    List.countP_congr fun j _ => by
      unfold State.uses
      rw [(markNaming_sameBut j).state]
  have hlen := foldl_takePart_length (earlierShelves i) ((s.setRef r x).markNaming r) (earlierShelves_nodup i)
    (by rwa [hk.ref, setRef_ref, if_pos rfl]) (hk.drive.trans hd) (by rwa [huses, hring])
  rwa [huses, hring] at hlen

/-- A notice offered at the shelf's turn stands behind those of the earlier shelves: R34, R149. -/
theorem putRef_noticed {n : Option RefIx} {cause : Cause} {hard : Bool} (hx : x.rt.state ≠ (s.ref r).rt.state)
    (hr : x.rt.state = .failed ∨ x.rt.state = .disabled) (hc : (s.shelf i).state.current = some r)
    (hring : ((s.atTurn r x i).loseCurrent i).ring = ((s.atTurn r x i).offerSn i (some r) n cause hard).ring) :
    Noticed s (s.putRef r x) (s.usersBefore r i)
      (s.noticeFrame i (some r) n cause.octet (if hard then 1 else 0)) := by
  intro hd hroom
  have hlen := atTurn_length (x := x) hr hd hroom.le
  have hgrows := (turn_kept (i := i) hx).queue
  rw [takePart_ring_of_current (by rwa [atTurn_ref]) (atTurn_current.trans hc), hring] at hgrows
  rw [← hlen] at hroom ⊢
  exact offerSn_noticed (fun _ => atTurn_kept.makeFrame _ _ _) (atTurn_kept.drive.trans hd) hroom hgrows

theorem putRef_noticed_lost (hx : x.rt.state ≠ (s.ref r).rt.state)
    (hr : x.rt.state = .failed ∨ x.rt.state = .disabled) (hc : (s.shelf i).state.current = some r)
    (hl : ((s.atTurn r x i).shelf i).state = .locked r) :
    Noticed s (s.putRef r x) (s.usersBefore r i) (s.noticeFrame i (some r) none 2 0) :=
  putRef_noticed (cause := .lost) (hard := false) hx hr hc (loseCurrent_locked_ring _ i hl)

theorem putRef_noticed_cut {u : RefIx} {b : Basis} (hx : x.rt.state ≠ (s.ref r).rt.state)
    (hr : x.rt.state = .failed ∨ x.rt.state = .disabled) (hc : (s.shelf i).state.current = some r)
    (hl : InFlight i r u b s (s.atTurn r x i)) :
    Noticed s (s.putRef r x) (s.usersBefore r i) (s.noticeFrame i (some r) (some u) 1 1) := by
  obtain ⟨b, hflight⟩ := flight_of_target hl.current hl.target
  exact putRef_noticed (cause := .chosen) (hard := true) hx hr hc (loseCurrent_switching_ring _ i hflight)

end

/-! ### The loss at every shelf -/

theorem muted_switching (x : Shelf) : x.muted.switching = false := by
  simp [Shelf.muted, Shelf.switching, holdoverEntry_cls]

/-- What the event from `s` to `t` makes of the shelves that hold the reference `r` or switch to it, their notices
behind `ahead` entries of the event. -/
structure LossEvent (s : State) (r : RefIx) (t : State) (ahead : Nat) : Prop where
  locked : ∀ i, (s.shelf i).state = .locked r → Became i Shelf.muted s t
    ∧ Noticed s t (ahead + s.usersBefore r i) (s.noticeFrame i (some r) none 2 0)
  leaves : ∀ i u, (s.shelf i).state.current = some r → (s.shelf i).state.target = some u →
    Became i (Shelf.cutTo u) s t
      ∧ Noticed s t (ahead + s.usersBefore r i) (s.noticeFrame i (some r) (some u) 1 1)
    ∨ Became i (Shelf.muted ∘ Shelf.backOn r) s t
      ∧ Noticed s t (ahead + s.usersBefore r i) (s.noticeFrame i (some r) none 2 0)
  alone : ∀ i u, (s.shelf i).state.current = some r → (s.shelf i).state.target = some u →
    (∀ j, j < i → (s.shelf j).state.current ≠ some r ∧ (s.shelf j).state.target ≠ some r) →
    Became i (Shelf.cutTo u) s t
  joins : ∀ i c, (s.shelf i).state.target = some r → (s.shelf i).state.current = some c → c ≠ r →
    Became i (Shelf.backOn c) s t

section
variable {s : State} {r : RefIx} {x : Reference}

/-- R114: the event that takes the reference to FAILED or DISABLED. -/
theorem putRef_lossEvent (hx : x.rt.state ≠ (s.ref r).rt.state)
    (hr : x.rt.state = .failed ∨ x.rt.state = .disabled) : LossEvent s r (s.putRef r x) 0 where
  locked i hl := by
    rw [Nat.zero_add]
    have hturn : ((s.atTurn r x i).shelf i).state = .locked r := by
      rw [(atTurn_sameBut (not_switching_of_locked hl)).state, hl]
    exact ⟨putRef_locked s r x i hl hx hr, putRef_noticed_lost hx hr (by rw [hl]; rfl) hturn⟩
  leaves i u hc ht := by
    rw [Nat.zero_add]
    obtain ⟨b, hs⟩ := flight_of_target hc ht
    obtain ⟨hcut, hmute⟩ := takePart_from (i := i) (u := u) (b := b) (s := s) (t := s.atTurn r x i)
      (by rwa [atTurn_ref])
    rcases atTurn_flight (r := r) (x := x) hs with hturn | hturn
    · exact .inl ⟨(hcut hturn).putRef hx fun _ => rfl, putRef_noticed_cut hx hr hc hturn⟩
    · exact .inr ⟨(hmute hturn).putRef hx fun _ => muted_switching _,
        putRef_noticed_lost hx hr hc (backOn_locked hturn)⟩
  alone i u hc ht halone := by
    obtain ⟨b, hs⟩ := flight_of_target hc ht
    exact ((takePart_from (by rwa [atTurn_ref])).1 (atTurn_inFlight hs halone)).putRef hx fun _ => rfl
  joins i c ht hc hne := by
    obtain ⟨b, hs⟩ := flight_of_target hc ht
    exact (takePart_to hne (by rwa [atTurn_ref]) (atTurn_flight hs)).putRef hx fun _ => rfl

/-! ### The loss in a request -/

theorem Became.of_tables {i : ShelfIx} {f : Shelf → Shelf} {t u : State} (h : Became i f s u) (ht : SameTables u t) :
    Became i f s t := by
  obtain ⟨n, l, hl⟩ := h
  exact ⟨n, l, by rw [ht.shelf, hl]⟩

/-- A notice of the request stands behind the entry that was reserved for the reply. -/
theorem Noticed.replied {t u : State} {k : Nat} {f : Frame} (h : Noticed (s.pushInsert .reserved) u k f)
    (ht : Replied u t) : Noticed s t (1 + k) f := by
  have hlen : (s.pushInsert .reserved).ring.insertQ.length = s.ring.insertQ.length + 1 := List.length_append
  intro hd hroom
  unfold Noticed at h
  rw [hlen, Nat.add_assoc] at h
  exact ht.entry (by nofun) (h hd hroom)

/-- The loss that a request brings about, seen from before the request. -/
theorem LossEvent.replied {t u : State} (h : LossEvent (s.pushInsert .reserved) r u 0) (ht : Replied u t) :
    LossEvent s r t 1 where
  locked i hl := by
    obtain ⟨hmuted, hnotice⟩ := h.locked i hl
    rw [Nat.zero_add] at hnotice
    exact ⟨hmuted.of_tables ht.tables, hnotice.replied ht⟩
  leaves i u hc hu := by
    have hleaves := h.leaves i u hc hu
    rw [Nat.zero_add] at hleaves
    exact hleaves.imp (fun ⟨hcut, hnotice⟩ => ⟨hcut.of_tables ht.tables, hnotice.replied ht⟩)
      (fun ⟨hmuted, hnotice⟩ => ⟨hmuted.of_tables ht.tables, hnotice.replied ht⟩)
  alone i u hc hu halone := (h.alone i u hc hu halone).of_tables ht.tables
  joins i c hu hc hne := (h.joins i c hu hc hne).of_tables ht.tables

end

/-! ### The obligation -/

/-- R69, R72: the verdict FAIL that fails the reference at once. -/
theorem RefDynamic.verdictFail_failed {cfg : RefConfig} {x : RefDynamic}
    (hs : (x.state = .active ∧ cfg.holdOff = 0) ∨ x.state = .restoring) : (x.verdictFail cfg).state = .failed := by
  rcases hs with ⟨hs, hhold⟩ | hs
  · rw [RefDynamic.verdictFail_active_at_once hs hhold]
    rfl
  · rw [RefDynamic.verdictFail_restoring hs]
    rfl

/-- R22: a loss of signal brings about the verdict FAIL. -/
theorem Reference.watchExpired_failed {x : Reference} (hr : x.mon.run = .running) (hw : x.mon.watch = some 0)
    (hv : x.mon.verdict = .good) (hs : (x.rt.state = .active ∧ x.cfg.holdOff = 0) ∨ x.rt.state = .restoring) :
    x.watchExpired.rt.state = .failed := by
  rw [Reference.watchExpired_due hr hw, Reference.measured_loseSignal, hv]
  exact RefDynamic.verdictFail_failed hs

/-- The places as the obligation counts them. -/
theorem usersBefore_eq (s : State) (r : RefIx) (i : ShelfIx) : s.usersBefore r i =
    (((List.finRange 24).filter fun j => (s.shelf j).state.current == some r).filter fun j => j < i).length := by
  unfold State.usersBefore earlierShelves
  rw [List.countP_eq_length_filter, List.filter_comm]
  rfl

/-- R144: a shelf that has lost its reference, whatever ending of a switch `f` came before. -/
theorem Became.muted_fields {s t : State} {i : ShelfIx} {f : Shelf → Shelf} (h : Became i (Shelf.muted ∘ f) s t)
    (hf : (f (s.shelf i)).cfg = (s.shelf i).cfg) :
    (t.shelf i).route = none ∧ (t.shelf i).curEdge = none
      ∧ (t.shelf i).state = (s.shelf i).cfg.holdoverEntry := by
  obtain ⟨n, l, hl⟩ := h
  rw [hl, ← hf]
  exact ⟨rfl, rfl, rfl⟩

theorem Became.settling {s t : State} {i : ShelfIx} {f : Shelf → Shelf} (h : Became i f s t) :
    ∃ n, (t.shelf i).sel = .settling n := by
  obtain ⟨n, l, hl⟩ := h
  exact ⟨n, by rw [hl]⟩

/-- R141: a shelf moved to `u` by a hard cut. -/
theorem Became.cutTo_fields {s t : State} {i : ShelfIx} {u : RefIx} (h : Became i (Shelf.cutTo u) s t) :
    (t.shelf i).state = .locked u ∧ (t.shelf i).route = some u ∧ (t.shelf i).curEdge = (s.shelf i).pendEdge
      ∧ (t.shelf i).pendEdge = none ∧ (t.shelf i).latches = { (s.shelf i).latches with hard := true } := by
  obtain ⟨n, l, hl⟩ := h
  rw [hl]
  exact ⟨rfl, rfl, rfl, rfl, rfl⟩

/-- R139: a shelf whose switch is abandoned. -/
theorem Became.abandoned {s t : State} {i : ShelfIx} {c : RefIx} (h : Became i (Shelf.backOn c) s t) :
    Abandoned i c s t := by
  obtain ⟨n, l, hl⟩ := h
  unfold Abandoned
  rw [hl]
  exact ⟨rfl, rfl, rfl, rfl, rfl, n, rfl⟩

theorem Became.latches {s t : State} {i : ShelfIx} {f : Shelf → Shelf} (h : Became i f s t) :
    (t.shelf i).latches = (f (s.shelf i)).latches := by
  obtain ⟨n, l, hl⟩ := h
  rw [hl]

theorem Became.pendEdge {s t : State} {i : ShelfIx} {f : Shelf → Shelf} (h : Became i f s t) :
    (t.shelf i).pendEdge = (f (s.shelf i)).pendEdge := by
  obtain ⟨n, l, hl⟩ := h
  rw [hl]

/-- Settles O13: each of the four events is a `LossEvent`, the one of REF-OFF behind the entry reserved for its
reply. -/
theorem immediateLossMutesEveryLockedShelf : Obligations.ImmediateLossMutesEveryLockedShelf := by
  intro s r hn x Muted HardCut users Lost
  have hlost : ∀ {t : State} {ahead : Nat}, LossEvent s r t ahead → Lost t ahead := by
    intro t ahead h i place
    have hplace : place = ahead + s.usersBefore r i := congrArg (ahead + ·) (usersBefore_eq s r i).symm
    rw [hplace]
    refine ⟨fun hl => ?_, fun u hc hu _ => ?_, fun c hu hc hne => (h.joins i c hu hc hne).abandoned⟩
    · obtain ⟨hmuted, hnotice⟩ := h.locked i hl
      exact ⟨Became.muted_fields (f := id) hmuted rfl, hmuted.pendEdge, hmuted.latches, hmuted.settling, hnotice⟩
    · have hleaves := h.leaves i u hc hu
      refine ⟨?_, fun halone => (h.alone i u hc hu halone).cutTo_fields, ?_⟩
      · exact hleaves.elim (fun hcut => hcut.1.settling) (fun hmuted => hmuted.1.settling)
      · exact hleaves.imp (fun ⟨hcut, hnotice⟩ => ⟨hcut.cutTo_fields, hnotice⟩)
          (fun ⟨hmuted, hnotice⟩ => ⟨hmuted.muted_fields rfl, hmuted.pendEdge, hmuted.latches, hnotice⟩)
  refine ⟨fun hs ht => ?_, fun hr hw hv hs => ?_, fun cycles ticks => ?_, fun src tag h ha hs => ?_⟩
  · have hfail : x.holdOffExpired.rt.state = .failed := by rw [Reference.holdOffExpired_due hs ht]; rfl
    exact ⟨_, exec_holdOffExpiry hn r, hlost (putRef_lossEvent (by rw [hfail, hs]; nofun) (.inl hfail))⟩
  · have hfail : x.watchExpired.rt.state = .failed := Reference.watchExpired_failed hr hw hv hs
    refine ⟨_, exec_activityWatchExpiry hn r, by rw [putRef_ref, if_pos rfl]; exact hfail, ?_⟩
    refine hlost (putRef_lossEvent ?_ (.inl hfail))
    rw [hfail]
    rcases hs with ⟨hs, _⟩ | hs <;> rw [hs] <;> nofun
  · refine ⟨_, exec_comparisonPulse hn r cycles ticks, fun hs hfail => ?_⟩
    rw [putRef_ref, if_pos rfl] at hfail
    exact hlost (putRef_lossEvent (by rw [hfail]; exact Ne.symm hs) (.inl hfail))
  · obtain ⟨t, hexec, hreplied, _⟩ := exec_done (c := .refOff src tag [indexOctet r])
      (v := s.setRef r x.turnedOff) .refOff rfl h ha (by simp) ((reqRefOff_index _ r).trans (if_neg hs)) rfl
      (refWritten_kept s r x.turnedOff)
    have hloss : LossEvent (s.pushInsert .reserved) r (s.refWritten r x.turnedOff) 0 :=
      putRef_lossEvent (Ne.symm hs) (.inr rfl)
    exact ⟨t, hexec, hlost (hloss.replied hreplied)⟩

end Sys2Proof.Machine
end

section
/-! The engines and the Alignment Queue under the grants and endings of an event: R131 to R133. `Served` says of the
shelves that a predicate counts that queue and engines are in step with them; the release of a shelf's switch keeps it
for all others, and grants leave no engine free while a shelf waits. -/

namespace Sys2Proof.Machine

/-! ### The shelves that are served -/

/-- R131, R132: the Alignment Queue and the engines serve the SWITCHING shelves with `p`, and no others. -/
structure Served (p : ShelfIx → Prop) (s : State) : Prop where
  once : s.alignQ.Nodup
  queued : ∀ i, i ∈ s.alignQ ↔ p i ∧ (s.shelf i).state.isWaiting = true
  held : ∀ (e : EngineIx) (h : Hold), s.engines[e] = some h →
    p h.shelf ∧ (s.shelf h.shelf).state.isAligning = true ∧ h.grant < s.grants
  holds : ∀ i, p i → (s.shelf i).state.isAligning = true →
    ∃ (e : EngineIx) (h : Hold), s.engines[e] = some h ∧ h.shelf = i
  single : ∀ (e e' : EngineIx) (h h' : Hold), s.engines[e] = some h → s.engines[e'] = some h' →
    h.shelf = h'.shelf ∨ h.grant = h'.grant → e = e'

/-- R131: no engine is free while a shelf waits. -/
def State.EnginesFull (s : State) : Prop := s.alignQ ≠ [] → ∀ e : EngineIx, s.engines[e] ≠ none

theorem enginesOk_iff {s : State} : s.EnginesOk ↔ Served (fun _ => True) s ∧ s.EnginesFull := by
  constructor
  · rintro ⟨honce, hqueued, hheld, hholds, hsingle, hfull⟩
    exact ⟨⟨honce, fun i => (hqueued i).trans (by rw [true_and]), fun e h he => ⟨trivial, hheld e h he⟩,
      fun i _ => hholds i, hsingle⟩, hfull⟩
  · rintro ⟨⟨honce, hqueued, hheld, hholds, hsingle⟩, hfull⟩
    exact ⟨honce, fun i => (hqueued i).trans (by rw [true_and]), fun e h he => (hheld e h he).2,
      fun i => hholds i trivial, hsingle, hfull⟩

/-! ### What the engines serve stays the same -/

/-- Queue, engines and grants stay, and every shelf keeps its part in them. -/
structure SameEngines (s t : State) : Prop where
  alignQ : t.alignQ = s.alignQ
  engines : t.engines = s.engines
  grants : t.grants = s.grants
  waits : ∀ i, (t.shelf i).state.isWaiting = (s.shelf i).state.isWaiting
  aligns : ∀ i, (t.shelf i).state.isAligning = (s.shelf i).state.isAligning

theorem SameEngines.of_state {s t : State} (hq : t.alignQ = s.alignQ) (he : t.engines = s.engines)
    (hg : t.grants = s.grants) (hs : ∀ i, (t.shelf i).state = (s.shelf i).state) : SameEngines s t :=
  ⟨hq, he, hg, fun i => by rw [hs], fun i => by rw [hs]⟩

theorem SameEngines.refl (s : State) : SameEngines s s := .of_state rfl rfl rfl fun _ => rfl

theorem SameEngines.trans {s t u : State} (h : SameEngines s t) (h' : SameEngines t u) : SameEngines s u :=
  ⟨h'.alignQ.trans h.alignQ, h'.engines.trans h.engines, h'.grants.trans h.grants,
    fun i => (h'.waits i).trans (h.waits i), fun i => (h'.aligns i).trans (h.aligns i)⟩

theorem Served.congr {p : ShelfIx → Prop} {s t : State} (hs : Served p s) (h : SameEngines s t) : Served p t where
  once := by rw [h.alignQ]; exact hs.once
  queued i := by rw [h.alignQ, h.waits]; exact hs.queued i
  held e w he := by rw [h.aligns, h.grants]; exact hs.held e w (by rwa [← h.engines])
  holds i hi ha := by rw [h.engines]; exact hs.holds i hi (by rwa [← h.aligns])
  single e e' w w' he he' := hs.single e e' w w' (by rwa [← h.engines]) (by rwa [← h.engines])

theorem State.EnginesFull.congr {s t : State} (hs : s.EnginesFull) (hq : t.alignQ = s.alignQ)
    (he : t.engines = s.engines) : t.EnginesFull := by
  unfold State.EnginesFull
  rw [hq, he]
  exact hs

/-! ### Grants -/

section
variable {p : ShelfIx → Prop} {s : State}

theorem freeEngine_free {e : EngineIx} (h : s.freeEngine = some e) : s.engines[e] = none := by
  have := List.find?_some h
  simpa using this

/-- The engine granted is held by the shelf granted, the others as before. -/
theorem grant_held {e k : EngineIx} {i : ShelfIx} {rest : List ShelfIx} {w : Hold}
    (hk : (s.grant e i rest).engines[k] = some w) :
    k = e ∧ w.shelf = i ∧ w.grant = s.grants ∨ k ≠ e ∧ s.engines[k] = some w := by
  rw [grant_engines, Fin.getElem_fin, Vector.getElem_set] at hk
  split at hk
  · rename_i hek
    obtain rfl := Option.some.inj hk
    exact .inl ⟨Fin.ext hek.symm, rfl, rfl⟩
  · rename_i hek
    exact .inr ⟨fun h => hek (by rw [h]), hk⟩

theorem grant_engine_self {e : EngineIx} {i : ShelfIx} {rest : List ShelfIx} : (s.grant e i rest).engines[e] =
    some { shelf := i, grant := s.grants, timer := msTicks s.globals.alignLimit } := by
  rw [grant_engines, Fin.getElem_fin, Vector.getElem_set_self]

theorem grant_engine_of_ne {e k : EngineIx} {i : ShelfIx} {rest : List ShelfIx} (h : k ≠ e) :
    (s.grant e i rest).engines[k] = s.engines[k] := by
  rw [grant_engines, Fin.getElem_fin, Vector.getElem_set_ne _ _ fun hv => h (Fin.ext hv.symm)]
  rfl

/-- R133: the grant takes the head of the queue to a free engine. -/
theorem Served.grant (h : Served p s) {e : EngineIx} {i : ShelfIx} {rest : List ShelfIx} (hq : s.alignQ = i :: rest)
    (he : s.engines[e] = none) : Served p (s.grant e i rest) := by
  have hnodup := h.once
  rw [hq, List.nodup_cons] at hnodup
  obtain ⟨hi, hrest⟩ := hnodup
  obtain ⟨hp, hwait⟩ := (h.queued i).mp (hq ▸ List.mem_cons_self)
  obtain ⟨c, r, b, hst⟩ := isWaiting_iff.mp hwait
  have hself : ((s.grant e i rest).shelf i).state = .aligning c r b := by
    rw [grant_shelf, if_pos rfl, hst]
    rfl
  have hother : ∀ j, j ≠ i → ((s.grant e i rest).shelf j).state = (s.shelf j).state := fun j hj => by
    rw [grant_shelf, if_neg hj]
  have hunheld : ∀ (k : EngineIx) (w : Hold), s.engines[k] = some w → w.shelf ≠ i := by
    rintro k w hk rfl
    have haligns := (h.held k w hk).2.1
    rw [hst] at haligns
    cases haligns
  refine ⟨hrest, fun j => ?queued, fun k w hk => ?held, fun j hj ha => ?holds, fun k k' w w' hk hk' hsame => ?single⟩
  case queued =>
    by_cases hj : j = i
    · subst hj
      rw [hself]
      exact ⟨fun hm => absurd hm hi, fun hw => by cases hw.2⟩
    · rw [hother j hj, ← h.queued j, hq, List.mem_cons, or_iff_right hj]
      rfl
  case held =>
    rcases grant_held hk with ⟨-, rfl, hg⟩ | ⟨-, hk⟩
    · rw [hself, hg]
      exact ⟨hp, rfl, Nat.lt_succ_self _⟩
    · obtain ⟨hpw, haw, hgw⟩ := h.held k w hk
      rw [hother _ (hunheld k w hk)]
      exact ⟨hpw, haw, Nat.lt_succ_of_lt hgw⟩
  case holds =>
    by_cases hji : j = i
    · exact ⟨e, _, grant_engine_self, hji.symm⟩
    · rw [hother j hji] at ha
      obtain ⟨k, w, hk, hw⟩ := h.holds j hj ha
      refine ⟨k, w, ?_, hw⟩
      rw [grant_engine_of_ne (by rintro rfl; rw [he] at hk; cases hk), hk]
  case single =>
    rcases grant_held hk with ⟨hke, hs, hg⟩ | ⟨-, hk⟩ <;> rcases grant_held hk' with ⟨hke', hs', hg'⟩ | ⟨-, hk'⟩
    · rw [hke, hke']
    · rcases hsame with hsame | hsame
      · exact absurd (hsame.symm.trans hs) (hunheld k' w' hk')
      · exact absurd (hsame.symm.trans hg) (h.held k' w' hk').2.2.ne
    · rcases hsame with hsame | hsame
      · exact absurd (hsame.trans hs') (hunheld k w hk)
      · exact absurd (hsame.trans hg') (h.held k w hk).2.2.ne
    · exact h.single k k' w w' hk hk' hsame

theorem Served.grantFree (h : Served p s) : Served p s.grantFree :=
  grantWithin_induct (P := Served p) (fun _ _ _ _ h hq he => h.grant hq (freeEngine_free he)) 4 s h

/-- The number of free engines. -/
def State.freeEngines (s : State) : Nat := (Finset.univ.filter fun e : EngineIx => s.engines[e] = none).card

theorem freeEngines_le (s : State) : s.freeEngines ≤ 4 := (Finset.card_filter_le _ _).trans (by simp)

theorem grant_freeEngines {e : EngineIx} (he : s.engines[e] = none) (i : ShelfIx) (rest : List ShelfIx) :
    (s.grant e i rest).freeEngines < s.freeEngines := by
  refine Finset.card_lt_card ⟨fun k hk => ?_, fun hsub => ?_⟩
  · rw [Finset.mem_filter] at hk ⊢
    by_cases hke : k = e
    · rw [hke, grant_engine_self] at hk
      cases hk.2
    · rwa [grant_engine_of_ne hke] at hk
  · have hself := (Finset.mem_filter.mp (hsub (Finset.mem_filter.mpr ⟨Finset.mem_univ e, he⟩))).2
    rw [grant_engine_self] at hself
    cases hself

/-- R131: enough grants leave no engine free while a shelf waits. -/
theorem grantWithin_full : ∀ (n : Nat) (s : State), s.freeEngines ≤ n → (s.grantWithin n).EnginesFull
  | 0, s, h => fun _ e he => by
    have hnone := Finset.card_eq_zero.mp (Nat.le_zero.mp h)
    exact absurd (Finset.mem_filter.mpr ⟨Finset.mem_univ e, he⟩) (by rw [hnone]; exact Finset.notMem_empty e)
  | n + 1, s, h => by
    unfold State.grantWithin
    split
    · rename_i i rest e _ he
      have hless := grant_freeEngines (freeEngine_free he) i rest
      exact grantWithin_full n _ (by omega)
    · rename_i hno
      intro hq e he
      obtain ⟨i, rest, hq⟩ := List.exists_cons_of_ne_nil hq
      cases hf : s.freeEngine with
      | none =>
        have := List.find?_eq_none.mp hf e (List.mem_finRange e)
        simp [he] at this
      | some k => exact hno i rest k hq hf

theorem grantFree_full (s : State) : s.grantFree.EnginesFull := grantWithin_full 4 s (freeEngines_le s)

end

/-! ### The release of a switch -/

section
variable {s : State} {i : ShelfIx}

/-- R131, R132: a shelf that is not SWITCHING has no part in queue or engines. -/
theorem Served.without (h : Served (fun _ => True) s) (hw : (s.shelf i).state.isWaiting = false)
    (ha : (s.shelf i).state.isAligning = false) : Served (· ≠ i) s where
  once := h.once
  queued j := by
    rw [h.queued j]
    refine ⟨fun ⟨_, hj⟩ => ⟨?_, hj⟩, fun ⟨_, hj⟩ => ⟨trivial, hj⟩⟩
    rintro rfl
    rw [hw] at hj
    cases hj
  held e w he := by
    obtain ⟨-, hal, hg⟩ := h.held e w he
    refine ⟨?_, hal, hg⟩
    rintro rfl
    rw [ha] at hal
    cases hal
  holds j _ := h.holds j trivial
  single := h.single

/-- R139, R141: an entry leaves the queue from its place. -/
theorem Served.unqueued (h : Served (fun _ => True) s) (hw : (s.shelf i).state.isWaiting = true) :
    Served (· ≠ i) { s with alignQ := s.alignQ.filter fun j => j != i } where
  once := h.once.filter _
  queued j := by
    rw [List.mem_filter, h.queued j, bne_iff_ne, true_and, and_comm]
    rfl
  held e w he := by
    obtain ⟨-, hal, hg⟩ := h.held e w he
    refine ⟨?_, hal, hg⟩
    rintro rfl
    obtain ⟨_, _, _, hst⟩ := isWaiting_iff.mp hw
    rw [hst] at hal
    cases hal
  holds j _ := h.holds j trivial
  single := h.single

/-- R131: the engine of the shelf is freed. -/
theorem Served.freed (h : Served (fun _ => True) s) (ha : (s.shelf i).state.isAligning = true) :
    Served (· ≠ i) (s.freeEngineOf i) where
  once := h.once
  queued j := by
    refine (h.queued j).trans ⟨fun ⟨_, hj⟩ => ⟨?_, hj⟩, fun ⟨_, hj⟩ => ⟨trivial, hj⟩⟩
    rintro rfl
    obtain ⟨_, _, _, hst⟩ := isAligning_iff.mp ha
    rw [hst] at hj
    cases hj
  held e w he := by
    obtain ⟨hheld, hne⟩ := freeEngineOf_held he
    exact ⟨hne, (h.held e w hheld).2⟩
  holds j hj haj := by
    obtain ⟨e, w, he, hw⟩ := h.holds j trivial haj
    refine ⟨e, w, ?_, hw⟩
    unfold State.freeEngineOf
    simp only [Fin.getElem_fin, Vector.getElem_ofFn] at he ⊢
    rw [he]
    exact if_neg (by rw [hw]; exact hj)
  single e e' w w' he he' := h.single e e' w w' (freeEngineOf_held he).1 (freeEngineOf_held he').1

/-- Step 1 of R139 and R141, step 2 of R95 and R136: all shelves but `i` are served. -/
theorem releaseSwitch_served (hok : s.EnginesOk) :
    Served (· ≠ i) (s.releaseSwitch i) ∧ (s.releaseSwitch i).EnginesFull := by
  obtain ⟨hserved, hfull⟩ := enginesOk_iff.mp hok
  have hidle : ∀ x, (s.shelf i).state = x → x.isWaiting = false → x.isAligning = false →
      Served (· ≠ i) s ∧ s.EnginesFull := by
    rintro _ rfl hw ha
    exact ⟨hserved.without hw ha, hfull⟩
  unfold State.releaseSwitch
  split
  · rename_i hst
    refine ⟨hserved.unqueued (by rw [hst]; rfl), fun hq => hfull fun hnil => hq ?_⟩
    dsimp only
    rw [hnil]
    rfl
  · rename_i hst
    exact ⟨(hserved.freed (by rw [hst]; rfl)).grantFree, grantFree_full _⟩
  all_goals exact hidle _ ‹_› rfl rfl

/-- A shelf that leaves SWITCHING once its switch is released: queue and engines serve every shelf. -/
theorem Served.ended (h : Served (· ≠ i) s) (hfull : s.EnginesFull) {f : Shelf → Shelf}
    (hw : (f (s.shelf i)).state.isWaiting = false) (ha : (f (s.shelf i)).state.isAligning = false) :
    (s.updShelf i f).EnginesOk := by
  have hother : ∀ j, j ≠ i → (s.updShelf i f).shelf j = s.shelf j := fun j hj => updShelf_shelf_of_ne s hj f
  refine enginesOk_iff.mpr ⟨⟨h.once, fun j => ?_, fun e w he => ?_, fun j _ haj => ?_, h.single⟩, hfull⟩
  · refine (h.queued j).trans ?_
    by_cases hj : j = i
    · subst hj
      rw [updShelf_shelf_self, hw]
      simp
    · rw [hother j hj]
      simp [hj]
  · obtain ⟨hne, hal, hg⟩ := h.held e w he
    rw [hother _ hne]
    exact ⟨trivial, hal, hg⟩
  · by_cases hj : j = i
    · subst hj
      rw [updShelf_shelf_self, ha] at haj
      cases haj
    · rw [hother j hj] at haj
      exact h.holds j hj haj

/-- R125, R132: a shelf that starts to wait joins the tail of the queue. -/
theorem Served.queuedUp (h : Served (· ≠ i) s) {f : Shelf → Shelf}
    (hw : (f (s.shelf i)).state.isWaiting = true) :
    Served (fun _ => True) { s.updShelf i f with alignQ := s.alignQ ++ [i] } := by
  have hother : ∀ j, j ≠ i → (s.updShelf i f).shelf j = s.shelf j := fun j hj => updShelf_shelf_of_ne s hj f
  obtain ⟨_, _, _, hst⟩ := isWaiting_iff.mp hw
  have hself : ((s.updShelf i f).shelf i).state.isWaiting = true := by rw [updShelf_shelf_self, hw]
  have hi : i ∉ s.alignQ := fun hm => ((h.queued i).mp hm).1 rfl
  refine ⟨?_, fun j => ?_, fun e w he => ?_, fun j _ haj => ?_, h.single⟩
  · exact List.nodup_append.mpr ⟨h.once, List.nodup_singleton i, fun a ha b hb hab =>
      hi (by rwa [← List.mem_singleton.mp hb, ← hab])⟩
  · rw [List.mem_append, List.mem_singleton, h.queued j]
    by_cases hj : j = i
    · subst hj
      exact ⟨fun _ => ⟨trivial, hself⟩, fun _ => .inr rfl⟩
    · simp only [hj, ne_eq, not_false_eq_true, true_and, or_false]
      rw [← hother j hj]
      rfl
  · obtain ⟨hne, hal, hg⟩ := h.held e w he
    rw [← hother _ hne] at hal
    exact ⟨trivial, hal, hg⟩
  · by_cases hj : j = i
    · subst hj
      have hal : ((s.updShelf j f).shelf j).state.isAligning = true := haj
      rw [updShelf_shelf_self, hst] at hal
      cases hal
    · have hal : ((s.updShelf i f).shelf j).state.isAligning = true := haj
      rw [hother j hj] at hal
      exact h.holds j hj hal

end

end Sys2Proof.Machine
end

section
/-! What one command does, said once: it leaves references, shelves and engines alone, or it is one operation of
`Operation`, before and after which they stay. A property of every command is proved by cases on the operation. -/

namespace Sys2Proof.Machine

/-! ### What a command can do -/

/-- References, shelves, queue and engines are the same in `s` and `t`; ring, tables, globals and pins may differ. -/
structure SameCore (s t : State) : Prop where
  refs : t.refs = s.refs
  shelves : t.shelves = s.shelves
  alignQ : t.alignQ = s.alignQ
  engines : t.engines = s.engines
  grants : t.grants = s.grants

theorem SameCore.refl (s : State) : SameCore s s := ⟨rfl, rfl, rfl, rfl, rfl⟩

theorem SameCore.trans {s t u : State} (h : SameCore s t) (h' : SameCore t u) : SameCore s u :=
  ⟨h'.refs.trans h.refs, h'.shelves.trans h.shelves, h'.alignQ.trans h.alignQ, h'.engines.trans h.engines,
    h'.grants.trans h.grants⟩

theorem SameCore.tables {s t : State} (h : SameCore s t) : SameTables s t := ⟨h.refs, h.shelves⟩

theorem SameCore.sameEngines {s t : State} (h : SameCore s t) : SameEngines s t :=
  .of_state h.alignQ h.engines h.grants fun i => by rw [h.tables.shelf]

/-- A shelf at the expiry of its holdover phase: R145. -/
def Shelf.nextStage (x : Shelf) : Shelf := { x with state := x.state.phaseExpired x.cfg.phaseB.toNat }

/-- The operations that commands perform on references, shelves and engines. -/
inductive Operation : State → State → Prop
  /-- R61, R64, R66 to R78, R81, R100 -/
  | refPut (s : State) (r : RefIx) (x : Reference) : Operation s (s.putRef r x)
  /-- R77, R100 -/
  | refKept {s : State} {r : RefIx} {x : Reference} (hcfg : x.cfg = (s.ref r).cfg)
      (hreceived : x.qt.received = (s.ref r).qt.received) : Operation s (s.setRef r x)
  /-- R48 -/
  | announced (s : State) (src : Byte) (l : List QaEntry) : Operation s (s.announce src l)
  /-- R117, R118 -/
  | settled (s : State) (i : ShelfIx) : Operation s (s.endEvent (s.settleExpired i))
  /-- R136, R137 -/
  | engineEnded (s : State) (hard : Bool) (e : EngineIx) (g : Nat) : Operation s (s.engineEnds hard e g)
  /-- R145 -/
  | phaseExpired (s : State) (i : ShelfIx) : Operation s (s.endEvent (s.follow (s.updShelf i Shelf.nextStage)))
  /-- R86 -/
  | shelfWritten (s : State) (i : ShelfIx) (cfg : ShelfConfig) : Operation s (s.writeShelf i cfg)
  /-- R92 -/
  | listWritten (s : State) (i : ShelfIx) (l : List Candidate) : Operation s (s.writeList i l)
  /-- R93 -/
  | lockoutChanged (s : State) (i : ShelfIx) (r : RefIx) (on : Bool) : Operation s (s.changeLockout i r on)
  /-- R94 -/
  | shelfEnabled {s : State} {i : ShelfIx} (h : (s.shelf i).state = .off) : Operation s (s.enableShelf i)
  /-- R95 -/
  | shelfDisabled (s : State) (i : ShelfIx) : Operation s (s.disableShelf i)
  /-- R97 -/
  | commanded (s : State) (i : ShelfIx) (c : Command) : Operation s (s.setCommand i c)
  /-- R100 -/
  | acknowledged (s : State) (i : ShelfIx) (l : ShelfLatches) : Operation s (s.ackShelf i l)
  /-- R162 -/
  | compared (s : State) : Operation s s.compareReports
  /-- R163 -/
  | reported (s : State) : Operation s s.fullReport
  /-- R177 -/
  | restarted (s : State) : Operation s s.warmRestart
  /-- R179 -/
  | reset (s : State) : Operation s (State.cold s.role s.grants s.pending)

/-- What one command makes of a state. -/
inductive Does : State → State → Prop
  | nothing {s t : State} (h : SameCore s t) : Does s t
  | operation {s u v t : State} (h : SameCore s u) (ho : Operation u v) (h' : SameCore v t) : Does s t

theorem Does.refl (s : State) : Does s s := .nothing (.refl s)

theorem Operation.does {s t : State} (h : Operation s t) : Does s t := .operation (.refl s) h (.refl t)

theorem SameCore.does {s t u : State} (h : SameCore s t) (h' : Does t u) : Does s u := by
  cases h' with
  | nothing h' => exact .nothing (h.trans h')
  | operation h₁ ho h₂ => exact .operation (h.trans h₁) ho h₂

theorem Does.trans_same {s t u : State} (h : Does s t) (h' : SameCore t u) : Does s u := by
  cases h with
  | nothing h => exact .nothing (h.trans h')
  | operation h₁ ho h₂ => exact .operation h₁ ho (h₂.trans h')

/-! ### What leaves references, shelves and engines alone -/

theorem updRing_sameCore (s : State) (f : Ring → Ring) : SameCore s (s.updRing f) := ⟨rfl, rfl, rfl, rfl, rfl⟩

theorem setTable_sameCore (s : State) (d : Dialect) (x : XlateTable) : SameCore s (s.setTable d x) := by
  cases d <;> exact ⟨rfl, rfl, rfl, rfl, rfl⟩

theorem setRefreshTimer_sameCore (s : State) (x : Timer) : SameCore s { s with refreshTimer := x } :=
  ⟨rfl, rfl, rfl, rfl, rfl⟩

theorem enterFloating_sameCore (s : State) : SameCore s s.enterFloating := by
  unfold State.enterFloating
  split <;> exact ⟨rfl, rfl, rfl, rfl, rfl⟩

theorem relay_sameCore (s : State) (f : Frame) : SameCore s (s.relay f) := by
  unfold State.relay
  split
  · exact updRing_sameCore s _
  · split <;> exact updRing_sameCore s _

theorem offerRx_sameCore (s : State) (f : Frame) : SameCore s (s.offerRx f) := by
  unfold State.offerRx
  split <;> exact updRing_sameCore s _

theorem frameArrives_sameCore (s : State) : SameCore s s.frameArrives := by
  unfold State.frameArrives
  split
  · rename_i l n e _
    have hready : SameCore s (s.updRing fun g => { g with receiver := .ready }) := updRing_sameCore s _
    cases testFrame l n e with
    | badFormat => exact hready.trans ⟨rfl, rfl, rfl, rfl, rfl⟩
    | badCheck => exact hready.trans ⟨rfl, rfl, rfl, rfl, rfl⟩
    | passed f => exact hready.trans (offerRx_sameCore _ f)
  · exact .refl s
  · exact .refl s

/-! ### Requests -/

theorem reqShelfOn_does (args : List Byte) (s : State) : Does s (reqShelfOn args s).state := by
  unfold reqShelfOn
  split
  · split
    · exact .refl s
    · split
      · exact .refl s
      · rename_i hoff
        exact (Operation.shelfEnabled (enabled_eq_false_iff.mp (Bool.eq_false_iff.mpr hoff))).does
  · exact .refl s

theorem reqTakeRole_does (args : List Byte) (s : State) : Does s (reqTakeRole args s).state := by
  have hdriving : SameCore s { s with drive := .driving } := ⟨rfl, rfl, rfl, rfl, rfl⟩
  unfold reqTakeRole
  split
  · split
    · split
      · exact .refl s
      · rw [ok_state]
        exact hdriving.does (Operation.reported _).does
    · exact .refl s
  · exact .refl s

/-- Every request reads, writes what no shelf holds, or is one operation. -/
theorem run_does (q : Request) (args : List Byte) (s : State) : Does s (q.run args s).state := by
  have hrefl := Does.refl s
  have hput : ∀ r x, Does s (s.putRef r x) := fun r x => (Operation.refPut s r x).does
  cases q <;> dsimp only [Request.run]
  case rdRef => unfold reqRdRef; (repeat' split) <;> exact hrefl
  case rdShelf => unfold reqRdShelf; (repeat' split) <;> exact hrefl
  case rdXlate => unfold reqRdXlate; (repeat' split) <;> exact hrefl
  case rdGlobal => unfold reqRdGlobal; split <;> exact hrefl
  case rdCount => unfold reqRdCount; split <;> exact hrefl
  case wrRef => unfold reqWrRef; (repeat' split) <;> simp [Answer.refuse, hrefl, hput]
  case wrShelf =>
    have hwritten : ∀ i cfg, Does s (s.writeShelf i cfg) := fun i cfg => (Operation.shelfWritten s i cfg).does
    unfold reqWrShelf; (repeat' split) <;> simp [Answer.ok, Answer.refuse, hrefl, hwritten]
  case wrCand =>
    have hwritten : ∀ i l, Does s (s.writeList i l) := fun i l => (Operation.listWritten s i l).does
    unfold reqWrCand; (repeat' split) <;> simp [Answer.ok, Answer.refuse, hrefl, hwritten]
  case wrXlate =>
    have hwritten : ∀ d x, Does s (s.setTable d x).compareReports := fun d x =>
      (setTable_sameCore s d x).does (Operation.compared _).does
    unfold reqWrXlate; (repeat' split) <;> simp [Answer.ok, Answer.refuse, hrefl, hwritten]
  case wrGlobal =>
    unfold reqWrGlobal
    (repeat' split) <;> exact .nothing ⟨rfl, rfl, rfl, rfl, rfl⟩
  case refOn => unfold reqRefOn; (repeat' split) <;> simp [Answer.ok, Answer.refuse, hrefl, hput]
  case refOff => unfold reqRefOff; (repeat' split) <;> simp [Answer.ok, Answer.refuse, hrefl, hput]
  case shelfOn => exact reqShelfOn_does args s
  case shelfOff =>
    have hclosed : ∀ i, Does s (s.disableShelf i) := fun i => (Operation.shelfDisabled s i).does
    unfold reqShelfOff; (repeat' split) <;> simp [Answer.ok, Answer.refuse, hrefl, hclosed]
  case cmd =>
    have hset : ∀ i c, Does s (s.setCommand i c) := fun i c => (Operation.commanded s i c).does
    unfold reqCmd; (repeat' split) <;> simp [Answer.ok, Answer.refuse, hrefl, hset]
  case lock =>
    have hlocked : ∀ i r on, Does s (s.changeLockout i r on) := fun i r on => (Operation.lockoutChanged s i r on).does
    unfold reqLock; (repeat' split) <;> simp [Answer.ok, Answer.refuse, hrefl, hlocked]
  case clrWtr => unfold reqClrWtr; (repeat' split) <;> simp [Answer.ok, Answer.refuse, hrefl, hput]
  case ack =>
    have href : ∀ r l, Does s (s.ackRef r l) := fun r l =>
      (Operation.refKept (s := s) (r := r) (x := { s.ref r with rt :=
        { (s.ref r).rt with latches := (s.ref r).rt.latches.acknowledge (s.ref r).live l } }) rfl rfl).does
    have hshelf : ∀ i l, Does s (s.ackShelf i l) := fun i l => (Operation.acknowledged s i l).does
    unfold reqAck; (repeat' split) <;> simp [Answer.give, Answer.refuse, hrefl, href, hshelf]
  case clrCount => unfold reqClrCount; split <;> exact .nothing ⟨rfl, rfl, rfl, rfl, rfl⟩
  case restart =>
    unfold reqRestart
    split
    · rw [ok_state]
      exact (Operation.restarted s).does
    · exact hrefl
  case takeRole => exact reqTakeRole_does args s
  case yieldRole =>
    unfold reqYieldRole
    split
    · exact .nothing (enterFloating_sameCore s)
    · exact hrefl

theorem execute_does (s : State) (src : Byte) (payload : List Byte) : Does s (s.execute src payload).state := by
  unfold State.execute
  split
  · split
    · exact .refl s
    · split
      · exact .refl s
      · exact run_does _ _ s
  · exact .refl s

/-! ### The Frame Handler -/

theorem handOff_does (s : State) (f : Frame) : Does s (s.handOff f) := by
  unfold State.handOff
  split
  · exact (Operation.announced s f.src _).does
  · exact .nothing (updRing_sameCore s _)

/-- A request is executed with the entry of its reply reserved, and the reply takes that entry: R30. -/
theorem takeRequest_does (s : State) (f : Frame) : Does s (s.takeRequest f) := by
  have hreserved : SameCore s (s.dropHead.pushInsert .reserved) := ⟨rfl, rfl, rfl, rfl, rfl⟩
  unfold State.takeRequest
  exact hreserved.does ((execute_does _ f.src f.payload).trans_same (updRing_sameCore _ _))

theorem takeHead_does (s : State) : Does s s.takeHead := by
  have hdropped : SameCore s s.dropHead := updRing_sameCore s _
  unfold State.takeHead
  split
  · exact .refl s
  · rename_i f _ _
    split
    · exact .nothing hdropped
    · split
      · split
        · split
          · exact takeRequest_does s f
          · exact .refl s
        · exact .nothing hdropped
      · have hrelayed := hdropped.trans (relay_sameCore _ f)
        unfold State.passFrame
        dsimp only
        split
        · exact hrelayed.does (handOff_does _ f)
        · exact .nothing hrelayed

theorem submit_does (s : State) (src : Byte) (payload : List Byte) : Does s (s.submit src payload) := by
  have hoffered := offerRx_sameCore s (s.requestFrame src payload)
  unfold State.submit
  split
  · split
    · exact hoffered.does (takeHead_does _)
    · exact .nothing hoffered
  · exact .nothing (updRing_sameCore s _)

/-! ### The timers -/

theorem limitExpired_does (s : State) (e : EngineIx) (g : Nat) : Does s (s.limitExpired e g) := by
  unfold State.limitExpired
  split
  · exact (Operation.engineEnded s true e g).does
  · exact .refl s

theorem refreshExpired_does (s : State) : Does s s.refreshExpired := by
  unfold State.refreshExpired
  split
  · exact (Operation.reported s).does.trans_same (setRefreshTimer_sameCore _ _)
  · exact .refl s

theorem decayExpired_does (s : State) (r : RefIx) : Does s (s.setRef r (s.ref r).decayExpired) := by
  have hkept : (s.ref r).decayExpired.cfg = (s.ref r).cfg
      ∧ (s.ref r).decayExpired.qt.received = (s.ref r).qt.received := by
    unfold Reference.decayExpired
    split <;> exact ⟨rfl, rfl⟩
  exact (Operation.refKept hkept.1 hkept.2).does

/-! ### Every command -/

/-- A command that RESETn low holds off. -/
theorem running_does {s t : State} {f : State → State} (h : s.running f = .next t) (hf : Does s (f s)) : Does s t := by
  unfold State.running at h
  obtain rfl := Host.Outcome.next.inj h
  split
  · exact hf
  · exact .refl s

theorem exec_does {c : Instr} {s t : State} (h : exec c s = .next t) : Does s t := by
  have hring : ∀ f : Ring → Ring, Does s (s.updRing f) := fun f => .nothing (updRing_sameCore s f)
  have hput : ∀ r x, Does s (s.putRef r x) := fun r x => (Operation.refPut s r x).does
  cases c with
  | frameArrival => exact running_does (f := State.frameArrives) h (.nothing (frameArrives_sameCore s))
  | frameTake => exact running_does (f := State.takeHead) h (takeHead_does s)
  | transmissionStart => exact running_does (f := fun s => s.updRing Ring.startSending) h (hring _)
  | transmissionEnd => exact running_does (f := fun s => s.updRing Ring.endSending) h (hring _)
  | receiverReady levels =>
    exact running_does (f := fun s => s.updRing fun g => { g with receiver := levels.foldl Receiver.bit g.receiver })
      h (hring _)
  | octetTaken octet stop =>
    exact running_does (f := fun s => s.updRing fun g => { g with receiver := g.receiver.octet octet stop })
      h (hring _)
  | comparisonPulse r cycles ticks =>
    exact running_does (f := fun s => s.putRef r ((s.ref r).clockIn cycles ticks)) h (hput r _)
  | activityWatchExpiry r => exact running_does (f := fun s => s.putRef r (s.ref r).watchExpired) h (hput r _)
  | holdOffExpiry r => exact running_does (f := fun s => s.putRef r (s.ref r).holdOffExpired) h (hput r _)
  | restoreWaitExpiry r => exact running_does (f := fun s => s.putRef r (s.ref r).restoreExpired) h (hput r _)
  | announcementTimerExpiry r => exact running_does (f := fun s => s.putRef r (s.ref r).announceExpired) h (hput r _)
  | decayExpiry r => exact running_does (f := fun s => s.setRef r (s.ref r).decayExpired) h (decayExpired_does s r)
  | settleTimerExpiry i =>
    exact running_does (f := fun s => s.endEvent (s.settleExpired i)) h (Operation.settled s i).does
  | engineDone e g =>
    exact running_does (f := fun s => s.engineEnds false e g) h (Operation.engineEnded s false e g).does
  | alignmentLimitExpiry e g => exact running_does (f := fun s => s.limitExpired e g) h (limitExpired_does s e g)
  | holdoverPhaseExpiry i =>
    exact running_does (f := fun s => s.endEvent (s.follow (s.updShelf i Shelf.nextStage))) h
      (Operation.phaseExpired s i).does
  | refreshExpiry => exact running_does (f := State.refreshExpired) h (refreshExpired_does s)
  | roleFallingEdge =>
    obtain rfl := Host.Outcome.next.inj h
    have hpin : SameCore s { s with role := false } := ⟨rfl, rfl, rfl, rfl, rfl⟩
    exact .nothing (hpin.trans (enterFloating_sameCore _))
  | roleRisingEdge =>
    obtain rfl := Host.Outcome.next.inj h
    exact .nothing ⟨rfl, rfl, rfl, rfl, rfl⟩
  | resetAssert =>
    obtain rfl := Host.Outcome.next.inj h
    exact (Operation.reset s).does
  | resetRelease straps =>
    obtain rfl := Host.Outcome.next.inj h
    split <;> exact .nothing ⟨rfl, rfl, rfl, rfl, rfl⟩
  | _ => exact running_does (f := fun s => s.submit _ _) h (submit_does s _ _)

end Sys2Proof.Machine
end

section
/-! Every step keeps the engines and the Alignment Queue in step with the SWITCHING shelves: R131 to R133. -/

namespace Sys2Proof.Machine

/-- The engines and the Alignment Queue stay in step with the SWITCHING shelves from `s` to `t`. -/
def KeepsEngines (s t : State) : Prop := s.EnginesOk → t.EnginesOk

theorem KeepsEngines.refl (s : State) : KeepsEngines s s := id

theorem KeepsEngines.trans {s t u : State} (h : KeepsEngines s t) (h' : KeepsEngines t u) : KeepsEngines s u :=
  h' ∘ h

theorem SameEngines.keeps {s t : State} (h : SameEngines s t) : KeepsEngines s t := fun hok => by
  obtain ⟨hserved, hfull⟩ := enginesOk_iff.mp hok
  exact enginesOk_iff.mpr ⟨hserved.congr h, hfull.congr h.alignQ h.engines⟩

/-! ### Operations that leave the engines alone -/

theorem updShelf_sameEngines {s : State} {i : ShelfIx} {f : Shelf → Shelf}
    (hw : (f (s.shelf i)).state.isWaiting = (s.shelf i).state.isWaiting)
    (ha : (f (s.shelf i)).state.isAligning = (s.shelf i).state.isAligning) : SameEngines s (s.updShelf i f) := by
  refine ⟨rfl, rfl, rfl, fun j => ?_, fun j => ?_⟩ <;> rw [updShelf_shelf] <;> split
  · rename_i hj
    rw [hj, hw]
  · rfl
  · rename_i hj
    rw [hj, ha]
  · rfl

theorem updShelf_state_sameEngines {s : State} {i : ShelfIx} {f : Shelf → Shelf}
    (h : (f (s.shelf i)).state = (s.shelf i).state) : SameEngines s (s.updShelf i f) :=
  updShelf_sameEngines (by rw [h]) (by rw [h])

theorem markWhere_sameEngines (s : State) (p : Shelf → Bool) : SameEngines s (s.markWhere p) :=
  .of_state (markWhere_alignQ s p) (markWhere_engines s p) (markWhere_grants s p) fun i =>
    (markWhere_sameBut i s p).state

theorem markShelf_sameEngines (s : State) (i : ShelfIx) : SameEngines s (s.markShelf i) :=
  updShelf_state_sameEngines (mark_state _)

theorem updRing_sameEngines (s : State) (f : Ring → Ring) : SameEngines s (s.updRing f) :=
  .of_state rfl rfl rfl fun _ => rfl

theorem setRef_sameEngines (s : State) (r : RefIx) (x : Reference) : SameEngines s (s.setRef r x) :=
  .of_state rfl rfl rfl fun _ => rfl

theorem offerSn_sameEngines (s : State) (i : ShelfIx) (p n : Option RefIx) (c : Cause) (h : Bool) :
    SameEngines s (s.offerSn i p n c h) := by
  obtain ⟨f, hf⟩ := offerSn_updRing s i p n c h
  rw [hf]
  exact updRing_sameEngines s f

theorem offerSq_sameEngines (s : State) (i : ShelfIx) : SameEngines s (s.offerSq i) := by
  have hgrants : (s.offerSq i).grants = s.grants := by
    unfold State.offerSq State.offerSqOf
    split
    · rfl
    · dsimp only
      split
      · rfl
      · split <;> rfl
  exact .of_state (offerSq_engines s i).1 (offerSq_engines s i).2 hgrants fun j => (offerSq_sameBut j i s).state

theorem compareReports_sameEngines (s : State) : SameEngines s s.compareReports :=
  compareReports_induct (fun t i h => h.trans (offerSq_sameEngines t i)) s (.refl s)

theorem fullReport_sameEngines (s : State) : SameEngines s s.fullReport :=
  fullReport_induct (fun t i h => h.trans (offerSq_sameEngines t i)) s (.refl s)

theorem endEvent_sameEngines (s0 s1 : State) : SameEngines s1 (s0.endEvent s1) :=
  endEvent_induct (fun t i h => h.trans (offerSq_sameEngines t i)) s0 s1 (.refl s1)

/-- R144: a shelf that enters HOLDOVER is not SWITCHING. -/
theorem holdoverEntry_idle (c : ShelfConfig) :
    c.holdoverEntry.isWaiting = false ∧ c.holdoverEntry.isAligning = false := by
  unfold ShelfConfig.holdoverEntry
  split
  · exact ⟨rfl, rfl⟩
  · split <;> exact ⟨rfl, rfl⟩

theorem enterHoldover_sameEngines {s : State} {i : ShelfIx} {c : RefIx} (hc : (s.shelf i).state = .locked c)
    (cause : Cause) : SameEngines s (s.enterHoldover i c cause) := by
  have hmuted : SameEngines s (s.updShelf i fun x => { x with route := none, state := x.cfg.holdoverEntry }) := by
    obtain ⟨hw, ha⟩ := holdoverEntry_idle (s.shelf i).cfg
    exact updShelf_sameEngines (by rw [hc]; exact hw) (by rw [hc]; exact ha)
  exact (hmuted.trans (offerSn_sameEngines _ i _ _ _ _)).trans (updShelf_state_sameEngines rfl)

theorem directLock_sameEngines {s : State} {i : ShelfIx} (hw : (s.shelf i).state.isWaiting = false)
    (ha : (s.shelf i).state.isAligning = false) (r : RefIx) : SameEngines s (s.directLock i r) := by
  have hlocked : SameEngines s (s.updShelf i fun x =>
      { x with curEdge := (s.ref r).sourceShelf, route := some r, state := .locked r }) :=
    updShelf_sameEngines (by rw [hw]; rfl) (by rw [ha]; rfl)
  exact hlocked.trans (offerSn_sameEngines _ i _ _ _ _)

/-! ### Endings and starts of a switch -/

theorem abandon_keeps (s : State) (i : ShelfIx) : KeepsEngines s (s.abandon i) := by
  intro hok
  obtain ⟨hserved, hfull⟩ := releaseSwitch_served (i := i) hok
  unfold State.abandon
  split
  · exact hserved.ended hfull (by rw [mark_state]; rfl) (by rw [mark_state]; rfl)
  · exact hok

theorem moveToTarget_keeps (s : State) (hard : Bool) (i : ShelfIx) : KeepsEngines s (s.moveToTarget hard i) := by
  intro hok
  obtain ⟨hserved, hfull⟩ := releaseSwitch_served (i := i) hok
  unfold State.moveToTarget
  split
  · rename_i c t _ _
    have hended := hserved.ended hfull (f := fun x =>
      { x with route := some t, curEdge := x.pendEdge, pendEdge := none, state := .locked t }) rfl rfl
    refine (updShelf_state_sameEngines ?_).keeps ((offerSn_sameEngines _ i _ _ _ _).keeps hended)
    rw [mark_state]
  · exact hok

theorem loseCurrent_keeps (s : State) (i : ShelfIx) : KeepsEngines s (s.loseCurrent i) := by
  unfold State.loseCurrent
  split
  · exact ((enterHoldover_sameEngines ‹_› _).trans (markShelf_sameEngines _ i)).keeps
  · exact moveToTarget_keeps s true i
  · exact moveToTarget_keeps s true i
  all_goals exact .refl s

theorem closeShelf_keeps (s : State) (i : ShelfIx) : KeepsEngines s (s.closeShelf i) := by
  intro hok
  obtain ⟨f, hf⟩ := closeNotice_updRing s i
  rw [closeShelf_eq, hf]
  obtain ⟨hserved, hfull⟩ := releaseSwitch_served (i := i) ((updRing_sameEngines s f).keeps hok)
  exact hserved.ended hfull rfl rfl

/-- R125: a LOCKED shelf joins the queue, and the free engines are granted. -/
theorem startSwitch_keeps {s : State} {i : ShelfIx} {c : RefIx} (hc : (s.shelf i).state = .locked c) (t : RefIx)
    (b : Basis) : KeepsEngines s (s.startSwitch i c t b) := by
  intro hok
  have hserved := (enginesOk_iff.mp hok).1.without (i := i) (by rw [hc]; rfl) (by rw [hc]; rfl)
  have hqueued : Served (fun _ => True) (s.queued i c t b) := hserved.queuedUp rfl
  exact enginesOk_iff.mpr ⟨hqueued.grantFree, grantFree_full _⟩

/-! ### The shared operations -/

theorem follow_keeps (s0 s1 : State) : KeepsEngines s1 (s0.follow s1) :=
  follow_induct (fun t p h => h.trans (markWhere_sameEngines t p).keeps) (fun t i h _ => h.trans (abandon_keeps t i))
    s0 s1 (.refl s1)

theorem putRef_keeps (s : State) (r : RefIx) (x : Reference) : KeepsEngines s (s.putRef r x) :=
  putRef_induct (fun t p h => h.trans (markWhere_sameEngines t p).keeps) (fun t i h _ => h.trans (abandon_keeps t i))
    (fun t i _ h _ _ => h.trans (loseCurrent_keeps t i)) (fun t i h => h.trans (offerSq_sameEngines t i).keeps) s r x
    (setRef_sameEngines s r x).keeps

/-- An event that ends with what its action sets off. -/
theorem follow_endEvent_keeps (s u s0 : State) : KeepsEngines u (s.endEvent (s0.follow u)) :=
  (follow_keeps s0 u).trans (endEvent_sameEngines s _).keeps

theorem candTarget_keeps (s : State) (i : ShelfIx) : KeepsEngines s (s.candTarget i) := by
  unfold State.candTarget
  split
  · split
    · exact .refl s
    · exact (abandon_keeps s i).trans (follow_keeps _ _)
  · exact .refl s

theorem candCurrent_keeps (s : State) (i : ShelfIx) : KeepsEngines s (s.candCurrent i) := by
  unfold State.candCurrent
  split
  · split
    · exact .refl s
    · exact (loseCurrent_keeps s i).trans (follow_keeps _ _)
  · exact .refl s

theorem lockTarget_keeps (s : State) (i : ShelfIx) (r : RefIx) (on : Bool) : KeepsEngines s (s.lockTarget i r on) := by
  unfold State.lockTarget
  split
  · exact (abandon_keeps s i).trans (follow_keeps _ _)
  · exact .refl s

/-! ### The commands of the shelves -/

/-- R123: the outcome of a decision. -/
theorem outcome_keeps (s : State) (i : ShelfIx) (cmd : Command) (target : Option RefIx) :
    KeepsEngines s (s.outcome i cmd target) := by
  unfold State.outcome
  split
  · exact (enterHoldover_sameEngines ‹_› _).keeps
  · split
    · exact .refl s
    · exact startSwitch_keeps ‹_› _ _
  · rename_i hst
    exact (directLock_sameEngines (by rw [hst]; rfl) (by rw [hst]; rfl) _).keeps
  · rename_i hst
    exact (directLock_sameEngines (by rw [hst]; rfl) (by rw [hst]; rfl) _).keeps
  all_goals exact .refl s

theorem decideShelf_keeps (s : State) (i : ShelfIx) : KeepsEngines s (s.decideShelf i) := by
  have hjudged : KeepsEngines s (s.judgedAt i) := (updShelf_state_sameEngines rfl).keeps
  have hdecided : KeepsEngines s ((s.judgedAt i).follow (s.outcomeAt i)) :=
    (hjudged.trans (outcome_keeps _ i _ _)).trans (follow_keeps _ _)
  rw [decideShelf_eq]
  split
  · exact hdecided.trans (markShelf_sameEngines _ i).keeps
  · exact hdecided

theorem settleExpired_keeps (s : State) (i : ShelfIx) : KeepsEngines s (s.settleExpired i) := by
  unfold State.settleExpired
  split
  · split
    · exact (updShelf_state_sameEngines rfl).keeps
    · split
      · exact decideShelf_keeps s i
      · exact .refl s
  all_goals exact .refl s

theorem engineEnds_keeps (s : State) (hard : Bool) (e : EngineIx) (g : Nat) :
    KeepsEngines s (s.engineEnds hard e g) := by
  unfold State.engineEnds
  split
  · exact .refl s
  · split
    · exact (moveToTarget_keeps s hard _).trans (follow_endEvent_keeps s _ s)
    · exact .refl s

theorem phaseExpired_idle (n : Nat) (x : ShelfState) : (x.phaseExpired n).isWaiting = x.isWaiting
    ∧ (x.phaseExpired n).isAligning = x.isAligning := by
  unfold ShelfState.phaseExpired
  (repeat' split) <;> exact ⟨rfl, rfl⟩

theorem holdoverPhase_keeps (s : State) (i : ShelfIx) :
    KeepsEngines s (s.endEvent (s.follow (s.updShelf i Shelf.nextStage))) := by
  obtain ⟨hw, ha⟩ := phaseExpired_idle (s.shelf i).cfg.phaseB.toNat (s.shelf i).state
  exact (updShelf_sameEngines (f := Shelf.nextStage) hw ha).keeps.trans (follow_endEvent_keeps s _ s)

theorem elapse_alignQ (s : State) (d : Nat) : (s.elapse d).alignQ = s.alignQ := by
  unfold State.elapse
  rw [mapShelves_alignQ, mapRefs_alignQ]

theorem elapse_grants (s : State) (d : Nat) : (s.elapse d).grants = s.grants := by
  unfold State.elapse
  rw [mapShelves_grants, mapRefs_grants]

theorem elapse_engine (s : State) (d : Nat) (e : EngineIx) :
    (s.elapse d).engines[e] = s.engines[e].map fun h => { h with timer := h.timer - d } := by
  unfold State.elapse
  exact Vector.getElem_ofFn e.isLt

/-- An engine held after `d` ticks was held by the same shelf under the same grant. -/
theorem elapse_held {s : State} {d : Nat} {e : EngineIx} {w : Hold} (he : (s.elapse d).engines[e] = some w) :
    ∃ h, s.engines[e] = some h ∧ h.shelf = w.shelf ∧ h.grant = w.grant := by
  rw [elapse_engine, Option.map_eq_some_iff] at he
  obtain ⟨h, he, rfl⟩ := he
  exact ⟨h, he, rfl, rfl⟩

theorem elapse_idle (d : Nat) (x : ShelfState) : (x.elapse d).isWaiting = x.isWaiting
    ∧ (x.elapse d).isAligning = x.isAligning := by
  cases x <;> exact ⟨rfl, rfl⟩

/-- R131: the timers of the engines run, the engines stay held. -/
theorem elapse_keeps (s : State) (d : Nat) : KeepsEngines s (s.elapse d) := by
  intro hok
  have hwaits : ∀ i, ((s.elapse d).shelf i).state.isWaiting = (s.shelf i).state.isWaiting := fun i => by
    rw [elapse_shelf]
    exact (elapse_idle d _).1
  have haligns : ∀ i, ((s.elapse d).shelf i).state.isAligning = (s.shelf i).state.isAligning := fun i => by
    rw [elapse_shelf]
    exact (elapse_idle d _).2
  obtain ⟨honce, hqueued, hserves, hholds, hsingle, hfull⟩ := hok
  unfold State.EnginesOk
  rw [elapse_alignQ, elapse_grants]
  refine ⟨honce, fun i => ?_, fun e w he => ?_, fun i ha => ?_, fun e e' w w' he he' hsame => ?_, fun hq e he => ?_⟩
  · rw [hwaits]
    exact hqueued i
  · obtain ⟨h, he, hs, hg⟩ := elapse_held he
    rw [haligns, ← hs, ← hg]
    exact hserves e h he
  · rw [haligns] at ha
    obtain ⟨e, h, he, hi⟩ := hholds i ha
    exact ⟨e, { h with timer := h.timer - d }, by rw [elapse_engine, he]; rfl, hi⟩
  · obtain ⟨h, he, hs, hg⟩ := elapse_held he
    obtain ⟨h', he', hs', hg'⟩ := elapse_held he'
    rw [← hs, ← hs', ← hg, ← hg'] at hsame
    exact hsingle e e' h h' he he' hsame
  · rw [elapse_engine, Option.map_eq_none_iff] at he
    exact hfull hq e he

/-- R179: after a reset no shelf waits and no engine is held. -/
theorem cold_enginesOk (role : Bool) (n : Nat) (p : List Instr) : (State.cold role n p).EnginesOk := by
  have hengine : ∀ e : EngineIx, (State.cold role n p).engines[e] = none := fun e => Vector.getElem_replicate e.isLt
  have hoff : ∀ i, ((State.cold role n p).shelf i).state = .off := fun i => by rw [cold_shelf]; rfl
  refine ⟨List.nodup_nil, fun i => ?_, fun e h he => ?_, fun i ha => ?_, fun e _ h _ he => ?_, fun hq => absurd rfl hq⟩
  · rw [hoff]
    exact ⟨nofun, nofun⟩
  · rw [hengine] at he
    cases he
  · rw [hoff] at ha
    cases ha
  · rw [hengine] at he
    cases he

/-! ### The requests' events -/

theorem writeShelf_keeps (s : State) (i : ShelfIx) (cfg : ShelfConfig) : KeepsEngines s (s.writeShelf i cfg) := by
  have hconfigured : SameEngines s (s.configured i cfg) := by
    have hw : SameEngines s (s.updShelf i fun x => { x with cfg := cfg }) := updShelf_state_sameEngines rfl
    unfold State.configured
    split
    · exact hw.trans (markShelf_sameEngines _ i)
    · exact hw
  rw [writeShelf_eq]
  exact (hconfigured.keeps.trans (follow_keeps _ _)).trans (compareReports_sameEngines _).keeps

theorem writeList_keeps (s : State) (i : ShelfIx) (l : List Candidate) : KeepsEngines s (s.writeList i l) := by
  have hlisted : KeepsEngines s (s.listWritten i l) :=
    (updShelf_state_sameEngines (by rw [Shelf.listed_eq])).keeps
  rw [writeList_of_listWritten]
  exact ((hlisted.trans (candTarget_keeps _ i)).trans (candCurrent_keeps _ i)).trans
    ((markShelf_sameEngines _ i).trans (endEvent_sameEngines _ _)).keeps

theorem changeLockout_keeps (s : State) (i : ShelfIx) (r : RefIx) (on : Bool) :
    KeepsEngines s (s.changeLockout i r on) := by
  have hlocked : KeepsEngines s (s.updShelf i (Shelf.relocked r on)) := (updShelf_state_sameEngines rfl).keeps
  rw [changeLockout_eq]
  exact (hlocked.trans (lockTarget_keeps _ i r on)).trans
    ((markShelf_sameEngines _ i).trans (endEvent_sameEngines _ _)).keeps

theorem enableShelf_keeps {s : State} {i : ShelfIx} (h : (s.shelf i).state = .off) :
    KeepsEngines s (s.enableShelf i) := by
  have hfreed : SameEngines s (s.updShelf i fun x => x.freed.mark) :=
    updShelf_sameEngines (by rw [mark_state, h]; rfl) (by rw [mark_state, h]; rfl)
  rw [enableShelf_eq]
  exact hfreed.keeps.trans (follow_endEvent_keeps s _ s)

theorem disableShelf_keeps (s : State) (i : ShelfIx) : KeepsEngines s (s.disableShelf i) :=
  ((closeShelf_keeps s i).trans (follow_keeps _ _)).trans
    ((offerSq_sameEngines _ i).trans (endEvent_sameEngines _ _)).keeps

theorem setCommand_sameEngines (s : State) (i : ShelfIx) (c : Command) : SameEngines s (s.setCommand i c) :=
  updShelf_state_sameEngines (mark_state _)

theorem warmRestart_sameEngines (s : State) : SameEngines s s.warmRestart := by
  have hrestarted : SameEngines s
      (((s.updRing Ring.restarted).mapRefs Reference.restarted).mapShelves fun _ x => x.restarted) :=
    .of_state (by simp) (by simp) (by simp) fun i => by
      rw [mapShelves_shelf, mapRefs_shelf]
      exact mark_state _
  exact hrestarted.trans (fullReport_sameEngines _)

theorem takeEntry_sameEngines (src : Byte) (s : State) (e : QaEntry) : SameEngines s (State.takeEntry src s e) := by
  unfold State.takeEntry
  split
  · exact setRef_sameEngines s _ _
  · exact updRing_sameEngines s _

theorem announce_keeps (s : State) (src : Byte) (l : List QaEntry) : KeepsEngines s (s.announce src l) := by
  have htaken : SameEngines s (l.foldl (State.takeEntry src) s) :=
    foldl_induct _ (fun b e h => h.trans (takeEntry_sameEngines src b e)) l s (.refl s)
  exact htaken.keeps.trans (follow_endEvent_keeps s _ s)

/-! ### Every step -/

theorem Operation.keepsEngines {s t : State} (h : Operation s t) : KeepsEngines s t := by
  cases h with
  | refPut r x => exact putRef_keeps s r x
  | refKept => exact (setRef_sameEngines s _ _).keeps
  | announced src l => exact announce_keeps s src l
  | settled i => exact (settleExpired_keeps s i).trans (endEvent_sameEngines s _).keeps
  | engineEnded hard e g => exact engineEnds_keeps s hard e g
  | phaseExpired i => exact holdoverPhase_keeps s i
  | shelfWritten i cfg => exact writeShelf_keeps s i cfg
  | listWritten i l => exact writeList_keeps s i l
  | lockoutChanged i r on => exact changeLockout_keeps s i r on
  | shelfEnabled h => exact enableShelf_keeps h
  | shelfDisabled i => exact disableShelf_keeps s i
  | commanded i c => exact (setCommand_sameEngines s i c).keeps
  | acknowledged i l => exact (updShelf_state_sameEngines rfl).keeps
  | compared => exact (compareReports_sameEngines s).keeps
  | reported => exact (fullReport_sameEngines s).keeps
  | restarted => exact (warmRestart_sameEngines s).keeps
  | reset => exact fun _ => cold_enginesOk _ _ _

theorem exec_keeps {c : Instr} {s t : State} (h : exec c s = .next t) : KeepsEngines s t := by
  cases exec_does h with
  | nothing h => exact h.sameEngines.keeps
  | operation h ho h' => exact (h.sameEngines.keeps.trans ho.keepsEngines).trans h'.sameEngines.keeps

/-- Settles O56: an ending releases its shelf's place or engine and grants again, a switch start queues a shelf and
grants, and nothing else in a step touches queue, engines or the sub-states of SWITCHING. -/
theorem enginesServeTheSwitchingShelves : Obligations.EnginesServeTheSwitchingShelves := by
  intro s t h
  unfold step at h
  split at h
  · obtain rfl := Host.Outcome.next.inj h
    unfold State.idleTick
    split
    · exact elapse_keeps s 1
    · exact id
  · rename_i c rest _
    have hpopped : SameEngines s { s with pending := rest } := .of_state rfl rfl rfl fun _ => rfl
    exact hpopped.keeps.trans (exec_keeps h)

end Sys2Proof.Machine
end

section
/-! The pin ROLE, YIELD-ROLE and TAKE-ROLE: R35, R146 to R148. -/

namespace Sys2Proof.Machine

/-! ### The drive state becomes FLOATING -/

/-- A floating part as R147 leaves it, with the purge of R35. -/
def State.floated (s : State) : State :=
  { s with drive := .floating, ring := { s.ring with insertQ := s.ring.insertQ.filter fun e => !e.isNotice } }

theorem enterFloating_of_floating {s : State} (h : s.drive = .floating) : s.enterFloating = s := by
  unfold State.enterFloating
  rw [h]

theorem enterFloating_of_driving {s : State} (h : s.drive = .driving) : s.enterFloating = s.floated := by
  unfold State.enterFloating
  rw [h]
  rfl

/-- The purge of R35 passes over the entry reserved for a reply. -/
theorem floated_pushInsert (s : State) : (s.pushInsert .reserved).floated = s.floated.pushInsert .reserved := by
  unfold State.floated State.pushInsert State.updRing
  simp only [List.filter_append]
  rfl

theorem floated_unreserved {s : State} (h : InsertEntry.reserved ∉ s.ring.insertQ) :
    InsertEntry.reserved ∉ s.floated.ring.insertQ := fun hm => h (List.mem_of_mem_filter hm)

/-- The reply in the entry reserved behind a queue that holds no other. -/
theorem placed_reserved {u : State} (h : InsertEntry.reserved ∉ u.ring.insertQ) (src code tag : Byte)
    (args : List Byte) : (Answer.ok (u.pushInsert .reserved)).placed src (code :: tag :: args) =
      u.withReply (u.replyFrame src code tag 0x00 []) := by
  unfold Answer.placed State.withReply
  simp only [ok_state, State.pushInsert, State.updRing]
  rw [fillReserved_append _ _ _ h]
  rfl

/-! ### The requests' own tests -/

theorem run_yieldRole (s : State) : Request.yieldRole.run [] s = .ok s.enterFloating := rfl

section
variable {s : State}

theorem run_takeRole_low (h : s.role = false) : Request.takeRole.run [] s = .refuse .role s := by
  dsimp only [Request.run, reqTakeRole]
  rw [h]
  rfl

theorem run_takeRole_driving (h : s.role = true) (hd : s.drive = .driving) : Request.takeRole.run [] s = .ok s := by
  dsimp only [Request.run, reqTakeRole]
  rw [h, hd]
  rfl

theorem run_takeRole_floating (h : s.role = true) (hd : s.drive = .floating) :
    Request.takeRole.run [] s = .ok { s with drive := .driving }.fullReport := by
  dsimp only [Request.run, reqTakeRole]
  rw [h, hd]
  rfl

end

/-! ### YIELD-ROLE -/

/-- Settles O5: an entry into FLOATING from DRIVING is the purge, which leaves the entry reserved for the reply. -/
theorem roleEdgesAndYieldRole : Obligations.RoleEdgesAndYieldRole := by
  refine ⟨fun s => rfl, fun s hd => ?_, fun s hd => ?_, fun s src tag h ha hd => ?_, fun s src tag h ha hd => ?_⟩
  · exact congrArg Host.Outcome.next (enterFloating_of_floating (s := { s with role := false }) hd)
  · exact congrArg Host.Outcome.next (enterFloating_of_driving (s := { s with role := false }) hd)
  · refine exec_written .yieldRole rfl h ha (by simp) rfl ?_
    rw [run_yieldRole, enterFloating_of_floating (s := s.pushInsert .reserved) hd]
  · have ⟨_, _, _, hreserved, _⟩ := h
    rw [exec_taken (c := .yieldRole src tag []) .yieldRole rfl h (.inr ha) (by simp), run_yieldRole,
      enterFloating_of_driving (s := s.pushInsert .reserved) hd, floated_pushInsert,
      placed_reserved (floated_unreserved hreserved)]
    rfl

/-! ### TAKE-ROLE -/

theorem fullReport_shelf (s : State) (i : ShelfIx) :
    s.fullReport.shelf i = { s.shelf i with lastReport := (s.fullReport.shelf i).lastReport } := by
  refine fullReport_induct (P := fun t => t.shelf i = { s.shelf i with lastReport := (t.shelf i).lastReport })
    (fun t j ht => ?_) s rfl
  rw [offerSq_shelf t i j, ht]

/-- The part once TAKE-ROLE has driven its outputs and reserved the entry of its reply, before the reports. -/
def State.drivenFor (s : State) : State := { s with drive := .driving }.pushInsert .reserved

/-- No report reads the drive state or the port. -/
theorem drivenFor_report (s : State) (i : ShelfIx) : s.drivenFor.report i = s.report i :=
  SameReports.report ⟨rfl, fun d => by cases d <;> rfl, fun _ => rfl, fun _ => rfl⟩ i

/-- R148, R163: with room for 24 reports behind the reply every enabled shelf is reported. -/
theorem drivenFor_told {s : State} (hroom : s.ring.insertQ.length + 25 ≤ 32) {i : ShelfIx}
    (hi : (s.shelf i).enabled = true) : (s.drivenFor.fullReport.shelf i).lastReport = some (s.report i)
      ∧ .sq i (s.makeFrame 0xFF 0x22 (sqPayload i (s.shelf i).cfg.dialect (s.report i)))
        ∈ s.drivenFor.fullReport.ring.insertQ := by
  have hlen : s.drivenFor.ring.insertQ.length = s.ring.insertQ.length + 1 := List.length_append
  have htold := fullReport_tells s.drivenFor rfl (.inr (by omega)) i hi
  rw [ToldAt, drivenFor_report] at htold
  exact htold

/-- Settles O6: TAKE-ROLE refuses, does nothing, or drives the outputs and makes a full report behind its reply. -/
theorem takeRoleDrivesTheOutputs : Obligations.TakeRoleDrivesTheOutputs := by
  intro s src tag h ha
  refine ⟨fun hlow => ?_, fun hhigh hd => ?_, fun hhigh hd => ?_⟩
  · exact exec_refused .takeRole rfl h (.inr ha) (by simp) .role (run_takeRole_low hlow)
  · exact exec_written .takeRole rfl h ha (by simp) rfl (run_takeRole_driving hhigh hd)
  · obtain ⟨t, hexec, hreply, hkept, hrep, -⟩ := exec_done (c := .takeRole src tag []) (u := s.drivenFor.fullReport)
      (v := { s with drive := .driving }) .takeRole rfl h ha (by simp)
      (run_takeRole_floating (s := s.pushInsert .reserved) hhigh hd) rfl (fullReport_kept _)
    refine ⟨t, hexec, hkept.drive, hkept, hrep, fun i => ?_, fun hroom i hi => ?_⟩
    · rw [hreply.tables.shelf]
      exact fullReport_shelf _ i
    · obtain ⟨hrecord, hqueued⟩ := drivenFor_told hroom hi
      rw [hreply.tables.shelf]
      exact ⟨hrecord, hreply.mem (by nofun) hqueued⟩

end Sys2Proof.Machine
end

section
/-! The end of a switch by its engine and the stages of HOLDOVER: R131, R133, R136 to R138, R145. -/

namespace Sys2Proof.Machine

/-! ### The engine of an ending -/

section
variable {s t : State} {i : ShelfIx}

/-- R131 to R133: an ending passes the engine on as the release of its switch does. -/
theorem EnginePasses.of_release {e : EngineIx} {h : Hold} (hok : s.EnginesOk) (he : s.engines[e] = some h)
    (hi : h.shelf = i) (hengines : t.engines = (s.releaseSwitch i).engines)
    (hqueue : t.alignQ = (s.releaseSwitch i).alignQ) (hgrants : t.grants = (s.releaseSwitch i).grants)
    (hother : ∀ j, j ≠ i → t.shelf j = (s.releaseSwitch i).shelf j) : EnginePasses e s t := by
  have ⟨_, _, hheld, _⟩ := hok
  have haligns := (hheld e h he).1
  obtain ⟨hfree, hnext⟩ := releaseSwitch_passes hok he hi
  unfold EnginePasses
  rw [hengines, hqueue, hgrants]
  refine ⟨hfree, fun j rest hq => ?_⟩
  obtain ⟨hset, hrest, hcount, c, r, b, hwait, hgranted⟩ := hnext j rest hq
  refine ⟨hset, hrest, hcount, c, r, b, hwait, (hother j ?_).trans hgranted⟩
  rintro rfl
  rw [hi, hwait] at haligns
  cases haligns

variable {c u : RefIx}

/-- What an abandonment makes of its shelf once its switch is released: R139. -/
theorem abandon_eq (hc : (s.shelf i).state.current = some c) (hu : (s.shelf i).state.target = some u) :
    s.abandon i = (s.releaseSwitch i).updShelf i fun x => (x.backOn c).mark := by
  unfold State.abandon
  simp only [hc, hu]
  rfl

/-- The shelf on its target, before its notice: R136, steps 1, 3 and 4. -/
def Shelf.moved (u : RefIx) (x : Shelf) : Shelf :=
  { x with route := some u, curEdge := x.pendEdge, pendEdge := none, state := .locked u }

/-- The end of a switch on its target, once its switch is released: R136. -/
theorem moveToTarget_eq (hard : Bool) (hc : (s.shelf i).state.current = some c)
    (hu : (s.shelf i).state.target = some u) : s.moveToTarget hard i =
      (((s.releaseSwitch i).updShelf i (Shelf.moved u)).offerSn i (some c) (some u) .chosen hard).updShelf i fun x =>
        { x with latches := { x.latches with hard := x.latches.hard || hard } }.mark := by
  unfold State.moveToTarget
  simp only [hc, hu]
  rfl

/-- The notice, the mark and the new record leave engines, queue and the other shelves as the release left them. -/
theorem moveToTarget_released (hard : Bool) (hc : (s.shelf i).state.current = some c)
    (hu : (s.shelf i).state.target = some u) : (s.moveToTarget hard i).engines = (s.releaseSwitch i).engines
      ∧ (s.moveToTarget hard i).alignQ = (s.releaseSwitch i).alignQ
      ∧ (s.moveToTarget hard i).grants = (s.releaseSwitch i).grants
      ∧ ∀ j, j ≠ i → (s.moveToTarget hard i).shelf j = (s.releaseSwitch i).shelf j := by
  obtain ⟨f, hf⟩ := offerSn_updRing ((s.releaseSwitch i).updShelf i (Shelf.moved u)) i (some c) (some u) .chosen hard
  rw [moveToTarget_eq hard hc hu, hf]
  refine ⟨rfl, rfl, rfl, fun j hj => ?_⟩
  rw [updShelf_shelf_of_ne _ hj, updRing_shelf, updShelf_shelf_of_ne _ hj]

theorem moveToTarget_passes {e : EngineIx} {h : Hold} (hard : Bool) (hok : s.EnginesOk) (he : s.engines[e] = some h)
    (hi : h.shelf = i) (hc : (s.shelf i).state.current = some c) (hu : (s.shelf i).state.target = some u) :
    EnginePasses e s (s.moveToTarget hard i) := by
  obtain ⟨hengines, hqueue, hgrants, hother⟩ := moveToTarget_released hard hc hu
  exact .of_release hok he hi hengines hqueue hgrants hother

theorem abandon_passes {e : EngineIx} {h : Hold} (hok : s.EnginesOk) (he : s.engines[e] = some h) (hi : h.shelf = i)
    (hc : (s.shelf i).state.current = some c) (hu : (s.shelf i).state.target = some u) :
    EnginePasses e s (s.abandon i) := by
  rw [abandon_eq hc hu]
  exact .of_release hok he hi rfl rfl rfl fun j hj => updShelf_shelf_of_ne _ hj _

end

/-! ### A free engine with nobody waiting -/

/-- Nobody waits and engine `e` is free. -/
def FreeFor (e : EngineIx) (s : State) : Prop := s.alignQ = [] ∧ s.engines[e] = none

section
variable {e : EngineIx} {s t : State}

theorem FreeFor.congr (h : FreeFor e s) (hq : t.alignQ = s.alignQ) (he : t.engines = s.engines) : FreeFor e t := by
  unfold FreeFor
  rw [hq, he]
  exact h

theorem FreeFor.freeEngineOf (h : FreeFor e s) (i : ShelfIx) : FreeFor e (s.freeEngineOf i) := by
  obtain ⟨hq, he⟩ := h
  refine ⟨(freeEngineOf_alignQ s i).trans hq, Option.eq_none_iff_forall_ne_some.mpr fun w hw => ?_⟩
  rw [(freeEngineOf_held hw).1] at he
  cases he

theorem FreeFor.releaseSwitch (h : FreeFor e s) (i : ShelfIx) : FreeFor e (s.releaseSwitch i) := by
  have ⟨hq, he⟩ := h
  unfold State.releaseSwitch
  split
  · exact ⟨by dsimp only; rw [hq]; rfl, he⟩
  · have hfreed := h.freeEngineOf i
    rw [State.grantFree, grantWithin_empty hfreed.1]
    exact hfreed
  all_goals exact h

theorem FreeFor.abandon (h : FreeFor e s) (i : ShelfIx) : FreeFor e (s.abandon i) := by
  unfold State.abandon
  split
  · exact (h.releaseSwitch i).congr rfl rfl
  · exact h

theorem FreeFor.follow (h : FreeFor e s) (s0 : State) : FreeFor e (s0.follow s) :=
  follow_induct (P := FreeFor e) (fun t p h => h.congr (markWhere_alignQ t p) (markWhere_engines t p))
    (fun _ j h _ => h.abandon j) s0 s h

theorem FreeFor.endEvent (h : FreeFor e s) (s0 : State) : FreeFor e (s0.endEvent s) :=
  h.congr (endEvent_sameEngines s0 s).alignQ (endEvent_sameEngines s0 s).engines

/-- R131: with nobody waiting, the engine of an ALIGNING shelf is free once its switch is released. -/
theorem releaseSwitch_free {h : Hold} {c r : RefIx} {b : Basis} (he : s.engines[e] = some h)
    (hst : (s.shelf h.shelf).state = .aligning c r b) (hq : s.alignQ = []) : FreeFor e (s.releaseSwitch h.shelf) := by
  have hfreed : FreeFor e (s.freeEngineOf h.shelf) := by
    refine ⟨(freeEngineOf_alignQ s _).trans hq, Option.eq_none_iff_forall_ne_some.mpr fun w hw => ?_⟩
    obtain ⟨hheld, hne⟩ := freeEngineOf_held hw
    exact hne (congrArg Hold.shelf (Option.some.inj (hheld.symm.trans he)))
  unfold State.releaseSwitch
  rw [hst]
  dsimp only
  rw [State.grantFree, grantWithin_empty hfreed.1]
  exact hfreed

end

/-! ### The report of an engine -/

section
variable {s : State} {e : EngineIx} {g : Nat}

/-- R138: a report under another grant is discarded. -/
theorem engineEnds_stale (hard : Bool) (h : ∀ w, s.engines[e] = some w → w.grant ≠ g) : s.engineEnds hard e g = s := by
  unfold State.engineEnds
  split
  · rfl
  · exact if_neg (h _ ‹_›)

theorem limitExpired_stale (h : ∀ w, s.engines[e] = some w → w.grant ≠ g) : s.limitExpired e g = s := by
  unfold State.limitExpired
  split
  · exact engineEnds_stale true h
  · rfl

/-- An alignment limit that has not run out does not expire. -/
theorem limitExpired_early (h : ∀ w, s.engines[e] = some w → w.timer ≠ 0) : s.limitExpired e g = s := by
  refine if_neg ?_
  rw [Timer.due_iff, Option.map_eq_some_iff]
  rintro ⟨w, hw, hzero⟩
  exact h w hw hzero

variable {h : Hold}

theorem engineEnds_granted (hard : Bool) (he : s.engines[e] = some h) (hg : h.grant = g) :
    s.engineEnds hard e g = s.endEvent (s.follow (s.moveToTarget hard h.shelf)) := by
  unfold State.engineEnds
  rw [he]
  exact if_pos hg

theorem limitExpired_due (he : s.engines[e] = some h) (hz : h.timer = 0) :
    s.limitExpired e g = s.engineEnds true e g := by
  refine if_pos ?_
  rw [Timer.due_iff, he, Option.map_some, hz]

end

/-! ### The end of a switch in its event -/

/-- A shelf moved to `u` by its engine: R136, and R137 with the HARD latch. -/
def Shelf.endedOn (u : RefIx) (hard : Bool) (x : Shelf) : Shelf :=
  { x.moved u with latches := { x.latches with hard := x.latches.hard || hard } }

section
variable {s : State} {i : ShelfIx} {c u : RefIx}

theorem moveToTarget_became (hard : Bool) (hc : (s.shelf i).state.current = some c)
    (hu : (s.shelf i).state.target = some u) : Became i (Shelf.endedOn u hard) s (s.moveToTarget hard i) := by
  obtain ⟨v, hv⟩ := moveToTarget_shelf_self s hard i hc hu
  obtain ⟨n, hn⟩ := moveToTarget_sel s hard i hc hu
  rw [hv] at hn
  exact ⟨n, _, by rw [hv, show v = .settling n from hn]; rfl⟩

/-- What stands at a shelf that is not SWITCHING once its action is done stands at the end of the event. -/
theorem Became.toEnd {f : Shelf → Shelf} {s0 t : State} (h : Became i f s t)
    (hf : ∀ x : Shelf, (f x).switching = false) :
    Became i f s (s0.endEvent (s0.follow t)) := by
  have hidle : (t.shelf i).switching = false := by
    obtain ⟨n, l, hl⟩ := h
    rw [hl]
    exact hf _
  obtain ⟨hsame, htimer⟩ := follow_calm i s0 t hidle
  exact (h.calm hsame htimer).calm (endEvent_sameBut i s0 _) (endEvent_keepsTimer i s0 _)

theorem moveToTarget_ring (hard : Bool) (hc : (s.shelf i).state.current = some c)
    (hu : (s.shelf i).state.target = some u) :
    (s.moveToTarget hard i).ring = (s.offerSn i (some c) (some u) .chosen hard).ring := by
  rw [moveToTarget_eq hard hc hu, updShelf_ring]
  refine offerSn_ring_congr ?_ ?_ i _ _ _ _
  · exact (releaseSwitch_kept s i).drive
  · rw [updShelf_ring, releaseSwitch_ring]

/-- R149: the notice of a switch that ends is the first frame of its event. -/
theorem moveToTarget_noticed {t : State} (hard : Bool) (hc : (s.shelf i).state.current = some c)
    (hu : (s.shelf i).state.target = some u) (hgrows : QueueGrows (s.moveToTarget hard i).ring.insertQ t.ring.insertQ) :
    Noticed s t 0 (s.noticeFrame i (some c) (some u) 1 (if hard then 1 else 0)) := by
  intro hd hroom
  rw [moveToTarget_ring hard hc hu] at hgrows
  exact offerSn_noticed (cause := .chosen) (fun _ => rfl) hd hroom hgrows

end

/-- R136, R137: what stands at the end of an event that ended the switch of the shelf that holds an engine. -/
structure EndedBy (s : State) (e : EngineIx) (i : ShelfIx) (c u : RefIx) (hard : Bool) (t : State) : Prop where
  shelf : Became i (Shelf.endedOn u hard) s t
  notice : Noticed s t 0 (s.noticeFrame i (some c) (some u) 1 (if hard then 1 else 0))
  free : s.alignQ = [] → t.engines[e] = none
  kept : Kept s t

theorem engineEnds_ended {s : State} {e : EngineIx} {h : Hold} {c r : RefIx} {b : Basis}
    (he : s.engines[e] = some h) (hst : (s.shelf h.shelf).state = .aligning c r b) (hard : Bool) :
    EndedBy s e h.shelf c r hard (s.endEvent (s.follow (s.moveToTarget hard h.shelf))) := by
  have hc : (s.shelf h.shelf).state.current = some c := by rw [hst]; rfl
  have hu : (s.shelf h.shelf).state.target = some r := by rw [hst]; rfl
  have hlater := (follow_kept s (s.moveToTarget hard h.shelf)).trans (endEvent_kept s _)
  obtain ⟨hengines, hqueue, -, -⟩ := moveToTarget_released hard hc hu
  refine ⟨(moveToTarget_became hard hc hu).toEnd fun _ => rfl, moveToTarget_noticed hard hc hu hlater.queue,
    fun hq => ?_, (moveToTarget_kept s hard _).trans hlater⟩
  exact ((((releaseSwitch_free he hst hq).congr hqueue hengines).follow s).endEvent s).2

/-- Settles O30: a report under the grant held is the end of the switch with what it sets off, any other is nothing. -/
theorem engineEndsTheSwitch : Obligations.EngineEndsTheSwitch := by
  intro s e g hn
  have hdone := exec_engineDone hn e g
  have hlimit := exec_alignmentLimitExpiry hn e g
  refine ⟨fun hstale => ?_, fun hearly => ?_, fun h c r b he hg hst => ?_⟩
  · rw [hdone, hlimit, engineEnds_stale false hstale, limitExpired_stale hstale]
    exact ⟨rfl, rfl⟩
  · rw [hlimit, limitExpired_early hearly]
  rw [engineEnds_granted false he hg] at hdone
  have hexpired : h.timer = 0 → exec (.alignmentLimitExpiry e g) s =
      .next (s.endEvent (s.follow (s.moveToTarget true h.shelf))) := fun hz => by
    rw [hlimit, limitExpired_due he hz, engineEnds_granted true he hg]
  intro Ends
  have hends : ∀ hard, Ends (s.endEvent (s.follow (s.moveToTarget hard h.shelf))) hard := fun hard => by
    have hended := engineEnds_ended he hst hard
    obtain ⟨n, l, hshelf⟩ := hended.shelf
    have hsel := hended.shelf.settling
    exact ⟨by rw [hshelf]; rfl, by rw [hshelf]; rfl, by rw [hshelf]; rfl, by rw [hshelf]; rfl, by rw [hshelf]; rfl,
      hsel, hended.notice, hended.free, hended.kept⟩
  refine ⟨⟨_, hdone, hends false⟩, fun hz => ⟨_, hexpired hz, hends true⟩, hdone, hexpired, fun hok hard => ?_⟩
  exact moveToTarget_passes hard hok he rfl (by rw [hst]; rfl) (by rw [hst]; rfl)

/-! ### The stages of HOLDOVER -/

section
variable {n : Nat}

theorem phaseExpired_degraded (h : 0 < n) :
    ShelfState.phaseExpired n (.holdover .inSpec (some 0)) = .holdover .degraded (some (secTicks n)) := by
  unfold ShelfState.phaseExpired
  exact if_pos h

theorem phaseExpired_skips (h : n = 0) :
    ShelfState.phaseExpired n (.holdover .inSpec (some 0)) = .holdover .expired none := by
  subst h
  rfl

theorem phaseExpired_last : ShelfState.phaseExpired n (.holdover .degraded (some 0)) = .holdover .expired none := rfl

/-- No phase expires but one whose timer has run to 0. -/
theorem phaseExpired_early {x : ShelfState} (hspec : x ≠ .holdover .inSpec (some 0))
    (hdegraded : x ≠ .holdover .degraded (some 0)) : x.phaseExpired n = x := by
  have hdue : ∀ {st : Stage} {t : Timer}, x = .holdover st t → x ≠ .holdover st (some 0) → Timer.due t ≠ true := by
    intro st t hx hne ht
    rw [Timer.due_iff] at ht
    exact hne (hx.trans (by rw [ht]))
  unfold ShelfState.phaseExpired
  split
  · exact if_neg (hdue rfl hspec)
  · exact if_neg (hdue rfl hdegraded)
  all_goals rfl

end

theorem exec_nextStage {s : State} (hn : s.resetn = true) (i : ShelfIx) : exec (.holdoverPhaseExpiry i) s =
    .next (s.endEvent (s.follow (s.updShelf i Shelf.nextStage))) := exec_holdoverPhaseExpiry hn i

/-- The event of a phase expiry at a shelf in HOLDOVER: its route and latches stay. -/
theorem exec_phaseExpired {s : State} {i : ShelfIx} {st : Stage} {x : Timer} (hn : s.resetn = true)
    (h : (s.shelf i).state = .holdover st x) : ∃ t, exec (.holdoverPhaseExpiry i) s = .next t
      ∧ (t.shelf i).state = (ShelfState.holdover st x).phaseExpired (s.shelf i).cfg.phaseB.toNat
      ∧ (t.shelf i).route = (s.shelf i).route ∧ (t.shelf i).latches = (s.shelf i).latches ∧ Kept s t := by
  have hstaged := updShelf_shelf_self s i Shelf.nextStage
  have hstate : (s.shelf i).nextStage.state = (ShelfState.holdover st x).phaseExpired (s.shelf i).cfg.phaseB.toNat := by
    rw [← h]
    rfl
  have hidle : ((s.updShelf i Shelf.nextStage).shelf i).switching = false := by
    rw [hstaged, Shelf.switching, hstate, phaseExpired_cls]
    rfl
  have hkept : Kept s (s.updShelf i Shelf.nextStage) :=
    updShelf_kept s i _ (fun _ => rfl) (fun _ => rfl) fun _ => rfl
  have hsame := (follow_sameBut i s _ hidle).trans (endEvent_sameBut i s _)
  refine ⟨_, exec_nextStage hn i, ?_, ?_, ?_, (hkept.trans (follow_kept _ _)).trans (endEvent_kept _ _)⟩
  · rw [hsame.state, hstaged, hstate]
  · rw [hsame.route, hstaged]
    rfl
  · rw [hsame.latches, hstaged]
    rfl

/-- Settles O31: the event of a phase expiry leaves of its shelf all but the stage; an early one is no event. -/
theorem holdoverPhaseExpiryMovesTheStage : Obligations.HoldoverPhaseExpiryMovesTheStage := by
  intro s i hn Moves
  have hmoves : ∀ {st x after}, (s.shelf i).state = .holdover st x →
      (ShelfState.holdover st x).phaseExpired (s.shelf i).cfg.phaseB.toNat = after → Moves after := by
    rintro st x _ hst rfl
    exact exec_phaseExpired hn hst
  refine ⟨fun hst hb => hmoves hst (phaseExpired_degraded hb), fun hst hb => hmoves hst (phaseExpired_skips hb),
    fun hst => hmoves hst phaseExpired_last, fun hspec hdegraded => ?_⟩
  have hstays : (s.shelf i).nextStage = s.shelf i := by rw [Shelf.nextStage, phaseExpired_early hspec hdegraded]
  rw [exec_nextStage hn, updShelf_self_id hstays, endEvent_follow_self]

end Sys2Proof.Machine
end

section
/-! How a switch in flight ends without its engine: R139 to R141. The test of R140 after every command is what the shelf
has heard (`Heard`), as far as no command but the decision of the shelf itself starts a switch of it. -/

namespace Sys2Proof.Machine

/-! ### No switch starts -/

/-- A switch of shelf `i` that stands in `t` stood in `s`. -/
def NoSwitchStarts (i : ShelfIx) (s t : State) : Prop := ∀ r, (t.shelf i).state.target = some r →
  (s.shelf i).state.target = some r ∧ (t.shelf i).state.basis = (s.shelf i).state.basis

theorem NoSwitchStarts.trans {i : ShelfIx} {s t u : State} (h : NoSwitchStarts i s t) (h' : NoSwitchStarts i t u) :
    NoSwitchStarts i s u := fun r hr => by
  obtain ⟨ht, hbasis⟩ := h' r hr
  obtain ⟨hs, hbasis'⟩ := h r ht
  exact ⟨hs, hbasis.trans hbasis'⟩

theorem NoSwitchStarts.of_uses {i : ShelfIx} {s t : State}
    (ht : (t.shelf i).state.target = (s.shelf i).state.target)
    (hb : (t.shelf i).state.basis = (s.shelf i).state.basis) : NoSwitchStarts i s t :=
  fun _ hr => ⟨ht.symm.trans hr, hb⟩

theorem NoSwitchStarts.of_state {i : ShelfIx} {s t : State} (h : (t.shelf i).state = (s.shelf i).state) :
    NoSwitchStarts i s t := .of_uses (by rw [h]) (by rw [h])

theorem NoSwitchStarts.refl (i : ShelfIx) (s : State) : NoSwitchStarts i s s := .of_state rfl

theorem ShelvesEvent.noSwitchStarts {s t : State} (h : ShelvesEvent s t) (i : ShelfIx) : NoSwitchStarts i s t :=
  (h.steady i).flight

/-- A change of one shelf record that leaves its switch as it is. -/
theorem updShelf_keeps_switch {s : State} {j : ShelfIx} {f : Shelf → Shelf} (i : ShelfIx)
    (ht : (f (s.shelf j)).state.target = (s.shelf j).state.target)
    (hb : (f (s.shelf j)).state.basis = (s.shelf j).state.basis) : NoSwitchStarts i s (s.updShelf j f) := by
  by_cases hij : i = j
  · subst hij
    exact .of_uses (by rw [updShelf_shelf_self, ht]) (by rw [updShelf_shelf_self, hb])
  · exact .of_state (by rw [updShelf_shelf_of_ne s hij])

/-- A change of one shelf record that leaves it without a target. -/
theorem updShelf_ends_switch {s : State} {j : ShelfIx} {f : Shelf → Shelf} (i : ShelfIx)
    (h : (f (s.shelf j)).state.target = none) : NoSwitchStarts i s (s.updShelf j f) := by
  by_cases hij : i = j
  · subst hij
    intro r hr
    rw [updShelf_shelf_self, h] at hr
    cases hr
  · exact .of_state (by rw [updShelf_shelf_of_ne s hij])

theorem closeShelf_noSwitchStarts (s : State) (i j : ShelfIx) : NoSwitchStarts i s (s.closeShelf j) := by
  obtain ⟨f, hf⟩ := closeNotice_updRing s j
  have hreleased : NoSwitchStarts i s ((s.updRing f).releaseSwitch j) :=
    (releaseSwitch_shelvesEvent (s.updRing f) j).noSwitchStarts i
  rw [closeShelf_eq, hf]
  exact hreleased.trans (updShelf_ends_switch i rfl)

theorem takeEntry_shelf (src : Byte) (s : State) (e : QaEntry) (i : ShelfIx) :
    (State.takeEntry src s e).shelf i = s.shelf i := by
  unfold State.takeEntry
  split
  · exact setRef_shelf s _ _ i
  · rfl

theorem announce_noSwitchStarts (s : State) (src : Byte) (l : List QaEntry) (i : ShelfIx) :
    NoSwitchStarts i s (s.announce src l) := by
  have htaken : (l.foldl (State.takeEntry src) s).shelf i = s.shelf i :=
    foldl_induct (P := fun t => t.shelf i = s.shelf i) _ (fun t e h => (takeEntry_shelf src t e i).trans h) l s rfl
  have hevent := (follow_shelvesEvent s (l.foldl (State.takeEntry src) s)).trans (endEvent_shelvesEvent s _)
  exact (NoSwitchStarts.of_state (by rw [htaken])).trans (hevent.noSwitchStarts i)

/-- R125, R133: the switch start of another shelf grants engines, and no more. -/
theorem outcome_noSwitchStarts {s : State} {i j : ShelfIx} (hij : i ≠ j) (cmd : Command) (target : Option RefIx) :
    NoSwitchStarts i s (s.outcome j cmd target) := by
  have hlock : ∀ r, NoSwitchStarts i s (s.directLock j r) := fun r => by
    have hlocked : NoSwitchStarts i s (s.updShelf j fun x =>
        { x with curEdge := (s.ref r).sourceShelf, route := some r, state := .locked r }) :=
      updShelf_ends_switch i rfl
    exact hlocked.trans ((offerSn_shelvesEvent _ j _ _ _ _).noSwitchStarts i)
  unfold State.outcome
  split
  · exact (enterHoldover_shelvesEvent ‹_› _).noSwitchStarts i
  · split
    · exact .refl i s
    · rename_i c r _ _
      have hqueued : NoSwitchStarts i s (s.queued j c r cmd.basis) := .of_state (by rw [queued_shelf_of_ne hij])
      exact hqueued.trans ((grantFree_shelvesEvent _).noSwitchStarts i)
  · exact hlock _
  · exact hlock _
  all_goals exact .refl i s

/-- R117: the decision of another shelf. -/
theorem decideShelf_noSwitchStarts {s : State} {i j : ShelfIx} (hij : i ≠ j) :
    NoSwitchStarts i s (s.endEvent (s.decideShelf j)) := by
  have hjudged : NoSwitchStarts i s (s.judgedAt j) := .of_state (by rw [judgedAt_shelf_of_ne hij])
  exact (hjudged.trans (outcome_noSwitchStarts hij _ _)).trans (decideShelf_shelvesEvent.noSwitchStarts i)

/-! ### The floor of a switch that stands -/

/-- R140: an AUTOMATIC switch of shelf `i` that stands from `s` to `t` passes the floor where the rank of its target
changed. -/
def FloorTested (i : ShelfIx) (s t : State) : Prop :=
  ∀ r, (s.shelf i).state.target = some r → (s.shelf i).state.basis = some .automatic →
    (t.shelf i).state.target = some r → t.effRank r ≠ s.effRank r →
    (t.effRank r).val ≤ (t.shelf i).cfg.floor.val

theorem FloorTested.of_heard {i : ShelfIx} {s t : State} (h : Heard i s t) (hs : NoSwitchStarts i s t) :
    FloorTested i s t := fun r _ hb ht hr => by
  obtain ⟨-, hbasis⟩ := hs r ht
  exact h.tested r ht (hbasis.trans hb) hr

/-- Where no rank changes there is nothing to test. -/
theorem FloorTested.of_ranks {i : ShelfIx} {s t : State} (h : SameRanks s t) : FloorTested i s t :=
  fun r _ _ _ hr => absurd (h.effRank r) hr

theorem FloorTested.refl (i : ShelfIx) (s : State) : FloorTested i s s := .of_ranks (.refl s)

/-- A shelf without a switch has none to test. -/
theorem FloorTested.of_not_switching {i : ShelfIx} {s t : State} (h : (s.shelf i).switching = false) :
    FloorTested i s t := fun r hr => by
  obtain ⟨hs, -⟩ := target_switching hr
  rw [h] at hs
  cases hs

/-- References and shelves are all that the test reads. -/
theorem FloorTested.congr {i : ShelfIx} {s s' t t' : State} (h : FloorTested i s' t') (hs : SameTables s s')
    (ht : SameTables t' t) : FloorTested i s t := by
  unfold FloorTested at h ⊢
  simpa only [hs.shelf, hs.effRank, ht.shelf, ht.effRank] using h

/-! ### The operations -/

section
variable (s : State) (i : ShelfIx)

theorem follow_endEvent_tested {u : State} (h : NoSwitchStarts i s u) : FloorTested i s (s.endEvent (s.follow u)) :=
  .of_heard ((follow_heard i s u).endEvent s)
    (h.trans (((follow_shelvesEvent s u).trans (endEvent_shelvesEvent s _)).noSwitchStarts i))

theorem putRef_tested (r : RefIx) (x : Reference) : FloorTested i s (s.putRef r x) := by
  have hset : NoSwitchStarts i s (s.setRef r x) := .of_state (by rw [setRef_shelf])
  exact .of_heard (putRef_heard i s r x) (hset.trans ((putRef_shelvesEvent s r x).noSwitchStarts i))

theorem decideShelf_tested {j : ShelfIx} (hj : (s.shelf j).switching = false) :
    FloorTested i s (s.endEvent (s.decideShelf j)) := by
  by_cases hij : i = j
  · subst hij
    exact .of_not_switching hj
  have hheard : Heard i (s.judgedAt j) (s.decideShelf j) := by
    rw [decideShelf_eq]
    split
    · exact (follow_heard i _ _).after (markShelf_shelvesEvent _ j) (markShelf_silent _ j)
    · exact follow_heard i _ _
  exact .of_heard ((hheard.before judgedAt_silent).endEvent s) (decideShelf_noSwitchStarts hij)

theorem settleExpired_tested (j : ShelfIx) : FloorTested i s (s.endEvent (s.settleExpired j)) := by
  have hself : FloorTested i s (s.endEvent s) := by
    rw [endEvent_quiet (SameRanks.refl s)]
    exact .refl i s
  unfold State.settleExpired
  split
  · split
    · have hdeferred : SameRanks s (s.updShelf j fun x => { x with sel := .deferred }) :=
        (updShelf_silent rfl rfl rfl rfl).ranks
      rw [endEvent_quiet hdeferred]
      exact .of_ranks hdeferred
    · split
      · exact decideShelf_tested s i (Bool.eq_false_iff.mpr ‹_›)
      · exact hself
  all_goals exact hself

theorem engineEnds_tested (hard : Bool) (e : EngineIx) (g : Nat) : FloorTested i s (s.engineEnds hard e g) := by
  unfold State.engineEnds
  split
  · exact .refl i s
  · split
    · exact follow_endEvent_tested s i ((moveToTarget_shelvesEvent s hard _).noSwitchStarts i)
    · exact .refl i s

theorem nextStage_tested (j : ShelfIx) :
    FloorTested i s (s.endEvent (s.follow (s.updShelf j Shelf.nextStage))) := by
  obtain ⟨-, htarget, hbasis⟩ := phaseExpired_uses (s.shelf j).cfg.phaseB.toNat (s.shelf j).state
  exact follow_endEvent_tested s i (updShelf_keeps_switch i htarget hbasis)

theorem writeShelf_tested (j : ShelfIx) (cfg : ShelfConfig) : FloorTested i s (s.writeShelf j cfg) := by
  have hconfigured : NoSwitchStarts i s (s.configured j cfg) := by
    have hset : NoSwitchStarts i s (s.updShelf j fun x => { x with cfg := cfg }) := updShelf_keeps_switch i rfl rfl
    unfold State.configured
    split
    · exact hset.trans ((markShelf_shelvesEvent _ j).noSwitchStarts i)
    · exact hset
  rw [writeShelf_eq]
  refine .of_heard ((follow_heard i s _).after (compareReports_shelvesEvent _) (compareReports_silent _)) ?_
  exact hconfigured.trans (((follow_shelvesEvent s _).trans (compareReports_shelvesEvent _)).noSwitchStarts i)

theorem writeList_tested (j : ShelfIx) (l : List Candidate) : FloorTested i s (s.writeList j l) := by
  have hstate : ((s.shelf j).listed l).state = (s.shelf j).state := by rw [Shelf.listed_eq]
  have hlisted : Silent s (s.listWritten j l) := by
    refine updShelf_silent ?_ ?_ ?_ ?_ <;> rw [Shelf.listed_eq]
  have hwritten : NoSwitchStarts i s (s.listWritten j l) :=
    updShelf_keeps_switch i (by rw [hstate]) (by rw [hstate])
  have hsteps : Heard i (s.listWritten j l) (((s.listWritten j l).candTarget j).candCurrent j) :=
    (candTarget_heard i j _).trans (candCurrent_heard i j _) ((candCurrent_shelvesEvent _ j).steady i)
  have hmarked := hsteps.after (markShelf_shelvesEvent _ j) (markShelf_silent _ j)
  have hevent := (((candTarget_shelvesEvent (s.listWritten j l) j).trans (candCurrent_shelvesEvent _ j)).trans
    (markShelf_shelvesEvent _ j)).trans (endEvent_shelvesEvent s _)
  rw [writeList_of_listWritten]
  exact .of_heard ((hmarked.before hlisted).endEvent s) (hwritten.trans (hevent.noSwitchStarts i))

theorem changeLockout_tested (j : ShelfIx) (r : RefIx) (on : Bool) : FloorTested i s (s.changeLockout j r on) := by
  have hlocked : Silent s (s.updShelf j (Shelf.relocked r on)) := updShelf_silent rfl rfl rfl rfl
  have hheard := (lockTarget_heard i j (s.updShelf j (Shelf.relocked r on)) r on).after
    (markShelf_shelvesEvent _ j) (markShelf_silent _ j)
  have hevent := ((lockTarget_shelvesEvent (s.updShelf j (Shelf.relocked r on)) j r on).trans
    (markShelf_shelvesEvent _ j)).trans (endEvent_shelvesEvent s _)
  have hset : NoSwitchStarts i s (s.updShelf j (Shelf.relocked r on)) := updShelf_keeps_switch i rfl rfl
  rw [changeLockout_eq]
  exact .of_heard ((hheard.before hlocked).endEvent s) (hset.trans (hevent.noSwitchStarts i))

theorem enableShelf_tested (j : ShelfIx) : FloorTested i s (s.enableShelf j) := by
  rw [enableShelf_eq]
  exact follow_endEvent_tested s i (updShelf_ends_switch i (by rw [mark_state]; rfl))

theorem disableShelf_tested (j : ShelfIx) : FloorTested i s (s.disableShelf j) := by
  have hheard := (follow_heard i s (s.closeShelf j)).after (offerSq_shelvesEvent _ j) (offerSq_silent _ j)
  have hevent := ((follow_shelvesEvent s (s.closeShelf j)).trans (offerSq_shelvesEvent _ j)).trans
    (endEvent_shelvesEvent s _)
  exact .of_heard (hheard.endEvent s) ((closeShelf_noSwitchStarts s i j).trans (hevent.noSwitchStarts i))

end

/-- R177: what a warm restart clears no rank reads. -/
theorem warmRestart_sameRanks (s : State) : SameRanks s s.warmRestart := by
  have hrestarted : SameRanks s
      (((s.updRing Ring.restarted).mapRefs Reference.restarted).mapShelves fun _ x => x.restarted) := by
    refine ⟨fun r => ?_, fun r => ?_, fun i => ?_, fun i => ?_⟩
    · rw [mapShelves_ref, mapRefs_ref]
      rfl
    · rw [mapShelves_ref, mapRefs_ref]
      rfl
    · rw [mapShelves_shelf, mapRefs_shelf]
      exact mark_cfg _
    · rw [mapShelves_shelf, mapRefs_shelf]
      exact mark_state _
  exact hrestarted.trans (fullReport_silent _).ranks

theorem Operation.floorTested {s t : State} (h : Operation s t) (i : ShelfIx) : FloorTested i s t := by
  cases h with
  | refPut r x => exact putRef_tested s i r x
  | refKept hcfg hreceived => exact .of_ranks (setRef_sameRanks s _ _ hcfg hreceived)
  | announced src l => exact .of_heard ((follow_heard i s _).endEvent s) (announce_noSwitchStarts s src l i)
  | settled j => exact settleExpired_tested s i j
  | engineEnded hard e g => exact engineEnds_tested s i hard e g
  | phaseExpired j => exact nextStage_tested s i j
  | shelfWritten j cfg => exact writeShelf_tested s i j cfg
  | listWritten j l => exact writeList_tested s i j l
  | lockoutChanged j r on => exact changeLockout_tested s i j r on
  | shelfEnabled => exact enableShelf_tested s i _
  | shelfDisabled j => exact disableShelf_tested s i j
  | commanded j c =>
    exact .of_ranks (updShelf_silent (f := fun x => { x with command := c }.mark) (mark_cfg _) (mark_state _)
      (mark_curEdge _) (mark_pendEdge _)).ranks
  | acknowledged j l => exact .of_ranks (updShelf_silent rfl rfl rfl rfl).ranks
  | compared => exact .of_ranks (compareReports_silent s).ranks
  | reported => exact .of_ranks (fullReport_silent s).ranks
  | restarted => exact .of_ranks (warmRestart_sameRanks s)
  | reset =>
    intro r _ _ ht
    rw [cold_shelf] at ht
    cases ht

/-- R140: after every command an AUTOMATIC switch that still stands passes the floor where its target's rank changed. -/
theorem exec_floorTested {c : Instr} {s t : State} (h : exec c s = .next t) (i : ShelfIx) : FloorTested i s t := by
  cases exec_does h with
  | nothing h => exact .of_ranks h.tables.sameRanks
  | operation h ho h' => exact (ho.floorTested i).congr h.tables h'.tables

end Sys2Proof.Machine
end

section
/-! Abandonment and hard cut: R107, R139 to R141, and the events of R81 and R57 that abandon a switch. -/

namespace Sys2Proof.Machine

/-! ### A switch in flight -/

section
variable {s : State} {i : ShelfIx} {c r : RefIx} {b : Basis}

theorem inFlight_self (h : (s.shelf i).state = .waiting c r b ∨ (s.shelf i).state = .aligning c r b) :
    InFlight i c r b s s := inFlight_of_sameBut (SameBut.refl i s) h

/-- R141: the current reference of a shelf in flight is lost by a hard cut to its target. -/
theorem loseCurrent_cuts (h : (s.shelf i).state = .waiting c r b ∨ (s.shelf i).state = .aligning c r b) :
    s.loseCurrent i = s.moveToTarget true i := by
  unfold State.loseCurrent
  rcases h with h | h <;> rw [h]

theorem Shelf.endedOn_hard (u : RefIx) (x : Shelf) : x.endedOn u true = x.cutTo u := by
  unfold Shelf.endedOn Shelf.cutTo
  rw [Bool.or_true]
  rfl

theorem loseCurrent_became (h : (s.shelf i).state = .waiting c r b ∨ (s.shelf i).state = .aligning c r b) :
    Became i (Shelf.cutTo r) s (s.loseCurrent i) := by
  obtain ⟨n, l, hshelf⟩ := moveToTarget_became true (inFlight_self h).current (inFlight_self h).target
  rw [Shelf.endedOn_hard] at hshelf
  rw [loseCurrent_cuts h]
  exact ⟨n, l, hshelf⟩

theorem releaseSwitch_waiting (h : (s.shelf i).state = .waiting c r b) :
    s.releaseSwitch i = { s with alignQ := s.alignQ.filter fun j => j != i } := by
  unfold State.releaseSwitch
  rw [h]

/-! ### A target that enters HOLDOFF -/

/-- R140: a target in HOLDOFF that is not current fails the target test under either basis. -/
theorem targetOk_holdoff (ht : (s.shelf i).state.target = some r) (hc : (s.shelf i).state.current ≠ some r)
    (hr : (s.ref r).rt.state = .holdoff) : s.targetOk i = false := by
  refine Bool.eq_false_iff.mpr fun hok => ?_
  have htakes : RefState.Takes .holdoff (s.shelf i).state.basis := hr ▸ targetOk_takes hok ht hc
  rcases htakes with hactive | ⟨hrestoring, -⟩
  · cases hactive
  · cases hrestoring

/-- R81: the part of a shelf SWITCHING to the reference that has entered HOLDOFF. -/
theorem takePart_to_holdoff {t : State} (hne : c ≠ r) (hr : (t.ref r).rt.state = .holdoff)
    (h : FlightOrBack i c r b s t) : Became i (Shelf.backOn c) s (State.takePart r t i) := by
  rcases h with h | h
  · have hcur : (t.shelf i).state.current ≠ some r := by
      rw [h.current]
      exact fun hc => hne (Option.some.inj hc)
    have hback := h.abandon
    obtain ⟨hsame, htimer⟩ := follow_calm i t (t.abandon i) (not_switching_of_locked (backOn_locked hback))
    unfold State.takePart
    rw [if_neg fun hlost => hcur hlost.1, if_pos ⟨h.target, targetOk_holdoff h.target hcur hr⟩]
    exact hback.calm hsame htimer
  · have hlocked := backOn_locked h
    rw [takePart_idle (by rw [hlocked]; exact fun hc => hne (Option.some.inj hc)) (by rw [hlocked]; nofun)]
    exact h

/-- R81, R140: the event that takes the target to HOLDOFF abandons the switch. -/
theorem putRef_abandons {x : Reference}
    (h : (s.shelf i).state = .waiting c r b ∨ (s.shelf i).state = .aligning c r b) (hne : c ≠ r)
    (hold : (s.ref r).rt.state ≠ .holdoff) (hx : x.rt.state = .holdoff) : Abandoned i c s (s.putRef r x) := by
  have hpart := takePart_to_holdoff hne (by rwa [atTurn_ref]) (atTurn_flight (x := x) h)
  exact (hpart.putRef (by rw [hx]; exact hold.symm) fun _ => rfl).abandoned

end

/-- R22, R69: a loss of signal starts the hold-off of an ACTIVE reference. -/
theorem Reference.watchExpired_holdoff {x : Reference} (hr : x.mon.run = .running) (hw : x.mon.watch = some 0)
    (hv : x.mon.verdict = .good) (hs : x.rt.state = .active) (hh : 0 < x.cfg.holdOff) :
    x.watchExpired.rt.state = .holdoff := by
  rw [Reference.watchExpired_due hr hw, Reference.measured_loseSignal, hv]
  have hholds := RefDynamic.verdictFail_active_holds (cfg := x.cfg)
    (x := { x.rt with latches := { x.rt.latches with los := true } }) hs hh
  exact congrArg RefDynamic.state hholds

/-! ### A target whose announcement times out -/

section
variable {s : State} {i : ShelfIx} {c r : RefIx} {b : Basis}

theorem putRef_eq_follow {x : Reference} (hx : x.rt.state = (s.ref r).rt.state) :
    s.putRef r x = s.endEvent (s.follow (s.setRef r x)) := by
  unfold State.putRef
  dsimp only
  rw [if_pos hx]

/-- A change of a reference that leaves its state alone leaves a switch in flight, or abandons it. -/
theorem putRef_flight {x : Reference} (hx : x.rt.state = (s.ref r).rt.state)
    (h : (s.shelf i).state = .waiting c r b ∨ (s.shelf i).state = .aligning c r b) :
    FlightOrBack i c r b s (s.putRef r x) := by
  have hset : FlightOrBack i c r b s (s.setRef r x) :=
    .inl (inFlight_of_sameBut (SameBut.of_eq (setRef_shelf s r x i)) h)
  rw [putRef_eq_follow hx]
  rcases hset.follow s with hflight | hback
  · exact .inl (hflight.regranted (.of_sameBut (endEvent_sameBut i s _)))
  · exact .inr (hback.calm (endEvent_sameBut i s _) (endEvent_keepsTimer i s _))

/-- R140: an AUTOMATIC switch does not stand once an event has made its target's rank 15, which no floor admits. -/
theorem not_inFlight_unusable {t : State} (hheard : Heard i s t) (h15 : t.effRank r = Rank.unusable)
    (hchanged : s.effRank r ≠ Rank.unusable) : ¬InFlight i c r .automatic s t := fun h => by
  have hfloor := hheard.tested r h.target h.basis (by rw [h15]; exact hchanged.symm)
  rw [h15] at hfloor
  exact absurd (t.shelf i).cfg.floor.isLt (Nat.not_lt.mpr hfloor)

theorem announceExpired_rank (ht : (s.ref r).qt.timer = some 0) (hk : (s.ref r).cfg.kind = .announced)
    (ho : (s.ref r).cfg.overrideRank = none) : (s.putRef r (s.ref r).announceExpired).effRank r = Rank.unusable := by
  have href : (s.putRef r (s.ref r).announceExpired).ref r = (s.ref r).announceExpired := by rw [putRef_ref, if_pos rfl]
  rw [Reference.announceExpired_due ht] at href ⊢
  rw [effRank_announced (by rw [href]; exact hk) (by rw [href]; exact ho), href]

/-- R57, R140: the timeout of the target's announcement abandons an AUTOMATIC switch. -/
theorem announceExpired_abandons (ht : (s.ref r).qt.timer = some 0) (hk : (s.ref r).cfg.kind = .announced)
    (ho : (s.ref r).cfg.overrideRank = none) (hrank : s.effRank r ≠ Rank.unusable)
    (h : (s.shelf i).state = .waiting c r .automatic ∨ (s.shelf i).state = .aligning c r .automatic) :
    Abandoned i c s (s.putRef r (s.ref r).announceExpired) := by
  have hstate : (s.ref r).announceExpired.rt.state = (s.ref r).rt.state := by rw [Reference.announceExpired_due ht]
  rcases putRef_flight hstate h with hflight | hback
  · exact absurd hflight (not_inFlight_unusable (putRef_heard i s r _) (announceExpired_rank ht hk ho) hrank)
  · exact hback.abandoned

end

/-- Settles O32: an abandonment and a hard cut release the switch and leave its shelf LOCKED; a target that fails its
test within an event is abandoned there, and every command has tested the floor. -/
theorem abandonmentAndHardCut : Obligations.AbandonmentAndHardCut := by
  intro s i c r b h
  have hflight := inFlight_self h
  have hc := hflight.current
  have hu := hflight.target
  have hb := hflight.basis
  have hcut := loseCurrent_cuts h
  refine ⟨?_, hflight.abandon.abandoned, abandon_ring s i, abandon_kept s i, ?_, fun q hst hq => ?_,
    fun e w hok he hi => ?_, fun hn hne => ?_, fun command t hexec hba ht hr => ?_⟩
  · cases b with
    | automatic => exact targetOk_automatic hu hb
    | forced => exact targetOk_forced hu hb
  · have hbecame := loseCurrent_became h
    obtain ⟨hstate, hroute, hcur, hpend, hlatches⟩ := hbecame.cutTo_fields
    have hnoticed : Noticed s (s.loseCurrent i) 0 (s.noticeFrame i (some c) (some r) 1 1) := by
      rw [hcut]
      exact moveToTarget_noticed true hc hu (QueueGrows.refl _)
    exact ⟨hstate, hroute, hcur, hpend, hlatches, hbecame.settling, hnoticed, loseCurrent_kept s i⟩
  · obtain ⟨hengines, hqueue, -, -⟩ := moveToTarget_released true hc hu
    rw [releaseSwitch_waiting hst] at hengines hqueue
    rw [hcut, abandon_eq hc hu, releaseSwitch_waiting hst, hq]
    exact ⟨rfl, rfl, hqueue, hengines⟩
  · rw [hcut]
    exact ⟨abandon_passes hok he hi hc hu, moveToTarget_passes true hok he hi hc hu⟩
  · intro x
    refine ⟨fun cycles ticks => ?_, fun hrun hw hv hs hh => ?_, fun ht hk ho hrank hba => ?_⟩
    · refine ⟨_, exec_comparisonPulse hn r cycles ticks, fun hold hx => putRef_abandons h hne hold ?_⟩
      rwa [putRef_ref, if_pos rfl] at hx
    · have hholdoff : x.watchExpired.rt.state = .holdoff := Reference.watchExpired_holdoff hrun hw hv hs hh
      have hold : (s.ref r).rt.state ≠ .holdoff := ne_of_eq_of_ne hs (by decide)
      exact ⟨_, exec_activityWatchExpiry hn r, by rwa [putRef_ref, if_pos rfl], putRef_abandons h hne hold hholdoff⟩
    · subst hba
      exact ⟨_, exec_announcementTimerExpiry hn r, announceExpired_rank ht hk ho,
        announceExpired_abandons ht hk ho hrank h⟩
  · subst hba
    exact exec_floorTested hexec i r hu hb ht hr

end Sys2Proof.Machine
end

section
/-! The permit test: `State.pathWithin` looks over at most 24 edges, and no path over the 24 shelves needs more. R106,
R153. -/

namespace Sys2Proof.Machine

/-! ### Paths of a bounded length -/

theorem mem_edgesFrom {s : State} {a b : ShelfIx} : b ∈ s.edgesFrom a ↔ s.Edge a b := by
  unfold State.edgesFrom State.Edge
  rw [List.mem_append, Option.mem_toList, Option.mem_toList]

theorem pathWithin_zero {s : State} {a b : ShelfIx} : s.pathWithin 0 a b = true ↔ a = b := by
  unfold State.pathWithin
  exact beq_iff_eq

/-- A path of at most `n + 1` edges is empty, or an edge and a path of at most `n`. -/
theorem pathWithin_succ {s : State} {n : Nat} {a b : ShelfIx} :
    s.pathWithin (n + 1) a b = true ↔ a = b ∨ ∃ x, s.Edge a x ∧ s.pathWithin n x b = true := by
  rw [State.pathWithin, Bool.or_eq_true, beq_iff_eq, List.any_eq_true]
  simp only [mem_edgesFrom]

theorem pathWithin_self (s : State) (b : ShelfIx) : ∀ n, s.pathWithin n b b = true
  | 0 => pathWithin_zero.mpr rfl
  | _ + 1 => pathWithin_succ.mpr (.inl rfl)

theorem pathWithin_more {s : State} : ∀ {n : Nat} {a b : ShelfIx}, s.pathWithin n a b = true →
    s.pathWithin (n + 1) a b = true
  | 0, a, b, h => by
    obtain rfl := pathWithin_zero.mp h
    exact pathWithin_self s a 1
  | n + 1, a, b, h => by
    rcases pathWithin_succ.mp h with rfl | ⟨x, hx, hpath⟩
    · exact pathWithin_self s a _
    · exact pathWithin_succ.mpr (.inr ⟨x, hx, pathWithin_more hpath⟩)

theorem path_of_pathWithin {s : State} : ∀ {n : Nat} {a b : ShelfIx}, s.pathWithin n a b = true →
    Relation.ReflTransGen s.Edge a b
  | 0, a, b, h => by
    obtain rfl := pathWithin_zero.mp h
    exact .refl
  | n + 1, a, b, h => by
    rcases pathWithin_succ.mp h with rfl | ⟨x, hx, hpath⟩
    · exact .refl
    · exact .head hx (path_of_pathWithin hpath)

theorem pathWithin_of_path {s : State} {a b : ShelfIx} (h : Relation.ReflTransGen s.Edge a b) :
    ∃ n, s.pathWithin n a b = true := by
  induction h using Relation.ReflTransGen.head_induction_on with
  | refl => exact ⟨0, pathWithin_self s b 0⟩
  | head hx _ ih =>
    obtain ⟨n, hn⟩ := ih
    exact ⟨n + 1, pathWithin_succ.mpr (.inr ⟨_, hx, hn⟩)⟩

/-! ### 24 edges are enough -/

/-- The shelves from which a path of at most `n` edges leads to shelf `b`. -/
def State.leadingWithin (s : State) (b : ShelfIx) (n : Nat) : Set ShelfIx := {a | s.pathWithin n a b = true}

theorem leadingWithin_mono (s : State) (b : ShelfIx) : Monotone (s.leadingWithin b) :=
  monotone_nat_of_le_succ fun _ _ => pathWithin_more

/-- The shelves of one length more are those with an edge to the shelves of one length. -/
theorem leadingWithin_stays {s : State} {b : ShelfIx} {n : Nat}
    (h : s.leadingWithin b n = s.leadingWithin b (n + 1)) :
    s.leadingWithin b (n + 1) = s.leadingWithin b (n + 2) := by
  have hsame : ∀ x, s.pathWithin n x b = true ↔ s.pathWithin (n + 1) x b = true := Set.ext_iff.mp h
  ext a
  change s.pathWithin (n + 1) a b = true ↔ s.pathWithin (n + 2) a b = true
  rw [pathWithin_succ, pathWithin_succ (n := n + 1)]
  simp only [hsame]

/-- Among 24 shelves, the shelves that lead to `b` have all been found after 24 edges. -/
theorem leadingWithin_ncard_eq (s : State) (b : ShelfIx) {n : Nat} (hn : 24 ≤ n) :
    (s.leadingWithin b n).ncard = (s.leadingWithin b 24).ncard := by
  refine Nat.stabilises_of_monotone (f := fun m => (s.leadingWithin b m).ncard)
    (fun m k hmk => Set.ncard_le_ncard (leadingWithin_mono s b hmk)) (fun m => ?_) (fun m hm => ?_) hn
  · calc (s.leadingWithin b m).ncard ≤ (Set.univ : Set ShelfIx).ncard := Set.ncard_le_ncard (Set.subset_univ _)
      _ = 24 := by rw [Set.ncard_univ, Nat.card_fin]
  · have hsub := leadingWithin_mono s b (Nat.le_succ m)
    exact congrArg Set.ncard (leadingWithin_stays (Set.eq_of_subset_of_ncard_le hsub hm.ge))

theorem pathWithin_enough {s : State} {n : Nat} {a b : ShelfIx} (h : s.pathWithin n a b = true) :
    s.pathTo a b = true := by
  have hn : a ∈ s.leadingWithin b (max 24 n) := leadingWithin_mono s b (le_max_right 24 n) h
  have hsub := leadingWithin_mono s b (le_max_left 24 n)
  rwa [← Set.eq_of_subset_of_ncard_le hsub (leadingWithin_ncard_eq s b (le_max_left 24 n)).le] at hn

/-- R153: the test finds exactly the paths of the edge table. -/
theorem pathTo_iff {s : State} {a b : ShelfIx} : s.pathTo a b = true ↔ Relation.ReflTransGen s.Edge a b := by
  refine ⟨path_of_pathWithin, fun h => ?_⟩
  obtain ⟨n, hn⟩ := pathWithin_of_path h
  exact pathWithin_enough hn

/-! ### The permit -/

/-- R106: a reference with no source shelf in use is permitted. -/
theorem permits_of_no_source {s : State} {r : RefIx} (h : (s.ref r).sourceShelf = none) (i : ShelfIx) :
    s.permits i r = true := by
  unfold State.permits
  rw [h]

/-- R153: a reference with a source shelf is permitted where no path leads from it to the shelf that asks. -/
theorem permits_iff {s : State} {i t : ShelfIx} {r : RefIx} (h : (s.ref r).sourceShelf = some t) :
    s.permits i r = true ↔ ¬Relation.ReflTransGen s.Edge t i := by
  unfold State.permits
  rw [h, ← pathTo_iff, Bool.not_eq_true', Bool.not_eq_true]

/-- Settles O24, by the source shelf in use and `pathTo_iff`. -/
theorem loopGuardPermit : Obligations.LoopGuardPermit := by
  refine fun s i r => ⟨fun hk => ?_, fun hsrc => ?_, fun t hk hsrc => ?_⟩
  · exact permits_of_no_source (by rw [sourceShelf_eq, if_neg hk]) i
  · exact permits_of_no_source (by rw [sourceShelf_eq, hsrc, ite_self]) i
  · exact permits_iff (by rw [sourceShelf_eq, if_pos hk, hsrc])

end Sys2Proof.Machine
end

section
/-! The edges of every step: R151. Every operation but a decision leaves the edges as they are, moves them between the
slots of their shelf or removes them, and a decision adds the edge that the permit of R153 has tested. -/

namespace Sys2Proof.Machine

/-! ### Edges that stay, move or go -/

/-- An edge leads from the shelf record `x` to shelf `b`. -/
def Shelf.EdgeTo (x : Shelf) (b : ShelfIx) : Prop := x.curEdge = some b ∨ x.pendEdge = some b

theorem edge_iff {s : State} {a b : ShelfIx} : s.Edge a b ↔ (s.shelf a).EdgeTo b := Iff.rfl

/-- Every edge of `t` is an edge of `s`. -/
def NoNewEdges (s t : State) : Prop := ∀ a b, t.Edge a b → s.Edge a b

theorem NoNewEdges.refl (s : State) : NoNewEdges s s := fun _ _ h => h

theorem NoNewEdges.trans {s t u : State} (h : NoNewEdges s t) (h' : NoNewEdges t u) : NoNewEdges s u :=
  fun a b he => h a b (h' a b he)

/-- R155: releases and promotions close no cycle. -/
theorem NoNewEdges.noCycle {s t : State} (h : NoNewEdges s t) (hc : s.NoCycle) : t.NoCycle :=
  fun a ha => hc a (Relation.TransGen.mono h a a ha)

theorem NoNewEdges.of_shelf {s t : State} (h : ∀ i, t.shelf i = s.shelf i) : NoNewEdges s t := fun a b he => by
  rwa [edge_iff, h] at he

theorem Silent.noNewEdges {s t : State} (h : Silent s t) : NoNewEdges s t := fun a b he => by
  obtain ⟨hcur, hpend⟩ := edgesDiffer_false.mp h.edges a
  rwa [State.Edge, ← hcur, ← hpend] at he

/-- A change of one shelf record that gives it no new edge. -/
theorem updShelf_noNewEdges {s : State} {i : ShelfIx} {f : Shelf → Shelf}
    (h : ∀ b, (f (s.shelf i)).EdgeTo b → (s.shelf i).EdgeTo b) : NoNewEdges s (s.updShelf i f) := fun a b he => by
  rw [edge_iff, updShelf_shelf] at he
  split at he
  · rename_i ha
    rw [edge_iff, ha]
    exact h b he
  · exact he

theorem mark_edgeTo {x : Shelf} {b : ShelfIx} : x.mark.EdgeTo b ↔ x.EdgeTo b := by
  rw [Shelf.EdgeTo, mark_curEdge, mark_pendEdge, Shelf.EdgeTo]

/-- Within an event a switch that ends on its target moves its edge, and an abandonment or a loss removes one. -/
theorem ShelfMove.edgeTo {x y : Shelf} (h : ShelfMove x y) {b : ShelfIx} (hy : y.EdgeTo b) : x.EdgeTo b := by
  cases h with
  | marked => exact mark_edgeTo.mp hy
  | reported => exact hy
  | granted => exact hy
  | abandoned => exact .inl (hy.resolve_right nofun)
  | ended => exact .inr (hy.resolve_right nofun)
  | muted => exact .inr (hy.resolve_left nofun)

theorem ShelvesEvent.noNewEdges {s t : State} (h : ShelvesEvent s t) : NoNewEdges s t := fun a b he =>
  (h.shelf a).keeps (P := fun y => y.EdgeTo b → (s.shelf a).EdgeTo b) (fun _ _ hm hx hy => hx (hm.edgeTo hy)) id he

theorem follow_endEvent_noNewEdges (s s0 u : State) : NoNewEdges u (s.endEvent (s0.follow u)) :=
  ((follow_shelvesEvent s0 u).trans (endEvent_shelvesEvent s _)).noNewEdges

/-! ### The operations but the decision -/

theorem announce_noNewEdges (s : State) (src : Byte) (l : List QaEntry) : NoNewEdges s (s.announce src l) := by
  have htaken : ∀ i, (l.foldl (State.takeEntry src) s).shelf i = s.shelf i := fun i =>
    foldl_induct (P := fun t => t.shelf i = s.shelf i) _ (fun t e h => (takeEntry_shelf src t e i).trans h) l s rfl
  exact (NoNewEdges.of_shelf htaken).trans (follow_endEvent_noNewEdges s s _)

theorem writeShelf_noNewEdges (s : State) (i : ShelfIx) (cfg : ShelfConfig) : NoNewEdges s (s.writeShelf i cfg) := by
  have hwritten : NoNewEdges s (s.updShelf i fun x => { x with cfg := cfg }) := updShelf_noNewEdges fun _ h => h
  have hconfigured : NoNewEdges s (s.configured i cfg) := by
    unfold State.configured
    split
    · exact hwritten.trans (markShelf_shelvesEvent _ i).noNewEdges
    · exact hwritten
  rw [writeShelf_eq]
  exact hconfigured.trans ((follow_shelvesEvent s _).trans (compareReports_shelvesEvent _)).noNewEdges

theorem writeList_noNewEdges (s : State) (i : ShelfIx) (l : List Candidate) : NoNewEdges s (s.writeList i l) := by
  have hlisted : NoNewEdges s (s.updShelf i (Shelf.listed l)) := updShelf_noNewEdges fun _ h => by
    rw [Shelf.listed_eq] at h
    exact h
  rw [writeList_eq]
  exact hlisted.trans ((((candTarget_shelvesEvent _ i).trans (candCurrent_shelvesEvent _ i)).trans
    (markShelf_shelvesEvent _ i)).trans (endEvent_shelvesEvent s _)).noNewEdges

theorem changeLockout_noNewEdges (s : State) (i : ShelfIx) (r : RefIx) (on : Bool) :
    NoNewEdges s (s.changeLockout i r on) := by
  have hlocked : NoNewEdges s (s.updShelf i (Shelf.relocked r on)) := updShelf_noNewEdges fun _ h => h
  rw [changeLockout_eq]
  exact hlocked.trans (((lockTarget_shelvesEvent _ i r on).trans
    (markShelf_shelvesEvent _ i)).trans (endEvent_shelvesEvent s _)).noNewEdges

theorem enableShelf_noNewEdges (s : State) (i : ShelfIx) : NoNewEdges s (s.enableShelf i) := by
  have hfreed : NoNewEdges s (s.updShelf i fun x => x.freed.mark) := updShelf_noNewEdges fun _ h => by
    have hfreed := mark_edgeTo.mp h
    exact hfreed
  rw [enableShelf_eq]
  exact hfreed.trans (follow_endEvent_noNewEdges s s _)

theorem disableShelf_noNewEdges (s : State) (i : ShelfIx) : NoNewEdges s (s.disableShelf i) := by
  obtain ⟨f, hnotice⟩ := closeNotice_updRing s i
  have hclosed : NoNewEdges s (s.closeShelf i) := by
    have hnoticed : NoNewEdges s (s.updRing f) := .of_shelf fun _ => rfl
    rw [closeShelf_eq, hnotice]
    exact (hnoticed.trans (releaseSwitch_shelvesEvent _ i).noNewEdges).trans (updShelf_noNewEdges nofun)
  exact hclosed.trans (((follow_shelvesEvent s _).trans (offerSq_shelvesEvent _ i)).trans
    (endEvent_shelvesEvent s _)).noNewEdges

theorem setCommand_noNewEdges (s : State) (i : ShelfIx) (c : Command) : NoNewEdges s (s.setCommand i c) :=
  updShelf_noNewEdges fun _ h => by
    have hcommanded := mark_edgeTo.mp h
    exact hcommanded

theorem warmRestart_noNewEdges (s : State) : NoNewEdges s s.warmRestart := by
  have hrestarted : NoNewEdges s
      (((s.updRing Ring.restarted).mapRefs Reference.restarted).mapShelves fun _ x => x.restarted) := fun a b h => by
    rw [edge_iff, mapShelves_shelf, mapRefs_shelf] at h
    have hcleared := mark_edgeTo.mp h
    exact hcleared
  exact hrestarted.trans (fullReport_shelvesEvent _).noNewEdges

/-! ### The edge of a decision -/

/-- Every edge of `t` is an edge of `s`, or leads from shelf `i` to the source shelf `src`. -/
def OneNewEdge (i : ShelfIx) (src : Option ShelfIx) (s t : State) : Prop :=
  ∀ a b, t.Edge a b → s.Edge a b ∨ (a = i ∧ src = some b)

theorem NoNewEdges.oneNewEdge {s t : State} (h : NoNewEdges s t) (i : ShelfIx) (src : Option ShelfIx) :
    OneNewEdge i src s t := fun a b he => .inl (h a b he)

theorem OneNewEdge.trans {i : ShelfIx} {src : Option ShelfIx} {s t u : State} (h : OneNewEdge i src s t)
    (h' : NoNewEdges t u) : OneNewEdge i src s u := fun a b he => h a b (h' a b he)

theorem updShelf_oneNewEdge {s : State} {i : ShelfIx} {src : Option ShelfIx} {f : Shelf → Shelf}
    (h : ∀ b, (f (s.shelf i)).EdgeTo b → (s.shelf i).EdgeTo b ∨ src = some b) :
    OneNewEdge i src s (s.updShelf i f) := fun a b he => by
  rw [edge_iff, updShelf_shelf] at he
  split at he
  · rename_i ha
    rw [edge_iff, ha]
    exact (h b he).imp id fun hsrc => ⟨rfl, hsrc⟩
  · exact .inl he

/-- A path over the edges and one more, from `i` to `b`, does without that edge, or is without it before its first use
and after its last. -/
theorem OneNewEdge.path_split {i b : ShelfIx} {s t : State} (h : OneNewEdge i (some b) s t) {a c : ShelfIx}
    (hp : Relation.TransGen t.Edge a c) : Relation.TransGen s.Edge a c
      ∨ (Relation.ReflTransGen s.Edge a i ∧ Relation.ReflTransGen s.Edge b c) := by
  induction hp using Relation.TransGen.head_induction_on with
  | single he =>
    rcases h _ _ he with he | ⟨rfl, hsrc⟩
    · exact .inl (.single he)
    · obtain rfl := Option.some.inj hsrc
      exact .inr ⟨.refl, .refl⟩
  | head he _ ih =>
    rcases h _ _ he with he | ⟨rfl, hsrc⟩
    · exact ih.imp (.head he) fun ⟨hi, hb⟩ => ⟨.head he hi, hb⟩
    · obtain rfl := Option.some.inj hsrc
      exact .inr ⟨.refl, ih.elim (·.to_reflTransGen) (·.2)⟩

/-- R153, R154: the edge of a permitted reference closes no cycle. -/
theorem OneNewEdge.noCycle {i : ShelfIx} {r : RefIx} {s t : State} (h : OneNewEdge i (s.ref r).sourceShelf s t)
    (hp : s.permits i r = true) (hc : s.NoCycle) : t.NoCycle := by
  intro a ha
  cases hsrc : (s.ref r).sourceShelf with
  | none =>
    have hold : NoNewEdges s t := fun x y he => (h x y he).resolve_right fun ⟨_, hy⟩ => by
      rw [hsrc] at hy
      cases hy
    exact hold.noCycle hc a ha
  | some b =>
    rw [hsrc] at h
    rcases h.path_split ha with hcycle | ⟨hi, hb⟩
    · exact hc a hcycle
    · exact (permits_iff hsrc).mp hp (hb.trans hi)

/-! ### The decision -/

/-- R104, R105, R119: the target of a decision is permitted. -/
theorem chooseTarget_permitted {s : State} {permit : RefIx → Bool} {i : ShelfIx} {r : RefIx}
    (h : s.chooseTarget permit i = some r) : permit r = true := by
  have hauto : s.eligibleUnder permit i r = true → permit r = true := fun he => (Bool.and_eq_true _ _ ▸ he).2
  unfold State.chooseTarget at h
  split at h
  · cases h
  · split at h
    · rename_i hforced
      obtain rfl := Option.some.inj h
      exact (Bool.and_eq_true _ _ ▸ hforced).2
    · cases h
  · split at h
    · obtain rfl := Option.some.inj h
      exact hauto ‹_›
    · exact hauto (autoTarget_eligible h)
  · exact hauto (autoTarget_eligible h)

/-- R154: a direct lock fills the current slot with the source of its reference. -/
theorem directLock_edge (s : State) (i : ShelfIx) (r : RefIx) :
    OneNewEdge i (s.ref r).sourceShelf s (s.directLock i r) := by
  have hlocked : OneNewEdge i (s.ref r).sourceShelf s (s.updShelf i fun x =>
      { x with curEdge := (s.ref r).sourceShelf, route := some r, state := .locked r }) :=
    updShelf_oneNewEdge fun _ h => h.symm.imp .inr id
  exact hlocked.trans (offerSn_shelvesEvent _ i _ _ _ _).noNewEdges

/-- R154: a switch start fills the pending slot with the source of its target. -/
theorem startSwitch_edge (s : State) (i : ShelfIx) (c r : RefIx) (b : Basis) :
    OneNewEdge i (s.ref r).sourceShelf s (s.startSwitch i c r b) := by
  have hpended : OneNewEdge i (s.ref r).sourceShelf s (s.updShelf i fun x =>
      { x with pendEdge := (s.ref r).sourceShelf, state := .waiting c r b }) :=
    updShelf_oneNewEdge fun _ h => h.imp .inl id
  have hqueued : OneNewEdge i (s.ref r).sourceShelf s (s.queued i c r b) := hpended
  exact hqueued.trans (grantFree_shelvesEvent _).noNewEdges

/-- R123: the outcome of a decision for a permitted target closes no cycle. -/
theorem outcome_noCycle {s : State} {i : ShelfIx} {cmd : Command} {target : Option RefIx}
    (h : ∀ r, target = some r → s.permits i r = true) (hc : s.NoCycle) : (s.outcome i cmd target).NoCycle := by
  unfold State.outcome
  split
  · exact (enterHoldover_shelvesEvent ‹_› _).noNewEdges.noCycle hc
  · split
    · exact hc
    · exact (startSwitch_edge s i _ _ _).noCycle (h _ rfl) hc
  · exact (directLock_edge s i _).noCycle (h _ rfl) hc
  · exact (directLock_edge s i _).noCycle (h _ rfl) hc
  all_goals exact hc

/-- What a decision judges changes no edge, so the permit tested before it still holds at the outcome. -/
theorem judgedAt_permits (s : State) (i : ShelfIx) (r : RefIx) : (s.judgedAt i).permits i r = s.permits i r := by
  have hedge : (s.judgedAt i).Edge = s.Edge := by
    funext a b
    obtain ⟨hcur, hpend⟩ := edgesDiffer_false.mp (judgedAt_silent (s := s) (i := i)).edges a
    unfold State.Edge
    rw [hcur, hpend]
  cases hsrc : (s.ref r).sourceShelf with
  | none => rw [permits_of_no_source hsrc, permits_of_no_source (s := s.judgedAt i) hsrc]
  | some t => rw [Bool.eq_iff_iff, permits_iff hsrc, permits_iff (s := s.judgedAt i) hsrc, hedge]

theorem decideShelf_noCycle {s : State} (hc : s.NoCycle) (i : ShelfIx) : (s.endEvent (s.decideShelf i)).NoCycle := by
  have hjudged : (s.judgedAt i).NoCycle := judgedAt_silent.noNewEdges.noCycle hc
  have hout : (s.outcomeAt i).NoCycle := outcome_noCycle (fun r hr => by
    rw [judgedAt_permits]
    exact chooseTarget_permitted hr) hjudged
  exact decideShelf_shelvesEvent.noNewEdges.noCycle hout

theorem settleExpired_noCycle {s : State} (hc : s.NoCycle) (i : ShelfIx) :
    (s.endEvent (s.settleExpired i)).NoCycle := by
  have hend : ∀ u : State, NoNewEdges s u → (s.endEvent u).NoCycle := fun u h =>
    (h.trans (endEvent_shelvesEvent s u).noNewEdges).noCycle hc
  unfold State.settleExpired
  split
  · split
    · exact hend _ (updShelf_noNewEdges fun _ h => h)
    · split
      · exact decideShelf_noCycle hc i
      · exact hend s (.refl s)
  all_goals exact hend s (.refl s)

/-! ### Every step -/

/-- R179: after a reset every slot is empty. -/
theorem cold_noCycle (role : Bool) (n : Nat) (p : List Instr) : (State.cold role n p).NoCycle := by
  intro a ha
  obtain ⟨b, he, -⟩ := Relation.TransGen.head'_iff.mp ha
  rw [edge_iff, cold_shelf] at he
  rcases he with he | he <;> cases he

theorem Operation.noCycle {s t : State} (h : Operation s t) (hc : s.NoCycle) : t.NoCycle := by
  cases h with
  | refPut r x => exact NoNewEdges.noCycle (s := s.setRef r x) (putRef_shelvesEvent s r x).noNewEdges hc
  | refKept => exact hc
  | announced src l => exact (announce_noNewEdges s src l).noCycle hc
  | settled i => exact settleExpired_noCycle hc i
  | engineEnded hard e g => exact (engineEnds_shelvesEvent s hard e g).noNewEdges.noCycle hc
  | phaseExpired i =>
    have hphase : NoNewEdges s (s.updShelf i Shelf.nextStage) := updShelf_noNewEdges fun _ h => h
    exact (hphase.trans (follow_endEvent_noNewEdges s s _)).noCycle hc
  | shelfWritten i cfg => exact (writeShelf_noNewEdges s i cfg).noCycle hc
  | listWritten i l => exact (writeList_noNewEdges s i l).noCycle hc
  | lockoutChanged i r on => exact (changeLockout_noNewEdges s i r on).noCycle hc
  | shelfEnabled => exact (enableShelf_noNewEdges s _).noCycle hc
  | shelfDisabled i => exact (disableShelf_noNewEdges s i).noCycle hc
  | commanded i c => exact (setCommand_noNewEdges s i c).noCycle hc
  | acknowledged i l => exact (updShelf_noNewEdges fun _ h => h).noCycle hc
  | compared => exact (compareReports_shelvesEvent s).noNewEdges.noCycle hc
  | reported => exact (fullReport_shelvesEvent s).noNewEdges.noCycle hc
  | restarted => exact (warmRestart_noNewEdges s).noCycle hc
  | reset => exact cold_noCycle _ _ _

theorem SameTables.noCycle {s t : State} (h : SameTables s t) (hc : s.NoCycle) : t.NoCycle :=
  (NoNewEdges.of_shelf h.shelf).noCycle hc

theorem exec_noCycle {c : Instr} {s t : State} (h : exec c s = .next t) (hc : s.NoCycle) : t.NoCycle := by
  cases exec_does h with
  | nothing h => exact h.tables.noCycle hc
  | operation h ho h' => exact h'.tables.noCycle (ho.noCycle (h.tables.noCycle hc))

/-- Settles O57: a decision adds the edge of a permitted reference alone, and every other operation adds none. -/
theorem edgesNeverFormACycle : Obligations.EdgesNeverFormACycle := by
  intro s t h hc
  unfold step at h
  split at h
  · obtain rfl := Host.Outcome.next.inj h
    have helapsed : NoNewEdges s (s.elapse 1) := fun a b he => by
      rw [edge_iff, elapse_shelf] at he
      exact he
    unfold State.idleTick
    split
    · exact helapsed.noCycle hc
    · exact hc
  · exact exec_noCycle h hc

end Sys2Proof.Machine
end

section
/-! The root reference and the squelch line: R159, R160. The fuel of `State.root` is 24 shelves, which is enough for the
reason that it is enough for `State.outRank`: every step of the walk follows an edge of an acyclic table. -/

namespace Sys2Proof.Machine

/-! ### The walk to the root -/

section
variable {s : State} {i t : ShelfIx} {c : RefIx} {n : Nat}

theorem rootWithin_none (h : (s.shelf i).state.current = none) : s.rootWithin (n + 1) i = none := by
  rw [State.rootWithin, h]

theorem rootWithin_underived (h : (s.shelf i).state.current = some c) (hk : (s.ref c).cfg.kind ≠ .derived) :
    s.rootWithin (n + 1) i = some c := by
  rw [State.rootWithin, h]
  dsimp only
  cases hkind : (s.ref c).cfg.kind with
  | announced => rfl
  | fixed => rfl
  | derived => exact absurd hkind hk

theorem rootWithin_unsourced (h : (s.shelf i).state.current = some c) (hk : (s.ref c).cfg.kind = .derived)
    (hsrc : (s.ref c).cfg.source = none) : s.rootWithin (n + 1) i = none := by
  rw [State.rootWithin, h]
  dsimp only
  rw [hk, hsrc]

theorem rootWithin_derived (h : (s.shelf i).state.current = some c) (hk : (s.ref c).cfg.kind = .derived)
    (hsrc : (s.ref c).cfg.source = some t) : s.rootWithin (n + 1) i = s.rootWithin n t := by
  rw [State.rootWithin, h]
  dsimp only
  rw [hk, hsrc]

/-- R152: the source shelf that the walk goes on to is at the end of an edge. -/
theorem State.EdgesOk.edge_of_current (he : s.EdgesOk) (h : (s.shelf i).state.current = some c)
    (hk : (s.ref c).cfg.kind = .derived) (hsrc : (s.ref c).cfg.source = some t) : s.Edge i t :=
  he.edge (.inl h) (by rw [sourceShelf_eq, if_pos hk, hsrc])

end

/-- The walk is the same under two amounts of fuel where it is the same at the end of every edge. -/
theorem rootWithin_succ_congr {s : State} (he : s.EdgesOk) {n m : Nat} {i : ShelfIx}
    (h : ∀ t, s.Edge i t → s.rootWithin n t = s.rootWithin m t) :
    s.rootWithin (n + 1) i = s.rootWithin (m + 1) i := by
  cases hc : (s.shelf i).state.current with
  | none => rw [rootWithin_none hc, rootWithin_none hc]
  | some c =>
    by_cases hk : (s.ref c).cfg.kind = .derived
    · cases hsrc : (s.ref c).cfg.source with
      | none => rw [rootWithin_unsourced hc hk hsrc, rootWithin_unsourced hc hk hsrc]
      | some t =>
        rw [rootWithin_derived hc hk hsrc, rootWithin_derived hc hk hsrc]
        exact h t (he.edge_of_current hc hk hsrc)
    · rw [rootWithin_underived hc hk, rootWithin_underived hc hk]

/-- Fuel for every shelf that is reached is enough. -/
theorem rootWithin_enough {s : State} (hc : s.NoCycle) (he : s.EdgesOk) : ∀ (n : Nat) (i : ShelfIx),
    (s.reach i).ncard ≤ n → s.rootWithin n i = s.rootWithin (n + 1) i
  | 0, i, h => absurd (reach_ncard_pos s i) (by omega)
  | n + 1, i, h => rootWithin_succ_congr he fun t ht =>
    rootWithin_enough hc he n t (by have := reach_ncard_lt hc ht; omega)

/-- R159, step 4: the root of a shelf on a DERIVED reference is that of its source shelf. -/
theorem root_derived {s : State} {i t : ShelfIx} {c : RefIx} (hc : s.NoCycle) (he : s.EdgesOk)
    (h : (s.shelf i).state.current = some c) (hk : (s.ref c).cfg.kind = .derived)
    (hsrc : (s.ref c).cfg.source = some t) : s.root i = s.root t :=
  calc s.root i = s.rootWithin 25 i := rootWithin_enough hc he 24 i (reach_ncard_le s i)
    _ = s.root t := rootWithin_derived h hk hsrc

/-! ### The squelch line -/

/-- R160: the root gives a squelch line where it is ANNOUNCED and its origin line lies on the shelf itself. -/
theorem squelch_iff {s : State} {i : ShelfIx} {l : OriginLine} : s.squelch i = some l ↔
    ∃ r, s.root i = some r ∧ (s.ref r).cfg.kind = .announced ∧ (s.ref r).cfg.origin = some l ∧ l.shelf = i := by
  unfold State.squelch
  cases s.root i with
  | none => simp only [reduceCtorEq, false_and, exists_false]
  | some r =>
    simp only [Option.some.injEq, exists_eq_left']
    cases (s.ref r).cfg.kind with
    | announced =>
      cases (s.ref r).cfg.origin with
      | none => simp only [reduceCtorEq, false_and, and_false]
      | some l' =>
        simp only [true_and, Option.some.injEq, Option.ite_none_right_eq_some]
        exact ⟨fun ⟨hi, hl⟩ => ⟨hl, hl ▸ hi⟩, fun ⟨hl, hi⟩ => ⟨hl.symm ▸ hi, hl⟩⟩
    | fixed => simp only [reduceCtorEq, false_and]
    | derived => simp only [reduceCtorEq, false_and]

/-- Settles O35: one equation of the walk for each kind of current reference, and the squelch line by `squelch_iff`. -/
theorem rootAndSquelchLine : Obligations.RootAndSquelchLine :=
  fun _ _ => ⟨rootWithin_none, fun _ => rootWithin_underived, fun _ => rootWithin_unsourced,
    fun _ _ => root_derived, fun _ => squelch_iff⟩

end Sys2Proof.Machine
end

section
/-! The comparison of the reports at the end of every event, and REFRESH_EXPIRY: R161 to R164. -/

namespace Sys2Proof.Machine

/-! ### The records after a comparison and after a full report -/

/-- Shelf `i` with its last-reported record brought up to date, where it is enabled: R161. -/
def State.told (s : State) (i : ShelfIx) : Shelf :=
  { s.shelf i with lastReport := if (s.shelf i).enabled then some (s.report i) else (s.shelf i).lastReport }

theorem told_enabled {s : State} {i : ShelfIx} (hi : (s.shelf i).enabled = true) :
    s.told i = { s.shelf i with lastReport := some (s.report i) } := by
  rw [State.told, if_pos hi]

theorem told_off {s : State} {i : ShelfIx} (hi : (s.shelf i).enabled ≠ true) : s.told i = s.shelf i := by
  rw [State.told, if_neg hi]

/-- R146: no report is offered while FLOATING. -/
theorem compareReports_floating {s : State} (hd : s.drive = .floating) : s.compareReports = s :=
  compareReports_induct (P := fun t => t = s) (fun t i ht => by rw [ht, offerSq_floating hd]) s rfl

theorem fullReport_floating {s : State} (hd : s.drive = .floating) : s.fullReport = s :=
  fullReport_induct (P := fun t => t = s) (fun t i ht => by rw [ht, offerSq_floating hd]) s rfl

section
variable {s : State} (hd : s.drive = .driving) (hroom : s.ring.insertQ.length + 24 ≤ 32)
include hd hroom

/-- R162: with room for 24 reports, the comparison brings every enabled shelf's record up to date. -/
theorem compareReports_told (i : ShelfIx) : s.compareReports.shelf i = s.told i := by
  by_cases hi : (s.shelf i).enabled = true
  · have hreports := compareReports_sameReports s
    obtain ⟨hrecord, -⟩ := compareReports_compared s hd (.inr hroom) i ((hreports.enabled i).trans hi)
    rw [compareReports_shelf, hrecord, hreports.report, told_enabled hi]
  · rw [told_off hi]
    exact (compareReports_off (enabled_eq_false_iff.mp (Bool.eq_false_iff.mpr hi))).1

/-- R162: the SQ of a shelf whose record differed. -/
theorem compareReports_queued {i : ShelfIx} (hi : (s.shelf i).enabled = true)
    (hne : (s.shelf i).lastReport ≠ some (s.report i)) : ∃ f, .sq i f ∈ s.compareReports.ring.insertQ
      ∧ f.payload = sqPayload i (s.shelf i).cfg.dialect (s.report i) := by
  have hreports := compareReports_sameReports s
  obtain ⟨-, hqueued⟩ := compareReports_compared s hd (.inr hroom) i ((hreports.enabled i).trans hi)
  rw [hreports.report, hreports.cfg] at hqueued
  exact ⟨_, hqueued hne, rfl⟩

/-- R163: with room for 24 reports, a full report brings every enabled shelf's record up to date. -/
theorem fullReport_told (i : ShelfIx) : s.fullReport.shelf i = s.told i := by
  by_cases hi : (s.shelf i).enabled = true
  · obtain ⟨hrecord, -⟩ := fullReport_tells s hd (.inr hroom) i hi
    rw [fullReport_shelf, hrecord, told_enabled hi]
  · have hlen : s.ring.insertQ.length + shelfIxs.length ≤ 32 := by simpa [shelfIxs] using hroom
    obtain ⟨v, -, hv, -, hpassed⟩ := offerRun_tells (fun v i => (v.shelf i).enabled) i shelfIxs s
      (List.nodup_finRange 24) (List.mem_finRange i) hd (.inr hlen)
    rw [told_off hi, fullReport_eq]
    exact hpassed (by rw [hv]; exact Bool.eq_false_iff.mpr hi)

end

/-! ### REFRESH_EXPIRY -/

section
variable {s : State} (h : s.resetn = true)
include h

/-- R164: an expiry that is not due. -/
theorem exec_refreshExpiry_early (ht : s.refreshTimer ≠ some 0) : exec .refreshExpiry s = .next s := by
  rw [exec_refreshExpiry h, State.refreshExpired, if_neg fun hdue => ht ((Timer.due_iff _).mp hdue)]

/-- R164: a due expiry is a full report and the restart of the timer with the interval in force. -/
theorem exec_refreshExpiry_due (ht : s.refreshTimer = some 0) : exec .refreshExpiry s =
    .next { s.fullReport with refreshTimer := some (s.globals.refreshInterval * 250000000) } := by
  rw [exec_refreshExpiry h, State.refreshExpired, if_pos ((Timer.due_iff _).mpr ht)]
  rfl

end

/-- The refresh timer beside what an event keeps. -/
theorem Kept.setRefreshTimer {s t : State} (h : Kept s t) (x : Timer) :
    Kept { s with refreshTimer := x } { t with refreshTimer := x } :=
  ⟨h.refs, h.dialect1, h.dialect2, h.globals, h.drive, rfl, h.role, h.resetn, h.pending, h.ring, h.queue, h.cfg,
    h.list, h.command⟩

/-! ### The comparison at the end of every operation -/

theorem Silent.reported {s t : State} (h : Silent s t) : Reported s t := .quiet h.ranks

theorem SameTables.reported {s t : State} (h : SameTables s t) : Reported s t := .quiet h.sameRanks

/-- R162: every operation ends with the comparison or changes nothing that a report event names. -/
theorem Operation.endsReported {s t : State} (h : Operation s t) : Reported s t := by
  cases h with
  | refPut r x => exact putRef_reported s r x
  | refKept hcfg hreceived => exact .quiet (setRef_sameRanks s _ _ hcfg hreceived)
  | announced src l => exact announce_reported s src l
  | settled i => exact .endEvent (settleExpired_records s i)
  | engineEnded hard e g => exact engineEnds_reported s hard e g
  | phaseExpired i =>
    have hphase : SameRecords s (s.updShelf i Shelf.nextStage) := updShelf_records s i _ fun _ => rfl
    exact .endEvent (hphase.trans (follow_records s _))
  | shelfWritten i cfg => exact writeShelf_reported s i cfg
  | listWritten i l => exact writeList_reported s i l
  | lockoutChanged i r on => exact changeLockout_reported s i r on
  | shelfEnabled => exact enableShelf_reported s _
  | shelfDisabled i => exact disableShelf_reported s i
  | commanded i c =>
    exact (updShelf_silent (f := fun x => { x with command := c }.mark) (mark_cfg _) (mark_state _) (mark_curEdge _)
      (mark_pendEdge _)).reported
  | acknowledged i l => exact (updShelf_silent rfl rfl rfl rfl).reported
  | compared => exact .compare (.refl s)
  | reported => exact (fullReport_silent s).reported
  | restarted => exact warmRestart_reported s
  | reset => exact .floating rfl

/-! ### Requests

`Does` leaves open what follows its operation in the Insert Queue, which `Reported` reads, so the walk over the requests
is made again: nothing follows the operation of a request but its reply. -/

theorem reqTakeRole_reported (args : List Byte) (s : State) : Reported s (reqTakeRole args s).state := by
  have hdriving : SameTables s { s with drive := .driving } := ⟨rfl, rfl⟩
  unfold reqTakeRole
  split
  · split
    · split
      · exact .refl s
      · rw [ok_state]
        exact .of_tables hdriving (Operation.reported _).endsReported
    · exact .refl s
  · exact .refl s

theorem reqShelfOn_reported (args : List Byte) (s : State) : Reported s (reqShelfOn args s).state := by
  have hopened : ∀ i, Reported s (s.enableShelf i) := enableShelf_reported s
  unfold reqShelfOn
  (repeat' split) <;> simp [Answer.ok, Answer.refuse, Reported.refl, hopened]

theorem reqAck_reported (args : List Byte) (s : State) : Reported s (reqAck args s).state := by
  have href : ∀ r l, Reported s (s.ackRef r l) := fun r l => .quiet (setRef_sameRanks s r _ rfl rfl)
  have hshelf : ∀ i l, Reported s (s.ackShelf i l) := fun i l => (Operation.acknowledged s i l).endsReported
  unfold reqAck
  (repeat' split) <;> simp [Answer.give, Answer.refuse, Reported.refl, href, hshelf]

/-- Every request ends its event as R162 asks. -/
theorem run_reported (q : Request) (args : List Byte) (s : State) : Reported s (q.run args s).state := by
  have hrefl := Reported.refl s
  have hput := putRef_reported s
  cases q <;> dsimp only [Request.run]
  case rdRef => unfold reqRdRef; (repeat' split) <;> exact hrefl
  case rdShelf => unfold reqRdShelf; (repeat' split) <;> exact hrefl
  case rdXlate => unfold reqRdXlate; (repeat' split) <;> exact hrefl
  case rdGlobal => unfold reqRdGlobal; split <;> exact hrefl
  case rdCount => unfold reqRdCount; split <;> exact hrefl
  case wrRef => unfold reqWrRef; (repeat' split) <;> simp [Answer.refuse, hrefl, hput]
  case wrShelf =>
    have hwritten := writeShelf_reported s
    unfold reqWrShelf; (repeat' split) <;> simp [Answer.ok, Answer.refuse, hrefl, hwritten]
  case wrCand =>
    have hwritten := writeList_reported s
    unfold reqWrCand; (repeat' split) <;> simp [Answer.ok, Answer.refuse, hrefl, hwritten]
  case wrXlate =>
    have hwritten : ∀ d x, Reported s (s.setTable d x).compareReports := fun d x =>
      .of_tables (setTable_sameTables s d x) (Operation.compared _).endsReported
    unfold reqWrXlate; (repeat' split) <;> simp [Answer.ok, Answer.refuse, hrefl, hwritten]
  case wrGlobal => unfold reqWrGlobal; (repeat' split) <;> exact SameTables.reported ⟨rfl, rfl⟩
  case refOn => unfold reqRefOn; (repeat' split) <;> simp [Answer.ok, Answer.refuse, hrefl, hput]
  case refOff => unfold reqRefOff; (repeat' split) <;> simp [Answer.ok, Answer.refuse, hrefl, hput]
  case shelfOn => exact reqShelfOn_reported args s
  case shelfOff =>
    have hclosed := disableShelf_reported s
    unfold reqShelfOff; (repeat' split) <;> simp [Answer.ok, Answer.refuse, hrefl, hclosed]
  case cmd =>
    have hset : ∀ i c, Reported s (s.setCommand i c) := fun i c => (Operation.commanded s i c).endsReported
    unfold reqCmd; (repeat' split) <;> simp [Answer.ok, Answer.refuse, hrefl, hset]
  case lock =>
    have hlocked := changeLockout_reported s
    unfold reqLock; (repeat' split) <;> simp [Answer.ok, Answer.refuse, hrefl, hlocked]
  case clrWtr => unfold reqClrWtr; (repeat' split) <;> simp [Answer.ok, Answer.refuse, hrefl, hput]
  case ack => exact reqAck_reported args s
  case clrCount => unfold reqClrCount; split <;> exact SameTables.reported ⟨rfl, rfl⟩
  case restart =>
    have hrestarted := warmRestart_reported s
    unfold reqRestart; split <;> simp [Answer.ok, Answer.refuse, hrefl, hrestarted]
  case takeRole => exact reqTakeRole_reported args s
  case yieldRole =>
    have hyielded := (enterFloating_tables s).reported
    unfold reqYieldRole; split <;> simp [Answer.ok, Answer.refuse, hrefl, hyielded]

theorem execute_reported (s : State) (src : Byte) (payload : List Byte) :
    Reported s (s.execute src payload).state := by
  unfold State.execute
  split
  · split
    · exact .refl s
    · split
      · exact .refl s
      · exact run_reported _ _ s
  · exact .refl s

/-! ### The Frame Handler and every command -/

theorem handOff_reported (s : State) (f : Frame) : Reported s (s.handOff f) := by
  unfold State.handOff
  split
  · exact announce_reported s f.src _
  · exact SameTables.reported ⟨rfl, rfl⟩

/-- R30: the reply takes the entry reserved for it, and leaves the reports behind it. -/
theorem takeRequest_reported (s : State) (f : Frame) : Reported s (s.takeRequest f) := by
  have hreserved : SameTables s (s.dropHead.pushInsert .reserved) := ⟨rfl, rfl⟩
  exact .of_tables hreserved ((execute_reported _ f.src f.payload).placed f.src f.payload)

theorem takeHead_reported (s : State) : Reported s s.takeHead := by
  have hdropped : SameTables s s.dropHead := ⟨rfl, rfl⟩
  unfold State.takeHead
  split
  · exact .refl s
  · rename_i f _ _
    split
    · exact hdropped.reported
    · split
      · split
        · split
          · exact takeRequest_reported s f
          · exact .refl s
        · exact hdropped.reported
      · have hrelayed : SameTables s (s.dropHead.relay f) := by
          obtain ⟨hrefs, hshelves⟩ := relay_sameTables s.dropHead f
          exact ⟨hrefs, hshelves⟩
        unfold State.passFrame
        dsimp only
        split
        · exact .of_tables hrelayed (handOff_reported _ f)
        · exact hrelayed.reported

theorem submit_reported (s : State) (src : Byte) (payload : List Byte) : Reported s (s.submit src payload) := by
  have hoffered := offerRx_tables s (s.requestFrame src payload)
  unfold State.submit
  split
  · split
    · exact .of_tables hoffered (takeHead_reported _)
    · exact hoffered.reported
  · exact SameTables.reported ⟨rfl, rfl⟩

theorem limitExpired_reported (s : State) (e : EngineIx) (g : Nat) : Reported s (s.limitExpired e g) := by
  unfold State.limitExpired
  split
  · exact engineEnds_reported s true e g
  · exact .refl s

theorem refreshExpired_reported (s : State) : Reported s s.refreshExpired := by
  unfold State.refreshExpired
  split
  · exact ((fullReport_silent s).trans (.of_tables (setRefreshTimer_tables _ _))).reported
  · exact .refl s

theorem decayExpired_reported (s : State) (r : RefIx) : Reported s (s.setRef r (s.ref r).decayExpired) := by
  have hkept : (s.ref r).decayExpired.cfg = (s.ref r).cfg
      ∧ (s.ref r).decayExpired.qt.received = (s.ref r).qt.received := by
    unfold Reference.decayExpired
    split <;> exact ⟨rfl, rfl⟩
  exact .quiet (setRef_sameRanks s r _ hkept.1 hkept.2)

/-- A command that RESETn low holds off. -/
theorem running_reported {s t : State} {f : State → State} (h : s.running f = .next t) (hf : Reported s (f s)) :
    Reported s t := by
  unfold State.running at h
  obtain rfl := Host.Outcome.next.inj h
  split
  · exact hf
  · exact .refl s

/-- R162: every command ends its event with the comparison, or changes nothing that a report event names. -/
theorem exec_reported {c : Instr} {s t : State} (h : exec c s = .next t) : Reported s t := by
  have hring : ∀ f : Ring → Ring, Reported s (s.updRing f) := fun _ => SameTables.reported ⟨rfl, rfl⟩
  have hput := putRef_reported s
  cases c with
  | frameArrival => exact running_reported (f := State.frameArrives) h (frameArrives_tables s).reported
  | frameTake => exact running_reported (f := State.takeHead) h (takeHead_reported s)
  | transmissionStart => exact running_reported (f := fun s => s.updRing Ring.startSending) h (hring _)
  | transmissionEnd => exact running_reported (f := fun s => s.updRing Ring.endSending) h (hring _)
  | receiverReady levels =>
    exact running_reported
      (f := fun s => s.updRing fun g => { g with receiver := levels.foldl Receiver.bit g.receiver }) h (hring _)
  | octetTaken octet stop =>
    exact running_reported (f := fun s => s.updRing fun g => { g with receiver := g.receiver.octet octet stop }) h
      (hring _)
  | comparisonPulse r cycles ticks =>
    exact running_reported (f := fun s => s.putRef r ((s.ref r).clockIn cycles ticks)) h (hput r _)
  | activityWatchExpiry r => exact running_reported (f := fun s => s.putRef r (s.ref r).watchExpired) h (hput r _)
  | holdOffExpiry r => exact running_reported (f := fun s => s.putRef r (s.ref r).holdOffExpired) h (hput r _)
  | restoreWaitExpiry r => exact running_reported (f := fun s => s.putRef r (s.ref r).restoreExpired) h (hput r _)
  | announcementTimerExpiry r =>
    exact running_reported (f := fun s => s.putRef r (s.ref r).announceExpired) h (hput r _)
  | decayExpiry r =>
    exact running_reported (f := fun s => s.setRef r (s.ref r).decayExpired) h (decayExpired_reported s r)
  | settleTimerExpiry i =>
    exact running_reported (f := fun s => s.endEvent (s.settleExpired i)) h (Operation.settled s i).endsReported
  | engineDone e g => exact running_reported (f := fun s => s.engineEnds false e g) h (engineEnds_reported s false e g)
  | alignmentLimitExpiry e g =>
    exact running_reported (f := fun s => s.limitExpired e g) h (limitExpired_reported s e g)
  | holdoverPhaseExpiry i =>
    exact running_reported (f := fun s => s.endEvent (s.follow (s.updShelf i Shelf.nextStage))) h
      (Operation.phaseExpired s i).endsReported
  | refreshExpiry => exact running_reported (f := State.refreshExpired) h (refreshExpired_reported s)
  | roleFallingEdge =>
    obtain rfl := Host.Outcome.next.inj h
    have hpin : SameTables s { s with role := false } := ⟨rfl, rfl⟩
    exact .of_tables hpin (enterFloating_tables _).reported
  | roleRisingEdge =>
    obtain rfl := Host.Outcome.next.inj h
    exact SameTables.reported ⟨rfl, rfl⟩
  | resetAssert =>
    obtain rfl := Host.Outcome.next.inj h
    exact (Operation.reset s).endsReported
  | resetRelease straps =>
    obtain rfl := Host.Outcome.next.inj h
    split <;> exact SameTables.reported ⟨rfl, rfl⟩
  | _ => exact running_reported (f := fun s => s.submit _ _) h (submit_reported s _ _)

/-- Settles O34: the comparison and the full report by the records they leave, every command by `exec_reported`. -/
theorem reportsAreBroughtUpToDate : Obligations.ReportsAreBroughtUpToDate := by
  intro s record told
  refine ⟨compareReports_floating, fun hd hroom => ⟨compareReports_kept s, compareReports_told hd hroom,
    fun _ => compareReports_queued hd hroom⟩, fun t => ⟨endEvent_event, endEvent_no_event⟩,
    fun c t hexec => exec_reported hexec, exec_refreshExpiry_early, fun h ht hd => ?_, fun h ht hd => ?_⟩
  · rw [exec_refreshExpiry_due h ht, fullReport_floating hd]
  · have htables := setRefreshTimer_tables s.fullReport (some (s.globals.refreshInterval * 250000000))
    refine ⟨_, exec_refreshExpiry_due h ht, (fullReport_kept s).setRefreshTimer _, fun hroom =>
      ⟨fun i => (htables.shelf i).trans (fullReport_told hd hroom i), fun i hi => ?_⟩⟩
    dsimp only
    exact (fullReport_tells s hd (.inr hroom) i hi).2

end Sys2Proof.Machine
end

section
/-! Every command answers a next state, leaves the queue of waiting commands alone, and is held off by RESETn low unless
it is a pin's own: R179. -/

namespace Sys2Proof.Machine

/-! ### Operations that leave the waiting commands alone -/

@[simp] theorem compareReports_pending (s : State) : s.compareReports.pending = s.pending :=
  (compareReports_kept s).pending
@[simp] theorem fullReport_pending (s : State) : s.fullReport.pending = s.pending := (fullReport_kept s).pending
@[simp] theorem endEvent_pending (s0 s1 : State) : (s0.endEvent s1).pending = s1.pending :=
  (endEvent_kept s0 s1).pending
@[simp] theorem follow_pending (s0 s1 : State) : (s0.follow s1).pending = s1.pending := (follow_kept s0 s1).pending
@[simp] theorem abandon_pending (s : State) (i : ShelfIx) : (s.abandon i).pending = s.pending :=
  (abandon_kept s i).pending
@[simp] theorem loseCurrent_pending (s : State) (i : ShelfIx) : (s.loseCurrent i).pending = s.pending :=
  (loseCurrent_kept s i).pending
@[simp] theorem moveToTarget_pending (s : State) (hard : Bool) (i : ShelfIx) :
    (s.moveToTarget hard i).pending = s.pending := (moveToTarget_kept s hard i).pending
@[simp] theorem offerSn_pending (s : State) (i : ShelfIx) (p n : Option RefIx) (c : Cause) (h : Bool) :
    (s.offerSn i p n c h).pending = s.pending := (offerSn_kept s i p n c h).pending
@[simp] theorem offerSq_pending (s : State) (i : ShelfIx) : (s.offerSq i).pending = s.pending :=
  (offerSq_kept s i).pending
@[simp] theorem releaseSwitch_pending (s : State) (i : ShelfIx) : (s.releaseSwitch i).pending = s.pending :=
  (releaseSwitch_kept s i).pending
@[simp] theorem outcome_pending (s : State) (i : ShelfIx) (c : Command) (t : Option RefIx) :
    (s.outcome i c t).pending = s.pending := (outcome_kept s i c t).pending
@[simp] theorem putRef_pending (s : State) (r : RefIx) (x : Reference) : (s.putRef r x).pending = s.pending :=
  (putRef_kept s r x).pending
@[simp] theorem setTable_pending (s : State) (d : Dialect) (x : XlateTable) : (s.setTable d x).pending = s.pending := by
  cases d <;> rfl

@[simp] theorem settleExpired_pending (s : State) (i : ShelfIx) : (s.settleExpired i).pending = s.pending := by
  have hdecided : (s.decideShelf i).pending = s.pending := by
    unfold State.decideShelf
    dsimp only
    split <;> simp
  unfold State.settleExpired
  split
  · split
    · rfl
    · split
      · exact hdecided
      · rfl
  all_goals rfl

@[simp] theorem engineEnds_pending (s : State) (hard : Bool) (e : EngineIx) (g : Nat) :
    (s.engineEnds hard e g).pending = s.pending := by
  unfold State.engineEnds
  split
  · rfl
  · split
    · simp
    · rfl

@[simp] theorem limitExpired_pending (s : State) (e : EngineIx) (g : Nat) :
    (s.limitExpired e g).pending = s.pending := by
  unfold State.limitExpired
  split
  · exact engineEnds_pending s true e g
  · rfl

@[simp] theorem refreshExpired_pending (s : State) : s.refreshExpired.pending = s.pending := by
  unfold State.refreshExpired
  split
  · simp
  · rfl

@[simp] theorem enterFloating_pending (s : State) : s.enterFloating.pending = s.pending := by
  unfold State.enterFloating
  split <;> rfl

@[simp] theorem writeShelf_pending (s : State) (i : ShelfIx) (cfg : ShelfConfig) :
    (s.writeShelf i cfg).pending = s.pending := by
  unfold State.writeShelf
  dsimp only
  split <;> simp

@[simp] theorem writeList_pending (s : State) (i : ShelfIx) (l : List Candidate) :
    (s.writeList i l).pending = s.pending := by
  have htarget : ∀ u : State, (u.candTarget i).pending = u.pending := fun u => by
    unfold State.candTarget
    split
    · split <;> simp
    · rfl
  have hcurrent : ∀ u : State, (u.candCurrent i).pending = u.pending := fun u => by
    unfold State.candCurrent
    split
    · split <;> simp
    · rfl
  unfold State.writeList
  simp [hcurrent, htarget]

@[simp] theorem enableShelf_pending (s : State) (i : ShelfIx) : (s.enableShelf i).pending = s.pending := by
  unfold State.enableShelf
  simp

@[simp] theorem disableShelf_pending (s : State) (i : ShelfIx) : (s.disableShelf i).pending = s.pending := by
  have hclosed : (s.closeShelf i).pending = s.pending := by
    unfold State.closeShelf
    dsimp only
    split <;> simp
  unfold State.disableShelf
  simp [hclosed]

@[simp] theorem changeLockout_pending (s : State) (i : ShelfIx) (r : RefIx) (on : Bool) :
    (s.changeLockout i r on).pending = s.pending := by
  unfold State.changeLockout
  dsimp only
  split <;> simp

@[simp] theorem warmRestart_pending (s : State) : s.warmRestart.pending = s.pending := by
  unfold State.warmRestart
  simp

/-! ### Requests and the Frame Handler -/

theorem run_pending (q : Request) (args : List Byte) (s : State) : (q.run args s).state.pending = s.pending := by
  cases q <;> dsimp only [Request.run]
  case rdRef => unfold reqRdRef; (repeat' split) <;> rfl
  case rdShelf => unfold reqRdShelf; (repeat' split) <;> rfl
  case rdXlate => unfold reqRdXlate; (repeat' split) <;> rfl
  case rdGlobal => unfold reqRdGlobal; split <;> rfl
  case rdCount => unfold reqRdCount; split <;> rfl
  case wrRef => unfold reqWrRef; (repeat' split) <;> simp [Answer.refuse]
  case wrShelf => unfold reqWrShelf; (repeat' split) <;> simp [Answer.ok, Answer.refuse]
  case wrCand => unfold reqWrCand; (repeat' split) <;> simp [Answer.ok, Answer.refuse]
  case wrXlate => unfold reqWrXlate; (repeat' split) <;> simp [Answer.ok, Answer.refuse]
  case wrGlobal => unfold reqWrGlobal; (repeat' split) <;> rfl
  case refOn => unfold reqRefOn; (repeat' split) <;> simp [Answer.ok, Answer.refuse]
  case refOff => unfold reqRefOff; (repeat' split) <;> simp [Answer.ok, Answer.refuse]
  case shelfOn => unfold reqShelfOn; (repeat' split) <;> simp [Answer.ok, Answer.refuse]
  case shelfOff => unfold reqShelfOff; (repeat' split) <;> simp [Answer.ok, Answer.refuse]
  case cmd => unfold reqCmd; (repeat' split) <;> rfl
  case lock => unfold reqLock; (repeat' split) <;> simp [Answer.ok, Answer.refuse]
  case clrWtr => unfold reqClrWtr; (repeat' split) <;> simp [Answer.ok, Answer.refuse]
  case ack => unfold reqAck; (repeat' split) <;> rfl
  case clrCount => unfold reqClrCount; split <;> rfl
  case restart => unfold reqRestart; split <;> simp [Answer.ok, Answer.refuse]
  case takeRole => unfold reqTakeRole; (repeat' split) <;> simp [Answer.ok, Answer.refuse]
  case yieldRole => unfold reqYieldRole; split <;> simp [Answer.ok, Answer.refuse]

theorem execute_pending (s : State) (src : Byte) (payload : List Byte) :
    (s.execute src payload).state.pending = s.pending := by
  unfold State.execute
  split
  · split
    · rfl
    · split
      · rfl
      · exact run_pending _ _ s
  · rfl

theorem takeRequest_pending (s : State) (f : Frame) : (s.takeRequest f).pending = s.pending :=
  execute_pending (s.dropHead.pushInsert .reserved) f.src f.payload

theorem offerRx_pending (s : State) (f : Frame) : (s.offerRx f).pending = s.pending := by
  unfold State.offerRx
  split <;> rfl

theorem frameArrives_pending (s : State) : s.frameArrives.pending = s.pending := by
  unfold State.frameArrives
  split
  · rename_i l n e _
    cases testFrame l n e with
    | badFormat => rfl
    | badCheck => rfl
    | passed f => exact offerRx_pending _ f
  · rfl
  · rfl

theorem takeEntry_pending (src : Byte) (s : State) (e : QaEntry) : (State.takeEntry src s e).pending = s.pending := by
  unfold State.takeEntry
  split <;> rfl

theorem passFrame_pending (s : State) (f : Frame) : (s.passFrame f).pending = s.pending := by
  have hrelayed : (s.relay f).pending = s.pending := by
    unfold State.relay
    split
    · rfl
    · split <;> rfl
  have htaken : ∀ (u : State) (l : List QaEntry), (l.foldl (State.takeEntry f.src) u).pending = u.pending :=
    fun u l => foldl_induct _ (fun b e h => (takeEntry_pending f.src b e).trans h) l u rfl
  unfold State.passFrame State.handOff State.announce
  dsimp only
  split
  · split
    · rw [endEvent_pending, follow_pending, htaken, hrelayed]
    · exact hrelayed
  · exact hrelayed

theorem takeHead_pending (s : State) : s.takeHead.pending = s.pending := by
  unfold State.takeHead
  split
  · rfl
  · split
    · rfl
    · split
      · split
        · split
          · exact takeRequest_pending s _
          · rfl
        · rfl
      · exact passFrame_pending s.dropHead _

theorem submit_pending (s : State) (src : Byte) (payload : List Byte) : (s.submit src payload).pending = s.pending := by
  unfold State.submit
  split
  · split
    · exact (takeHead_pending _).trans (offerRx_pending s _)
    · exact offerRx_pending s _
  · rfl

/-! ### Every command -/

/-- A command of no pin is one operation, held off while RESETn is low, that leaves the waiting commands alone. -/
theorem exec_running {c : Instr} (hassert : c ≠ .resetAssert) (hrelease : ∀ straps, c ≠ .resetRelease straps)
    (hfalling : c ≠ .roleFallingEdge) (hrising : c ≠ .roleRisingEdge) :
    ∃ f : State → State, ∀ s, exec c s = s.running f ∧ (f s).pending = s.pending := by
  cases c with
  | resetAssert => exact absurd rfl hassert
  | resetRelease straps => exact absurd rfl (hrelease straps)
  | roleFallingEdge => exact absurd rfl hfalling
  | roleRisingEdge => exact absurd rfl hrising
  | frameArrival => exact ⟨State.frameArrives, fun s => ⟨rfl, frameArrives_pending s⟩⟩
  | frameTake => exact ⟨State.takeHead, fun s => ⟨rfl, takeHead_pending s⟩⟩
  | transmissionStart => exact ⟨fun s => s.updRing Ring.startSending, fun _ => ⟨rfl, rfl⟩⟩
  | transmissionEnd => exact ⟨fun s => s.updRing Ring.endSending, fun _ => ⟨rfl, rfl⟩⟩
  | receiverReady levels =>
    exact ⟨fun s => s.updRing fun g => { g with receiver := levels.foldl Receiver.bit g.receiver },
      fun _ => ⟨rfl, rfl⟩⟩
  | octetTaken octet stop =>
    exact ⟨fun s => s.updRing fun g => { g with receiver := g.receiver.octet octet stop }, fun _ => ⟨rfl, rfl⟩⟩
  | comparisonPulse r cycles ticks =>
    exact ⟨fun s => s.putRef r ((s.ref r).clockIn cycles ticks), fun s => ⟨rfl, putRef_pending s r _⟩⟩
  | activityWatchExpiry r => exact ⟨fun s => s.putRef r (s.ref r).watchExpired, fun s => ⟨rfl, putRef_pending s r _⟩⟩
  | holdOffExpiry r => exact ⟨fun s => s.putRef r (s.ref r).holdOffExpired, fun s => ⟨rfl, putRef_pending s r _⟩⟩
  | restoreWaitExpiry r => exact ⟨fun s => s.putRef r (s.ref r).restoreExpired, fun s => ⟨rfl, putRef_pending s r _⟩⟩
  | decayExpiry r => exact ⟨fun s => s.setRef r (s.ref r).decayExpired, fun _ => ⟨rfl, rfl⟩⟩
  | announcementTimerExpiry r =>
    exact ⟨fun s => s.putRef r (s.ref r).announceExpired, fun s => ⟨rfl, putRef_pending s r _⟩⟩
  | settleTimerExpiry i => exact ⟨fun s => s.endEvent (s.settleExpired i), fun s => ⟨rfl, by simp⟩⟩
  | engineDone e g => exact ⟨fun s => s.engineEnds false e g, fun s => ⟨rfl, engineEnds_pending s false e g⟩⟩
  | alignmentLimitExpiry e g => exact ⟨fun s => s.limitExpired e g, fun s => ⟨rfl, limitExpired_pending s e g⟩⟩
  | holdoverPhaseExpiry i =>
    exact ⟨fun s => s.endEvent (s.follow (s.updShelf i Shelf.nextStage)), fun s => ⟨rfl, by simp⟩⟩
  | refreshExpiry => exact ⟨State.refreshExpired, fun s => ⟨rfl, refreshExpired_pending s⟩⟩
  | _ => exact ⟨fun s => s.submit _ _, fun s => ⟨rfl, submit_pending s _ _⟩⟩

/-- Settles O2: the pins' four commands one by one, and every other command by `exec_running`. -/
theorem everyCommandAnswersANextState : Obligations.EveryCommandAnswersANextState := by
  refine ⟨fun c s => ?_, fun c s hlow hassert hrelease hfalling hrising => ?_⟩
  · by_cases hassert : c = .resetAssert
    · exact hassert ▸ ⟨_, rfl, rfl⟩
    by_cases hfalling : c = .roleFallingEdge
    · exact hfalling ▸ ⟨_, rfl, enterFloating_pending _⟩
    by_cases hrising : c = .roleRisingEdge
    · exact hrising ▸ ⟨_, rfl, rfl⟩
    by_cases hrelease : ∃ straps, c = .resetRelease straps
    · obtain ⟨straps, rfl⟩ := hrelease
      exact ⟨_, rfl, by split <;> rfl⟩
    · obtain ⟨f, hf⟩ := exec_running hassert (not_exists.mp hrelease) hfalling hrising
      obtain ⟨hexec, hpending⟩ := hf s
      refine ⟨_, hexec, ?_⟩
      split
      · exact hpending
      · rfl
  · obtain ⟨f, hf⟩ := exec_running hassert hrelease hfalling hrising
    rw [(hf s).1, running_low hlow]

end Sys2Proof.Machine
end

section
/-! The tests that every request meets, in their order: R169 to R171. -/

namespace Sys2Proof.Machine

/-! ### The code and the tag that a reply echoes -/

theorem replyHead_eq (payload : List Byte) : replyHead payload = [payload.getD 0 0, payload.getD 1 0] := by
  cases payload with
  | nil => rfl
  | cons code rest => cases rest <;> rfl

/-- A ready part answers a payload that it refuses with the status, and does nothing else: R169. -/
theorem exec_refusedPayload {c : Instr} {s : State} {src : Byte} {payload : List Byte} (st : Status)
    (hc : requestSent c = some (src, payload)) (h : s.readyFor src) (hl : payload.length ≤ 88)
    (hx : (s.pushInsert .reserved).execute src payload = .refuse st (s.pushInsert .reserved)) :
    exec c s = .next (s.withReply (s.replyFrame src (payload.getD 0 0) (payload.getD 1 0) st.octet [])) := by
  rw [exec_request hc h.1, submit_refused h payload hl st hx, replyHead_eq]
  rfl

/-! ### The codes -/

theorem knownRequestCodes_eq : knownRequestCodes = allRequests.map Request.code := rfl

theorem mem_allRequests (q : Request) : q ∈ allRequests := by cases q <;> decide

theorem mem_knownRequestCodes {code : Byte} : code ∈ knownRequestCodes ↔ ∃ q : Request, q.code = code := by
  rw [knownRequestCodes_eq, List.mem_map]
  exact exists_congr fun q => and_iff_right (mem_allRequests q)

theorem requestOf_unknown {code : Byte} (h : code ∉ knownRequestCodes) : requestOf code = none :=
  List.find?_eq_none.mpr fun q _ hq => h (mem_knownRequestCodes.mpr ⟨q, beq_iff_eq.mp hq⟩)

/-- R170: the reads are the codes up to 5. -/
theorem isRead_iff (q : Request) : q.isRead = true ↔ q.code.toNat ≤ 5 := by cases q <;> decide

/-! ### Test 1 -/

theorem execute_short (s : State) (src : Byte) {payload : List Byte} (h : payload.length < 2) :
    s.execute src payload = .refuse .badreq s := by
  match payload, h with
  | [], _ => rfl
  | [_], _ => rfl

theorem execute_unknown (s : State) (src tag : Byte) (args : List Byte) {code : Byte} (h : code ∉ knownRequestCodes) :
    s.execute src (code :: tag :: args) = .refuse .badreq s := by
  unfold State.execute
  dsimp only
  rw [requestOf_unknown h]

/-! ### Test 3 -/

theorem argumentLengths_known : ∀ p ∈ argumentLengths, p.1 ∈ knownRequestCodes := by decide

/-- A request whose arguments are not of the length of its code: the length is the only thing that is looked at. -/
theorem run_length (q : Request) {n : Nat} (hq : (q.code, n) ∈ argumentLengths) {args : List Byte}
    (hl : args.length ≠ n) (s : State) : q.run args s = .refuse .badreq s := by
  cases q
  case rdRef | rdShelf | rdXlate | refOn | refOff | shelfOn | shelfOff | clrWtr =>
    obtain rfl : n = 1 := by simpa [argumentLengths, Request.code] using hq
    dsimp only [Request.run, reqRdRef, reqRdShelf, reqRdXlate, reqRefOn, reqRefOff, reqShelfOn, reqShelfOff, reqClrWtr]
    split
    · exact absurd rfl hl
    · rfl
  case rdGlobal | rdCount | clrCount | restart | takeRole | yieldRole =>
    obtain rfl : n = 0 := by simpa [argumentLengths, Request.code] using hq
    dsimp only [Request.run, reqRdGlobal, reqRdCount, reqClrCount, reqRestart, reqTakeRole, reqYieldRole]
    split
    · exact absurd rfl hl
    · rfl
  case cmd | lock | ack =>
    obtain rfl : n = 3 := by simpa [argumentLengths, Request.code] using hq
    dsimp only [Request.run, reqCmd, reqLock, reqAck]
    split
    · exact absurd rfl hl
    · rfl
  case wrGlobal =>
    obtain rfl : n = 6 := by simpa [argumentLengths, Request.code] using hq
    dsimp only [Request.run, reqWrGlobal]
    split
    · exact absurd rfl hl
    · rfl
  case wrRef | wrShelf | wrXlate =>
    dsimp only [Request.run, reqWrRef, reqWrShelf, reqWrXlate]
    split
    · rfl
    · refine if_neg fun hrest => hl ?_
      simpa [argumentLengths, Request.code, hrest, eq_comm] using hq
  case wrCand => simp [argumentLengths, Request.code] at hq

/-- R91: the length of WR-CAND's arguments is given by their second octet. -/
theorem run_wrCand_length {args : List Byte} (h : args.length < 2 ∨ args.length ≠ 2 + 2 * (args.getD 1 0).toNat)
    (s : State) : Request.wrCand.run args s = .refuse .badreq s := by
  match args, h with
  | [], _ => rfl
  | [_], _ => rfl
  | a :: n :: rest, h =>
    have hrest : rest.length ≠ 2 * n.toNat := by
      simp only [List.length_cons, List.getD_cons_succ, List.getD_cons_zero] at h
      omega
    exact if_neg hrest

/-- Settles O41, test by test in the order of R171. -/
theorem requestsAreRefusedInOrder : Obligations.RequestsAreRefusedInOrder := by
  intro s c src payload h hl hc
  refine ⟨fun hshort => exec_refusedPayload .badreq hc h hl (execute_short _ src hshort), ?_⟩
  rintro code tag args rfl
  have hargs : args.length ≤ 86 := Nat.le_of_add_le_add_right (b := 2) hl
  refine ⟨fun hunknown => ?_, fun hknown hwrite hdenied => ?_, fun n hn hpasses hlen => ?_, fun hcand ha hlen => ?_⟩
  · exact exec_refusedPayload .badreq hc h hl (execute_unknown _ src tag args hunknown)
  · obtain ⟨q, rfl⟩ := mem_knownRequestCodes.mp hknown
    have hread : q.isRead = false := Bool.eq_false_iff.mpr fun hr => Nat.not_le.mpr hwrite ((isRead_iff q).mp hr)
    exact exec_denied q hc h hread hdenied hargs
  · obtain ⟨q, rfl⟩ : ∃ q : Request, q.code = code := mem_knownRequestCodes.mp (argumentLengths_known _ hn)
    exact exec_refused q hc h (hpasses.imp_left (isRead_iff q).mpr) hargs .badreq (run_length q hn hlen _)
  · subst hcand
    exact exec_refused .wrCand hc h (.inr ha) hargs .badreq (run_wrCand_length hlen _)

end Sys2Proof.Machine
end

section
/-! The five reads: R173. -/

namespace Sys2Proof.Machine

/-! ### The requests' own tests -/

section
variable (s : State)

theorem run_rdRef_index (r : RefIx) : Request.rdRef.run [indexOctet r] s = .give (s.refReport r) s := by
  dsimp only [Request.run, reqRdRef]
  rw [readIx_indexOctet (by decide)]

theorem run_rdShelf_index (i : ShelfIx) : Request.rdShelf.run [indexOctet i] s = .give (s.shelfReport i) s := by
  dsimp only [Request.run, reqRdShelf]
  rw [readIx_indexOctet (by decide)]

theorem run_rdXlate_octet (d : Dialect) :
    Request.rdXlate.run [d.octet] s = .give (tableReport d (s.table d)) s := by
  dsimp only [Request.run, reqRdXlate]
  rw [readDialect_octet]

theorem run_rdRef_range {b : Byte} (h : 31 < b.toNat) : Request.rdRef.run [b] s = .refuse .range s := by
  dsimp only [Request.run, reqRdRef]
  rw [readIx_none h]

theorem run_rdShelf_range {b : Byte} (h : 23 < b.toNat) : Request.rdShelf.run [b] s = .refuse .range s := by
  dsimp only [Request.run, reqRdShelf]
  rw [readIx_none h]

theorem run_rdXlate_range {b : Byte} (h1 : b.toNat ≠ 1) (h2 : b.toNat ≠ 2) :
    Request.rdXlate.run [b] s = .refuse .range s := by
  dsimp only [Request.run, reqRdXlate]
  rw [readDialect_none ⟨fun h => h1 (congrArg BitVec.toNat h), fun h => h2 (congrArg BitVec.toNat h)⟩]

/-! ### What a report reads -/

/-- Octet 6 of RD-GLOBAL: the drive state, ROLE and ALARM. -/
theorem globalReport_eq : s.globalReport =
    [s.globals.controller, s.ring.station, BitVec.ofNat 8 s.globals.refreshInterval,
      BitVec.ofNat 8 s.globals.announceTimeout, BitVec.ofNat 8 s.globals.alignLimit, s.ring.hopLimit,
      BitVec.ofNat 8 ((if s.drive = .driving then 1 else 0) + (if s.role then 2 else 0)
        + (if s.alarm then 4 else 0))] := by
  have hbits : bitsOctet [s.drive == .driving, s.role, s.alarm] = BitVec.ofNat 8
      ((if s.drive = .driving then 1 else 0) + (if s.role then 2 else 0) + (if s.alarm then 4 else 0)) := by
    cases s.drive <;> cases s.role <;> cases s.alarm <;> rfl
  rw [State.globalReport, hbits]

/-- The counters in the order of R39, two octets each. -/
theorem counters_report_eq (c : Counters) : c.report =
    octets 2 c.rxDrop.toNat ++ octets 2 c.check.toNat ++ octets 2 c.format.toNat ++ octets 2 c.relayDrop.toNat
      ++ octets 2 c.ttlExp.toNat ++ octets 2 c.entryRef.toNat ++ octets 2 c.noticeLost.toNat := by
  simp [Counters.report]

/-- The entry reserved for the reply stands in no report. -/
theorem pushInsert_reports (e : InsertEntry) : (∀ r, (s.pushInsert e).refReport r = s.refReport r)
    ∧ (∀ i, (s.pushInsert e).shelfReport i = s.shelfReport i)
    ∧ (∀ d, tableReport d ((s.pushInsert e).table d) = tableReport d (s.table d))
    ∧ (s.pushInsert e).globalReport = s.globalReport := by
  have htables := pushInsert_sameTables s e
  have hdialects : ∀ d, (s.pushInsert e).table d = s.table d := (pushInsert_kept s e).table
  refine ⟨htables.refReport, htables.shelfReport hdialects, fun d => by rw [hdialects], ?_⟩
  unfold State.globalReport
  rw [htables.alarm rfl]
  rfl

end

/-! ### The obligation -/

/-- A ready part answers a read from every SRC with its results, and does nothing else: R170. -/
theorem exec_read {c : Instr} {s : State} {src tag : Byte} {args : List Byte} (q : Request)
    (hc : requestSent c = some (src, q.code :: tag :: args)) (h : s.readyFor src) (hq : q.isRead = true)
    (hl : args.length ≤ 86) {results : List Byte}
    (hrun : q.run args (s.pushInsert .reserved) = .give results (s.pushInsert .reserved)) :
    exec c s = .next (s.withReply (s.replyFrame src q.code tag 0x00 results)) :=
  exec_answered q hc h (.inl hq) hl .ok results hrun

/-- Settles O42: each read gives its report of the part with the entry of its reply reserved, which is that of the part
itself. -/
theorem readsReportAndChangeNothing : Obligations.ReadsReportAndChangeNothing := by
  intro s src tag h
  obtain ⟨href, hshelf, htable, hglobal⟩ := pushInsert_reports s .reserved
  refine ⟨fun r => ?_, fun i => ?_, fun d => ?_, ?_, ?_, fun b hb => ?_, fun b hb => ?_, fun b h1 h2 => ?_⟩
  · exact exec_read .rdRef rfl h rfl (by simp) ((run_rdRef_index _ r).trans (by rw [href]))
  · exact exec_read .rdShelf rfl h rfl (by simp) ((run_rdShelf_index _ i).trans (by rw [hshelf]))
  · exact exec_read .rdXlate rfl h rfl (by simp) ((run_rdXlate_octet _ d).trans (by rw [htable]))
  · refine exec_read .rdGlobal rfl h rfl (by simp) ?_
    rw [← globalReport_eq, ← hglobal]
    rfl
  · refine exec_read .rdCount rfl h rfl (by simp) ?_
    rw [← counters_report_eq]
    rfl
  · exact exec_refused .rdRef rfl h (.inl rfl) (by simp) .range (run_rdRef_range _ hb)
  · exact exec_refused .rdShelf rfl h (.inl rfl) (by simp) .range (run_rdShelf_range _ hb)
  · exact exec_refused .rdXlate rfl h (.inl rfl) (by simp) .range (run_rdXlate_range _ h1 h2)

end Sys2Proof.Machine
end

section
/-! WR-GLOBAL, ACK and CLR-COUNT: R172, R174, R175. -/

namespace Sys2Proof.Machine

/-! ### A request that is answered with the header of the state it leaves -/

/-- The reply in the entry reserved behind a queue that holds no other, with its status and results. -/
theorem placed_answered {u : State} (h : InsertEntry.reserved ∉ u.ring.insertQ) (st : Status) (results : List Byte)
    (src code tag : Byte) (args : List Byte) :
    Answer.placed { status := st, results := results, state := u.pushInsert .reserved } src (code :: tag :: args) =
      u.withReply (u.replyFrame src code tag st.octet results) := by
  unfold Answer.placed State.withReply
  simp only [State.pushInsert, State.updRing]
  rw [fillReserved_append _ _ _ h]
  rfl

/-- What a ready part does with a request that makes `u` of it and leaves its Insert Queue to the reply: R33, R169. -/
theorem exec_becomes {c : Instr} {s u : State} {src tag : Byte} {args : List Byte} {st : Status} {results : List Byte}
    (q : Request) (hc : requestSent c = some (src, q.code :: tag :: args)) (h : s.readyFor src) (ha : s.admits src)
    (hl : args.length ≤ 86) (hu : u.ring.insertQ = s.ring.insertQ)
    (hrun : q.run args (s.pushInsert .reserved) =
      { status := st, results := results, state := u.pushInsert .reserved }) :
    exec c s = .next (u.withReply (u.replyFrame src q.code tag st.octet results)) := by
  have ⟨_, _, _, hreserved, _⟩ := h
  rw [exec_taken q hc h (.inr ha) hl, hrun, placed_answered (by rwa [hu])]

/-! ### WR-GLOBAL -/

section
variable (s : State) (ctl station refresh announce align hop : Byte)

/-- The part with the six settings of WR-GLOBAL written, the four magnitudes clamped. -/
def State.withSettings : State :=
  { s with
    globals := {
      controller := ctl, refreshInterval := clampNat 1 10 refresh.toNat, announceTimeout := clampNat 1 15 announce.toNat
      alignLimit := clampNat 2 30 align.toNat }
    ring := { s.ring with station := station, hopLimit := BitVec.ofNat 8 (clampNat 1 63 hop.toNat) } }

variable {ctl station}

theorem run_wrGlobal_range (hbad : ctl = 0xFF ∨ station = 0 ∨ station = 0xFF) :
    Request.wrGlobal.run [ctl, station, refresh, announce, align, hop] s = .refuse .range s := if_pos hbad

/-- The four magnitudes of WR-GLOBAL stand in their ranges. -/
def settingsInRange : Prop :=
  1 ≤ refresh.toNat ∧ refresh.toNat ≤ 10 ∧ 1 ≤ announce.toNat ∧ announce.toNat ≤ 15
    ∧ 2 ≤ align.toNat ∧ align.toNat ≤ 30 ∧ 1 ≤ hop.toNat ∧ hop.toNat ≤ 63

variable {refresh announce align hop}

/-- R171: a magnitude outside its range is clamped. -/
theorem settings_clamped_iff : (clampNat 1 10 refresh.toNat != refresh.toNat
      || clampNat 1 15 announce.toNat != announce.toNat || clampNat 2 30 align.toNat != align.toNat
      || clampNat 1 63 hop.toNat != hop.toNat) = true ↔ ¬settingsInRange refresh announce align hop := by
  simp only [Bool.or_eq_true, bne_iff_ne, clampNat, settingsInRange]
  omega

variable (hctl : ctl ≠ 0xFF) (hzero : station ≠ 0) (hall : station ≠ 0xFF)
include hctl hzero hall

theorem run_wrGlobal_inRange (h : settingsInRange refresh announce align hop) :
    Request.wrGlobal.run [ctl, station, refresh, announce, align, hop] s =
      { status := .ok, results := [], state := s.withSettings ctl station refresh announce align hop } := by
  refine (if_neg (not_or.mpr ⟨hctl, not_or.mpr ⟨hzero, hall⟩⟩)).trans ?_
  rw [if_neg (mt settings_clamped_iff.mp (not_not.mpr h))]
  rfl

theorem run_wrGlobal_clamped (h : ¬settingsInRange refresh announce align hop) :
    Request.wrGlobal.run [ctl, station, refresh, announce, align, hop] s =
      { status := .clamped, results := [], state := s.withSettings ctl station refresh announce align hop } := by
  refine (if_neg (not_or.mpr ⟨hctl, not_or.mpr ⟨hzero, hall⟩⟩)).trans ?_
  rw [if_pos (settings_clamped_iff.mpr h)]
  rfl

end

/-- Settles O44: the write is one record, and its reply carries the header that the write leaves. -/
theorem wrGlobalWritesSixSettings : Obligations.WrGlobalWritesSixSettings := by
  intro s src tag ctl station refresh announce align hop h ha c u inRange
  refine ⟨fun hbad => ?_, fun hctl hzero hall hin => ?_, fun hctl hzero hall hout => ?_⟩
  · exact exec_refused .wrGlobal rfl h (.inr ha) (by simp) .range (run_wrGlobal_range _ _ _ _ _ hbad)
  · exact exec_becomes (u := u) .wrGlobal rfl h ha (by simp) rfl (run_wrGlobal_inRange _ hctl hzero hall hin)
  · exact exec_becomes (u := u) .wrGlobal rfl h ha (by simp) rfl (run_wrGlobal_clamped _ hctl hzero hall hout)

/-! ### ACK -/

/-- The latches of a reference that a set names: spec/10. -/
def refLatchesOf (set : Byte) : RefLatches :=
  { los := set.getLsbD 0, freq := set.getLsbD 1, hit := set.getLsbD 2, timeout := set.getLsbD 3, fail := set.getLsbD 4 }

/-- The latches of a shelf that a set names: spec/10. -/
def shelfLatchesOf (set : Byte) : ShelfLatches :=
  { holdover := set.getLsbD 0, hard := set.getLsbD 1, loop := set.getLsbD 2, abandon := set.getLsbD 3 }

theorem RefLatches.octet_eq (l : RefLatches) : l.octet =
    BitVec.ofNat 8 (l.los.toNat + 2 * l.freq.toNat + 4 * l.hit.toNat + 8 * l.timeout.toNat + 16 * l.fail.toNat) := by
  rw [← l.octet_toNat, BitVec.ofNat_toNat, BitVec.setWidth_eq]

theorem ShelfLatches.octet_eq (l : ShelfLatches) (companion : Bool) : l.octet companion =
    BitVec.ofNat 8 (l.holdover.toNat + 2 * l.hard.toNat + 4 * l.loop.toNat + 8 * l.abandon.toNat
      + 128 * companion.toNat) := by
  rw [← l.octet_toNat, BitVec.ofNat_toNat, BitVec.setWidth_eq]

section
variable (s : State)

/-- R79, R175: the reply reads the latches as they then stand. -/
theorem run_ack_ref (r : RefIx) {set : Byte} (h : set.toNat < 32) : Request.ack.run [0, indexOctet r, set] s =
    .give [((s.ref r).rt.latches.acknowledge (s.ref r).live (refLatchesOf set)).octet]
      (s.ackRef r (refLatchesOf set)) := by
  have hset : readRefLatches set = some (refLatchesOf set) := if_pos h
  dsimp only [Request.run, reqAck]
  rw [if_pos rfl, readIx_indexOctet (by decide), hset]
  dsimp only
  rw [State.ackRef, setRef_ref_self]

/-- R100, R175: the reply reads the latches as they then stand, and the companion bit. -/
theorem run_ack_shelf (i : ShelfIx) {set : Byte} (h : set.toNat < 16) : Request.ack.run [1, indexOctet i, set] s =
    .give [((s.shelf i).latches.acknowledge (s.shelf i).live (shelfLatchesOf set)).octet (s.shelf i).loopBit]
      (s.ackShelf i (shelfLatchesOf set)) := by
  have hset : readShelfLatches set = some (shelfLatchesOf set) := if_pos h
  dsimp only [Request.run, reqAck]
  rw [if_neg (by decide), if_pos rfl, readIx_indexOctet (by decide), hset]
  dsimp only
  rw [State.ackShelf, updShelf_shelf_self]

theorem run_ack_range {kind ix set : Byte} (h : 1 < kind.toNat ∨ (kind = 0 ∧ (31 < ix.toNat ∨ 31 < set.toNat))
    ∨ (kind = 1 ∧ (23 < ix.toNat ∨ 15 < set.toNat))) : Request.ack.run [kind, ix, set] s = .refuse .range s := by
  dsimp only [Request.run, reqAck]
  rcases h with hkind | ⟨rfl, hbad⟩ | ⟨rfl, hbad⟩
  · have h0 : kind ≠ 0 := by rintro rfl; exact absurd hkind (by decide)
    have h1 : kind ≠ 1 := by rintro rfl; exact absurd hkind (by decide)
    rw [if_neg h0, if_neg h1]
  · rw [if_pos rfl]
    rcases hbad with hix | hset
    · rw [readIx_none hix]
    · rw [show readRefLatches set = none from if_neg (Nat.not_lt.mpr hset)]
      cases readIx 32 ix <;> rfl
  · rw [if_neg (by decide), if_pos rfl]
    rcases hbad with hix | hset
    · rw [readIx_none hix]
    · rw [show readShelfLatches set = none from if_neg (Nat.not_lt.mpr hset)]
      cases readIx 24 ix <;> rfl

end

/-- Settles O45: an acknowledgement replaces one record, and leaves the header of its reply. -/
theorem ackClearsWhatIsNotLive : Obligations.AckClearsWhatIsNotLive := by
  intro s src tag h ha
  refine ⟨fun r set hset => ?_, fun i set hset => ?_, fun kind ix set hbad => ?_⟩
  · intro x l
    rw [← RefLatches.octet_eq]
    exact exec_becomes (u := s.ackRef r (refLatchesOf set)) .ack rfl h ha (by simp) rfl (run_ack_ref _ r hset)
  · intro x l
    rw [← ShelfLatches.octet_eq]
    exact exec_becomes (u := s.ackShelf i (shelfLatchesOf set)) .ack rfl h ha (by simp) rfl (run_ack_shelf _ i hset)
  · exact exec_refused .ack rfl h (.inr ha) (by simp) .range (run_ack_range _ hbad)

end Sys2Proof.Machine
end

section
/-! RESTART and CLR-COUNT: R174, R177. A warm restart is a clearing of records and queues, which no report reads, and a
full report into a queue with nothing but the reply's entry, which drops no offer. -/

namespace Sys2Proof.Machine

/-! ### What a report reads -/

section
variable {s t : State} (h : SameRanks s t)
include h

theorem SameRanks.rootWithin : ∀ (n : Nat) (i : ShelfIx), t.rootWithin n i = s.rootWithin n i
  | 0, _ => rfl
  | n + 1, i => by
    unfold State.rootWithin
    rw [h.state i]
    cases (s.shelf i).state.current with
    | none => rfl
    | some c =>
      dsimp only
      rw [h.refCfg c]
      cases (s.ref c).cfg.kind with
      | announced => rfl
      | fixed => rfl
      | derived =>
        cases (s.ref c).cfg.source with
        | none => rfl
        | some j => exact SameRanks.rootWithin n j

theorem SameRanks.root (i : ShelfIx) : t.root i = s.root i := h.rootWithin 24 i

theorem SameRanks.squelch (i : ShelfIx) : t.squelch i = s.squelch i := by
  unfold State.squelch
  rw [h.root i]
  cases s.root i with
  | none => rfl
  | some r => dsimp only; rw [h.refCfg r]

/-- R161: a report reads what a rank reads and the tables of the dialects. -/
theorem SameRanks.report (hd : ∀ d, t.table d = s.table d) (i : ShelfIx) : t.report i = s.report i := by
  have hcode : t.outCode i = s.outCode i := by
    unfold State.outCode
    rw [h.shelfCfg i, hd]
    simp only [h.outRank i]
  unfold State.report
  rw [hcode, h.outRank i, h.state i, h.squelch i, h.root i]

end

/-! ### A full report with room for every offer -/

/-- The SQ of every enabled shelf of `l`, in the order of `l`. -/
def State.reportEntries (s : State) (l : List ShelfIx) : List InsertEntry :=
  (l.filter fun i => (s.shelf i).enabled).map fun i => .sq i (s.sqFrame i)

/-- `s` with the entries `q` placed at the tail of its Insert Queue, and the shelf records `v`. -/
def State.placing (s : State) (v : Vector Shelf 24) (q : List InsertEntry) : State :=
  { s with shelves := v, ring := { s.ring with insertQ := s.ring.insertQ ++ q } }

theorem placing_placing (s : State) (v w : Vector Shelf 24) (p q : List InsertEntry) :
    (s.placing v p).placing w q = s.placing w (p ++ q) := by
  unfold State.placing
  simp only [List.append_assoc]

theorem Kept.sqFrame {s t : State} (h : Kept s t) (hr : SameReports s t) (i : ShelfIx) : t.sqFrame i = s.sqFrame i := by
  unfold State.sqFrame
  rw [h.makeFrame, h.cfg, hr.report]

theorem reportEntries_cons_on {s : State} {j : ShelfIx} (h : (s.shelf j).enabled = true) (l : List ShelfIx) :
    s.reportEntries (j :: l) = [.sq j (s.sqFrame j)] ++ s.reportEntries l := by
  simp [State.reportEntries, h]

theorem reportEntries_cons_off {s : State} {j : ShelfIx} (h : (s.shelf j).enabled ≠ true) (l : List ShelfIx) :
    s.reportEntries (j :: l) = s.reportEntries l := by
  simp [State.reportEntries, h]

/-- An offer changes no report that is still to come. -/
theorem offerSq_reportEntries (s : State) (j : ShelfIx) (l : List ShelfIx) :
    (s.offerSq j).reportEntries l = s.reportEntries l := by
  have hreports := offerSq_sameReports s j
  unfold State.reportEntries
  simp only [hreports.enabled, (offerSq_kept s j).sqFrame hreports]

/-- R34: the SQ of a shelf with none waiting is placed where there is room. -/
theorem offerSq_placing {s : State} (hd : s.drive = .driving) {i : ShelfIx} (hnew : ¬∃ f, .sq i f ∈ s.ring.insertQ)
    (hroom : s.ring.insertQ.length < 32) : ∃ v, s.offerSq i = s.placing v [.sq i (s.sqFrame i)] := by
  rw [offerSq_new hd hnew, if_pos ((insertRoom_iff s).mpr hroom)]
  exact ⟨_, rfl⟩

/-- R163: a run of offers with room for all of them and no SQ of theirs waiting places each one, in order. -/
theorem offerRun_placing : ∀ (l : List ShelfIx) {s : State}, l.Nodup → s.drive = .driving →
    s.ring.insertQ.length + l.length ≤ 32 → (∀ i ∈ l, ¬∃ f, .sq i f ∈ s.ring.insertQ) →
    ∃ v, l.foldl (offerWhere fun u i => (u.shelf i).enabled) s = s.placing v (s.reportEntries l)
  | [], s, _, _, _, _ => ⟨s.shelves, by simp [State.placing, State.reportEntries]⟩
  | j :: l, s, hnodup, hd, hroom, hnew => by
    obtain ⟨hj, hnodup⟩ := List.nodup_cons.mp hnodup
    have hnewTail : ∀ i ∈ l, ¬∃ f, .sq i f ∈ s.ring.insertQ := fun i hi => hnew i (List.mem_cons_of_mem j hi)
    rw [List.length_cons] at hroom
    rw [List.foldl_cons]
    by_cases hon : (s.shelf j).enabled = true
    · have hoffer : offerWhere (fun u i => (u.shelf i).enabled) s j = s.offerSq j := if_pos hon
      obtain ⟨v, hv⟩ := offerSq_placing hd (hnew j List.mem_cons_self) (by omega)
      have hqueue : (s.offerSq j).ring.insertQ = s.ring.insertQ ++ [.sq j (s.sqFrame j)] := by rw [hv]; rfl
      have hroomTail : (s.offerSq j).ring.insertQ.length + l.length ≤ 32 := by
        rw [hqueue, List.length_append, List.length_singleton]
        omega
      obtain ⟨w, hw⟩ := offerRun_placing l hnodup ((offerSq_kept s j).drive.trans hd) hroomTail fun i hi ⟨f, hf⟩ => by
        rw [hqueue, List.mem_append, List.mem_singleton, InsertEntry.sq.injEq] at hf
        rcases hf with hf | ⟨rfl, -⟩
        · exact hnewTail i hi ⟨f, hf⟩
        · exact hj hi
      refine ⟨w, ?_⟩
      rw [hoffer, hw, offerSq_reportEntries, hv, placing_placing, reportEntries_cons_on hon]
    · have hpassed : offerWhere (fun u i => (u.shelf i).enabled) s j = s := if_neg hon
      rw [hpassed, reportEntries_cons_off hon]
      exact offerRun_placing l hnodup hd (by omega) hnewTail

/-- R163: the entries of a full report while DRIVING, and none while FLOATING. -/
def State.fullEntries (s : State) : List InsertEntry := if s.drive = .driving then s.reportEntries shelfIxs else []

theorem fullReport_placing {s : State} (hroom : s.ring.insertQ.length + 24 ≤ 32)
    (hnew : ∀ i, ¬∃ f, .sq i f ∈ s.ring.insertQ) : s.fullReport = s.placing s.fullReport.shelves s.fullEntries := by
  have hplaced : ∃ v, s.fullReport = s.placing v s.fullEntries := by
    unfold State.fullEntries
    cases hd : s.drive with
    | floating => exact ⟨s.shelves, by rw [fullReport_floating hd]; simp [State.placing]⟩
    | driving =>
      rw [if_pos rfl]
      exact offerRun_placing shelfIxs (List.nodup_finRange 24) hd (by simpa [shelfIxs] using hroom) fun i _ => hnew i
  obtain ⟨v, hv⟩ := hplaced
  rw [hv]
  rfl

/-! ### What a warm restart clears -/

/-- The part with the records cleared, the queues emptied and the reply's entry reserved: R177 up to its report. -/
@[irreducible] def State.cleared (s : State) : State :=
  ((s.updRing Ring.restarted).mapRefs Reference.restarted).mapShelves fun _ x => x.restarted

theorem warmRestart_eq (s : State) : s.warmRestart = s.cleared.fullReport := by
  rw [State.warmRestart, State.cleared]

theorem cleared_pushInsert (s : State) (e : InsertEntry) : (s.pushInsert e).cleared = s.cleared := by
  unfold State.cleared
  rfl

@[simp] theorem cleared_ref (s : State) (r : RefIx) : s.cleared.ref r = (s.ref r).restarted := by
  rw [State.cleared, mapShelves_ref, mapRefs_ref, updRing_ref]

@[simp] theorem cleared_shelf (s : State) (i : ShelfIx) : s.cleared.shelf i = (s.shelf i).restarted := by
  rw [State.cleared, mapShelves_shelf, mapRefs_shelf, updRing_shelf]

theorem cleared_eq (s : State) : s.cleared =
    { s with refs := s.cleared.refs, shelves := s.cleared.shelves, ring := s.ring.restarted } := by
  simp only [State.cleared, State.mapShelves, State.mapRefs, State.updRing]

@[simp] theorem cleared_drive (s : State) : s.cleared.drive = s.drive := by rw [cleared_eq]

@[simp] theorem cleared_insertQ (s : State) : s.cleared.ring.insertQ = [.reserved] := by rw [cleared_eq]; rfl

theorem cleared_table (s : State) (d : Dialect) : s.cleared.table d = s.table d := by
  rw [cleared_eq]
  cases d <;> rfl

theorem cleared_makeFrame (s : State) (dest type : Byte) (p : List Byte) :
    s.cleared.makeFrame dest type p = s.makeFrame dest type p := by
  rw [cleared_eq]
  rfl

/-- A mark is read from the state, the condition and the window of a shelf alone. -/
theorem mark_congr {x y : Shelf} (hcfg : y.cfg = x.cfg) (hstate : y.state = x.state) (hsel : y.sel = x.sel) :
    y.mark = { y with sel := x.mark.sel } := by
  refine (mark_eq y).trans (congrArg (fun sel => { y with sel := sel }) ?_)
  unfold Shelf.mark Shelf.enabled Shelf.switching
  rw [hcfg, hstate, hsel]
  split
  · split
    · rfl
    · exact hsel
    · split
      · exact hsel
      · rfl
  · exact hsel

/-- R84: an ACK that names every latch. -/
theorem Reference.restarted_eq (x : Reference) : x.restarted = { x with rt := { x.rt with latches := {
    los := x.rt.latches.los && x.mon.signal == .lost
    freq := x.rt.latches.freq && x.mon.qual == .outside
    hit := x.rt.latches.hit && decide (0 < x.mon.hits)
    timeout := x.rt.latches.timeout && x.qt.source == .timedOut
    fail := x.rt.latches.fail && x.rt.state == .failed } } } := by
  simp only [Reference.restarted, RefLatches.acknowledge, RefLatches.all, Reference.live, Bool.not_true, Bool.or_false]

/-- R101, R102, R113: the command is cleared, every latch acknowledged, and the shelf marked. -/
theorem Shelf.restarted_eq (x : Shelf) : x.restarted = { x with
    command := .none
    sel := x.mark.sel
    latches := {
      holdover := x.latches.holdover && x.state.cls == .holdover
      hard := false
      loop := x.latches.loop && x.loopBit
      abandon := false } } := by
  refine Eq.trans (mark_congr (x := x) rfl rfl rfl) ?_
  simp only [ShelfLatches.acknowledge, ShelfLatches.all, Shelf.live, Bool.not_true, Bool.or_false, Bool.and_false]

theorem restarted_state (x : Shelf) : x.restarted.state = x.state := by rw [Shelf.restarted_eq]

/-! ### What is reported after it -/

theorem cleared_sameRanks (s : State) : SameRanks s s.cleared := by
  refine ⟨fun r => ?_, fun r => ?_, fun i => ?_, fun i => ?_⟩
  · rw [cleared_ref]; rfl
  · rw [cleared_ref]; rfl
  · rw [cleared_shelf, Shelf.restarted_eq]
  · rw [cleared_shelf, restarted_state]

theorem cleared_report (s : State) (i : ShelfIx) : s.cleared.report i = s.report i :=
  (cleared_sameRanks s).report (cleared_table s) i

theorem cleared_enabled (s : State) (i : ShelfIx) : (s.cleared.shelf i).enabled = (s.shelf i).enabled := by
  rw [cleared_shelf, Shelf.enabled, restarted_state]
  rfl

theorem cleared_sqFrame (s : State) (i : ShelfIx) : s.cleared.sqFrame i = s.sqFrame i := by
  unfold State.sqFrame
  rw [cleared_report, (cleared_sameRanks s).shelfCfg, cleared_makeFrame]

theorem cleared_fullEntries (s : State) : s.cleared.fullEntries = s.fullEntries := by
  unfold State.fullEntries State.reportEntries
  simp only [cleared_enabled, cleared_sqFrame, cleared_drive]

/-- R177: the report of a warm restart finds the reply's entry alone, and room for every shelf behind it. -/
theorem warmRestart_placing (s : State) : s.warmRestart = s.cleared.placing s.warmRestart.shelves s.fullEntries := by
  rw [warmRestart_eq, ← cleared_fullEntries]
  exact fullReport_placing (by simp) fun i => by simp

theorem warmRestart_shelf (s : State) (i : ShelfIx) : s.warmRestart.shelf i = { (s.shelf i).restarted with
    lastReport := if s.drive = .driving ∧ (s.shelf i).enabled = true then some (s.report i)
      else (s.shelf i).lastReport } := by
  have hkeptRecord : (s.shelf i).restarted.lastReport = (s.shelf i).lastReport := by rw [Shelf.restarted_eq]
  rw [warmRestart_eq]
  cases hd : s.drive with
  | floating =>
    rw [fullReport_floating ((cleared_drive s).trans hd), cleared_shelf, if_neg (by simp), ← hkeptRecord]
  | driving =>
    rw [fullReport_told ((cleared_drive s).trans hd) (by simp), State.told, cleared_enabled, cleared_report,
      cleared_shelf, hkeptRecord]
    simp only [true_and]

/-! ### The requests -/

/-- The part with its records replaced by `refs` and `shelves`, its queues emptied, and in the Insert Queue the reply and
the report behind it. -/
def State.restartedWith (s : State) (refs : Vector Reference 32) (shelves : Vector Shelf 24) (reply : Frame) : State :=
  { s with
    refs := refs, shelves := shelves, ring := { s.ring.restarted with insertQ := .rep reply :: s.fullEntries } }

theorem restartedWith_eq (s : State) (refs : Vector Reference 32) (shelves : Vector Shelf 24) (reply : Frame) :
    s.restartedWith refs shelves reply = { s with
      refs := (s.restartedWith refs shelves reply).refs, shelves := (s.restartedWith refs shelves reply).shelves
      ring := { s.ring with
        rxQ := [], relayQ := [], counters := ⟨0, 0, 0, 0, 0, 0, 0⟩, marker := .relay
        insertQ := .rep reply :: s.fullEntries } } := rfl

theorem restartedWith_ref (s u : State) (shelves : Vector Shelf 24) (reply : Frame) (r : RefIx) :
    (s.restartedWith u.refs shelves reply).ref r = u.ref r := rfl

theorem restartedWith_shelf (s u : State) (refs : Vector Reference 32) (reply : Frame) (i : ShelfIx) :
    (s.restartedWith refs u.shelves reply).shelf i = u.shelf i := rfl

/-- What a ready part does with RESTART: the report stands behind the reply. -/
theorem exec_restart {s : State} {src : Byte} (tag : Byte) (h : s.readyFor src) (ha : s.admits src) :
    exec (.restart src tag []) s =
      .next (s.restartedWith s.cleared.refs s.warmRestart.shelves (s.replyFrame src 0x41 tag 0x00 [])) := by
  have hrun : ∀ u : State, Request.restart.run [] u = .ok u.warmRestart := fun _ => rfl
  have hsame : (s.pushInsert .reserved).warmRestart = s.warmRestart := by
    rw [warmRestart_eq, cleared_pushInsert, warmRestart_eq]
  rw [exec_taken .restart rfl h (.inr ha) (by simp), hrun, hsame, warmRestart_placing, cleared_eq]
  generalize s.warmRestart.shelves = shelves
  generalize s.cleared.refs = refs
  rfl

/-- Settles O47: the records by what is cleared, the Insert Queue by the full report into it. -/
theorem restartKeepsTheTables : Obligations.RestartKeepsTheTables := by
  intro s src tag h ha enabled told
  have hqueue : s.fullEntries = if s.drive = .driving then told else [] := rfl
  refine ⟨_, exec_restart tag h ha, ?_, fun r => ?_, fun i => ?_⟩
  · rw [← hqueue]
    exact restartedWith_eq s _ _ _
  · rw [restartedWith_ref, cleared_ref, Reference.restarted_eq]
  · rw [restartedWith_shelf, warmRestart_shelf, Shelf.restarted_eq]

/-- Settles O46: CLR-COUNT replaces the counters alone, and its refusals come before. -/
theorem clrCountClearsTheCounters : Obligations.ClrCountClearsTheCounters := by
  refine ⟨fun s src tag h => ⟨fun ha => ?_, fun ha args hargs hl => ?_, fun hdenied args hl => ?_, fun ha => ?_⟩, rfl⟩
  · exact exec_becomes (args := []) (u := s.updCounters fun _ => Counters.zero) .clrCount rfl h ha (by simp) rfl rfl
  · exact exec_refused .clrCount rfl h (.inr ha) hl .badreq
      (run_length .clrCount (n := 0) (by decide) (mt List.length_eq_zero_iff.mp hargs) _)
  · exact exec_denied .clrCount rfl h rfl hdenied hl
  · exact ⟨_, exec_restart tag h ha, rfl⟩

end Sys2Proof.Machine
end

section
/-! The shelf outputs and ALARM, RESETn, and the part after reset: R129, R146, R176, R179, R180. -/

namespace Sys2Proof.Machine

/-! ### The outputs and ALARM -/

theorem output_low {s : State} (h : s.resetn = false) (i : ShelfIx) : s.output i = .highImpedance := by
  rw [State.output, h]
  rfl

theorem RefLatches.any_iff (l : RefLatches) : l.any = true ↔ l ≠ ⟨false, false, false, false, false⟩ := by
  have hclear : l.any = false ↔ l = ⟨false, false, false, false, false⟩ := by
    cases l
    simp only [RefLatches.any, Bool.or_eq_false_iff, RefLatches.mk.injEq, and_assoc]
  rw [← Bool.not_eq_false, Ne, hclear]

theorem ShelfLatches.any_iff (l : ShelfLatches) : l.any = true ↔ l ≠ ⟨false, false, false, false⟩ := by
  have hclear : l.any = false ↔ l = ⟨false, false, false, false⟩ := by
    cases l
    simp only [ShelfLatches.any, Bool.or_eq_false_iff, ShelfLatches.mk.injEq, and_assoc]
  rw [← Bool.not_eq_false, Ne, hclear]

/-- R176. -/
theorem alarm_iff (s : State) : s.alarm = true ↔ s.resetn = true
    ∧ ((∃ r, (s.ref r).rt.latches ≠ ⟨false, false, false, false, false⟩)
      ∨ ∃ i, (s.shelf i).state ≠ .off ∧ (s.shelf i).latches ≠ ⟨false, false, false, false⟩) := by
  have href : refIxs.any (fun r => (s.ref r).rt.latches.any) = true
      ↔ ∃ r, (s.ref r).rt.latches ≠ ⟨false, false, false, false, false⟩ := by
    simp only [List.any_eq_true, refIxs, List.mem_finRange, true_and, RefLatches.any_iff]
  have hshelf : shelfIxs.any (fun i => (s.shelf i).enabled && (s.shelf i).latches.any) = true
      ↔ ∃ i, (s.shelf i).state ≠ .off ∧ (s.shelf i).latches ≠ ⟨false, false, false, false⟩ := by
    simp only [List.any_eq_true, shelfIxs, List.mem_finRange, true_and, Bool.and_eq_true, enabled_iff,
      ShelfLatches.any_iff]
  rw [State.alarm, Bool.and_eq_true, Bool.or_eq_true, href, hshelf]

/-- Settles O7: an output by RESETn, the drive state and the route, the pin by `alarm_iff`. -/
theorem outputsAndAlarm : Obligations.OutputsAndAlarm := by
  intro s
  refine ⟨fun i => ⟨fun hlow => output_low hlow i, fun hhigh hd => ?_, fun hhigh hd hroute => ?_,
    fun r hhigh hd hroute => ?_⟩, alarm_iff s⟩
  · rw [State.output, hhigh, hd]
    rfl
  · rw [State.output, hhigh, hd, hroute]
    rfl
  · rw [State.output, hhigh, hd, hroute]
    rfl

/-! ### The cold-reset content -/

section
variable (role : Bool) (grants : Nat) (pending : List Instr)

theorem cold_ref (r : RefIx) : (State.cold role grants pending).ref r = Reference.cold := by
  simp [State.ref, State.cold]

theorem cold_table (d : Dialect) : (State.cold role grants pending).table d = XlateTable.cold := by
  cases d <;> rfl

theorem cold_engine (e : EngineIx) : (State.cold role grants pending).engines[e] = none := by
  simp [State.cold]

theorem cold_alarm : (State.cold role grants pending).alarm = false :=
  Bool.eq_false_iff.mpr fun h => by cases ((alarm_iff _).mp h).1

end

theorem XlateTable.cold_entry (c : Code) : XlateTable.cold.inTable[c].valid = false
    ∧ XlateTable.cold.outTable[c] = 15 := by
  simp [XlateTable.cold]

/-- R37: the straps give the lower six bits of the station address. -/
theorem strapped_toNat (straps : BitVec 6) : (64 + straps.setWidth 8 : Byte).toNat = 64 + straps.toNat := by
  bv_omega

section
variable {s : State} (straps : BitVec 6)

/-- R180: a part whose RESETn is high sees no rising edge. -/
theorem exec_resetRelease_high (h : s.resetn = true) : exec (.resetRelease straps) s = .next s := by
  dsimp only [exec, execResetRelease]
  rw [if_pos h]

/-- R37, R180: the rising edge samples the straps, waits for an idle line and starts the refresh timer. -/
theorem exec_resetRelease_low (h : s.resetn = false) : exec (.resetRelease straps) s = .next { s with
    resetn := true
    refreshTimer := some (s.globals.refreshInterval * 250000000)
    ring := { s.ring with station := 64 + straps.setWidth 8, receiver := .waitIdle 0 } } := by
  dsimp only [exec, execResetRelease]
  rw [if_neg (Bool.eq_false_iff.mp h)]
  rfl

end

/-- Settles O4: the assertion gives `State.cold`, and the release starts the part from what it finds. -/
theorem resetAssertAndRelease : Obligations.ResetAssertAndRelease := by
  refine ⟨fun s => ⟨State.cold s.role s.grants s.pending, rfl, rfl, rfl, rfl, ?_⟩, fun straps s => ?_⟩
  · refine ⟨cold_ref _ _ _, cold_shelf _ _ _, fun d c => ?_, rfl, rfl, rfl, rfl, rfl, rfl, rfl, rfl, rfl, rfl, rfl,
      cold_engine _ _ _, rfl, rfl, rfl, cold_alarm _ _ _, output_low rfl⟩
    rw [cold_table]
    exact XlateTable.cold_entry c
  · refine ⟨exec_resetRelease_high straps, fun hlow => ?_, fun t ht => ?_⟩
    · exact ⟨_, exec_resetRelease_low straps hlow, strapped_toNat straps, rfl⟩
    · obtain rfl := Host.Outcome.next.inj ht
      rw [exec_resetRelease_low 0 rfl]
      simp only [State.reset, State.cold, Globals.cold, Nat.one_mul]
      rfl

/-! ### The part after reset -/

/-- R180: the release leaves every record as the assertion made it. -/
theorem reset_ref (r : RefIx) : State.reset.ref r = Reference.cold :=
  (ref_congr (s := State.cold false 0 []) rfl r).trans (cold_ref false 0 [] r)

theorem reset_shelf (i : ShelfIx) : State.reset.shelf i = Shelf.cold :=
  (shelf_congr (s := State.cold false 0 []) rfl i).trans (cold_shelf false 0 [] i)

theorem reset_queuesOk : State.reset.QueuesOk := by simp [State.QueuesOk, State.reset, State.cold, Ring.cold]

theorem reset_lineOk : State.reset.ring.LineOk := by simp [Ring.LineOk, State.reset, State.cold, Ring.cold]

theorem reset_driveOk : State.reset.DriveOk := by simp [State.DriveOk, State.reset, State.cold, Ring.cold]

theorem reset_settingsOk : State.reset.SettingsOk := by
  simp [State.SettingsOk, State.reset, State.cold, Ring.cold, Globals.cold, Byte.all]

/-- Settles O54: the release touches no engine, edge or record, and every record is the cold one. -/
theorem resetMeetsEveryInvariant : Obligations.ResetMeetsEveryInvariant := by
  have hinUse : State.reset.InUse := cold_inUse false 0 []
  obtain ⟨hroutes, hedges, hused⟩ := inUse_iff.mp hinUse
  refine ⟨reset_queuesOk, reset_lineOk, reset_driveOk, reset_settingsOk, cold_enginesOk false 0 [],
    cold_noCycle false 0 [], hroutes, hedges, hused, fun i => ?_, fun r => ?_⟩
  · rw [reset_shelf]
    exact Shelf.cold_recordOk
  · have ⟨hcfg, hverdict, htimers, hmon, hquality⟩ := Reference.cold_legal
    rw [reset_ref]
    exact ⟨hcfg, hverdict, htimers, hmon, hquality⟩

end Sys2Proof.Machine
end

section
/-! The step: the command at the front of the queue, and on an empty queue one MCLK tick. -/

namespace Sys2Proof.Machine

/-! ### The front of the queue -/

theorem step_front (c : Instr) (rest : List Instr) (s : State) :
    step { s with pending := c :: rest } = exec c { s with pending := rest } := rfl

/-- Settles O1: the queue's rest is the queue that the state has without the command. -/
theorem stepTakesTheFrontCommand : Obligations.StepTakesTheFrontCommand := fun c s => step_front c s.pending s

/-! ### An empty queue -/

section
variable {s : State}

theorem step_empty (hempty : s.pending = []) : step s = .next s.idleTick := by
  unfold step
  rw [hempty]

/-- R179: while RESETn is low every timer is stopped. -/
theorem idleTick_low (hlow : s.resetn = false) : s.idleTick = s := if_neg (Bool.eq_false_iff.mp hlow)

theorem idleTick_high (hhigh : s.resetn = true) : s.idleTick = s.elapse 1 := if_pos hhigh

end

/-! ### What the tick does to each part -/

/-- Ticks pass at a reference: its monitor's watch and open gate, its three timers and its announcement timer. -/
theorem Reference.elapse_eq (d : Nat) (x : Reference) : x.elapse d = { x with
    mon := { x.mon with
      watch := x.mon.watch.map (· - d)
      ticks := match x.mon.watch, x.mon.gate with
        | some w, .opened => x.mon.ticks + min d w
        | _, _ => x.mon.ticks }
    rt := { x.rt with
      holdOffTimer := x.rt.holdOffTimer.map (· - d)
      restoreTimer := x.rt.restoreTimer.map (· - d)
      decayTimer := x.rt.decayTimer.map (· - d) }
    qt := { x.qt with timer := x.qt.timer.map (· - d) } } := by
  unfold Reference.elapse
  rw [Monitor.elapse_eq]
  rfl

/-- Of a selection only a running settle timer loses ticks. -/
theorem Selection.elapse_eq (d : Nat) (x : Selection) : x.elapse d = match x with
    | .settling n => .settling (n - d)
    | other => other := by
  cases x with
  | settling n => rfl
  | clean => rfl
  | deferred => rfl

/-- Of a shelf's state only a running holdover timer loses ticks. -/
theorem ShelfState.elapse_eq (d : Nat) (x : ShelfState) : x.elapse d = match x with
    | .holdover g timer => .holdover g (timer.map (· - d))
    | other => other := by
  cases x with
  | holdover g timer => rfl
  | off => rfl
  | free => rfl
  | locked c => rfl
  | waiting c t b => rfl
  | aligning c t b => rfl

/-- Ticks pass at a shelf: its settle timer and its holdover timer. -/
theorem Shelf.elapse_eq (d : Nat) (x : Shelf) : x.elapse d = { x with
    sel := match x.sel with
      | .settling n => .settling (n - d)
      | other => other
    state := match x.state with
      | .holdover g timer => .holdover g (timer.map (· - d))
      | other => other } :=
  congrArg₂ (fun sel state => { x with sel := sel, state := state }) (Selection.elapse_eq d x.sel)
    (ShelfState.elapse_eq d x.state)

/-- Outside the records and the engines only the refresh timer and the line of STO run. -/
theorem elapse_frame (d : Nat) (s : State) : s.elapse d = { s with
    refs := (s.elapse d).refs, shelves := (s.elapse d).shelves, engines := (s.elapse d).engines
    refreshTimer := s.refreshTimer.map (· - d)
    ring := { s.ring with sendLeft := s.ring.sendLeft - d, idleLeft := s.ring.idleLeft - d } } := by
  unfold State.elapse State.mapShelves State.mapRefs
  rfl

/-- Settles O3: low by `idleTick_low`, and high the tick part by part. -/
theorem emptyQueueLetsOneTickPass : Obligations.EmptyQueueLetsOneTickPass := by
  intro s hempty
  rw [step_empty hempty]
  refine ⟨fun hlow => congrArg _ (idleTick_low hlow), fun hhigh => ⟨s.elapse 1, congrArg _ (idleTick_high hhigh),
    fun r => ?_, fun i => ?_, elapse_engine s 1, elapse_frame 1 s⟩⟩
  · exact (elapse_ref 1 s r).trans (Reference.elapse_eq 1 (s.ref r))
  · exact (elapse_shelf 1 s i).trans (Shelf.elapse_eq 1 (s.shelf i))

end Sys2Proof.Machine
end

section
/-! A REQ that is not taken in the step that brings it: R26, R28 to R30. -/

namespace Sys2Proof.Machine

/-! ### The arrival of a REQ -/

section
variable {s : State} (src : Byte) {payload : List Byte}

/-- R26: a payload above 88 octets is counted and goes no further. -/
theorem submit_tooLong (hlong : 88 < payload.length) : s.submit src payload = s.updCounters Counters.incFormat :=
  if_neg (Nat.not_le.mpr hlong)

/-- R28: behind other frames a REQ is offered to the Receive Queue and no more. -/
theorem submit_behind (hsize : payload.length ≤ 88) (hq : s.ring.rxQ ≠ []) :
    s.submit src payload = s.offerRx (s.requestFrame src payload) := by
  obtain ⟨head, rest, hcons⟩ := List.exists_cons_of_ne_nil hq
  unfold State.submit
  rw [hcons]
  exact if_pos hsize

/-- R29: the Frame Handler looks at a REQ that arrives first in the Receive Queue at once. -/
theorem submit_first (hsize : payload.length ≤ 88) (hq : s.ring.rxQ = []) :
    s.submit src payload = (s.withRx [s.requestFrame src payload]).takeHead := by
  have hroom : s.ring.rxQ.length < 16 := by simp [hq]
  have hoffer : s.offerRx (s.requestFrame src payload) = s.withRx [s.requestFrame src payload] := by
    rw [offerRx_room hroom]
    exact congrArg (fun q => s.withRx (q ++ [s.requestFrame src payload])) hq
  unfold State.submit
  rw [hoffer, hq]
  exact if_pos hsize

/-- R29: a REQ with the part's own address is stripped, and nothing of it remains. -/
theorem submit_own (hsize : payload.length ≤ 88) (hq : s.ring.rxQ = []) (hsrc : src = s.ring.station) :
    s.submit src payload = s := by
  calc s.submit src payload = (s.withRx [s.requestFrame src payload]).takeHead := submit_first src hsize hq
    _ = (s.withRx [s.requestFrame src payload]).withRx [] := takeHead_own rfl hsrc
    _ = s.withRx s.ring.rxQ := congrArg (fun q => s.withRx q) hq.symm
    _ = s := rfl

/-- R30: without reply room a REQ stays at the head of the Receive Queue. -/
theorem submit_noRoom (hsize : payload.length ≤ 88) (hq : s.ring.rxQ = []) (hsrc : src ≠ s.ring.station)
    (hfull : 32 ≤ s.ring.insertQ.length) :
    s.submit src payload = s.withRx [s.requestFrame src payload] := by
  have hroom : ¬(s.withRx [s.requestFrame src payload]).insertRoom = true :=
    Bool.eq_false_iff.mp (insertRoom_full (s := s) hfull)
  have hkept : (s.withRx [s.requestFrame src payload]).takeHead = s.withRx [s.requestFrame src payload] :=
    (takeHead_addressed rfl hsrc rfl).trans ((if_pos rfl).trans (if_neg hroom))
  exact (submit_first src hsize hq).trans hkept

end

/-- Settles O40, by what the REQ finds on its arrival. -/
theorem requestsWaitTheirTurn : Obligations.RequestsWaitTheirTurn := by
  intro s c src payload hhigh hc f
  have hsubmits : ∀ {t}, s.submit src payload = t → exec c s = .next t := by
    rintro t rfl
    exact exec_request hc hhigh
  refine ⟨fun hlong => hsubmits (submit_tooLong src hlong), fun hsize hq hroom => ?_, fun hsize hfull => ?_,
    fun hsize hq hsrc => hsubmits (submit_own src hsize hq hsrc),
    fun hsize hq hsrc hfull => hsubmits (submit_noRoom src hsize hq hsrc hfull)⟩
  · exact hsubmits ((submit_behind src hsize hq).trans (offerRx_room hroom f))
  · have hq : s.ring.rxQ ≠ [] := List.ne_nil_of_length_pos (by omega)
    exact hsubmits ((submit_behind src hsize hq).trans (offerRx_full hfull f))

end Sys2Proof.Machine
end
